-- ==== Sys2Proof/Word.lean ====
section
/-! DEFINITION. The quantities of the part that software or the line sees as words, with the widths of R120 and of the conventions of section 0.6. -/

namespace Sys2Proof

/-- One character of a frame, or one byte of a slot or header. -/
abbrev Byte := BitVec 8

/-- A sequence number (section 0.6): wraps modulo 65536. -/
abbrev Seq := BitVec 16

/-- An epoch (section 0.6): wraps modulo 256. -/
abbrev Epoch := BitVec 8

/-- A time in milliseconds: station clock or line time (R2, R120). -/
abbrev Clock := BitVec 32

/-- The code of a stroke (R1): key position `p` contributes `2^p`. -/
abbrev StrokeCode := BitVec 24

/-- A set of key positions 0..23: position `p` is in the set when bit `p` is 1. -/
abbrev KeySet := BitVec 24

/-- A station number, 0..15. -/
abbrev Station := Fin 16

end Sys2Proof
end

