-- ==== Sys2Proof/Syntax.lean ====
section
/-! DEFINITION. The commands of the part: one constructor for each row of spec/opcode_table.json, in the table's order, with the row's operands. -/

namespace Sys2Proof

/-- A contact line: one of the 24 keys or a machine button (chapter 1). -/
inductive Contact where
  | key (p : Fin 24)
  | floor
  | mark
  deriving DecidableEq, Repr

/-- The level of the courtroom line in one bit time (R100). A bit 0 is driven, a bit 1 released. -/
inductive Level where
  | driven
  | released
  deriving DecidableEq, Repr

/-- Whose completion a flash read's bytes are: the read in flight, or one that was abandoned before (R26, R34, R179). -/
inductive ReadOwner where
  | inFlight
  | abandoned
  deriving DecidableEq, Repr

/-- The commands. -/
inductive Instr where
  /-- RESET, R178. Bit `i` of `straps` is the level of STRAP`i`. -/
  | reset (straps : BitVec 4)
  /-- HEADER_READ_COMPLETE, R179: flash bytes 0..289. -/
  | headerReadComplete (owner : ReadOwner) (bytes : List Byte)
  /-- STARTUP_LIMIT_EXPIRY, R179. -/
  | startupLimitExpiry
  /-- CONTACT_CHANGE, R4: the contact's new level. -/
  | contactChange (contact : Contact) (closed : Bool)
  /-- DEBOUNCE_EXPIRY, R4. -/
  | debounceExpiry (contact : Contact)
  /-- RELEASE_WINDOW_EXPIRY, R11. -/
  | releaseWindowExpiry
  /-- MAXIMUM_STROKE_DURATION_EXPIRY, R12. -/
  | maximumStrokeDurationExpiry
  /-- STEP_BEGIN, R41. -/
  | stepBegin
  /-- SLOT_READ_COMPLETE, R27: the slot's 64 bytes. -/
  | slotReadComplete (owner : ReadOwner) (bytes : List Byte)
  /-- LOOKUP_WATCHDOG_EXPIRY, R26. -/
  | lookupWatchdogExpiry
  /-- RECOVERY_TIMER_EXPIRY, R34. -/
  | recoveryTimerExpiry
  /-- RECOVERY_READ_COMPLETE, R35: flash bytes 0..289. -/
  | recoveryReadComplete (owner : ReadOwner) (bytes : List Byte)
  /-- SETTLE_IDLE_EXPIRY, R57. -/
  | settleIdleExpiry
  /-- HUNTING_FLAG_CLEAR, R106. -/
  | huntingFlagClear
  /-- FRAME_COMPLETE, R108. -/
  | frameComplete
  /-- FRAME_BREAK_OFF, R107. -/
  | frameBreakOff
  /-- LINE_FAULT, R117. -/
  | lineFault
  /-- INTEGRATION_END, R116. -/
  | integrationEnd
  /-- TRANSMIT_BEGIN, R110. -/
  | transmitBegin
  /-- FRAME_SENT_WHOLE, R112. -/
  | frameSentWhole
  /-- LOSS_OF_ARBITRATION, R113. -/
  | lossOfArbitration
  /-- BODY_COLLISION, R114. -/
  | bodyCollision
  /-- REPLAY_GENERATION, R150. -/
  | replayGeneration
  /-- ABSENCE_TIMER_EXPIRY, R160. -/
  | absenceTimerExpiry
  /-- CLAIM_WINDOW_EXPIRY, R169. -/
  | claimWindowExpiry
  /-- PRESENCE_TIMER_EXPIRY, R175. -/
  | presenceTimerExpiry
  /-- ATTN_PULSE_EXPIRY, R182. -/
  | attnPulseExpiry
  /-- LINE_READING, R101: the level read in this bit time. -/
  | lineReading (level : Level)
  /-- CHARACTER_TAKEN_IN, R104. -/
  | characterTakenIn
  /-- STATION_CLOCK_TICK, R2. -/
  | stationClockTick
  deriving DecidableEq, Repr

end Sys2Proof
end

