-- ==== Sys2Proof/Decode.lean ====
section
/-! DEFINITION. The command a word spells. No row of spec/opcode_table.json has bits: the part has no register window (section 0.2), so no word spells a command. -/

namespace Sys2Proof

/-- No command of this part is spelled by a word (log entry 4). -/
def decodeTableWord (_nbits _w : Nat) : Option Instr :=
  none

end Sys2Proof
end

