-- ==== Sys2Proof/Config.lean ====
section
/-! DEFINITION. The fixed sizes and times of the part. The spec leaves no result open, so there is no free value here. -/

namespace Sys2Proof.Config

/-- The intake queue holds at most 32 items (R16). -/
def intakeItems : Nat := 32

/-- At most 30 of them are STROKE items (R16). -/
def intakeStrokes : Nat := 30

/-- The fault table holds at most 8 entries (R30). -/
def faultEntries : Nat := 8

/-- The consecutive timeout at which the port goes DOWN (R32). -/
def timeoutsToDown : Nat := 4

/-- The recovery timer, milliseconds (R32). -/
def recoveryTime : Nat := 1000

/-- The start-up limit, milliseconds (R179). -/
def startupLimit : Nat := 100

/-- The ATTN pulse, milliseconds (R182). -/
def attnPulse : Nat := 250

/-- The outbound queue holds at most 16 frames (R140). -/
def queuePlaces : Nat := 16

/-- A step in LIVE or HANDING begins only with this many places free (R41). -/
def stepPlaces : Nat := 3

/-- The sent ring holds at most 128 segments (R139). -/
def ringPlaces : Nat := 128

/-- The bytes of the header block (R134). -/
def headerBytes : Nat := 290

/-- The bytes of one slot (R132). -/
def slotBytes : Nat := 64

end Sys2Proof.Config
end

