-- ==== Sys2Proof/Machine/State.lean ====
section
/-! DEFINITION. The state of the part, block by block as section 0.3 and the state tables of each chapter give it, and the state after reset. Plain data throughout. -/

namespace Sys2Proof.Machine

/-- A reload timer (R3): stopped, or running with this many milliseconds left. It is due at 0. -/
abbrev Timer := Option Nat

/-! ## Start-up Loader (chapter 10) -/

/-- R178 to R181. -/
structure Startup where
  /-- The start-up header read is in flight (R179). -/
  reading : Bool
  /-- The 100 ms start-up limit (R179). -/
  limitTimer : Timer
  /-- Start-up has ended (R181). -/
  ended : Bool
  /-- The header-valid flag (R178). -/
  headerValid : Bool
  /-- The defaulted flag (R178). -/
  defaulted : Bool
  deriving DecidableEq, Repr

/-! ## Key Scanner (chapter 1) -/

/-- The debounce states of R4. The timer runs exactly in CLOSING and OPENING, so its milliseconds stand there. -/
inductive Debounce where
  | up
  | closing (left : Nat)
  | down
  | opening (left : Nat)
  deriving DecidableEq, Repr

/-- One contact line: the contact's level as it stands (the pin), and the debounce state. -/
structure Line where
  closed : Bool
  state : Debounce
  deriving DecidableEq, Repr

/-- The chord state (R7). -/
inductive ChordState where
  | idle
  | chording
  | releasing
  deriving DecidableEq, Repr

/-- R3, R4, R7, R14. -/
structure Scanner where
  keys : Vector Line 24
  floorLine : Line
  markLine : Line
  chord : ChordState
  union : KeySet
  strokeTime : Clock
  stuck : KeySet
  releaseTimer : Timer
  durationTimer : Timer
  /-- The completed-stroke count (R14). -/
  completed : BitVec 32
  debounceTime : Nat
  releaseWindow : Nat
  maxDuration : Nat
  deriving DecidableEq, Repr

/-! ## Intake Queue (chapter 1) -/

/-- The kinds of item of R16. -/
inductive ItemKind where
  | stroke (code : StrokeCode)
  | floor
  | mark
  deriving DecidableEq, Repr

/-- One item of the intake queue (R16). -/
structure Item where
  kind : ItemKind
  time : Clock
  gap : Nat
  deriving DecidableEq, Repr

/-- R16: the items, oldest first, and the two totals. -/
structure Intake where
  items : List Item
  lost : BitVec 32
  taken : BitVec 32
  deriving DecidableEq, Repr

/-! ## Dictionary Port (chapter 2) -/

/-- The read in flight (R20). -/
inductive Read where
  | none
  | slot (index : Nat)
  | recovery
  deriving DecidableEq, Repr

/-- A lookup being served by a probe (R22, R24): the candidate key and the probe step reached. -/
structure Lookup where
  key : List StrokeCode
  probe : Nat
  deriving DecidableEq, Repr

/-- R20. -/
structure Port where
  up : Bool
  timeouts : Nat
  /-- The fault table (R30): slot indexes in the order recorded. -/
  faults : List Nat
  overflow : Bool
  base : Nat
  bits : Nat
  probeLimit : Nat
  /-- The lookup watchdog setting. -/
  watchdog : Nat
  acceptedCrc : Option (BitVec 16)
  /-- The speaker label table (R36). -/
  labels : Vector (List Byte) 16
  watchdogTimer : Timer
  recoveryTimer : Timer
  read : Read
  lookup : Option Lookup
  deriving DecidableEq, Repr

/-! ## Translation Engine (chapters 3 to 5) -/

/-- The format context (R67). -/
structure Context where
  capNext : Bool
  attachPending : Bool
  glueLast : Bool
  atParaStart : Bool
  speaker : Option (Fin 16)
  deriving DecidableEq, Repr

/-- The kinds of record of R38. -/
inductive RecordKind where
  | entry
  | numeral
  | raw
  deriving DecidableEq, Repr

/-- A translation record (R38). -/
structure Record where
  strokes : List StrokeCode
  kind : RecordKind
  text : List Byte
  saved : Context
  seq : Option Seq
  degraded : Bool
  deriving DecidableEq, Repr

/-- The step mode (R43). -/
inductive Mode where
  | live
  | shadow
  deriving DecidableEq, Repr

/-- What an ordinary stroke step holds while its lookups run (R42, R47, R51, R53, R59). -/
structure Work where
  code : StrokeCode
  /-- The step's stroke time (R53). -/
  time : Clock
  /-- The gap count of its item; 0 for a stroke of the replay list. -/
  gap : Nat
  /-- The number `k` of the candidate in hand (R47). -/
  candidate : Nat
  /-- A lookup of this step has ended as a faulted miss (R51). -/
  faulted : Bool
  deriving DecidableEq, Repr

/-- R40, R67, R87. -/
structure Engine where
  tail : List Record
  context : Context
  replay : List StrokeCode
  replayTime : Clock
  /-- The step state: `none` is BETWEEN, `some` is IN STEP with a stroke step in flight. -/
  step : Option Work
  mode : Mode
  settleTimer : Timer
  settleOnEntry : Bool
  fullSettle : Bool
  refusals : Nat
  depth : Nat
  settleIdle : Nat
  deriving DecidableEq, Repr

/-! ## Frames and the Feed Unit (chapters 7 and 8) -/

/-- The contents of a segment (R139). -/
inductive SegmentBody where
  | text (chars : List Byte) (degraded : Bool)
  | mark (number : BitVec 16)
  | lost (count : Byte)
  deriving DecidableEq, Repr

/-- A segment of the feed (R139): an entry of the sent ring. -/
structure Segment where
  seq : Seq
  body : SegmentBody
  /-- In line time. -/
  time : Clock
  deriving DecidableEq, Repr

/-- A HANDOVER's fields (R125); `none` is the successor NONE. -/
structure Handover where
  epoch : Epoch
  successor : Option Station
  nextSeq : Seq
  lineTime : Clock
  deriving DecidableEq, Repr

/-- The roles of a PRESENCE (R129). -/
inductive Role where
  | live
  | standby
  | claiming
  deriving DecidableEq, Repr

/-- The epoch, next seq and boundary of a PRESENCE. -/
structure Reach where
  epoch : Epoch
  nextSeq : Seq
  boundary : Seq
  deriving DecidableEq, Repr

/-- A PRESENCE's fields (R129). -/
structure Presence where
  role : Role
  /-- `none` is NO_VIEW. -/
  reach : Option Reach
  lineTime : Clock
  lost : BitVec 16
  lineErrors : BitVec 16
  refusals : BitVec 16
  faultEntries : Byte
  down : Bool
  overflow : Bool
  defaulted : Bool
  stuck : Bool
  deriving DecidableEq, Repr

/-- A frame by its kind (R123). -/
inductive Frame where
  | handover (h : Handover)
  /-- R126: the view epoch, `none` for NO_EPOCH, and WITHDRAW. -/
  | claim (viewEpoch : Option Epoch) (withdraw : Bool)
  | cut (epoch : Epoch) (seq : Seq)
  | settle (epoch : Epoch) (boundary : Seq)
  /-- TEXT, MARK or LOST. `copy` is `none` for a live frame, and for a REPLAY copy the SETTLED flag. -/
  | segment (epoch : Epoch) (copy : Option Bool) (seg : Segment)
  /-- A waiting PRESENCE has no fields before it begins transmission (R141): `none`. -/
  | presence (fields : Option Presence)
  | rewind (fromSeq : Seq)
  | gap (epoch : Epoch) (fromSeq toSeq : Seq)
  deriving DecidableEq, Repr

/-- The frame in transmission and its withdrawal mark (R140). -/
structure Sending where
  frame : Frame
  withdrawn : Bool
  deriving DecidableEq, Repr

/-- The pending GAP (R149). -/
structure GapRun where
  fromSeq : Seq
  toSeq : Seq
  deriving DecidableEq, Repr

/-- R137. -/
structure Feed where
  /-- N. -/
  nextSeq : Seq
  /-- S. -/
  settled : Seq
  /-- W. -/
  wireNext : Seq
  tenureEpoch : Option Epoch
  ring : List Segment
  /-- The waiting frames of the outbound queue, head first (R140). -/
  waiting : List Frame
  /-- The frame in transmission, which keeps its place among the 16 (R140). -/
  sending : Option Sending
  held : Option Handover
  cursor : Option Seq
  gap : Option GapRun
  markCounter : BitVec 16
  deriving DecidableEq, Repr

/-! ## Line Interface (chapter 6) -/

/-- The line states of R103. -/
inductive LineState where
  | integrating
  | idle
  | receiving
  | transmitting
  | fault
  deriving DecidableEq, Repr

/-- The line rates of R101. -/
inductive LineRate where
  | kbit250
  | kbit500
  | kbit1000
  deriving DecidableEq, Repr

/-- R103. The frame in transmission itself stands in the outbound queue (`Feed.sending`); here is how far it has been read back. -/
structure LineInterface where
  state : LineState
  idle : Nat
  driven : Nat
  hunting : Bool
  /-- The characters of the frame in reception so far; none when empty. -/
  received : List Byte
  /-- The readings of the character being received, its start bit first. -/
  charBits : List Level
  /-- How many bits of the frame in transmission have been read back without a mismatch. -/
  readBack : Nat
  /-- The reading of the next bit was a mismatch (R111). -/
  mismatch : Bool
  collisions : Nat
  errors : Nat
  integrated : Bool
  rate : LineRate
  deriving DecidableEq, Repr

/-! ## Floor Controller (chapter 9) -/

/-- The floor states of R156. -/
inductive FloorState where
  | standby
  | claiming
  | live
  | handing
  | mute
  deriving DecidableEq, Repr

/-- The floor view (section 9.2); `live = none` is a vacant view, and `none` elsewhere is unknown. -/
structure View where
  live : Option Station
  epoch : Option Epoch
  nextSeq : Option Seq
  boundary : Option Seq
  deriving DecidableEq, Repr

/-- The claim origin (R165). -/
inductive Origin where
  | reporter
  | auto
  deriving DecidableEq, Repr

/-- The last HANDOVER offered (R156). -/
structure Offered where
  epoch : Epoch
  successor : Option Station
  nextSeq : Seq
  deriving DecidableEq, Repr

/-- R156. -/
structure Floor where
  state : FloorState
  view : View
  lineOffset : Clock
  claimant : Option Station
  origin : Option Origin
  armed : Bool
  lastOffered : Option Offered
  keptBack : Option Handover
  presenceTimer : Timer
  absenceTimer : Timer
  claimTimer : Timer
  autoClaim : Bool
  presencePeriod : Nat
  absenceTimeout : Nat
  claimWindow : Nat
  deriving DecidableEq, Repr

/-! ## The part -/

/-- The whole part, with the queue of commands that wait. -/
structure State where
  /-- The station clock (R2). -/
  clock : Clock
  /-- The station number (R178). -/
  station : Station
  startup : Startup
  scanner : Scanner
  intake : Intake
  port : Port
  engine : Engine
  feed : Feed
  line : LineInterface
  floor : Floor
  /-- The ATTN pulse timer (R182). -/
  attnTimer : Timer
  /-- The commands that wait, first in first out. -/
  pending : List Instr
  deriving DecidableEq, Repr

/-- No command of the part faults: the spec names no event that stops it (log entry 27). Safe: nothing raises one. -/
inductive Fault where
  deriving DecidableEq, Repr

/-- Why a command has no meaning. -/
inductive Refusal where
  /-- Raised only by an arm of `exec` whose command has no meaning yet; no arm raises it. Safe. -/
  | notModelled (mnemonic : String)
  deriving DecidableEq, Repr

/-! ## Reset -/

/-- A contact line as reset leaves it: not watched, so UP (R6; log entry 7), with its contact as given. -/
def Line.initial (closed : Bool) : Line :=
  { closed := closed, state := .up }

/-- The format context after reset (R67). -/
def Context.initial : Context :=
  { capNext := true, attachPending := false, glueLast := false, atParaStart := true, speaker := none }

/-- R178, R179: both flags clear, the header read started and the limit loaded. -/
def Startup.initial : Startup :=
  { reading := true, limitTimer := some Config.startupLimit, ended := false, headerValid := false, defaulted := false }

/-- R7, R14, and the defaults of R3, with the contacts as they stand. -/
def Scanner.initial (keys : Vector Line 24) (floorLine markLine : Line) : Scanner :=
  { keys := keys.map fun l => Line.initial l.closed
    floorLine := Line.initial floorLine.closed
    markLine := Line.initial markLine.closed
    chord := .idle, union := 0, strokeTime := 0, stuck := 0
    releaseTimer := none, durationTimer := none, completed := 0
    debounceTime := 3, releaseWindow := 12, maxDuration := 1500 }

/-- R16. -/
def Intake.initial : Intake :=
  { items := [], lost := 0, taken := 0 }

/-- R20, with the defaults of R135 (log entry 7). -/
def Port.initial : Port :=
  { up := true, timeouts := 0, faults := [], overflow := false
    base := 4096, bits := 14, probeLimit := 8, watchdog := 3
    acceptedCrc := none, labels := Vector.replicate 16 []
    watchdogTimer := none, recoveryTimer := none, read := .none, lookup := none }

/-- R40, R67, R87. -/
def Engine.initial : Engine :=
  { tail := [], context := Context.initial, replay := [], replayTime := 0
    step := none, mode := .shadow, settleTimer := none, settleOnEntry := false
    fullSettle := false, refusals := 0, depth := 12, settleIdle := 2000 }

/-- R137. N, S and W have no value before the first tenure: 0 here (log entry 8). -/
def Feed.initial : Feed :=
  { nextSeq := 0, settled := 0, wireNext := 0, tenureEpoch := none, ring := []
    waiting := [], sending := none, held := none, cursor := none, gap := none, markCounter := 1 }

/-- R103. -/
def LineInterface.initial : LineInterface :=
  { state := .integrating, idle := 0, driven := 0, hunting := false, received := [], charBits := []
    readBack := 0, mismatch := false, collisions := 0, errors := 0, integrated := false, rate := .kbit500 }

/-- The vacant view of R156. -/
def View.initial : View :=
  { live := none, epoch := none, nextSeq := none, boundary := none }

/-- R156. The armed flag waits for the header's AUTO_CLAIM (log entry 9). -/
def Floor.initial : Floor :=
  { state := .standby, view := View.initial, lineOffset := 0, claimant := none, origin := none
    armed := false, lastOffered := none, keptBack := none
    presenceTimer := none, absenceTimer := none, claimTimer := none
    autoClaim := false, presencePeriod := 500, absenceTimeout := 2000, claimWindow := 300 }

/-- The part right after reset, with the given station number, contacts and waiting commands (R178). -/
def State.afterReset (station : Station) (keys : Vector Line 24) (floorLine markLine : Line) (pending : List Instr) : State :=
  { clock := 0, station := station, startup := Startup.initial
    scanner := Scanner.initial keys floorLine markLine
    intake := Intake.initial, port := Port.initial, engine := Engine.initial, feed := Feed.initial
    line := LineInterface.initial, floor := Floor.initial, attnTimer := none, pending := pending }

/-- The part right after power-on reset: every strap low and every contact open (log entry 5), no command waiting. -/
def State.reset : State :=
  State.afterReset 0 (Vector.replicate 24 (Line.initial false)) (Line.initial false) (Line.initial false) []

end Sys2Proof.Machine
end

