-- ==== Sys2Proof/Machine/Ops.lean ====
section
/-! DEFINITION. The operations every block shares: the order of seqs and epochs, timers, saturating counts, key sets, the CRC, and the update of one block of the state. -/

namespace Sys2Proof.Machine

/-! ## Seqs and epochs (section 0.6) -/

/-- Seq `a` is older than seq `b`: `(b - a) mod 65536` lies in 1..32767. -/
def seqOlder (a b : Seq) : Bool :=
  decide (1 ≤ (b - a).toNat ∧ (b - a).toNat ≤ 32767)

/-- Seq `a` is newer than seq `b` when `b` is older than `a`. -/
def seqNewer (a b : Seq) : Bool :=
  seqOlder b a

/-- Epoch `e` is newer than epoch `f`: `(e - f) mod 256` lies in 1..127. -/
def epochNewer (e f : Epoch) : Bool :=
  decide (1 ≤ (e - f).toNat ∧ (e - f).toNat ≤ 127)

/-! ## Timers (R3) -/

/-- A running timer whose milliseconds have all passed. A stopped timer does not expire. -/
def Timer.due (t : Timer) : Bool :=
  t == some 0

/-- One millisecond passes: a running timer counts down and waits at 0 for its expiry (log entry 2). -/
def Timer.tick (t : Timer) : Timer :=
  t.map fun left => left - 1

/-- The debounce timer of a line counts down within CLOSING and OPENING. -/
def Debounce.tick : Debounce → Debounce
  | .up => .up
  | .closing left => .closing (left - 1)
  | .down => .down
  | .opening left => .opening (left - 1)

/-- One millisecond passes for a line's debounce timer. -/
def Line.tick (l : Line) : Line :=
  { l with state := l.state.tick }

/-! ## Counts -/

/-- A count that saturates at `limit` (section 0.6). -/
def saturate (limit n : Nat) : Nat :=
  min limit (n + 1)

/-! ## Key sets and lines -/

/-- The set that holds key `p` alone. -/
def KeySet.single (p : Fin 24) : KeySet :=
  BitVec.twoPow 24 p.val

/-- Key `p` is in the set. -/
def KeySet.has (k : KeySet) (p : Fin 24) : Bool :=
  k.getLsbD p.val

/-- The set with key `p` added. -/
def KeySet.add (k : KeySet) (p : Fin 24) : KeySet :=
  k ||| KeySet.single p

/-- The set with key `p` removed. -/
def KeySet.remove (k : KeySet) (p : Fin 24) : KeySet :=
  k &&& ~~~(KeySet.single p)

/-- The stroke code of a chord (R1): the sum of `2^p` over the positions `p` of its union. -/
def strokeCode (union : KeySet) : StrokeCode :=
  ((List.finRange 24).map fun p => if KeySet.has union p then KeySet.single p else 0).sum

/-- The accepted level is DOWN (R4): in DOWN and in OPENING. -/
def Debounce.acceptedDown : Debounce → Bool
  | .up => false
  | .closing _ => false
  | .down => true
  | .opening _ => true

/-- The line of a contact. -/
def Scanner.line (s : Scanner) : Contact → Line
  | .key p => s.keys[p]
  | .floor => s.floorLine
  | .mark => s.markLine

/-- The scanner with one line replaced. -/
def Scanner.setLine (s : Scanner) (c : Contact) (l : Line) : Scanner :=
  match c with
  | .key p => { s with keys := s.keys.set p.val l p.isLt }
  | .floor => { s with floorLine := l }
  | .mark => { s with markLine := l }

/-- The set of keys whose accepted level is DOWN. -/
def Scanner.downKeys (s : Scanner) : KeySet :=
  BitVec.ofFnLE fun p : Fin 24 => s.keys[p].state.acceptedDown

/-- The free keys are all up (R7): every key not in the stuck set has accepted level UP. -/
def Scanner.freeKeysUp (s : Scanner) : Bool :=
  s.downKeys &&& ~~~s.stuck == 0

/-! ## The CRC (R122) -/

/-- One shift of the CRC register. -/
def crcShift (r : BitVec 16) : BitVec 16 :=
  if r.msb then (r <<< 1) ^^^ 0x1021#16 else r <<< 1

/-- One character taken into the CRC register: eight shifts. -/
def crcByte (r : BitVec 16) (b : Byte) : BitVec 16 :=
  Nat.repeat crcShift 8 (r ^^^ (b.setWidth 16 <<< 8))

/-- The CRC over characters or bytes, from 0xFFFF, not inverted. -/
def crc (bytes : List Byte) : BitVec 16 :=
  bytes.foldl crcByte 0xFFFF#16

/-! ## Updating one block of the state -/

def State.setClock (s : State) (x : Clock) : State := { s with clock := x }
def State.setStation (s : State) (x : Station) : State := { s with station := x }
def State.setStartup (s : State) (x : Startup) : State := { s with startup := x }
def State.setScanner (s : State) (x : Scanner) : State := { s with scanner := x }
def State.setIntake (s : State) (x : Intake) : State := { s with intake := x }
def State.setPort (s : State) (x : Port) : State := { s with port := x }
def State.setEngine (s : State) (x : Engine) : State := { s with engine := x }
def State.setFeed (s : State) (x : Feed) : State := { s with feed := x }
def State.setLine (s : State) (x : LineInterface) : State := { s with line := x }
def State.setFloor (s : State) (x : Floor) : State := { s with floor := x }
def State.setAttnTimer (s : State) (x : Timer) : State := { s with attnTimer := x }
def State.setPending (s : State) (x : List Instr) : State := { s with pending := x }

/-! ## What several blocks read -/

/-- A pulse request (R182) loads the ATTN pulse timer with 250 ms, stopped or running. -/
def requestPulse (s : State) : State :=
  s.setAttnTimer (some Config.attnPulse)

/-- The station's line time (R156): station clock plus line offset. -/
def lineTime (s : State) : Clock :=
  s.clock + s.floor.lineOffset

/-- The Feed Unit takes requests (R144): the floor state is LIVE or HANDING. -/
def FloorState.inTenure : FloorState → Bool
  | .live => true
  | .handing => true
  | .standby => false
  | .claiming => false
  | .mute => false

end Sys2Proof.Machine
end

