-- ==== Sys2Proof/Machine/Operands.lean ====
section
/-! DEFINITION. The formats of chapter 7: the slot and the header as the part reads them, and the frame as it is sent and received. -/

namespace Sys2Proof.Machine

/-! ## Numbers in bytes (R120) -/

/-- A 16-bit number, most significant byte first. -/
def be16 (x : BitVec 16) : List Byte :=
  [x.extractLsb' 8 8, x.extractLsb' 0 8]

/-- A 32-bit number, most significant byte first. -/
def be32 (x : BitVec 32) : List Byte :=
  [x.extractLsb' 24 8, x.extractLsb' 16 8, x.extractLsb' 8 8, x.extractLsb' 0 8]

/-- Byte `i` of a block. -/
def byteAt (bytes : List Byte) (i : Nat) : Byte :=
  bytes.getD i 0

/-- The unsigned number in `n` bytes from byte `i` on, most significant first. -/
def numberAt (bytes : List Byte) (i n : Nat) : Nat :=
  ((bytes.drop i).take n).foldl (fun acc b => acc * 256 + b.toNat) 0

/-- A printable character, 0x20..0x7E. -/
def printable (b : Byte) : Bool :=
  decide (0x20 ≤ b.toNat ∧ b.toNat ≤ 0x7E)

/-- A character outside 0x20..0x7E is held as '?' (R36, R70). -/
def orQuestion (b : Byte) : Byte :=
  if printable b then b else 0x3F#8

/-- One flag of a flag set, at its bit (R120). -/
def flagBit (i : Nat) (b : Bool) : Byte :=
  if b then BitVec.twoPow 8 i else 0

/-! ## The dictionary slot (R132, R133) -/

/-- The entry of a slot as the Dictionary Port hands it over (R22). -/
structure Entry where
  flags : Byte
  speaker : Byte
  textLength : Nat
  text : List Byte
  deriving DecidableEq, Repr

/-- What R27 finds in the 64 bytes of a completed slot read. -/
inductive SlotVerdict where
  | check
  | empty
  | hit (e : Entry)
  | differ
  deriving DecidableEq, Repr

/-- The first `n` of a slot's eight stroke codes (R132). -/
def slotStrokes (bytes : List Byte) (n : Nat) : List StrokeCode :=
  (List.range n).map fun i => BitVec.ofNat 24 (numberAt bytes (4 + 3 * i) 3)

/-- The entry's fields as the slot holds them (R132). -/
def slotEntry (bytes : List Byte) : Entry :=
  { flags := byteAt bytes 1
    speaker := byteAt bytes 2
    textLength := (byteAt bytes 3).toNat
    text := (bytes.drop 28).take 32 }

/-- R27, R28: the first case that applies. A candidate's codes are never 0, so a zero code among the entry's first `n` equals none. -/
def judgeSlot (key : List StrokeCode) (bytes : List Byte) : SlotVerdict :=
  let n := (byteAt bytes 0).toNat
  if numberAt bytes 62 2 ≠ (crc (bytes.take 62)).toNat then .check
  else if 9 ≤ n then .check
  else if n = 0 then .empty
  else if n = key.length ∧ slotStrokes bytes n = key then .hit (slotEntry bytes)
  else .differ

/-- The flash address of slot `i` (R21). -/
def slotAddress (p : Port) (i : Nat) : Nat :=
  p.base + i * 64

/-! ## The dictionary header (R134, R135, R136, R179, R180) -/

/-- The values the Start-up Loader settles for the other blocks (R135). -/
structure Params where
  bits : Nat
  base : Nat
  probeLimit : Nat
  depth : Nat
  settleIdle : Nat
  presencePeriod : Nat
  absenceTimeout : Nat
  claimWindow : Nat
  watchdog : Nat
  rate : LineRate
  autoClaim : Bool
  debounceTime : Nat
  releaseWindow : Nat
  maxDuration : Nat
  acceptedCrc : Option (BitVec 16)
  labels : Vector (List Byte) 16
  deriving DecidableEq, Repr

/-- The values of a defaulted start (R135, R179): every default, AUTO_CLAIM clear, no accepted CRC, empty labels. -/
def defaultParams : Params :=
  { bits := 14, base := 4096, probeLimit := 8, depth := 12, settleIdle := 2000
    presencePeriod := 500, absenceTimeout := 2000, claimWindow := 300, watchdog := 3
    rate := .kbit500, autoClaim := false, debounceTime := 3, releaseWindow := 12, maxDuration := 1500
    acceptedCrc := none, labels := Vector.replicate 16 [] }

/-- A value below the range is taken as its lower end, one above as its upper end (R180). -/
def clamp (lo hi x : Nat) : Nat :=
  max lo (min hi x)

/-- R180, slot area fit: while the slot area exceeds the flash, `b` is lowered by 1; below 10 nothing fits. -/
def fitBits (base flash : Nat) : Nat → Option Nat
  | 0 => none
  | b + 1 =>
    if b + 1 < 10 then none
    else if base + 2 ^ (b + 1) * 64 ≤ flash then some (b + 1)
    else fitBits base flash b

/-- R180: 0, 1 and 2 are kept; 3..255 is taken as 1. -/
def lineRateOf (code : Nat) : LineRate :=
  if code = 0 then .kbit250 else if code = 2 then .kbit1000 else .kbit500

/-- R180: clamped to 500..10000, then lowered to the multiple of 100 at or below it. -/
def settleIdleOf (x : Nat) : Nat :=
  clamp 500 10000 x / 100 * 100

/-- R180: clamped to 1000..10000, then raised to three presence periods if below that. -/
def absenceOf (presencePeriod x : Nat) : Nat :=
  max (clamp 1000 10000 x) (3 * presencePeriod)

/-- Label `k` of the header (R136): the first min(length, 15) characters. -/
def labelOf (bytes : List Byte) (k : Nat) : List Byte :=
  ((bytes.drop (33 + 16 * k)).take (min 15 (byteAt bytes (32 + 16 * k)).toNat)).map orQuestion

/-- R134, and R35's first two conditions: magic "ZFDH", format version 1, header CRC correct. -/
def headerSound (bytes : List Byte) : Bool :=
  bytes.take 5 == [0x5A#8, 0x46#8, 0x44#8, 0x48#8, 1#8]
    && numberAt bytes 288 2 == (crc (bytes.take 288)).toNat

/-- The stored header CRC (R134). -/
def headerCrc (bytes : List Byte) : BitVec 16 :=
  BitVec.ofNat 16 (numberAt bytes 288 2)

/-- The parameters of a header with slot area base `base` whose bucket bits came out as `bits` (R180). -/
def headerParams (bytes : List Byte) (base bits : Nat) : Params :=
  let presence := clamp 200 2000 (numberAt bytes 18 2)
  { bits := bits
    base := base
    probeLimit := clamp 1 16 (numberAt bytes 14 1)
    depth := clamp 4 24 (numberAt bytes 15 1)
    settleIdle := settleIdleOf (numberAt bytes 16 2)
    presencePeriod := presence
    absenceTimeout := absenceOf presence (numberAt bytes 20 2)
    claimWindow := clamp 100 1000 (numberAt bytes 22 2)
    watchdog := clamp 1 15 (numberAt bytes 24 1)
    rate := lineRateOf (numberAt bytes 25 1)
    autoClaim := (byteAt bytes 26).getLsbD 0
    debounceTime := clamp 1 8 (numberAt bytes 27 1)
    releaseWindow := clamp 5 40 (numberAt bytes 28 1)
    maxDuration := clamp 500 4000 (numberAt bytes 29 2)
    acceptedCrc := some (headerCrc bytes)
    labels := Vector.ofFn fun k : Fin 16 => labelOf bytes k.val }

/-- R179: the parameters of an accepted header, or none when the header is invalid. -/
def acceptHeader (bytes : List Byte) : Option Params :=
  let base := numberAt bytes 10 4
  if headerSound bytes && base % 4096 == 0 && base != 0 then
    (fitBits base (numberAt bytes 6 4) (clamp 10 16 (numberAt bytes 5 1))).map (headerParams bytes base)
  else none

/-! ## Frames (R121, R123 to R130) -/

/-- A station field: 255 is NONE. -/
def stationByte : Option Station → Byte
  | none => 255
  | some s => BitVec.ofNat 8 s.val

/-- A station field read: none for 16..254, which no layout allows. -/
def stationOf (b : Byte) : Option (Option Station) :=
  if b = 255 then some none
  else if h : b.toNat < 16 then some (some ⟨b.toNat, h⟩)
  else none

/-- The role field of a PRESENCE (R129). -/
def roleByte : Role → Byte
  | .live => 0
  | .standby => 1
  | .claiming => 2

/-- The role read: none for 3..255. -/
def roleOf (b : Byte) : Option Role :=
  if b = 0 then some .live else if b = 1 then some .standby else if b = 2 then some .claiming else none

/-- The kind of a frame (R123). -/
def Frame.kind : Frame → Nat
  | .handover _ => 0
  | .claim _ _ => 1
  | .cut _ _ => 2
  | .settle _ _ => 3
  | .segment _ _ seg =>
    match seg.body with
    | .text _ _ => 4
    | .mark _ => 5
    | .lost _ => 6
  | .presence _ => 7
  | .rewind _ => 8
  | .gap _ _ _ => 9

/-- The segment flags (R127): REPLAY, SETTLED, DEGRADED. -/
def segmentFlags (copy : Option Bool) (degraded : Bool) : Byte :=
  flagBit 0 copy.isSome ||| flagBit 1 (copy == some true) ||| flagBit 2 degraded

/-- The body of a PRESENCE (R123, R129). -/
def presenceBody (p : Presence) : List Byte :=
  [roleByte p.role, (p.reach.map Reach.epoch).getD 0]
    ++ be16 ((p.reach.map Reach.nextSeq).getD 0) ++ be16 ((p.reach.map Reach.boundary).getD 0)
    ++ be32 p.lineTime ++ be16 p.lost ++ be16 p.lineErrors ++ be16 p.refusals
    ++ [p.faultEntries,
        flagBit 0 p.down ||| flagBit 1 p.overflow ||| flagBit 2 p.defaulted ||| flagBit 3 p.stuck
          ||| flagBit 4 p.reach.isNone]

/-- The body characters of a frame (R123). A waiting PRESENCE has none: it is filled before it is sent. -/
def Frame.body : Frame → List Byte
  | .handover h => [h.epoch, stationByte h.successor] ++ be16 h.nextSeq ++ be32 h.lineTime
  | .claim e withdraw => [e.getD 0, flagBit 0 withdraw ||| flagBit 1 e.isNone]
  | .cut e s => e :: be16 s
  | .settle e b => e :: be16 b
  | .segment e copy seg =>
    match seg.body with
    | .text chars degraded => be16 seg.seq ++ [e, segmentFlags copy degraded] ++ be32 seg.time ++ chars
    | .mark number => be16 seg.seq ++ [e, segmentFlags copy false] ++ be16 number ++ be32 seg.time
    | .lost count => be16 seg.seq ++ [e, segmentFlags copy false] ++ [count] ++ be32 seg.time
  | .presence none => []
  | .presence (some p) => presenceBody p
  | .rewind s => be16 s
  | .gap e f t => e :: (be16 f ++ be16 t)

/-- The lead character (R121): kind × 16 + station. -/
def leadByte (kind : Nat) (station : Station) : Byte :=
  BitVec.ofNat 8 (kind * 16 + station.val)

/-- The characters of a frame as this station sends it (R121): lead, length, body, CRC. -/
def Frame.chars (station : Station) (f : Frame) : List Byte :=
  let counted := BitVec.ofNat 8 f.body.length :: f.body
  leadByte f.kind station :: (counted ++ be16 (crc counted))

/-- The bit levels of one character (R102): start, data most significant first, lead mark, stop. -/
def charLevels (b : Byte) (leadMark : Bool) : List Level :=
  let level (x : Bool) : Level := if x then .released else .driven
  .driven :: ((List.range 8).map (fun i => level (b.getMsbD i)) ++ [level leadMark, .released])

/-- The bit levels of a whole frame, back to back, with the lead mark on the lead character alone (R102, R111). -/
def Frame.levels (station : Station) (f : Frame) : List Level :=
  match f.chars station with
  | [] => []
  | lead :: rest => charLevels lead true ++ rest.flatMap fun b => charLevels b false

/-- R123: the body length suits the kind. -/
def bodyLengthSuits (kind len : Nat) : Bool :=
  match kind with
  | 0 => len == 8
  | 1 => len == 2
  | 2 => len == 3
  | 3 => len == 3
  | 4 => decide (8 ≤ len ∧ len ≤ 59)
  | 5 => len == 10
  | 6 => len == 9
  | 7 => len == 18
  | 8 => len == 2
  | 9 => len == 5
  | _ => false

/-- The copy field of a received segment frame: REPLAY is bit 0, SETTLED bit 1 (R127). -/
def copyOf (flags : Byte) : Option Bool :=
  if flags.getLsbD 0 then some (flags.getLsbD 1) else none

/-- A received segment frame. -/
def segmentOf (q1 q0 e fl : Byte) (body : SegmentBody) (t3 t2 t1 t0 : Byte) : Frame :=
  .segment e (copyOf fl) { seq := q1 ++ q0, body := body, time := t3 ++ t2 ++ t1 ++ t0 }

/-- The fields of a valid frame's body (R123 to R130), or none when the frame is malformed (R124) or its length does not suit its kind. -/
def parseFrame (kind : Nat) (body : List Byte) : Option Frame :=
  match kind, body with
  | 0, [e, s, n1, n0, t3, t2, t1, t0] =>
    (stationOf s).map fun successor =>
      .handover { epoch := e, successor := successor, nextSeq := n1 ++ n0, lineTime := t3 ++ t2 ++ t1 ++ t0 }
  | 1, [e, fl] => some (.claim (if fl.getLsbD 1 then none else some e) (fl.getLsbD 0))
  | 2, [e, s1, s0] => some (.cut e (s1 ++ s0))
  | 3, [e, b1, b0] => some (.settle e (b1 ++ b0))
  | 4, q1 :: q0 :: e :: fl :: t3 :: t2 :: t1 :: t0 :: text =>
    some (segmentOf q1 q0 e fl (.text text (fl.getLsbD 2)) t3 t2 t1 t0)
  | 5, [q1, q0, e, fl, m1, m0, t3, t2, t1, t0] => some (segmentOf q1 q0 e fl (.mark (m1 ++ m0)) t3 t2 t1 t0)
  | 6, [q1, q0, e, fl, c, t3, t2, t1, t0] =>
    if c = 0 then none else some (segmentOf q1 q0 e fl (.lost c) t3 t2 t1 t0)
  | 7, [r, e, n1, n0, b1, b0, t3, t2, t1, t0, l1, l0, x1, x0, f1, f0, fe, fl] =>
    match roleOf r with
    | none => none
    | some role =>
      if 8 < fe.toNat then none
      else some (.presence (some {
        role := role
        reach := if fl.getLsbD 4 then none else some { epoch := e, nextSeq := n1 ++ n0, boundary := b1 ++ b0 }
        lineTime := t3 ++ t2 ++ t1 ++ t0
        lost := l1 ++ l0, lineErrors := x1 ++ x0, refusals := f1 ++ f0, faultEntries := fe
        down := fl.getLsbD 0, overflow := fl.getLsbD 1, defaulted := fl.getLsbD 2, stuck := fl.getLsbD 3 }))
  | 8, [s1, s0] => some (.rewind (s1 ++ s0))
  | 9, [e, f1, f0, t1, t0] =>
    if seqNewer (t1 ++ t0) (f1 ++ f0) then some (.gap e (f1 ++ f0) (t1 ++ t0)) else none
  | _, _ => none

end Sys2Proof.Machine
end

