-- ==== Sys2Proof/Machine/Flags.lean ====
section
/-! DEFINITION. The flags and lamps read from state that the blocks hold (R13, R37, R177, R182), and the fields of a PRESENCE (R129, R175, R183). -/

namespace Sys2Proof.Machine

/-- The STUCK health flag (R13): the stuck set is not empty. -/
def stuckFlag (s : State) : Bool :=
  s.scanner.stuck != 0

/-- The DOWN flag (R32, R37). -/
def downFlag (s : State) : Bool :=
  !s.port.up

/-- ATTN is steady (R182) while DOWN, DEFAULTED, MUTE or STUCK holds. -/
def attnSteady (s : State) : Bool :=
  downFlag s || s.startup.defaulted || s.floor.state == .mute || stuckFlag s

/-- The ATTN lamp (R182): lit while steady or while the pulse timer runs. -/
def attnLamp (s : State) : Bool :=
  attnSteady s || s.attnTimer.isSome

/-- The LIVE lamp (R177). -/
def liveLamp (s : State) : Bool :=
  s.floor.state == .live || s.floor.state == .handing

/-- The CLAIM lamp (R177). -/
def claimLamp (s : State) : Bool :=
  s.floor.state == .claiming || (s.floor.state == .live && s.floor.claimant.isSome)

/-- The role a floor state sends (R175). -/
def roleOfFloor : FloorState → Role
  | .live => .live
  | .handing => .live
  | .standby => .standby
  | .claiming => .claiming
  | .mute => .standby

/-- The epoch, next seq and boundary of the floor view, when all three are known (R129, R175). -/
def viewReach (v : View) : Option Reach :=
  match v.epoch, v.nextSeq, v.boundary with
  | some e, some n, some b => some { epoch := e, nextSeq := n, boundary := b }
  | _, _, _ => none

/-- The tenure epoch every frame of the tenure carries (R137). -/
def Feed.epoch (f : Feed) : Epoch :=
  f.tenureEpoch.getD 0

/-- The fields of a PRESENCE that begins transmission now (R129, R141, R175, R183). -/
def presenceFields (s : State) : Presence :=
  { role := roleOfFloor s.floor.state
    reach :=
      if s.floor.state.inTenure then
        some { epoch := s.feed.epoch, nextSeq := s.feed.nextSeq, boundary := s.feed.settled }
      else viewReach s.floor.view
    lineTime := lineTime s
    lost := BitVec.ofNat 16 (min 65535 s.intake.lost.toNat)
    lineErrors := BitVec.ofNat 16 s.line.errors
    refusals := BitVec.ofNat 16 s.engine.refusals
    faultEntries := BitVec.ofNat 8 s.port.faults.length
    down := downFlag s
    overflow := s.port.overflow
    defaulted := s.startup.defaulted
    stuck := stuckFlag s }

end Sys2Proof.Machine
end

