-- ==== Sys2Proof/Machine/FeedOps.lean ====
section
/-! DEFINITION. The operations of the Feed Unit on its own state (chapter 8): the outbound queue, the requests of the Translation Engine, replay and tenures. -/

namespace Sys2Proof.Machine

/-! ## The outbound queue (R140 to R142) -/

/-- The segment seq a frame carries (R140): TEXT, MARK and LOST, and replay copies of them. -/
def Frame.segmentSeq : Frame → Option Seq
  | .segment _ _ seg => some seg.seq
  | _ => none

/-- The frame is a SETTLE. -/
def Frame.isSettle : Frame → Bool
  | .settle _ _ => true
  | _ => false

/-- The frame is a HANDOVER. -/
def Frame.isHandover : Frame → Bool
  | .handover _ => true
  | _ => false

/-- The frame is a CLAIM. -/
def Frame.isClaim : Frame → Bool
  | .claim _ _ => true
  | _ => false

/-- The frame is a replay copy or a GAP (R153). -/
def Frame.isReplay : Frame → Bool
  | .segment _ copy _ => copy.isSome
  | .gap _ _ _ => true
  | _ => false

/-- The frame belongs to the tenure (R154): a segment frame (TEXT, CUT, SETTLE, MARK, LOST), a GAP, a replay copy or a HANDOVER. -/
def Frame.ofTenure : Frame → Bool
  | .handover _ => true
  | .cut _ _ => true
  | .settle _ _ => true
  | .segment _ _ _ => true
  | .gap _ _ _ => true
  | .claim _ _ => false
  | .presence _ => false
  | .rewind _ => false

/-- The places of the outbound queue that are taken: the waiting frames and the frame in transmission. -/
def Feed.places (f : Feed) : Nat :=
  f.waiting.length + (if f.sending.isSome then 1 else 0)

/-- The places that are free. -/
def Feed.free (f : Feed) : Nat :=
  Config.queuePlaces - f.places

/-- The queue holds no frame, waiting or in transmission. -/
def Feed.queueEmpty (f : Feed) : Bool :=
  f.waiting.isEmpty && f.sending.isNone

/-- A frame joins the back of the queue when a place is free (log entry 24). -/
def Feed.join (fr : Frame) (f : Feed) : Feed :=
  if f.places < Config.queuePlaces then { f with waiting := f.waiting ++ [fr] } else f

/-- A held HANDOVER joins at the back at the first moment a place is free (R142). -/
def Feed.joinHeld (f : Feed) : Feed :=
  match f.held with
  | none => f
  | some h =>
    if f.places < Config.queuePlaces then { f with waiting := f.waiting ++ [.handover h], held := none } else f

/-- Waiting frames that satisfy `p` are withdrawn, and a frame in transmission that does takes a withdrawal mark (R140). The places freed let a held HANDOVER join. -/
def Feed.withdraw (p : Frame → Bool) (f : Feed) : Feed :=
  Feed.joinHeld
    { f with
      waiting := f.waiting.filter fun fr => !p fr
      sending := f.sending.map fun x => if p x.frame then { x with withdrawn := true } else x }

/-- The newest frame of a list that satisfies `p`, the one nearest the back, is replaced by `fr`. -/
def replaceNewest (p : Frame → Bool) (fr : Frame) : List Frame → List Frame
  | [] => []
  | x :: rest =>
    if rest.any p then x :: replaceNewest p fr rest
    else if p x then fr :: rest
    else x :: rest

/-- R142, PRESENCE: joins only a queue that holds no frame; otherwise it is declined. -/
def Feed.offerPresence (f : Feed) : Feed :=
  if f.queueEmpty then f.join (.presence none) else f

/-- R142, CLAIM: takes the place of a waiting CLAIM, or joins at the back. Two CLAIMs can wait, one handed back to the head (R141) and a later one behind it, and R142 does not say which is replaced: the newest (DESIGN CHOICE, log entry 18), so that a withdrawal stands behind every CLAIM of this station, as the purpose R165 gives it asks. -/
def Feed.offerClaim (fr : Frame) (f : Feed) : Feed :=
  if f.waiting.any Frame.isClaim then { f with waiting := replaceNewest Frame.isClaim fr f.waiting } else f.join fr

/-- R142, HANDOVER: takes the place of a waiting or held one, joins at the back, or is held when no place is free. Of two the newest is replaced, a held one before a waiting one (DESIGN CHOICE, log entry 18). -/
def Feed.offerHandover (h : Handover) (f : Feed) : Feed :=
  if f.held.isSome then { f with held := some h }
  else if f.waiting.any Frame.isHandover then
    { f with waiting := replaceNewest Frame.isHandover (.handover h) f.waiting }
  else if f.places < Config.queuePlaces then { f with waiting := f.waiting ++ [.handover h] }
  else { f with held := some h }

/-! ## What the Line Interface reports (R141) -/

/-- Begun transmission: the head, with the fields given if it is a PRESENCE, becomes the frame in transmission; W rises to one past a segment seq it carries. -/
def Feed.begun (p : Presence) (f : Feed) : Feed :=
  match f.waiting with
  | [] => f
  | head :: rest =>
    let fr : Frame :=
      match head with
      | .presence _ => .presence (some p)
      | other => other
    let w : Seq :=
      match fr.segmentSeq with
      | some q => if seqNewer (q + 1) f.wireNext then q + 1 else f.wireNext
      | none => f.wireNext
    { f with waiting := rest, sending := some { frame := fr, withdrawn := false }, wireNext := w }

/-- Sent whole: the frame leaves the queue and frees its place. -/
def Feed.sentWhole (f : Feed) : Feed :=
  Feed.joinHeld { f with sending := none }

/-- Handed back: dropped when it carries a withdrawal mark, otherwise waiting again at the head. -/
def Feed.handedBack (f : Feed) : Feed :=
  match f.sending with
  | none => f
  | some x =>
    if x.withdrawn then Feed.joinHeld { f with sending := none }
    else { f with sending := none, waiting := x.frame :: f.waiting }

/-! ## The sent ring (R139, R151) -/

/-- The ring's oldest seq. -/
def Feed.oldest (f : Feed) : Option Seq :=
  f.ring.head?.map Segment.seq

/-- An entry joins the ring and N rises by 1. A full ring drops its oldest entry, and R151 moves the cursor and the pending GAP. -/
def Feed.push (body : SegmentBody) (time : Clock) (f : Feed) : Feed :=
  let seg : Segment := { seq := f.nextSeq, body := body, time := time }
  let next := f.nextSeq + 1
  match f.ring with
  | [] =>
    { f with
      ring := [seg]
      nextSeq := next
      cursor := if f.gap.isSome then some seg.seq else f.cursor }
  | dropped :: rest =>
    if f.ring.length < Config.ringPlaces then { f with ring := f.ring ++ [seg], nextSeq := next }
    else
      let ring := rest ++ [seg]
      let oldest := (ring.head?.map Segment.seq).getD next
      if f.cursor = some dropped.seq then
        { f with
          ring := ring
          nextSeq := next
          cursor := some oldest
          gap := some { fromSeq := (f.gap.map GapRun.fromSeq).getD dropped.seq, toSeq := oldest } }
      else { f with ring := ring, nextSeq := next }

/-! ## Requests of the Translation Engine (R145 to R148) -/

/-- The ring entry just pushed goes out as a live frame. -/
def Feed.joinSegment (body : SegmentBody) (time : Clock) (seq : Seq) (f : Feed) : Feed :=
  f.join (.segment f.epoch none { seq := seq, body := body, time := time })

/-- R145: a TEXT segment at N; `time` is in line time. -/
def Feed.append (chars : List Byte) (degraded : Bool) (time : Clock) (f : Feed) : Feed :=
  (f.push (.text chars degraded) time).joinSegment (.text chars degraded) time f.nextSeq

/-- R146: a MARK or LOST segment at N, which also settles everything up to itself. -/
def Feed.appendSettling (body : SegmentBody) (time : Clock) (f : Feed) : Feed :=
  let f1 := f.push body time
  let f2 := Feed.withdraw Frame.isSettle { f1 with settled := f1.nextSeq }
  f2.joinSegment body time f.nextSeq

/-- R146, mark: the mark takes the counter's value, and the counter advances. -/
def Feed.mark (time : Clock) (f : Feed) : Feed :=
  Feed.appendSettling (.mark f.markCounter) time { f with markCounter := f.markCounter + 1 }

/-- R146, lost. -/
def Feed.lost (count : Byte) (time : Clock) (f : Feed) : Feed :=
  f.appendSettling (.lost count) time

/-- R147: S takes the boundary; a SETTLE at the back is rewritten, otherwise one joins if a place is free (R143). -/
def Feed.settle (boundary : Seq) (f : Feed) : Feed :=
  let fr : Frame := .settle f.epoch boundary
  let f1 := { f with settled := boundary }
  match f.waiting.getLast? with
  | some (.settle _ _) => { f1 with waiting := f.waiting.dropLast ++ [fr] }
  | _ => f1.join fr

/-- A frame that a cut at `s` withdraws (R148): it carries a segment seq not older than `s`. -/
def Frame.cutBy (s : Seq) (fr : Frame) : Bool :=
  match fr.segmentSeq with
  | some q => !seqOlder q s
  | none => false

/-- R151: a cut at `c` not newer than the cursor makes it absent. -/
def cutCursor (c : Seq) (cursor : Option Seq) : Option Seq :=
  match cursor with
  | some k => if seqNewer c k then some k else none
  | none => none

/-- R148: a cut at `s`. -/
def Feed.cut (s : Seq) (f : Feed) : Feed :=
  let f1 := Feed.withdraw (Frame.cutBy s) f
  let f2 := { f1 with ring := f1.ring.filter (fun e => seqOlder e.seq s), nextSeq := s }
  let f3 := if seqOlder s f2.wireNext then { (f2.join (.cut f2.epoch s)) with wireNext := s } else f2
  { f3 with cursor := cutCursor s f3.cursor }

/-! ## Replay (R149, R150) -/

/-- R149: a REWIND from `s` taken while LIVE. -/
def Feed.rewind (s : Seq) (f : Feed) : Feed :=
  if !seqOlder s f.nextSeq then f
  else
    let pendingFrom : Seq :=
      match f.gap with
      | some g => if seqOlder g.fromSeq s then g.fromSeq else s
      | none => s
    match f.oldest with
    | none => { f with gap := some { fromSeq := pendingFrom, toSeq := f.nextSeq }, cursor := none }
    | some oldest =>
      if seqOlder s oldest then
        { f with gap := some { fromSeq := pendingFrom, toSeq := oldest }, cursor := some oldest }
      else
        match f.cursor with
        | some k => if seqNewer k s then { f with cursor := some s } else f
        | none => { f with cursor := some s }

/-- R150: one GAP or one replay copy joins the queue. -/
def Feed.generate (f : Feed) : Feed :=
  match f.gap with
  | some g => { (f.join (.gap f.epoch g.fromSeq g.toSeq)) with gap := none }
  | none =>
    match f.cursor with
    | none => f
    | some c =>
      match f.ring.find? fun e => e.seq == c with
      | none => f
      | some e =>
        { (f.join (.segment f.epoch (some (seqOlder c f.settled)) e)) with
          cursor := if c + 1 = f.nextSeq then none else some (c + 1) }

/-! ## Tenures (R152 to R155) -/

/-- R152: the tenure opens with the HANDOVER's epoch and next seq. -/
def Feed.openTenure (epoch : Epoch) (next : Seq) (f : Feed) : Feed :=
  { f with
    tenureEpoch := some epoch, nextSeq := next, settled := next, wireNext := next
    ring := [], cursor := none, gap := none }

/-- R153: on the move to HANDING replay ends. -/
def Feed.endReplay (f : Feed) : Feed :=
  Feed.withdraw Frame.isReplay { f with cursor := none, gap := none }

/-- R154: the tenure closes. -/
def Feed.closeTenure (f : Feed) : Feed :=
  Feed.withdraw Frame.ofTenure { f with ring := [], held := none, cursor := none, gap := none }

/-- R155: on MUTE the queue, the ring and the replay state empty; a frame in transmission is abandoned (R119). -/
def Feed.mute (f : Feed) : Feed :=
  { f with waiting := [], sending := none, held := none, ring := [], cursor := none, gap := none }

end Sys2Proof.Machine
end

