-- ==== Sys2Proof/Machine/Text.lean ====
section
/-! DEFINITION. Chapter 4: how a stroke step forms a segment text, and the fallback texts of R49 and R50. -/

namespace Sys2Proof.Machine

/-! ## Fallback texts -/

/-- The legend letter of a key position (section 1.1): B C D F G H J K, a e i o, L M N P Q S T V X Z, *, #. -/
def legend (p : Fin 24) : Byte :=
  [0x42#8, 0x43#8, 0x44#8, 0x46#8, 0x47#8, 0x48#8, 0x4A#8, 0x4B#8,
   0x61#8, 0x65#8, 0x69#8, 0x6F#8,
   0x4C#8, 0x4D#8, 0x4E#8, 0x50#8, 0x51#8, 0x53#8, 0x54#8, 0x56#8, 0x58#8, 0x5A#8,
   0x2A#8, 0x23#8].getD p.val 0

/-- The keys of a stroke with position from `lo` to `hi`, in position order. -/
def keysFrom (code : StrokeCode) (lo hi : Nat) : List (Fin 24) :=
  (List.finRange 24).filter fun p => decide (lo ≤ p.val ∧ p.val ≤ hi) && KeySet.has code p

/-- The digit of a position 12..21 (R49): 12 to 20 give '1' to '9', 21 gives '0'. -/
def digit (p : Fin 24) : Byte :=
  if p.val = 21 then 0x30#8 else BitVec.ofNat 8 (0x31 + (p.val - 12))

/-- R49: the stroke holds key 23 and at least one key from positions 12..21. -/
def isNumeral (code : StrokeCode) : Bool :=
  KeySet.has code 23 && !(keysFrom code 12 21).isEmpty

/-- The text of a NUMERAL record (R49). -/
def numeralText (code : StrokeCode) : List Byte :=
  (keysFrom code 12 21).map digit

/-- The text of a RAW record (R50), part by part. -/
def rawText (code : StrokeCode) : List Byte :=
  let thumb := keysFrom code 8 11
  let right := keysFrom code 12 21
  (if KeySet.has code 23 then [0x23#8] else [])
    ++ (keysFrom code 0 7).map legend
    ++ (if !thumb.isEmpty then thumb.map legend
        else if !right.isEmpty || KeySet.has code 22 then [0x2D#8] else [])
    ++ right.map legend
    ++ (if KeySet.has code 22 then [0x2A#8] else [])

/-! ## Descriptors (R69, R70, R71) -/

/-- What a step forms its text from (section 4.2). -/
structure Descriptor where
  attachBefore : Bool
  attachAfter : Bool
  capNext : Bool
  glue : Bool
  para : Bool
  speaker : Option (Fin 16)
  body : List Byte
  /-- The record is RAW: its body is exempt from the raising of a letter (R71). -/
  raw : Bool
  deriving DecidableEq, Repr

/-- R69: a speaker field of 0..15 is the speaker; any other value is none. -/
def speakerOf (b : Byte) : Option (Fin 16) :=
  if h : b.toNat < 16 then some ⟨b.toNat, h⟩ else none

/-- R70: the first min(t, 32) characters, each unprintable one replaced by '?'. -/
def entryBody (e : Entry) : List Byte :=
  (e.text.take (min 32 e.textLength)).map orQuestion

/-- R69: the descriptor of an ENTRY record; the flag bits are R132's. -/
def entryDescriptor (e : Entry) : Descriptor :=
  { attachBefore := e.flags.getLsbD 0
    attachAfter := e.flags.getLsbD 1
    capNext := e.flags.getLsbD 2
    glue := e.flags.getLsbD 3
    para := e.flags.getLsbD 4
    speaker := speakerOf e.speaker
    body := entryBody e
    raw := false }

/-- R71: the descriptor of a NUMERAL record. -/
def numeralDescriptor (code : StrokeCode) : Descriptor :=
  { attachBefore := false, attachAfter := false, capNext := false, glue := true, para := false
    speaker := none, body := numeralText code, raw := false }

/-- R71: the descriptor of a RAW record. -/
def rawDescriptor (code : StrokeCode) : Descriptor :=
  { attachBefore := false, attachAfter := false, capNext := false, glue := false, para := false
    speaker := none, body := rawText code, raw := true }

/-- R69: an entry with a speaker, or with its PARA flag set, is a paragraph entry. -/
def Descriptor.isParagraph (d : Descriptor) : Bool :=
  d.para || d.speaker.isSome

/-! ## The four stages (R72) -/

/-- The label of a label speaker (R74): empty when there is none. -/
def labelText (labels : Vector (List Byte) 16) : Option (Fin 16) → List Byte
  | none => []
  | some k => labels[k]

/-- Stage 1 (R73, R74): the paragraph part and the context it leaves. -/
def paragraphStage (labels : Vector (List Byte) 16) (d : Descriptor) (c : Context) : List Byte × Context :=
  let break_ : List Byte := if c.atParaStart then [] else [0x0A#8, 0x0A#8]
  let speaker := if d.speaker.isSome then d.speaker else c.speaker
  let label := labelText labels speaker
  let c' := { c with atParaStart := true, speaker := speaker }
  if label.isEmpty then (break_, c')
  else (break_ ++ label ++ [0x3A#8, 0x20#8], { c' with capNext := true })

/-- Stage 2 (R75): one space, or nothing. -/
def separatorStage (d : Descriptor) (c : Context) : List Byte :=
  if d.body.isEmpty || c.attachPending || d.attachBefore || (d.glue && c.glueLast) || c.atParaStart then []
  else [0x20#8]

/-- A lower-case letter is replaced by the matching upper-case one (R76). -/
def raiseLetter (b : Byte) : Byte :=
  if 0x61 ≤ b.toNat ∧ b.toNat ≤ 0x7A then b - 0x20#8 else b

/-- Stage 3 (R76): the body, its first letter perhaps raised. -/
def capitalStage (d : Descriptor) (c : Context) : List Byte :=
  match d.body with
  | [] => []
  | b :: rest => (if c.capNext && !d.raw then raiseLetter b else b) :: rest

/-- Stages 3 and 4 on the context (R76, R77). -/
def updateStage (d : Descriptor) (c : Context) : Context :=
  { capNext := if d.capNext then true else if d.body.isEmpty then c.capNext else false
    attachPending := d.attachAfter
    glueLast := d.glue
    atParaStart := if d.body.isEmpty then c.atParaStart else false
    speaker := c.speaker }

/-- R72: the segment text and the updated context. -/
def formSegment (labels : Vector (List Byte) 16) (d : Descriptor) (c : Context) : List Byte × Context :=
  if d.isParagraph then
    let (part, c1) := paragraphStage labels d c
    (part ++ capitalStage d c1, updateStage d c1)
  else
    (separatorStage d c ++ capitalStage d c, updateStage d c)

/-! ## Stroke shapes (R45, R83) -/

/-- The handling of a stroke by its code. -/
inductive StrokeShape where
  | retract
  | wordRetract (count : Nat)
  | ordinary
  deriving DecidableEq, Repr

/-- R45: key 22 alone; keys 22 and 23 with one key from 12..20 and no other, whose count is its position less 11; or any other stroke. -/
def strokeShape (code : StrokeCode) : StrokeShape :=
  if code.toNat = 4194304 then .retract
  else
    match (List.range' 12 9).find? fun p => code.toNat == 12582912 + 2 ^ p with
    | some p => .wordRetract (p - 11)
    | none => .ordinary

/-! ## The hash (R23) -/

/-- The accumulator over the strokes of a key, from `a`. -/
def hashFold (a : Nat) (key : List StrokeCode) : Nat :=
  key.foldl (fun acc c => (acc * 33 + c.toNat) % 2 ^ 24) a

/-- The bucket of a candidate key with bucket bits `b`. -/
def bucket (b : Nat) (key : List StrokeCode) : Nat :=
  let a := hashFold key.length key
  (a ^^^ (a / 4096)) % 2 ^ b

end Sys2Proof.Machine
end

