-- ==== Sys2Proof/Machine/EngineOps.lean ====
section
/-! DEFINITION. The operations of the Translation Engine (chapters 3 and 5): requests to the Feed Unit, settles, records and refusals. -/

namespace Sys2Proof.Machine

/-! ## Requests (R144) -/

/-- The Feed Unit takes requests now. -/
def feedOpen (s : State) : Bool :=
  s.floor.state.inTenure

/-- A station clock value in line time (R145). -/
def toLineTime (s : State) (t : Clock) : Clock :=
  t + s.floor.lineOffset

/-- A cut request (R148). -/
def handCut (seq : Seq) (s : State) : State :=
  if feedOpen s then s.setFeed (s.feed.cut seq) else s

/-- A settle request (R147). -/
def handSettle (boundary : Seq) (s : State) : State :=
  if feedOpen s then s.setFeed (s.feed.settle boundary) else s

/-- An append request (R145). -/
def handAppend (chars : List Byte) (degraded : Bool) (time : Clock) (s : State) : State :=
  if feedOpen s then s.setFeed (s.feed.append chars degraded (toLineTime s time)) else s

/-- A mark request (R146). -/
def handMark (time : Clock) (s : State) : State :=
  if feedOpen s then s.setFeed (s.feed.mark (toLineTime s time)) else s

/-- A lost request (R146). -/
def handLost (count : Nat) (time : Clock) (s : State) : State :=
  if feedOpen s then s.setFeed (s.feed.lost (BitVec.ofNat 8 count) (toLineTime s time)) else s

/-- The answer to an append, mark or lost request: the seq it is given, or none when refused (R144). -/
def answeredSeq (s : State) : Option Seq :=
  if feedOpen s then some s.feed.nextSeq else none

/-! ## Refusals (R61) -/

/-- The refusal count rises, saturating at 65535, and one ATTN pulse is asked for. -/
def refuse (s : State) : State :=
  requestPulse (s.setEngine { s.engine with refusals := saturate 65535 s.engine.refusals })

/-! ## Settles (R54, R55) -/

/-- The whole tail settles with no request. -/
def settleLocal (s : State) : State :=
  s.setEngine { s.engine with tail := [] }

/-- A record of the list carries a seq. -/
def carriesSeq (records : List Record) : Bool :=
  records.any fun r => r.seq.isSome

/-- The whole tail settles, with a settle request to the end when a removed record carries a seq. -/
def settleToEnd (s : State) : State :=
  if carriesSeq s.engine.tail then handSettle s.feed.nextSeq (settleLocal s) else settleLocal s

/-! ## Records (R38, R53, R54) -/

/-- The tail without its newest `k` records. -/
def tailKept (tail : List Record) (k : Nat) : List Record :=
  tail.take (tail.length - k)

/-- The newest `k` records of the tail, oldest first. -/
def tailNewest (tail : List Record) (k : Nat) : List Record :=
  tail.drop (tail.length - k)

/-- The number `m` of eligible records (R46), over the tail newest first: the most that together hold at most `budget` strokes. -/
def eligible : Nat → List Record → Nat
  | _, [] => 0
  | budget, r :: older =>
    if r.strokes.length ≤ budget then eligible (budget - r.strokes.length) older + 1 else 0

/-- The candidate for `k` (R47): the strokes of the last `k` records, then the new stroke. -/
def candidateKey (tail : List Record) (k : Nat) (code : StrokeCode) : List StrokeCode :=
  (tailNewest tail k).flatMap Record.strokes ++ [code]

/-- A record joins the tail; a tail of D records settles its oldest in the same action (R39, R54). The settle request is handed in LIVE mode when that record carries a seq and no LOST of the same step stands in its place (R59). -/
def placeRecord (r : Record) (lossFollows : Bool) (s : State) : State :=
  match s.engine.tail with
  | [] => s.setEngine { s.engine with tail := [r] }
  | oldest :: rest =>
    if s.engine.tail.length < s.engine.depth then
      s.setEngine { s.engine with tail := s.engine.tail ++ [r] }
    else
      let s1 := s.setEngine { s.engine with tail := rest ++ [r] }
      if s.engine.mode == .live && oldest.seq.isSome && !lossFollows then
        handSettle ((((rest ++ [r]).head?.bind Record.seq)).getD s1.feed.nextSeq) s1
      else s1

/-- The newest `k` records leave the tail and the context goes back to the saved context of the oldest of them (R48, R80, R85, R91). -/
def removeNewest (k : Nat) (s : State) : State :=
  s.setEngine
    { s.engine with
      tail := tailKept s.engine.tail k
      context := ((tailNewest s.engine.tail k).head?.map Record.saved).getD s.engine.context }

/-- The seq of the oldest of the newest `k` records: the cut point (R48, R93). -/
def cutPoint (k : Nat) (s : State) : Option Seq :=
  (tailNewest s.engine.tail k).head?.bind Record.seq

/-- In LIVE mode a cut request at the cut point, if there is one. -/
def handCutAt (point : Option Seq) (s : State) : State :=
  match point with
  | some q => if s.engine.mode == .live then handCut q s else s
  | none => s

/-! ## Gap counts and tenures -/

/-- R59: in LIVE mode a gap count settles the whole tail with no settle request and hands the lost request; in SHADOW mode it is dropped. -/
def reportGap (gap : Nat) (time : Clock) (s : State) : State :=
  if gap = 0 then s
  else if s.engine.mode == .live then handLost gap time (settleLocal s)
  else s

/-- R63: the tail's records drop their seqs, and a step in flight goes on in SHADOW mode. -/
def Engine.leaveTenure (e : Engine) : Engine :=
  { e with
    tail := e.tail.map fun r => { r with seq := none }
    mode := if e.step.isSome then .shadow else e.mode }

/-- R64: the settle-on-entry flag is set. -/
def Engine.enterLive (e : Engine) : Engine :=
  { e with settleOnEntry := true }

end Sys2Proof.Machine
end

