-- ==== Sys2Proof/Machine/FloorOps.lean ====
section
/-! DEFINITION. The operations of the Floor Controller (chapter 9): offers, the changes of floor state, the boundary work of the engine that answers it, and the floor view. -/

namespace Sys2Proof.Machine

/-! ## Offers to the Feed Unit (R142) -/

/-- A frame offered in MUTE is not queued; otherwise the Feed Unit places it. -/
def offer (place : Feed → Feed) (s : State) : State :=
  if s.floor.state == .mute then s else s.setFeed (place s.feed)

/-- A PRESENCE is offered. -/
def offerPresence (s : State) : State :=
  offer Feed.offerPresence s

/-- A CLAIM is offered (R165): the view's epoch, or NO_EPOCH when it is unknown. -/
def offerClaim (withdraw : Bool) (s : State) : State :=
  offer (Feed.offerClaim (.claim s.floor.view.epoch withdraw)) s

/-- What is recorded of a HANDOVER offered (R156). -/
def Handover.offered (h : Handover) : Offered :=
  { epoch := h.epoch, successor := h.successor, nextSeq := h.nextSeq }

/-- A HANDOVER is recorded as the last offered and offered. -/
def offerHandover (h : Handover) (s : State) : State :=
  offer (Feed.offerHandover h) (s.setFloor { s.floor with lastOffered := some h.offered })

/-! ## The presence timer and the claim window (R166, R175) -/

/-- The presence timer's value in a floor state. -/
def Floor.presenceLoad (f : Floor) : Timer :=
  match f.state with
  | .live => some f.presencePeriod
  | .handing => some f.presencePeriod
  | .claiming => some f.presencePeriod
  | .standby => some (4 * f.presencePeriod)
  | .mute => none

/-- The presence timer is loaded with the value of the floor state. -/
def loadPresence (s : State) : State :=
  s.setFloor { s.floor with presenceTimer := s.floor.presenceLoad }

/-- The claim window is loaded when CLAIMING, a vacant view and the end of start-up integration come to hold together; a window already running is kept. -/
def loadClaimWindow (s : State) : State :=
  if s.floor.state == .claiming && s.floor.view.live.isNone && s.line.integrated && s.floor.claimTimer.isNone then
    s.setFloor { s.floor with claimTimer := some s.floor.claimWindow }
  else s

/-! ## Changes of floor state -/

/-- R165: into CLAIMING. -/
def enterClaiming (origin : Origin) (s : State) : State :=
  let s1 := loadPresence (s.setFloor { s.floor with state := .claiming, origin := some origin })
  loadClaimWindow (offerClaim false s1)

/-- R165: out of CLAIMING to STANDBY, with a withdrawal. -/
def leaveClaiming (s : State) : State :=
  let s1 := loadPresence (s.setFloor { s.floor with state := .standby, origin := none, claimTimer := none })
  offerClaim true s1

/-- R167, R169: into LIVE with the tenure of the given epoch and next seq, which the Feed Unit opens (R152) and the engine settles on entry (R64). -/
def enterLive (epoch : Epoch) (next : Seq) (s : State) : State :=
  let s1 := s.setFloor
    { s.floor with
      state := .live
      view := { live := some s.station, epoch := some epoch, nextSeq := some next, boundary := some next }
      claimant := none, origin := none, absenceTimer := none, claimTimer := none }
  let s2 := s1.setFeed (s1.feed.openTenure epoch next)
  loadPresence (s2.setEngine s2.engine.enterLive)

/-- R171: into HANDING. Replay ends (R153), and a full settle is asked for (R65). -/
def enterHanding (s : State) : State :=
  let s1 := s.setFloor { s.floor with state := .handing }
  let s2 := s1.setFeed s1.feed.endReplay
  s2.setEngine { s2.engine with fullSettle := true }

/-- R172, R174: out of LIVE or HANDING to STANDBY. -/
def leaveTenure (s : State) : State :=
  let s1 := s.setFloor { s.floor with state := .standby, claimant := none, keptBack := none }
  let s2 := s1.setFeed s1.feed.closeTenure
  loadPresence (s2.setEngine s2.engine.leaveTenure)

/-- R119: on MUTE the line state becomes IDLE with the hunting flag set. A frame in transmission is abandoned, and a frame or character in reception is given up without a count (log entry 15). -/
def LineInterface.abandon (l : LineInterface) : LineInterface :=
  { l with state := .idle, hunting := true, received := [], charBits := [], readBack := 0, mismatch := false }

/-- R176: into MUTE. -/
def enterMute (s : State) : State :=
  if s.floor.state == .mute then s
  else
    let s1 := s.setFloor
      { s.floor with
        state := .mute
        presenceTimer := none, absenceTimer := none, claimTimer := none
        claimant := none, origin := none, keptBack := none }
    let s2 := s1.setLine s1.line.abandon
    let s3 := s2.setFeed s2.feed.mute
    s3.setEngine s3.engine.leaveTenure

/-! ## The hand-over (R173) -/

/-- The frame is a takeover of this station: a HANDOVER that names it (R125). -/
def isTakeover (me : Station) : Frame → Bool
  | .handover h => h.successor == some me
  | _ => false

/-- A takeover of this station has been offered and not yet sent whole. -/
def takeoverUnsent (s : State) : Bool :=
  s.feed.waiting.any (isTakeover s.station)
    || (s.feed.sending.map fun x => isTakeover s.station x.frame).getD false
    || (s.feed.held.map fun h => h.successor == some s.station).getD false

/-- The hand-over HANDOVER (R173). -/
def handoverFrame (s : State) : Handover :=
  { epoch := s.feed.epoch + 1, successor := s.floor.claimant, nextSeq := s.feed.nextSeq, lineTime := lineTime s }

/-- R173: the full settle is answered; the hand-over is built, and offered or kept back behind an unsent takeover. -/
def buildHandover (s : State) : State :=
  if takeoverUnsent s then s.setFloor { s.floor with keptBack := some (handoverFrame s) }
  else offerHandover (handoverFrame s) s

/-! ## The engine's boundary work (R44) -/

/-- R64: the settle on entry to LIVE. -/
def settleOnEntry (s : State) : State :=
  if s.engine.settleOnEntry then
    s.setEngine { s.engine with tail := [], settleOnEntry := false }
  else s

/-- R65: a pending full settle, made and answered in HANDING and dropped elsewhere. -/
def fullSettle (s : State) : State :=
  if s.engine.fullSettle then
    let s1 := s.setEngine { s.engine with fullSettle := false }
    if s.floor.state == .handing then buildHandover (settleToEnd s1) else s1
  else s

/-- R66: in MUTE the whole tail settles locally. -/
def settleMute (s : State) : State :=
  if s.floor.state == .mute then settleLocal s else s

/-- R44: the work of a step boundary. -/
def boundaryWork (s : State) : State :=
  settleMute (fullSettle (settleOnEntry s))

/-- A change taken while no step is in flight is acted on at once (R44). -/
def boundaryIfBetween (s : State) : State :=
  if s.engine.step.isNone then boundaryWork s else s

/-! ## The floor view (R157 to R161) -/

/-- A frame's epoch beside the view's (R157). -/
inductive EpochAge where
  | newer
  | same
  | stale
  deriving DecidableEq, Repr

/-- R157: any epoch is newer than an unknown view epoch. A frame whose own epoch is unknown (log entry 20) is stale. -/
def epochAge (frame view : Option Epoch) : EpochAge :=
  match frame, view with
  | none, _ => .stale
  | some _, none => .newer
  | some e, some f => if e = f then .same else if epochNewer e f then .newer else .stale

/-- The epoch of a tenure frame, and none for a frame that is not one (section 9.2). The outer option says whether it is a tenure frame; the inner is the epoch, unknown in a PRESENCE with NO_VIEW. -/
def Frame.tenure : Frame → Option (Option Epoch)
  | .handover h => some (some h.epoch)
  | .claim _ _ => none
  | .cut e _ => some (some e)
  | .settle e _ => some (some e)
  | .segment e _ _ => some (some e)
  | .presence (some p) => if p.role == .live then some (p.reach.map Reach.epoch) else none
  | .presence none => none
  | .rewind _ => none
  | .gap e _ _ => some (some e)

/-- The candidate a tenure frame names (R157). -/
def Frame.candidate (sender : Station) : Frame → Option Station
  | .handover h => h.successor
  | _ => some sender

/-- What R158 makes of a tenure frame. -/
inductive Verdict where
  | adopted
  /-- The view is refreshed, with the candidate as its live station. -/
  | refreshed
  | stale
  | ignored
  deriving DecidableEq, Repr

/-- R158, the same-epoch table. -/
def sameEpochVerdict (me : Station) (live candidate : Option Station) : Verdict :=
  match live, candidate with
  | some x, some y =>
    if x = y then .refreshed
    else if y = me then .ignored
    else if y < x then .refreshed
    else .stale
  | some _, none => .ignored
  | none, some y => if y = me then .ignored else .refreshed
  | none, none => .ignored

/-- R158. -/
def verdict (me : Station) (view : View) (epoch : Option Epoch) (candidate : Option Station) : Verdict :=
  match epochAge epoch view.epoch with
  | .newer => .adopted
  | .same => sameEpochVerdict me view.live candidate
  | .stale => .stale

/-- R159: the view next seq and view boundary after a frame. -/
def followReach (f : Frame) (next boundary : Option Seq) : Option Seq × Option Seq :=
  match f with
  | .handover h => (some h.nextSeq, some h.nextSeq)
  | .segment _ none seg =>
    match seg.body with
    | .text _ _ => (some (seg.seq + 1), boundary)
    | .mark _ => (some (seg.seq + 1), some (seg.seq + 1))
    | .lost _ => (some (seg.seq + 1), some (seg.seq + 1))
  | .segment _ (some _) _ => (next, boundary)
  | .cut _ q => (some q, boundary)
  | .settle _ b => (next, some b)
  | .presence (some p) =>
    match p.reach with
    | some r => (some r.nextSeq, some r.boundary)
    | none => (next, boundary)
  | .presence none => (next, boundary)
  | .gap _ _ _ => (next, boundary)
  | .claim _ _ => (next, boundary)
  | .rewind _ => (next, boundary)

/-- The live station after an adopted or refreshing frame (R158): the candidate, but NONE for a newer HANDOVER that names this station and does not make it LIVE. -/
def newLive (me : Station) (v : Verdict) (becomesLive : Bool) (candidate : Option Station) : Option Station :=
  if v == .adopted && candidate == some me && !becomesLive then none else candidate

/-- The view after an adopted or refreshing frame (R158, R159). -/
def View.follow (view : View) (v : Verdict) (epoch : Option Epoch) (live : Option Station) (f : Frame) : View :=
  let next := if v == .adopted then none else view.nextSeq
  let boundary := if v == .adopted then none else view.boundary
  let reach := followReach f next boundary
  { live := live
    epoch := if v == .adopted then epoch else view.epoch
    nextSeq := reach.1
    boundary := reach.2 }

/-- R160: the absence timer after the view's live station has been set by a frame. -/
def absenceLoad (me : Station) (timeout : Nat) (live : Option Station) : Timer :=
  match live with
  | some x => if x = me then none else some timeout
  | none => none

/-- The line time a frame carries for R161: a HANDOVER's, or that of a PRESENCE with role LIVE. -/
def Frame.carriedLineTime : Frame → Option Clock
  | .handover h => some h.lineTime
  | .presence (some p) => if p.role == .live then some p.lineTime else none
  | _ => none

/-- R161: in STANDBY and CLAIMING the line offset follows the live station's line time. -/
def takeLineTime (f : Frame) (s : State) : State :=
  match f.carriedLineTime with
  | some t =>
    if s.floor.state == .standby || s.floor.state == .claiming then
      s.setFloor { s.floor with lineOffset := t - s.clock }
    else s
  | none => s

/-- The view moves, the auto-claim flag re-arms when a vacant view gets a live station (R164), and the absence timer follows (R160). -/
def moveView (view : View) (s : State) : State :=
  s.setFloor
    { s.floor with
      view := view
      armed := if s.floor.view.live.isNone && view.live.isSome then s.floor.autoClaim else s.floor.armed
      absenceTimer := absenceLoad s.station s.floor.absenceTimeout view.live }

/-- R163: the decline of a HANDOVER that names this station. -/
def decline (h : Handover) (s : State) : State :=
  let d : Handover := { epoch := h.epoch + 1, successor := none, nextSeq := h.nextSeq, lineTime := lineTime s }
  offerHandover d (s.setFloor { s.floor with armed := false })

/-- R163, R164: what a station standing by does with an adopted frame: a HANDOVER naming it is declined, and one naming NONE starts an automatic claim. -/
def reactStandby (f : Frame) (s : State) : State :=
  match f with
  | .handover h =>
    if h.successor = some s.station then decline h s
    else if h.successor = none && s.floor.armed then enterClaiming .auto s
    else s
  | _ => s

/-- R164, R166, R167: what a claiming station does once the view has followed a frame. -/
def reactClaiming (v : Verdict) (f : Frame) (s : State) : State :=
  match s.floor.view.live with
  | none => loadClaimWindow s
  | some _ =>
    match s.floor.origin with
    | some .reporter =>
      if v == .adopted && f.isHandover then leaveClaiming (requestPulse s)
      else s.setFloor { s.floor with claimTimer := none }
    | _ => leaveClaiming s

/-- What the station does once the view has followed a frame. -/
def reactToView (v : Verdict) (f : Frame) (s : State) : State :=
  match s.floor.state with
  | .standby => if v == .adopted then reactStandby f s else s
  | .claiming => reactClaiming v f s
  | .live | .handing =>
    if s.floor.view.live = some s.station then s
    else
      let s1 := leaveTenure s
      if v == .adopted then reactStandby f s1 else s1
  | .mute => s

/-- R167: this frame makes a claiming station LIVE. -/
def makesLive (s : State) (v : Verdict) (f : Frame) : Bool :=
  s.floor.state == .claiming && v == .adopted && f.isHandover && f.candidate s.station == some s.station

/-- A tenure frame of another station is taken in (R158 to R167, R172). -/
def takeTenureFrame (sender : Station) (epoch : Option Epoch) (f : Frame) (s : State) : State :=
  let candidate := f.candidate sender
  let v := verdict s.station s.floor.view epoch candidate
  match v with
  | .ignored => s
  | .stale => if s.floor.state.inTenure then offerPresence s else s
  | .adopted | .refreshed =>
    let becomesLive := makesLive s v f
    let s1 := takeLineTime f s
    let s2 := moveView (s1.floor.view.follow v epoch (newLive s.station v becomesLive candidate) f) s1
    match becomesLive, f with
    | true, .handover h => enterLive h.epoch h.nextSeq s2
    | _, _ => reactToView v f s2

/-- R162: a HANDOVER of this station that was sent whole is applied to its own view. A stale one changes nothing. -/
def applyOwnHandover (h : Handover) (s : State) : State :=
  let v := verdict s.station s.floor.view (some h.epoch) h.successor
  match v with
  | .ignored => s
  | .stale => s
  | .adopted | .refreshed =>
    reactToView v (.handover h)
      (moveView (s.floor.view.follow v (some h.epoch) (newLive s.station v false h.successor) (.handover h)) s)

/-! ## CLAIM frames (R166, R170, R173) -/

/-- A waiting or held hand-over of the tenure has its successor rewritten to NONE (R142, R173). -/
def Frame.unname (epoch : Epoch) : Frame → Frame
  | .handover h => if h.epoch = epoch then .handover { h with successor := none } else .handover h
  | other => other

/-- R173: the hand-over that waits or is held names NONE from now on. -/
def Feed.unnameHandover (f : Feed) : Feed :=
  { f with
    waiting := f.waiting.map (Frame.unname (f.epoch + 1))
    held := f.held.map fun h => if h.epoch = f.epoch + 1 then { h with successor := none } else h }

/-- The hand-over of this tenure waits or is held. -/
def handoverWaits (s : State) : Bool :=
  let isIt (h : Handover) : Bool := h.epoch == s.feed.epoch + 1
  (s.feed.waiting.any fun fr => match fr with | .handover h => isIt h | _ => false)
    || (s.feed.held.map isIt).getD false

/-- R173: a withdrawal from the pending claimant, in HANDING. -/
def unnameClaimant (s : State) : State :=
  let s1 := s.setFloor { s.floor with claimant := none }
  if s.floor.keptBack.isSome then
    s1.setFloor { s1.floor with keptBack := s1.floor.keptBack.map fun h => { h with successor := none } }
  else if handoverWaits s then
    (s1.setFloor { s1.floor with lastOffered := s1.floor.lastOffered.map fun o => { o with successor := none } }).setFeed
      s1.feed.unnameHandover
  else s1

/-- A CLAIM of another station is taken in. -/
def takeClaim (sender : Station) (withdraw : Bool) (s : State) : State :=
  match s.floor.state with
  | .live =>
    if withdraw then
      if s.floor.claimant = some sender then s.setFloor { s.floor with claimant := none } else s
    else if s.floor.claimant.isNone then s.setFloor { s.floor with claimant := some sender }
    else s
  | .handing => if withdraw && s.floor.claimant == some sender then unnameClaimant s else s
  | .claiming =>
    if !withdraw && s.floor.claimTimer.isSome && decide (sender < s.station) then
      leaveClaiming (if s.floor.origin == some .reporter then requestPulse s else s)
    else s
  | .standby => s
  | .mute => s

/-- The Floor Controller takes a frame in (R109, R157, R176). -/
def floorTakes (sender : Station) (f : Frame) (s : State) : State :=
  if s.floor.state == .mute then s
  else
    match f with
    | .claim _ withdraw => takeClaim sender withdraw s
    | _ =>
      match f.tenure with
      | some epoch => takeTenureFrame sender epoch f s
      | none => s

/-! ## FLOOR items and pauses (R60, R163, R168, R171, R173, R176) -/

/-- A FLOOR item in each floor state. -/
def floorItem (s : State) : State :=
  match s.floor.state with
  | .standby => enterClaiming .reporter s
  | .claiming => leaveClaiming (s.setFloor { s.floor with armed := false })
  | .live => enterHanding s
  | .handing => requestPulse s
  | .mute => s

/-- R57, R171: the engine reports a pause; with a claimant pending in LIVE the station moves to HANDING. -/
def pauseReport (s : State) : State :=
  if s.floor.state == .live && s.floor.claimant.isSome then enterHanding s else s

end Sys2Proof.Machine
end

