-- ==== Sys2Proof/Machine/StepOps.lean ====
section
/-! DEFINITION. The stroke step (R46 to R53) and its lookups (R22 to R26, R31, R33). A step runs on within one command until it ends or a slot read starts. -/

namespace Sys2Proof.Machine

/-- R42: the step ends, the settle idle timer is loaded and the boundary work is done. -/
def endStep (s : State) : State :=
  boundaryWork (s.setEngine { s.engine with step := none, settleTimer := some s.engine.settleIdle })

/-- The record a step builds from a descriptor and the context in force (R38, R52). -/
def buildRecord (kind : RecordKind) (strokes : List StrokeCode) (text : List Byte) (saved : Context) (seq : Option Seq)
    (degraded : Bool) : Record :=
  { strokes := strokes, kind := kind, text := text, saved := saved, seq := seq, degraded := degraded }

/-- R48, R52, R53, R59: the step absorbs its last `k` records, forms its text, hands its requests in LIVE mode, places its record, deals with its gap count and ends. -/
def finishStroke (k : Nat) (kind : RecordKind) (d : Descriptor) (w : Work) (s : State) : State :=
  let strokes := candidateKey s.engine.tail k w.code
  let point := cutPoint k s
  let s1 := removeNewest k s
  let saved := s1.engine.context
  let formed := formSegment s1.port.labels d saved
  let s2 := handCutAt point (s1.setEngine { s1.engine with context := formed.2 })
  let live := s2.engine.mode == .live
  let seq := if live then answeredSeq s2 else none
  let s3 := if live then handAppend formed.1 w.faulted w.time s2 else s2
  let s4 := placeRecord (buildRecord kind strokes formed.1 saved seq w.faulted) (decide (w.gap ≠ 0)) s3
  endStep (reportGap w.gap w.time s4)

/-- R49, R50: every candidate has missed. -/
def fallback (w : Work) (s : State) : State :=
  if isNumeral w.code then finishStroke 0 .numeral (numeralDescriptor w.code) w s
  else finishStroke 0 .raw (rawDescriptor w.code) w s

/-- The slot that probe step `j` visits (R24). -/
def slotIndex (p : Port) (key : List StrokeCode) (j : Nat) : Nat :=
  (bucket p.bits key + j) % 2 ^ p.bits

/-- R25, R26: a slot read starts, and the watchdog timer is loaded. -/
def startRead (key : List StrokeCode) (j : Nat) (w : Work) (s : State) : State :=
  (s.setPort
    { s.port with
      read := .slot (slotIndex s.port key j)
      lookup := some { key := key, probe := j }
      watchdogTimer := some s.port.watchdog }).setEngine
    { s.engine with step := some w }

/-- R47: the candidates with fewer than `n` records of the tail are looked up, from `n - 1` down to 0, until a slot read starts; when all miss, the fallbacks follow. A lookup in DOWN (R33), and one whose first slot is in the fault table (R25), is a faulted miss at once. -/
def lookupFrom : Nat → Work → State → State
  | 0, w, s => fallback w s
  | k + 1, w, s =>
    let key := candidateKey s.engine.tail k w.code
    if s.port.up && !s.port.faults.contains (slotIndex s.port key 0) then
      startRead key 0 { w with candidate := k } s
    else lookupFrom k { w with faulted := true } s

/-- R31: a failed slot is recorded, or OVERFLOW is set when the table is full. -/
def Port.recordFault (index : Nat) (p : Port) : Port :=
  if p.faults.contains index then p
  else if p.faults.length < Config.faultEntries then { p with faults := p.faults ++ [index] }
  else { p with overflow := true }

/-- The probe moves on from step `j` (R24, R25): past the probe limit an ordinary miss, at a listed slot a faulted miss, otherwise a read. -/
def probeOn (key : List StrokeCode) (j : Nat) (w : Work) (s : State) : State :=
  if s.port.probeLimit ≤ j + 1 then lookupFrom w.candidate w s
  else if s.port.faults.contains (slotIndex s.port key (j + 1)) then
    lookupFrom w.candidate { w with faulted := true } s
  else startRead key (j + 1) w s

end Sys2Proof.Machine
end

