-- ==== Sys2Proof/Machine/Dictionary.lean ====
section
/-! DEFINITION. Chapter 2: SLOT_READ_COMPLETE, LOOKUP_WATCHDOG_EXPIRY, RECOVERY_TIMER_EXPIRY and RECOVERY_READ_COMPLETE. -/

namespace Sys2Proof.Machine

/-! ## SLOT_READ_COMPLETE -/

/-- The slot read in flight, with the lookup and the step it serves. -/
def slotRead (s : State) : Option (Nat × Lookup × Work) :=
  match s.port.read, s.port.lookup, s.engine.step with
  | .slot i, some l, some w => some (i, l, w)
  | _, _, _ => none

/-- The slot read has ended: no read in flight and the watchdog stopped. -/
def Port.endRead (p : Port) : Port :=
  { p with read := .none, lookup := none, watchdogTimer := none }

/-- R27: the 64 bytes decide the probe step. -/
def judgeRead (index : Nat) (l : Lookup) (w : Work) (bytes : List Byte) (s : State) : State :=
  match judgeSlot l.key bytes with
  | .check => lookupFrom w.candidate { w with faulted := true } (s.setPort (s.port.recordFault index))
  | .empty => lookupFrom w.candidate w s
  | .hit e => finishStroke w.candidate .entry (entryDescriptor e) w s
  | .differ => probeOn l.key l.probe w s

/-- R26: the read completes; the consecutive-timeout count becomes 0. A completion of an abandoned read is ignored. -/
def completeSlotRead (owner : ReadOwner) (bytes : List Byte) (s : State) : State :=
  match slotRead s with
  | some (i, l, w) =>
    if owner == .inFlight && bytes.length == Config.slotBytes then
      judgeRead i l w bytes (s.setPort { s.port.endRead with timeouts := 0 })
    else s
  | none => s

/-- SLOT_READ_COMPLETE (R27). -/
def execSlotReadComplete (owner : ReadOwner) (bytes : List Byte) (s : State) : Host.Outcome State Fault Refusal :=
  .next (completeSlotRead owner bytes s)

/-! ## LOOKUP_WATCHDOG_EXPIRY -/

/-- R29, R32: the count of consecutive timeouts rises, and at the fourth the port goes DOWN with the recovery timer loaded. -/
def Port.timeout (p : Port) : Port :=
  let n := saturate Config.timeoutsToDown p.timeouts
  if n = Config.timeoutsToDown then { p with timeouts := n, up := false, recoveryTimer := some Config.recoveryTime }
  else { p with timeouts := n }

/-- R26: the watchdog expires during a slot read; the slot is recorded and the lookup is a faulted miss. -/
def expireWatchdog (s : State) : State :=
  match slotRead s with
  | some (i, _, w) =>
    if s.port.watchdogTimer.due then
      lookupFrom w.candidate { w with faulted := true } (s.setPort (s.port.endRead.recordFault i).timeout)
    else s
  | none => s

/-- LOOKUP_WATCHDOG_EXPIRY (R26). -/
def execLookupWatchdogExpiry (s : State) : Host.Outcome State Fault Refusal :=
  .next (expireWatchdog s)

/-! ## RECOVERY_TIMER_EXPIRY and RECOVERY_READ_COMPLETE -/

/-- R34: a recovery read in flight is abandoned, a new one starts, and the timer is loaded again. -/
def expireRecovery (s : State) : State :=
  if !s.port.up && s.port.recoveryTimer.due then
    s.setPort { s.port with read := .recovery, recoveryTimer := some Config.recoveryTime }
  else s

/-- RECOVERY_TIMER_EXPIRY (R34). -/
def execRecoveryTimerExpiry (s : State) : Host.Outcome State Fault Refusal :=
  .next (expireRecovery s)

/-- R35: the header read back is good, and is the one the part took at start-up. -/
def recoveryGood (p : Port) (bytes : List Byte) : Bool :=
  headerSound bytes && p.acceptedCrc == some (headerCrc bytes)

/-- R35: a recovery read completes. A completion of an abandoned read is ignored (R34). -/
def completeRecovery (owner : ReadOwner) (bytes : List Byte) (s : State) : State :=
  if s.port.read == .recovery && owner == .inFlight && bytes.length == Config.headerBytes then
    if recoveryGood s.port bytes then
      s.setPort { s.port with read := .none, timeouts := 0, up := true, recoveryTimer := none }
    else s.setPort { s.port with read := .none, timeouts := 0 }
  else s

/-- RECOVERY_READ_COMPLETE (R35). -/
def execRecoveryReadComplete (owner : ReadOwner) (bytes : List Byte) (s : State) : Host.Outcome State Fault Refusal :=
  .next (completeRecovery owner bytes s)

end Sys2Proof.Machine
end

