-- ==== Sys2Proof/Machine/FloorEvents.lean ====
section
/-! DEFINITION. Chapter 9's timers, the ATTN pulse and the clock: ABSENCE_TIMER_EXPIRY, CLAIM_WINDOW_EXPIRY, PRESENCE_TIMER_EXPIRY, ATTN_PULSE_EXPIRY, STATION_CLOCK_TICK. -/

namespace Sys2Proof.Machine

/-! ## ABSENCE_TIMER_EXPIRY -/

/-- R164, R166: the view has become vacant by the absence timer. -/
def reactToVacancy (s : State) : State :=
  match s.floor.state with
  | .standby => if s.floor.armed then enterClaiming .auto s else s
  | .claiming => loadClaimWindow s
  | .live => s
  | .handing => s
  | .mute => s

/-- R160: the live station becomes NONE; epoch, view next seq and view boundary keep their values. -/
def expireAbsence (s : State) : State :=
  if s.floor.absenceTimer.due then
    reactToVacancy (s.setFloor { s.floor with view := { s.floor.view with live := none }, absenceTimer := none })
  else s

/-- ABSENCE_TIMER_EXPIRY (R160). -/
def execAbsenceTimerExpiry (s : State) : Host.Outcome State Fault Refusal :=
  .next (expireAbsence s)

/-! ## CLAIM_WINDOW_EXPIRY -/

/-- The takeover HANDOVER (R169). -/
def takeoverFrame (s : State) : Handover :=
  { epoch := match s.floor.view.epoch with | some e => e + 1 | none => 1
    successor := some s.station
    nextSeq := s.floor.view.nextSeq.getD 0
    lineTime := lineTime s }

/-- R169: the takeover is offered, the view adopts it, and the station becomes LIVE. -/
def takeFloor (s : State) : State :=
  let h := takeoverFrame s
  let s1 := offerHandover h s
  let s2 := moveView
    { live := some s.station, epoch := some h.epoch, nextSeq := some h.nextSeq, boundary := some h.nextSeq } s1
  enterLive h.epoch h.nextSeq s2

/-- R169. -/
def expireClaimWindow (s : State) : State :=
  if s.floor.claimTimer.due && s.floor.state == .claiming then boundaryIfBetween (takeFloor s) else s

/-- CLAIM_WINDOW_EXPIRY (R169). -/
def execClaimWindowExpiry (s : State) : Host.Outcome State Fault Refusal :=
  .next (expireClaimWindow s)

/-! ## PRESENCE_TIMER_EXPIRY -/

/-- R175: a PRESENCE is offered, or a CLAIM in CLAIMING, and the timer is reloaded. -/
def expirePresence (s : State) : State :=
  if s.floor.presenceTimer.due then
    let s1 := loadPresence s
    if s1.floor.state == .claiming then offerClaim false s1 else offerPresence s1
  else s

/-- PRESENCE_TIMER_EXPIRY (R175). -/
def execPresenceTimerExpiry (s : State) : Host.Outcome State Fault Refusal :=
  .next (expirePresence s)

/-! ## ATTN_PULSE_EXPIRY -/

/-- R182: the pulse timer stops. -/
def expireAttnPulse (s : State) : State :=
  if s.attnTimer.due then s.setAttnTimer none else s

/-- ATTN_PULSE_EXPIRY (R182). -/
def execAttnPulseExpiry (s : State) : Host.Outcome State Fault Refusal :=
  .next (expireAttnPulse s)

/-! ## STATION_CLOCK_TICK -/

/-- The Key Scanner's timers count down (R3). -/
def Scanner.tick (k : Scanner) : Scanner :=
  { k with
    keys := k.keys.map Line.tick
    floorLine := k.floorLine.tick
    markLine := k.markLine.tick
    releaseTimer := k.releaseTimer.tick
    durationTimer := k.durationTimer.tick }

/-- R2, R3: the clock increases by 1, wrapping, and every running timer counts down. -/
def tick (s : State) : State :=
  { s with
    clock := s.clock + 1
    startup := { s.startup with limitTimer := s.startup.limitTimer.tick }
    scanner := s.scanner.tick
    port := { s.port with watchdogTimer := s.port.watchdogTimer.tick, recoveryTimer := s.port.recoveryTimer.tick }
    engine := { s.engine with settleTimer := s.engine.settleTimer.tick }
    floor :=
      { s.floor with
        presenceTimer := s.floor.presenceTimer.tick
        absenceTimer := s.floor.absenceTimer.tick
        claimTimer := s.floor.claimTimer.tick }
    attnTimer := s.attnTimer.tick }

/-- STATION_CLOCK_TICK (R2). -/
def execStationClockTick (s : State) : Host.Outcome State Fault Refusal :=
  .next (tick s)

end Sys2Proof.Machine
end

