-- ==== Sys2Proof/Machine/Keyboard.lean ====
section
/-! DEFINITION. Chapter 1: CONTACT_CHANGE, DEBOUNCE_EXPIRY, RELEASE_WINDOW_EXPIRY and MAXIMUM_STROKE_DURATION_EXPIRY, with the chord state machine and the arrivals of the intake queue. -/

namespace Sys2Proof.Machine

/-! ## The intake queue's arrivals (R17, R18) -/

/-- The number of STROKE items held. -/
def Intake.strokes (q : Intake) : Nat :=
  q.items.countP fun i => match i.kind with | .stroke _ => true | _ => false

/-- The gap count of an item rises, saturating at 255 (R17). -/
def Item.raiseGap (i : Item) : Item :=
  { i with gap := saturate 255 i.gap }

/-- A change of the newest item of the queue. -/
def mapNewest (f : Item → Item) : List Item → List Item
  | [] => []
  | [i] => [f i]
  | i :: rest => i :: mapNewest f rest

/-- R17: a STROKE item is kept, or discarded and counted in the newest item's gap count and in the lost total. -/
def Intake.arriveStroke (code : StrokeCode) (time : Clock) (q : Intake) : Intake :=
  if q.strokes < Config.intakeStrokes ∧ q.items.length < Config.intakeItems then
    { q with items := q.items ++ [{ kind := .stroke code, time := time, gap := 0 }] }
  else { q with items := mapNewest Item.raiseGap q.items, lost := q.lost + 1 }

/-- R18: a button item is kept, or discarded with one ATTN pulse. -/
def arriveButton (kind : ItemKind) (s : State) : State :=
  if s.intake.items.length < Config.intakeItems then
    s.setIntake { s.intake with items := s.intake.items ++ [{ kind := kind, time := s.clock, gap := 0 }] }
  else requestPulse s

/-! ## The chord state machine (R7 to R14) -/

/-- R14: the stroke in progress completes and is handed over; the union empties and the state becomes IDLE with both timers stopped. -/
def completeStroke (s : State) : State :=
  let k := s.scanner
  (s.setScanner
    { k with
      chord := .idle, union := 0, releaseTimer := none, durationTimer := none
      completed := k.completed + 1 }).setIntake
    (s.intake.arriveStroke (strokeCode k.union) k.strokeTime)

/-- An accepted key-down (R8, R9, R10). A stuck key is ignored until its opening is accepted (R13). -/
def Scanner.keyDown (now : Clock) (p : Fin 24) (k : Scanner) : Scanner :=
  if KeySet.has k.stuck p then k
  else
    match k.chord with
    | .idle =>
      { k with
        chord := .chording, strokeTime := now, union := KeySet.single p
        durationTimer := some k.maxDuration }
    | .chording => { k with union := KeySet.add k.union p }
    | .releasing => { k with chord := .chording, releaseTimer := none, union := KeySet.add k.union p }

/-- An accepted key-up (R8, R9, R10, R13): the key leaves the stuck set, and in CHORDING the release window starts when the free keys are all up. -/
def Scanner.keyUp (p : Fin 24) (k : Scanner) : Scanner :=
  let k1 := { k with stuck := KeySet.remove k.stuck p }
  match k.chord with
  | .idle => k1
  | .chording =>
    if k1.freeKeysUp then { k1 with chord := .releasing, releaseTimer := some k1.releaseWindow } else k1
  | .releasing => k1

/-! ## CONTACT_CHANGE -/

/-- R4: a line's debounce state when its contact is seen closed or open. -/
def Debounce.contact (debounceTime : Nat) (closed : Bool) : Debounce → Debounce
  | .up => if closed then .closing debounceTime else .up
  | .closing left => if closed then .closing left else .up
  | .down => if closed then .down else .opening debounceTime
  | .opening left => if closed then .down else .opening left

/-- R4 and R6: before watching begins the contact moves and no line changes state. -/
def changeContact (c : Contact) (closed : Bool) (s : State) : State :=
  let l := s.scanner.line c
  s.setScanner
    (s.scanner.setLine c
      { closed := closed
        state := if s.startup.ended then l.state.contact s.scanner.debounceTime closed else l.state })

/-- CONTACT_CHANGE (R4, R5). -/
def execContactChange (c : Contact) (closed : Bool) (s : State) : Host.Outcome State Fault Refusal :=
  .next (changeContact c closed s)

/-! ## DEBOUNCE_EXPIRY -/

/-- A line takes a new debounce state. -/
def setDebounce (c : Contact) (d : Debounce) (s : State) : State :=
  s.setScanner (s.scanner.setLine c { s.scanner.line c with state := d })

/-- An accepted key-down or press (R4, R15). -/
def acceptDown (c : Contact) (s : State) : State :=
  match c with
  | .key p => s.setScanner (s.scanner.keyDown s.clock p)
  | .floor => arriveButton .floor s
  | .mark => arriveButton .mark s

/-- An accepted key-up or release (R4, R15). -/
def acceptUp (c : Contact) (s : State) : State :=
  match c with
  | .key p => s.setScanner (s.scanner.keyUp p)
  | .floor => s
  | .mark => s

/-- R4: the expiry of a line's debounce timer, when it is due. -/
def expireDebounce (c : Contact) (s : State) : State :=
  match (s.scanner.line c).state with
  | .closing 0 => acceptDown c (setDebounce c .down s)
  | .opening 0 => acceptUp c (setDebounce c .up s)
  | _ => s

/-- DEBOUNCE_EXPIRY (R4). -/
def execDebounceExpiry (c : Contact) (s : State) : Host.Outcome State Fault Refusal :=
  .next (expireDebounce c s)

/-! ## RELEASE_WINDOW_EXPIRY and MAXIMUM_STROKE_DURATION_EXPIRY -/

/-- R11: in RELEASING. -/
def expireReleaseWindow (s : State) : State :=
  if s.scanner.releaseTimer.due && s.scanner.chord == .releasing then completeStroke s else s

/-- RELEASE_WINDOW_EXPIRY (R11). -/
def execReleaseWindowExpiry (s : State) : Host.Outcome State Fault Refusal :=
  .next (expireReleaseWindow s)

/-- R12: in CHORDING the keys of the union that are DOWN join the stuck set; in RELEASING none does. -/
def Scanner.stickKeys (k : Scanner) : Scanner :=
  if k.chord == .chording then { k with stuck := k.stuck ||| (k.union &&& k.downKeys) } else k

/-- R12. -/
def expireDuration (s : State) : State :=
  if s.scanner.durationTimer.due && s.scanner.chord != .idle then
    completeStroke (s.setScanner s.scanner.stickKeys)
  else s

/-- MAXIMUM_STROKE_DURATION_EXPIRY (R12). -/
def execMaximumStrokeDurationExpiry (s : State) : Host.Outcome State Fault Refusal :=
  .next (expireDuration s)

end Sys2Proof.Machine
end

