-- ==== Sys2Proof/Machine/LineOps.lean ====
section
/-! DEFINITION. The operations of the Line Interface (chapter 6) on readings, characters and the frame in transmission. -/

namespace Sys2Proof.Machine

/-- R101: a reading updates the idle counter, which stays at 33, and the driven run, which stays at 23. -/
def LineInterface.count (level : Level) (l : LineInterface) : LineInterface :=
  match level with
  | .released => { l with idle := saturate 33 l.idle, driven := 0 }
  | .driven => { l with idle := 0, driven := saturate 23 l.driven }

/-- The frame in reception is complete (R105): lead, length, as many body characters as announced, two CRC characters. -/
def frameDone : List Byte → Bool
  | _ :: len :: rest => rest.length == len.toNat + 2
  | _ => false

/-- The data value of a character's eleven readings (R102): bits 2..9, most significant first, released read as 1. -/
def charValue (bits : List Level) : Byte :=
  BitVec.ofNat 8 (((bits.drop 1).take 8).foldl (fun acc b => acc * 2 + (if b == .released then 1 else 0)) 0)

/-- The lead mark (bit 10) is 1. -/
def charMark (bits : List Level) : Bool :=
  bits.getD 9 .driven == .released

/-- The stop bit (bit 11) is read released. -/
def charStopGood (bits : List Level) : Bool :=
  bits.getD 10 .driven == .released

/-- The levels of the frame in transmission, or none. -/
def sendingLevels (s : State) : List Level :=
  match s.feed.sending with
  | some x => x.frame.levels s.station
  | none => []

/-- The bit being sent in this bit time. -/
def bitSent (s : State) : Level :=
  (sendingLevels s).getD s.line.readBack .released

/-- The line drive of this station (R100, R111): driven only while sending a 0 bit, and released from the bit time after a mismatch. -/
def lineDrive (s : State) : Level :=
  if s.line.state == .transmitting && !s.line.mismatch then bitSent s else .released

/-- R104: a reading in IDLE or between characters begins a character when it is a start bit: driven after released. -/
def startsChar (level : Level) (l : LineInterface) : Bool :=
  level == .driven && decide (0 < l.idle)

/-- A reading while RECEIVING (R104, R105): it begins or continues a character. A character or frame whose end is due is left for its own command. A start bit read while a break-off is due (R107: an idle counter above 22 and FRAME_BREAK_OFF not yet taken) begins the next character of the frame in reception, and that break-off does not occur (DESIGN CHOICE, log entry 11). -/
def LineInterface.receive (level : Level) (l : LineInterface) : LineInterface :=
  let counted := l.count level
  if l.charBits.isEmpty then
    if startsChar level l && !frameDone l.received then { counted with charBits := [level] } else counted
  else if l.charBits.length < 11 then { counted with charBits := l.charBits ++ [level] }
  else counted

/-- A reading while TRANSMITTING (R111): compared with the bit being sent. -/
def LineInterface.compare (level : Level) (sent : Level) (total : Nat) (l : LineInterface) : LineInterface :=
  let counted := l.count level
  if l.mismatch || decide (total ≤ l.readBack) then counted
  else if level = sent then { counted with readBack := l.readBack + 1 }
  else { counted with mismatch := true }

/-- R101, R104, R111: one reading of the line. -/
def readLine (level : Level) (s : State) : State :=
  if s.startup.ended then
    match s.line.state with
    | .integrating => s.setLine (s.line.count level)
    | .fault => s.setLine (s.line.count level)
    | .idle =>
      if startsChar level s.line then
        s.setLine { s.line.count level with state := .receiving, charBits := [level] }
      else s.setLine (s.line.count level)
    | .receiving => s.setLine (s.line.receive level)
    | .transmitting => s.setLine (s.line.compare level (bitSent s) (sendingLevels s).length)
  else s

/-- R108: one dropped frame is counted, saturating at 65535. -/
def LineInterface.countError (l : LineInterface) : LineInterface :=
  { l with errors := saturate 65535 l.errors }

/-- R104: a framing error. -/
def LineInterface.framingError (l : LineInterface) : LineInterface :=
  { l.countError with state := .idle, hunting := true, received := [], charBits := [] }

/-- R105, R106: a character with lead mark 1 begins a frame, breaking one in reception. -/
def LineInterface.beginFrame (value : Byte) (l : LineInterface) : LineInterface :=
  let l1 := if l.received.isEmpty then l else l.countError
  { l1 with received := [value], charBits := [], hunting := false }

/-- R106: a character with lead mark 0 and no frame in reception. -/
def LineInterface.discardChar (l : LineInterface) : LineInterface :=
  let l1 := if l.hunting then l else { l.countError with hunting := true }
  { l1 with state := .idle, charBits := [] }

/-- R105: a character with lead mark 0 joins the frame in reception; a length of 61..255 drops it (log entry 13). -/
def LineInterface.extendFrame (value : Byte) (l : LineInterface) : LineInterface :=
  if l.received.length = 1 ∧ 60 < value.toNat then
    { l.countError with state := .idle, hunting := true, received := [], charBits := [] }
  else { l with received := l.received ++ [value], charBits := [] }

/-- R104, R105, R106: the character whose stop bit has been read. -/
def LineInterface.takeChar (l : LineInterface) : LineInterface :=
  if !charStopGood l.charBits then l.framingError
  else if charMark l.charBits then l.beginFrame (charValue l.charBits)
  else if l.received.isEmpty then l.discardChar
  else l.extendFrame (charValue l.charBits)

/-- The opposite level: what a mismatch reads. -/
def flipLevel : Level → Level
  | .driven => .released
  | .released => .driven

/-- The mismatch is of the first kind inside the lead character (R111, R113). -/
def lossFound (s : State) : Bool :=
  s.line.state == .transmitting && s.line.mismatch
    && decide (s.line.readBack < 11) && bitSent s == .released

/-- The mismatch is after the lead character, or of the second kind (R111, R114). -/
def collisionFound (s : State) : Bool :=
  s.line.state == .transmitting && s.line.mismatch
    && !(decide (s.line.readBack < 11) && bitSent s == .released)

/-- R113, R114: the station turns to receiving; the characters read back are the frame in reception, and the bits of the current one, the mismatched reading included, are the character being received (log entry 26). -/
def turnToReceiving (s : State) : LineInterface :=
  let whole := s.line.readBack / 11
  { s.line with
    state := .receiving
    received := (match s.feed.sending with | some x => (x.frame.chars s.station).take whole | none => [])
    charBits := ((sendingLevels s).drop (whole * 11)).take (s.line.readBack % 11) ++ [flipLevel (bitSent s)]
    readBack := 0
    mismatch := false }

end Sys2Proof.Machine
end

