-- ==== Sys2Proof/Machine/LineEvents.lean ====
section
/-! DEFINITION. Chapter 6, and replay generation of chapter 8: LINE_READING, CHARACTER_TAKEN_IN, FRAME_COMPLETE, FRAME_BREAK_OFF, HUNTING_FLAG_CLEAR, LINE_FAULT, INTEGRATION_END, TRANSMIT_BEGIN, FRAME_SENT_WHOLE, LOSS_OF_ARBITRATION, BODY_COLLISION, REPLAY_GENERATION. -/

namespace Sys2Proof.Machine

/-! ## Readings and characters -/

/-- LINE_READING (R101). -/
def execLineReading (level : Level) (s : State) : Host.Outcome State Fault Refusal :=
  .next (readLine level s)

/-- R104: at the stop bit of a received character. -/
def takeCharacter (s : State) : State :=
  if s.line.state == .receiving && s.line.charBits.length == 11 then s.setLine s.line.takeChar else s

/-- CHARACTER_TAKEN_IN (R104). -/
def execCharacterTakenIn (s : State) : Host.Outcome State Fault Refusal :=
  .next (takeCharacter s)

/-- R106: the idle counter reaches 14. -/
def clearHunting (s : State) : State :=
  if s.line.hunting && decide (14 ≤ s.line.idle) then s.setLine { s.line with hunting := false } else s

/-- HUNTING_FLAG_CLEAR (R106). -/
def execHuntingFlagClear (s : State) : Host.Outcome State Fault Refusal :=
  .next (clearHunting s)

/-- R107: the idle counter exceeds 22 between characters of a frame in reception. The break-off is due while the counter stands there; a start bit read first takes it away (DESIGN CHOICE, log entry 11). -/
def brokenOff (l : LineInterface) : Bool :=
  l.state == .receiving && !l.received.isEmpty && !frameDone l.received && l.charBits.isEmpty && decide (22 < l.idle)

/-- R107: the frame is dropped. -/
def breakOff (s : State) : State :=
  if brokenOff s.line then s.setLine { s.line.countError with state := .idle, received := [] } else s

/-- FRAME_BREAK_OFF (R107). -/
def execFrameBreakOff (s : State) : Host.Outcome State Fault Refusal :=
  .next (breakOff s)

/-! ## FRAME_COMPLETE -/

/-- The kind field of a lead (R121). -/
def leadKind (lead : Byte) : Nat :=
  lead.toNat / 16

/-- The station field of a lead (R121). -/
def leadStation (lead : Byte) : Station :=
  ⟨lead.toNat % 16, Nat.mod_lt _ (by decide)⟩

/-- R108: the frame passes all three checks. `rest` is everything after the lead. -/
def frameValid (lead : Byte) (rest : List Byte) : Bool :=
  let counted := rest.take (rest.length - 2)
  rest.drop (rest.length - 2) == be16 (crc counted)
    && decide (leadKind lead ≤ 9)
    && bodyLengthSuits (leadKind lead) (counted.length - 1)

/-- The body characters of a complete frame: everything after lead and length, less the two CRC characters. -/
def frameBody (rest : List Byte) : List Byte :=
  (rest.drop 1).take (rest.length - 3)

/-- R109: a REWIND is acted on by the Feed Unit while LIVE (R149). -/
def feedTakes (f : Frame) (s : State) : State :=
  match f with
  | .rewind q => if s.floor.state == .live then s.setFeed (s.feed.rewind q) else s
  | _ => s

/-- R109, R124: a valid frame is a duplicate, or is handed on; a malformed one is acted on by no block. -/
def handOn (lead : Byte) (rest : List Byte) (s : State) : State :=
  if leadKind lead ≠ 8 ∧ leadStation lead = s.station then enterMute s
  else
    match parseFrame (leadKind lead) (frameBody rest) with
    | some f => feedTakes f (floorTakes (leadStation lead) f s)
    | none => s

/-- R105, R108: the frame in reception is judged; the line state becomes IDLE. -/
def completeFrame (s : State) : State :=
  if s.line.state == .receiving && s.line.charBits.isEmpty && frameDone s.line.received then
    match s.line.received with
    | [] => s
    | lead :: rest =>
      let idle := { s.line with state := .idle, received := [] }
      if frameValid lead rest then boundaryIfBetween (handOn lead rest (s.setLine idle))
      else s.setLine idle.countError
  else s

/-- FRAME_COMPLETE (R108). -/
def execFrameComplete (s : State) : Host.Outcome State Fault Refusal :=
  .next (completeFrame s)

/-! ## LINE_FAULT and INTEGRATION_END -/

/-- R117: found in IDLE; in INTEGRATING and FAULT nothing changes (log entry 16 for the other states). -/
def findLineFault (s : State) : State :=
  if s.line.state == .idle && decide (22 < s.line.driven) then
    s.setLine { s.line with state := .fault, hunting := false }
  else s

/-- LINE_FAULT (R117). -/
def execLineFault (s : State) : Host.Outcome State Fault Refusal :=
  .next (findLineFault s)

/-- R156, R164, R166, R181: the Floor Controller takes the report of the end of start-up integration. -/
def integrationReported (s : State) : State :=
  let s1 := loadClaimWindow (loadPresence s)
  if s1.floor.state == .standby && s1.floor.armed && s1.floor.view.live.isNone then enterClaiming .auto s1 else s1

/-- R116: 33 quiet bit times end integration; at start-up the end is reported. -/
def endIntegration (s : State) : State :=
  if s.startup.ended && decide (33 ≤ s.line.idle) then
    match s.line.state with
    | .integrating =>
      integrationReported (s.setLine { s.line with state := .idle, hunting := false, integrated := true })
    | .fault => s.setLine { s.line with state := .idle, hunting := false }
    | .idle => s
    | .receiving => s
    | .transmitting => s
  else s

/-- INTEGRATION_END (R116). -/
def execIntegrationEnd (s : State) : Host.Outcome State Fault Refusal :=
  .next (endIntegration s)

/-! ## Sending -/

/-- R110: the three conditions, in IDLE. -/
def transmitReady (s : State) : Bool :=
  s.line.state == .idle && decide (14 ≤ s.line.idle) && !s.feed.waiting.isEmpty && s.floor.state != .mute

/-- R110, R141: the head frame begins transmission. -/
def beginTransmission (s : State) : State :=
  if transmitReady s then
    (s.setFeed (s.feed.begun (presenceFields s))).setLine
      { s.line with state := .transmitting, readBack := 0, mismatch := false }
  else s

/-- TRANSMIT_BEGIN (R110). -/
def execTransmitBegin (s : State) : Host.Outcome State Fault Refusal :=
  .next (beginTransmission s)

/-- The hand-over HANDOVER of this tenure, in HANDING (R174; log entry 17). -/
def isHandOver (h : Handover) (s : State) : Bool :=
  s.floor.state == .handing && h.epoch == s.feed.epoch + 1

/-- R174: the station leaves HANDING by its hand-over. -/
def leaveHanding (h : Handover) (s : State) : State :=
  let s1 := leaveTenure s
  let s2 := if h.successor.isNone then s1.setFloor { s1.floor with armed := false } else s1
  applyOwnHandover h s2

/-- R173: once the takeover is sent whole, a kept-back hand-over is offered. -/
def releaseKeptBack (h : Handover) (s : State) : State :=
  match s.floor.keptBack with
  | some kept =>
    if h.successor = some s.station then
      offerHandover kept (s.setFloor { s.floor with keptBack := none })
    else s
  | none => s

/-- R162, R173, R174: a HANDOVER of this station has been sent whole. -/
def handoverSent (h : Handover) (s : State) : State :=
  if isHandOver h s then leaveHanding h s else releaseKeptBack h (applyOwnHandover h s)

/-- What the Floor Controller does with the frame sent (R112). -/
def frameSent (f : Frame) (s : State) : State :=
  match f with
  | .handover h => handoverSent h s
  | _ => s

/-- The last stop bit has been read back without a mismatch (R112). -/
def sentWholeFound (s : State) : Bool :=
  s.line.state == .transmitting && !s.line.mismatch && s.line.readBack == (sendingLevels s).length

/-- R112, R141, R175: the frame leaves the queue, the body-collision count becomes 0, and the presence timer is reloaded. -/
def sendWhole (s : State) : State :=
  match s.feed.sending with
  | some x =>
    if sentWholeFound s then
      let s1 := s.setLine { s.line with state := .idle, readBack := 0, collisions := 0 }
      let s2 := s1.setFeed s1.feed.sentWhole
      boundaryIfBetween (loadPresence (frameSent x.frame s2))
    else s
  | none => s

/-- FRAME_SENT_WHOLE (R112). -/
def execFrameSentWhole (s : State) : Host.Outcome State Fault Refusal :=
  .next (sendWhole s)

/-- R113, R115: the frame is handed back and the station receives the winner's frame. -/
def loseArbitration (s : State) : State :=
  if lossFound s then (s.setFeed s.feed.handedBack).setLine (turnToReceiving s) else s

/-- LOSS_OF_ARBITRATION (R113). -/
def execLossOfArbitration (s : State) : Host.Outcome State Fault Refusal :=
  .next (loseArbitration s)

/-- R114, R115: the frame is handed back and the body-collision count rises; at 3 the station goes MUTE. -/
def collide (s : State) : State :=
  if collisionFound s then
    let n := saturate 3 s.line.collisions
    let s1 := (s.setFeed s.feed.handedBack).setLine { turnToReceiving s with collisions := n }
    if n = 3 then boundaryIfBetween (enterMute s1) else s1
  else s

/-- BODY_COLLISION (R114). -/
def execBodyCollision (s : State) : Host.Outcome State Fault Refusal :=
  .next (collide s)

/-! ## REPLAY_GENERATION -/

/-- R150: LIVE, an empty queue, and a GAP pending or the cursor present. -/
def replayReady (s : State) : Bool :=
  s.floor.state == .live && s.feed.queueEmpty && (s.feed.gap.isSome || s.feed.cursor.isSome)

/-- R150. -/
def generateReplay (s : State) : State :=
  if replayReady s then s.setFeed s.feed.generate else s

/-- REPLAY_GENERATION (R150). -/
def execReplayGeneration (s : State) : Host.Outcome State Fault Refusal :=
  .next (generateReplay s)

end Sys2Proof.Machine
end

