-- ==== Sys2Proof/Machine/Loader.lean ====
section
/-! DEFINITION. Chapter 10, start-up: RESET, HEADER_READ_COMPLETE and STARTUP_LIMIT_EXPIRY. -/

namespace Sys2Proof.Machine

/-! ## RESET -/

/-- R178: every block at its reset values, the straps read, the header read started. The contacts are pins and stand as they are; the commands that wait still wait. -/
def resetPart (straps : BitVec 4) (s : State) : State :=
  State.afterReset ⟨straps.toNat, straps.isLt⟩ s.scanner.keys s.scanner.floorLine s.scanner.markLine s.pending

/-- RESET (R178). -/
def execReset (straps : BitVec 4) (s : State) : Host.Outcome State Fault Refusal :=
  .next (resetPart straps s)

/-! ## The end of start-up (R181) -/

/-- R6: a line as watching begins, its contact taken without debounce. -/
def Line.watch (l : Line) : Line :=
  { l with state := if l.closed then .down else .up }

/-- R6, R13: watching begins, and the keys found closed join the stuck set. -/
def Scanner.beginWatching (p : Params) (k : Scanner) : Scanner :=
  { k with
    keys := k.keys.map Line.watch
    floorLine := k.floorLine.watch
    markLine := k.markLine.watch
    stuck := BitVec.ofFnLE fun i : Fin 24 => k.keys[i].closed
    debounceTime := p.debounceTime, releaseWindow := p.releaseWindow, maxDuration := p.maxDuration }

/-- R20: the port's parameters; UP after an accepted header, DOWN with the recovery timer running after a defaulted start. -/
def Port.settle (p : Params) (valid : Bool) (q : Port) : Port :=
  { q with
    up := valid
    base := p.base, bits := p.bits, probeLimit := p.probeLimit, watchdog := p.watchdog
    acceptedCrc := p.acceptedCrc, labels := p.labels
    recoveryTimer := if valid then none else some Config.recoveryTime }

/-- R40: the engine's parameters, and the settle idle timer loaded. -/
def Engine.settle (p : Params) (e : Engine) : Engine :=
  { e with depth := p.depth, settleIdle := p.settleIdle, settleTimer := some p.settleIdle }

/-- R156: the Floor Controller's parameters, and the armed flag as AUTO_CLAIM is (R164). -/
def Floor.settle (p : Params) (f : Floor) : Floor :=
  { f with
    autoClaim := p.autoClaim, armed := p.autoClaim
    presencePeriod := p.presencePeriod, absenceTimeout := p.absenceTimeout, claimWindow := p.claimWindow }

/-- R181: each block is handed its settled values and start-up ends; the Line Interface starts integration at the rate settled. -/
def endStartup (p : Params) (valid : Bool) (s : State) : State :=
  { s with
    startup := { reading := false, limitTimer := none, ended := true, headerValid := valid, defaulted := !valid }
    scanner := s.scanner.beginWatching p
    port := s.port.settle p valid
    engine := s.engine.settle p
    line := { s.line with rate := p.rate, state := .integrating }
    floor := s.floor.settle p }

/-- R179: a defaulted start. -/
def defaultedStart (s : State) : State :=
  endStartup defaultParams false s

/-! ## HEADER_READ_COMPLETE and STARTUP_LIMIT_EXPIRY -/

/-- R179: the start-up header read completes and its bytes are judged. The bytes of an abandoned read are discarded. -/
def completeHeaderRead (owner : ReadOwner) (bytes : List Byte) (s : State) : State :=
  if s.startup.reading && owner == .inFlight && bytes.length == Config.headerBytes then
    match acceptHeader bytes with
    | some p => endStartup p true s
    | none => defaultedStart s
  else s

/-- HEADER_READ_COMPLETE (R179). -/
def execHeaderReadComplete (owner : ReadOwner) (bytes : List Byte) (s : State) : Host.Outcome State Fault Refusal :=
  .next (completeHeaderRead owner bytes s)

/-- R179: the limit expires first; the read is abandoned and the header is invalid. -/
def expireStartupLimit (s : State) : State :=
  if s.startup.reading && s.startup.limitTimer.due then defaultedStart s else s

/-- STARTUP_LIMIT_EXPIRY (R179). -/
def execStartupLimitExpiry (s : State) : Host.Outcome State Fault Refusal :=
  .next (expireStartupLimit s)

end Sys2Proof.Machine
end

