-- ==== Sys2Proof/Machine/Translation.lean ====
section
/-! DEFINITION. Chapters 3 and 5: STEP_BEGIN and SETTLE_IDLE_EXPIRY. -/

namespace Sys2Proof.Machine

/-! ## Retraction (R84 to R92) -/

/-- R84, R85, R86: the newest record goes, the context is restored, its first strokes fill the replay list, and in LIVE mode a cut is handed. -/
def retractStroke (time : Clock) (s : State) : State :=
  match s.engine.tail.getLast? with
  | none => refuse s
  | some r =>
    let s1 := removeNewest 1 s
    let s2 :=
      if 1 < r.strokes.length then
        s1.setEngine { s1.engine with replay := r.strokes.dropLast, replayTime := time }
      else s1
    handCutAt r.seq s2

/-- R91, R92: the newest min(d, L) records go whole, with one cut in LIVE mode; a count past the tail is refused once. -/
def wordRetract (count : Nat) (s : State) : State :=
  let k := min count s.engine.tail.length
  let s1 := handCutAt (cutPoint k s) (removeNewest k s)
  if s.engine.tail.length < count then refuse s1 else s1

/-! ## The kinds of work (R42) -/

/-- R46, R47: an ordinary stroke step looks up its candidates from `m` down to 0. -/
def strokeStep (code : StrokeCode) (time : Clock) (gap : Nat) (s : State) : State :=
  let m := eligible 7 s.engine.tail.reverse
  lookupFrom (m + 1) { code := code, time := time, gap := gap, candidate := m, faulted := false } s

/-- R45: a stroke is classified by its code. -/
def takeStroke (code : StrokeCode) (time : Clock) (gap : Nat) (s : State) : State :=
  match strokeShape code with
  | .retract => endStep (reportGap gap time (retractStroke time s))
  | .wordRetract count => endStep (reportGap gap time (wordRetract count s))
  | .ordinary => strokeStep code time gap s

/-- R58: a MARK item. -/
def markItem (time : Clock) (s : State) : State :=
  if s.engine.mode == .live then
    let s1 := settleLocal s
    if feedOpen s1 then handMark time s1 else refuse s1
  else refuse s

/-- R42: the work of one intake item. -/
def takeItem (i : Item) (s : State) : State :=
  match i.kind with
  | .stroke code => takeStroke code i.time i.gap s
  | .mark => endStep (reportGap i.gap i.time (markItem i.time s))
  | .floor => endStep (reportGap i.gap i.time (floorItem s))

/-! ## STEP_BEGIN -/

/-- R41: the four conditions. -/
def stepReady (s : State) : Bool :=
  s.engine.step.isNone && s.startup.ended
    && (!s.engine.replay.isEmpty || !s.intake.items.isEmpty)
    && (!s.floor.state.inTenure || decide (Config.stepPlaces ≤ s.feed.free))

/-- R41, R43: the settle idle timer stops and the step mode is fixed. -/
def openStep (s : State) : State :=
  s.setEngine
    { s.engine with
      settleTimer := none
      mode := if s.floor.state == .live then .live else .shadow }

/-- R19: the oldest item is taken from the queue. -/
def Intake.take (q : Intake) (i : Item) (rest : List Item) : Intake :=
  { q with
    items := rest
    taken := match i.kind with | .stroke _ => q.taken + 1 | _ => q.taken }

/-- R41, R88: a stroke of the replay list comes first, then the oldest intake item. -/
def beginStep (s : State) : State :=
  if stepReady s then
    let s1 := openStep s
    match s.engine.replay with
    | code :: rest =>
      takeStroke code s.engine.replayTime 0 (s1.setEngine { s1.engine with replay := rest })
    | [] =>
      match s.intake.items with
      | i :: rest => takeItem i (s1.setIntake (s1.intake.take i rest))
      | [] => s
  else s

/-- STEP_BEGIN (R41). -/
def execStepBegin (s : State) : Host.Outcome State Fault Refusal :=
  .next (beginStep s)

/-! ## SETTLE_IDLE_EXPIRY -/

/-- R57: the whole tail settles, a pause is reported, and the timer is loaded again. -/
def expireSettleIdle (s : State) : State :=
  if s.engine.settleTimer.due && s.engine.step.isNone then
    let s1 := boundaryWork (pauseReport (settleToEnd s))
    s1.setEngine { s1.engine with settleTimer := some s1.engine.settleIdle }
  else s

/-- SETTLE_IDLE_EXPIRY (R57). -/
def execSettleIdleExpiry (s : State) : Host.Outcome State Fault Refusal :=
  .next (expireSettleIdle s)

end Sys2Proof.Machine
end

