-- ==== Sys2Proof/Machine/Dispatch.lean ====
section
/-! DEFINITION. One arm per command: its meaning. -/

namespace Sys2Proof.Machine

def exec (i : Instr) (s : State) : Host.Outcome State Fault Refusal :=
  match i with
  | .reset straps => Sys2Proof.Machine.execReset straps s
  | .headerReadComplete owner bytes => Sys2Proof.Machine.execHeaderReadComplete owner bytes s
  | .startupLimitExpiry => Sys2Proof.Machine.execStartupLimitExpiry s
  | .contactChange contact closed => Sys2Proof.Machine.execContactChange contact closed s
  | .debounceExpiry contact => Sys2Proof.Machine.execDebounceExpiry contact s
  | .releaseWindowExpiry => Sys2Proof.Machine.execReleaseWindowExpiry s
  | .maximumStrokeDurationExpiry => Sys2Proof.Machine.execMaximumStrokeDurationExpiry s
  | .stepBegin => Sys2Proof.Machine.execStepBegin s
  | .slotReadComplete owner bytes => Sys2Proof.Machine.execSlotReadComplete owner bytes s
  | .lookupWatchdogExpiry => Sys2Proof.Machine.execLookupWatchdogExpiry s
  | .recoveryTimerExpiry => Sys2Proof.Machine.execRecoveryTimerExpiry s
  | .recoveryReadComplete owner bytes => Sys2Proof.Machine.execRecoveryReadComplete owner bytes s
  | .settleIdleExpiry => Sys2Proof.Machine.execSettleIdleExpiry s
  | .huntingFlagClear => Sys2Proof.Machine.execHuntingFlagClear s
  | .frameComplete => Sys2Proof.Machine.execFrameComplete s
  | .frameBreakOff => Sys2Proof.Machine.execFrameBreakOff s
  | .lineFault => Sys2Proof.Machine.execLineFault s
  | .integrationEnd => Sys2Proof.Machine.execIntegrationEnd s
  | .transmitBegin => Sys2Proof.Machine.execTransmitBegin s
  | .frameSentWhole => Sys2Proof.Machine.execFrameSentWhole s
  | .lossOfArbitration => Sys2Proof.Machine.execLossOfArbitration s
  | .bodyCollision => Sys2Proof.Machine.execBodyCollision s
  | .replayGeneration => Sys2Proof.Machine.execReplayGeneration s
  | .absenceTimerExpiry => Sys2Proof.Machine.execAbsenceTimerExpiry s
  | .claimWindowExpiry => Sys2Proof.Machine.execClaimWindowExpiry s
  | .presenceTimerExpiry => Sys2Proof.Machine.execPresenceTimerExpiry s
  | .attnPulseExpiry => Sys2Proof.Machine.execAttnPulseExpiry s
  | .lineReading level => Sys2Proof.Machine.execLineReading level s
  | .characterTakenIn => Sys2Proof.Machine.execCharacterTakenIn s
  | .stationClockTick => Sys2Proof.Machine.execStationClockTick s

end Sys2Proof.Machine
end

