-- ==== Sys2Proof/Safety.lean ====
section
/-! DEFINITION. What holds of the part at every moment between two commands: the invariants the statements are about, block by block, and the ranges of the settings. -/

namespace Sys2Proof.Machine

/-! ## Settings (R135) -/

/-- A label of the speaker label table (R36): 0 to 15 printable characters. -/
def LabelSound (label : List Byte) : Prop :=
  label.length ≤ 15 ∧ ∀ b ∈ label, printable b = true

/-- R135: every value the part holds lies in the range of the table; R36: so do the labels. -/
structure SettingsSound (s : State) : Prop where
  bits : 10 ≤ s.port.bits ∧ s.port.bits ≤ 16
  base : s.port.base % 4096 = 0 ∧ 4096 ≤ s.port.base
  probeLimit : 1 ≤ s.port.probeLimit ∧ s.port.probeLimit ≤ 16
  watchdog : 1 ≤ s.port.watchdog ∧ s.port.watchdog ≤ 15
  labels : ∀ k : Fin 16, LabelSound s.port.labels[k]
  depth : 4 ≤ s.engine.depth ∧ s.engine.depth ≤ 24
  settleIdle : 500 ≤ s.engine.settleIdle ∧ s.engine.settleIdle ≤ 10000 ∧ s.engine.settleIdle % 100 = 0
  presencePeriod : 200 ≤ s.floor.presencePeriod ∧ s.floor.presencePeriod ≤ 2000
  absenceTimeout : 1000 ≤ s.floor.absenceTimeout ∧ s.floor.absenceTimeout ≤ 10000
    ∧ 3 * s.floor.presencePeriod ≤ s.floor.absenceTimeout
  claimWindow : 100 ≤ s.floor.claimWindow ∧ s.floor.claimWindow ≤ 1000
  debounceTime : 1 ≤ s.scanner.debounceTime ∧ s.scanner.debounceTime ≤ 8
  releaseWindow : 5 ≤ s.scanner.releaseWindow ∧ s.scanner.releaseWindow ≤ 40
  maxDuration : 500 ≤ s.scanner.maxDuration ∧ s.scanner.maxDuration ≤ 4000

/-- What the header settles, and the station number: fixed from the end of start-up to the next reset (section 0.2, R20, R178). -/
def settings (s : State) : Station × (Nat × Nat × Nat × Nat) × Option (BitVec 16) × Vector (List Byte) 16 × (Nat × Nat)
    × LineRate × Bool × (Nat × Nat × Nat) × (Nat × Nat × Nat) × Bool × Bool :=
  (s.station, (s.port.base, s.port.bits, s.port.probeLimit, s.port.watchdog), s.port.acceptedCrc, s.port.labels,
    (s.engine.depth, s.engine.settleIdle), s.line.rate, s.floor.autoClaim,
    (s.floor.presencePeriod, s.floor.absenceTimeout, s.floor.claimWindow),
    (s.scanner.debounceTime, s.scanner.releaseWindow, s.scanner.maxDuration), s.startup.headerValid, s.startup.defaulted)

/-! ## Start-up (R178 to R181) -/

/-- Start-up, and the blocks that wait for its end. -/
structure StartupSound (s : State) : Prop where
  reading : s.startup.reading = !s.startup.ended
  limit : s.startup.limitTimer.isSome = s.startup.reading
  judged : s.startup.ended = true → s.startup.headerValid = !s.startup.defaulted
  unjudged : s.startup.ended = false → s.startup.headerValid = false ∧ s.startup.defaulted = false
  linesUp : s.startup.ended = false → ∀ c, (s.scanner.line c).state = .up
  keysIdle : s.startup.ended = false → s.scanner.chord = .idle ∧ s.intake.items = []
  engineIdle : s.startup.ended = false → s.engine.step = none ∧ s.engine.tail = [] ∧ s.engine.replay = []
  portIdle : s.startup.ended = false → s.port.read = .none ∧ s.port.up = true ∧ s.port.faults = []
  lineIdle : s.startup.ended = false → s.line.state = .integrating ∧ s.line.integrated = false ∧ s.line.hunting = false
  floorIdle : s.startup.ended = false → s.floor.state = .standby ∧ s.floor.view.live = none ∧ s.floor.presenceTimer = none

/-! ## Key Scanner and Intake Queue (chapter 1) -/

/-- R7 to R13: every key that is down is in the stuck set or in the union; a stuck key is down; in RELEASING the free keys are all up; the union is empty, and both timers stopped, exactly in IDLE. -/
structure ScannerSound (k : Scanner) : Prop where
  downKnown : ∀ p : Fin 24, k.keys[p].state.acceptedDown = true → KeySet.has k.stuck p = true ∨ KeySet.has k.union p = true
  stuckDown : ∀ p : Fin 24, KeySet.has k.stuck p = true → k.keys[p].state.acceptedDown = true
  freeUp : k.chord = .releasing → ∀ p : Fin 24, k.keys[p].state.acceptedDown = true → KeySet.has k.stuck p = true
  idleUnion : k.chord = .idle ↔ k.union = 0
  release : k.releaseTimer.isSome = true ↔ k.chord = .releasing
  duration : k.durationTimer.isSome = true ↔ k.chord ≠ .idle

/-- R16, R17, R18: at most 32 items, at most 30 of them strokes, gap counts of at most 255, and no stroke code of 0 (R1). -/
structure IntakeSound (q : Intake) : Prop where
  items : q.items.length ≤ 32
  strokes : q.strokes ≤ 30
  gaps : ∀ i ∈ q.items, i.gap ≤ 255
  codes : ∀ i ∈ q.items, ∀ code, i.kind = .stroke code → code ≠ 0

/-- R19: the completed strokes are those taken, those held and those lost, modulo 2^32. -/
def StrokeBalance (s : State) : Prop :=
  s.scanner.completed = s.intake.taken + BitVec.ofNat 32 s.intake.strokes + s.intake.lost

/-! ## Dictionary Port (chapter 2) -/

/-- The lookup in progress beside the step it serves: the read in flight is of the slot its probe step visits, which is not listed, and its key is the candidate in hand (R24, R25, R47). -/
def LookupSound (s : State) (l : Lookup) (w : Work) : Prop :=
  s.port.read = .slot (slotIndex s.port l.key l.probe)
    ∧ slotIndex s.port l.key l.probe ∉ s.port.faults
    ∧ l.probe < s.port.probeLimit
    ∧ l.key = candidateKey s.engine.tail w.candidate w.code
    ∧ w.candidate ≤ eligible 7 s.engine.tail.reverse

/-- R26 to R35, and R42: a step waits only for a slot read. -/
structure PortSound (s : State) : Prop where
  faultCount : s.port.faults.length ≤ 8
  faultOnce : s.port.faults.Nodup
  faultRange : ∀ i ∈ s.port.faults, i < 2 ^ s.port.bits
  timeouts : s.port.timeouts ≤ 4
  fourDown : s.port.timeouts = 4 → s.port.up = false
  recovery : s.port.recoveryTimer.isSome = !s.port.up
  recoveryDown : s.port.read = .recovery → s.port.up = false
  waiting : s.port.lookup.isSome = s.engine.step.isSome
  watchdog : s.port.watchdogTimer.isSome = s.engine.step.isSome
  between : s.engine.step = none → ∀ i, s.port.read ≠ .slot i
  stepUp : s.engine.step.isSome = true → s.port.up = true
  serving : ∀ l w, s.port.lookup = some l → s.engine.step = some w → LookupSound s l w

/-! ## Translation Engine (chapters 3 to 5) -/

/-- A stroke that a record, the replay list or a stroke step may hold (R22, R87): not 0, and no retraction shape. -/
def StrokeSound (code : StrokeCode) : Prop :=
  code ≠ 0 ∧ strokeShape code = .ordinary

/-- A character of a segment text (R78): a line feed or printable. -/
def textChar (b : Byte) : Bool :=
  b == 0x0A#8 || printable b

/-- R38, R78: 1 to 8 strokes, and at most 51 characters of text. -/
structure RecordSound (r : Record) : Prop where
  strokes : 1 ≤ r.strokes.length ∧ r.strokes.length ≤ 8
  codes : ∀ c ∈ r.strokes, StrokeSound c
  text : r.text.length ≤ 51
  chars : ∀ b ∈ r.text, textChar b = true

/-- R39, R40, R44, R56, R63 to R66, R87. -/
structure EngineSound (s : State) : Prop where
  depth : s.engine.tail.length ≤ s.engine.depth
  records : ∀ r ∈ s.engine.tail, RecordSound r
  replay : s.engine.replay.length ≤ 7
  replayCodes : ∀ c ∈ s.engine.replay, StrokeSound c
  work : ∀ w, s.engine.step = some w → StrokeSound w.code ∧ w.gap ≤ 255
  settleTimer : s.engine.settleTimer.isSome = (s.startup.ended && s.engine.step.isNone)
  refusals : s.engine.refusals ≤ 65535
  fullSettle : s.engine.fullSettle = false
  settleOnEntry : s.engine.settleOnEntry = true → s.engine.step.isSome = true
  shadowSeqs : s.floor.state.inTenure = false → ∀ r ∈ s.engine.tail, r.seq = none
  shadowStep : s.engine.step.isSome = true → s.engine.mode = .live →
    s.floor.state = .live ∧ s.engine.settleOnEntry = false
  liveStep : s.engine.step.isSome = true → s.floor.state = .live → s.engine.settleOnEntry = false → s.engine.mode = .live
  muteTail : s.floor.state = .mute → s.engine.step = none → s.engine.tail = []

/-! ## Line Interface and the outbound queue (chapters 6 and 8) -/

/-- R101, R103 to R108, R111: the counts, and what each line state holds. -/
structure LineSound (s : State) : Prop where
  idle : s.line.idle ≤ 33
  driven : s.line.driven ≤ 23
  oneRun : s.line.idle = 0 ∨ s.line.driven = 0
  collisions : s.line.collisions ≤ 3
  errors : s.line.errors ≤ 65535
  charBits : s.line.charBits.length ≤ 11
  receiving : s.line.state ≠ .receiving → s.line.received = [] ∧ s.line.charBits = []
  transmitting : s.line.state = .transmitting ↔ s.feed.sending.isSome = true
  quiet : s.line.state ≠ .transmitting → s.line.readBack = 0 ∧ s.line.mismatch = false
  readBack : s.line.readBack ≤ (sendingLevels s).length
  unread : s.line.mismatch = true → s.line.readBack < (sendingLevels s).length
  integrated : s.line.integrated = true → s.startup.ended = true
  sendingFilled : ∀ x, s.feed.sending = some x → x.frame ≠ .presence none

/-- R140, R142, R153 to R155: the places of the queue, and the frames that may wait in each floor state. -/
structure QueueSound (s : State) : Prop where
  places : s.feed.places ≤ 16
  held : s.feed.held.isSome = true → s.feed.places = 16
  outside : s.floor.state.inTenure = false →
    s.feed.ring = [] ∧ s.feed.cursor = none ∧ s.feed.gap = none
      ∧ ∀ f ∈ s.feed.waiting, f.ofTenure = true → f.isHandover = true
  handing : s.floor.state = .handing → s.feed.cursor = none ∧ s.feed.gap = none ∧ ∀ f ∈ s.feed.waiting, f.isReplay = false
  handingSent : s.floor.state = .handing → ∀ x, s.feed.sending = some x → x.frame.isReplay = true → x.withdrawn = true
  outsideSent : s.floor.state.inTenure = false → ∀ x, s.feed.sending = some x → x.frame.ofTenure = true →
    x.frame.isHandover = false → x.withdrawn = true
  mute : s.floor.state = .mute → s.feed.waiting = [] ∧ s.feed.sending = none ∧ s.feed.held = none

/-- A frame whose fields its layout allows (R123 to R130) and that is ready to be sent: no field value that would make it malformed (R124), and no PRESENCE still without its fields (R141). -/
def FrameSound : Frame → Prop
  | .segment _ _ seg =>
    match seg.body with
    | .text chars _ => chars.length ≤ 51
    | .mark _ => True
    | .lost count => count ≠ 0
  | .presence none => False
  | .presence (some p) => p.faultEntries.toNat ≤ 8
  | .gap _ fromSeq toSeq => seqNewer toSeq fromSeq = true
  | .handover _ => True
  | .claim _ _ => True
  | .cut _ _ => True
  | .settle _ _ => True
  | .rewind _ => True

/-! ## The tenure (R64, R138, R149, R150) -/

/-- The seqs of `n` consecutive segments that end just before `next`. -/
def seqRun (next : Seq) (n : Nat) : List Seq :=
  (List.range n).map fun i => next - BitVec.ofNat 16 (n - i)

/-- The seqs of the waiting live segment frames, copies left out. -/
def liveSeqs (frames : List Frame) : List Seq :=
  frames.filterMap fun f => match f with | .segment _ none seg => some seg.seq | _ => none

/-- The seqs of the waiting replay copies. -/
def copySeqs (frames : List Frame) : List Seq :=
  frames.filterMap fun f => match f with | .segment _ (some _) seg => some seg.seq | _ => none

/-- R137, R138: the relations of N, S, W and the sent ring; S stands `unsettled` behind N, W stands `unsent` behind N, and the live frames that wait are the newest `queued`. -/
structure FeedSound (f : Feed) (unsettled : Nat) : Prop where
  ring : f.ring.map Segment.seq = seqRun f.nextSeq f.ring.length
  ringPlaces : f.ring.length ≤ 128
  settled : f.settled = f.nextSeq - BitVec.ofNat 16 unsettled
  settledInRing : unsettled ≤ f.ring.length
  queued : liveSeqs f.waiting = seqRun f.nextSeq (liveSeqs f.waiting).length
  wire : ∃ unsent, unsent ≤ (liveSeqs f.waiting).length ∧ f.wireNext = f.nextSeq - BitVec.ofNat 16 unsent
  copies : ∀ q ∈ copySeqs f.waiting, 1 ≤ (f.wireNext - q).toNat ∧ (f.wireNext - q).toNat ≤ 128
  copyFirst : copySeqs f.waiting.tail = []
  copyAlone : copySeqs f.waiting ≠ [] → f.sending = none
  sendingLive : ∀ x, f.sending = some x → x.withdrawn = false → ∀ q ∈ liveSeqs [x.frame],
    q = f.nextSeq - BitVec.ofNat 16 ((liveSeqs f.waiting).length + 1)
  sendingCopy : ∀ x, f.sending = some x → x.withdrawn = false → ∀ q ∈ copySeqs [x.frame],
    1 ≤ (f.wireNext - q).toNat ∧ (f.wireNext - q).toNat ≤ 128
  cursor : ∀ c, f.cursor = some c → 1 ≤ (f.nextSeq - c).toNat ∧ (f.nextSeq - c).toNat ≤ f.ring.length
  gapTo : ∀ g, f.gap = some g → g.toSeq = f.oldest.getD f.nextSeq
  gapCursor : ∀ g, f.gap = some g → f.cursor = f.oldest

/-- R64, R138 while LIVE or HANDING: the tail's seqs are the run from S to N, but after entry to LIVE and after the full settle of the hand-over it holds none and S equals N. A step in flight in LIVE mode keeps 3 places free (R143). -/
structure TenureSound (s : State) : Prop where
  live : s.floor.state = .live → s.engine.settleOnEntry = false →
    s.engine.tail.map Record.seq = (seqRun s.feed.nextSeq s.engine.tail.length).map some
      ∧ FeedSound s.feed s.engine.tail.length
  entry : s.floor.state = .live → s.engine.settleOnEntry = true →
    (∀ r ∈ s.engine.tail, r.seq = none) ∧ FeedSound s.feed 0
  handing : s.floor.state = .handing → (∀ r ∈ s.engine.tail, r.seq = none) ∧ FeedSound s.feed 0
  room : s.engine.step.isSome = true → s.engine.mode = .live → 3 ≤ s.feed.free

/-! ## Floor Controller (chapter 9) -/

/-- R156, R160, R165, R166, R170, R173, R175, R176: which values each floor state holds, and which timers run. -/
structure FloorSound (s : State) : Prop where
  claimant : s.floor.claimant.isSome = true → s.floor.state.inTenure = true
  keptBack : s.floor.keptBack.isSome = true → s.floor.state = .handing
  origin : s.floor.origin.isSome = true ↔ s.floor.state = .claiming
  claimWindow : s.floor.claimTimer.isSome = true ↔
    s.floor.state = .claiming ∧ s.floor.view.live = none ∧ s.line.integrated = true
  absence : s.floor.absenceTimer.isSome = true ↔
    s.floor.state ≠ .mute ∧ s.floor.view.live ≠ none ∧ s.floor.view.live ≠ some s.station
  presence : s.floor.state ≠ .mute → s.line.integrated = true → s.floor.presenceTimer.isSome = true
  presenceMute : s.floor.state = .mute → s.floor.presenceTimer = none
  tenure : s.floor.state.inTenure = true →
    s.floor.view.live = some s.station ∧ s.floor.view.epoch = s.feed.tenureEpoch ∧ s.feed.tenureEpoch.isSome = true
  armed : s.floor.autoClaim = false → s.floor.armed = false

/-! ## The whole part -/

/-- What holds of the part between any two commands. -/
structure Sound (s : State) : Prop where
  settings : SettingsSound s
  startup : StartupSound s
  scanner : ScannerSound s.scanner
  intake : IntakeSound s.intake
  balance : StrokeBalance s
  port : PortSound s
  engine : EngineSound s
  line : LineSound s
  queue : QueueSound s
  tenure : TenureSound s
  floor : FloorSound s

end Sys2Proof.Machine
end

