-- ==== Sys2Proof/Certificates/Slice0/Obligations.lean ====
section
/-! DEFINITION. The statements for the provers, from the numbered rules of spec/: the queue of commands, reset and start-up, the keyboard, the dictionary, translation, the feed, the line, the floor and the status outputs, and the invariants that every step keeps. -/

section

open Sys2Proof Sys2Proof.Machine

/-! ## The queue of commands -/

/-- A step takes the command at the front of the queue and runs it on the part with the queue's rest; on an empty queue the part idles (the model's choice, log entry 3). -/
def Obligations.StepRunsFrontCommand : Prop :=
  (∀ (c : Instr) (rest : List Instr) (s : State), s.pending = c :: rest → step s = exec c { s with pending := rest })
    ∧ ∀ s : State, s.pending = [] → step s = .next s

/-- Every command answers a next state in every state: none faults, none is refused, and none touches the queue of commands. -/
def Obligations.EveryCommandAnswersNext : Prop :=
  ∀ (c : Instr) (s : State), ∃ t, exec c s = .next t ∧ t.pending = s.pending

/-- A command whose own condition does not hold changes nothing (the model's choice for events that do not occur then, log entry 1): no timer of its name is due, no read of its name is in flight or its block has another length, the frame is not complete or not read back to its end, the mismatch is of the other kind, or the block is not in the state in which the event arises. -/
def Obligations.CommandOutOfTurnChangesNothing : Prop :=
  ∀ s : State,
    (∀ owner bytes, s.startup.reading = false ∨ owner = .abandoned ∨ bytes.length ≠ 290 →
        exec (.headerReadComplete owner bytes) s = .next s)
    ∧ (s.startup.reading = false ∨ s.startup.limitTimer ≠ some 0 → exec .startupLimitExpiry s = .next s)
    ∧ (∀ c, (s.scanner.line c).state ≠ .closing 0 → (s.scanner.line c).state ≠ .opening 0 →
        exec (.debounceExpiry c) s = .next s)
    ∧ (s.scanner.releaseTimer ≠ some 0 ∨ s.scanner.chord ≠ .releasing → exec .releaseWindowExpiry s = .next s)
    ∧ (s.scanner.durationTimer ≠ some 0 ∨ s.scanner.chord = .idle → exec .maximumStrokeDurationExpiry s = .next s)
    ∧ (s.engine.step.isSome = true ∨ s.startup.ended = false ∨ (s.engine.replay = [] ∧ s.intake.items = [])
        ∨ (s.floor.state.inTenure = true ∧ s.feed.free < 3) → exec .stepBegin s = .next s)
    ∧ (∀ owner bytes, (∀ i, s.port.read ≠ .slot i) ∨ s.port.lookup = none ∨ s.engine.step = none ∨ owner = .abandoned
        ∨ bytes.length ≠ 64 → exec (.slotReadComplete owner bytes) s = .next s)
    ∧ ((∀ i, s.port.read ≠ .slot i) ∨ s.port.lookup = none ∨ s.engine.step = none ∨ s.port.watchdogTimer ≠ some 0 →
        exec .lookupWatchdogExpiry s = .next s)
    ∧ (s.port.up = true ∨ s.port.recoveryTimer ≠ some 0 → exec .recoveryTimerExpiry s = .next s)
    ∧ (∀ owner bytes, s.port.read ≠ .recovery ∨ owner = .abandoned ∨ bytes.length ≠ 290 →
        exec (.recoveryReadComplete owner bytes) s = .next s)
    ∧ (s.engine.settleTimer ≠ some 0 ∨ s.engine.step.isSome = true → exec .settleIdleExpiry s = .next s)
    ∧ (s.line.hunting = false ∨ s.line.idle < 14 → exec .huntingFlagClear s = .next s)
    ∧ (s.line.state ≠ .receiving ∨ s.line.received = [] ∨ s.line.charBits ≠ []
        ∨ (∀ lead len rest, s.line.received = lead :: len :: rest → rest.length ≠ len.toNat + 2) →
        exec .frameComplete s = .next s)
    ∧ (s.line.state ≠ .receiving ∨ s.line.received = [] ∨ s.line.charBits ≠ [] ∨ s.line.idle ≤ 22
        ∨ (∃ lead len rest, s.line.received = lead :: len :: rest ∧ rest.length = len.toNat + 2) → exec .frameBreakOff s = .next s)
    ∧ (s.line.state ≠ .idle ∨ s.line.driven ≤ 22 → exec .lineFault s = .next s)
    ∧ (s.startup.ended = false ∨ (s.line.state ≠ .integrating ∧ s.line.state ≠ .fault) ∨ s.line.idle < 33 →
        exec .integrationEnd s = .next s)
    ∧ (s.line.state ≠ .idle ∨ s.line.idle < 14 ∨ s.feed.waiting = [] ∨ s.floor.state = .mute →
        exec .transmitBegin s = .next s)
    ∧ (s.line.state ≠ .transmitting ∨ s.line.mismatch = true
        ∨ (∀ x, s.feed.sending = some x → s.line.readBack ≠ (x.frame.levels s.station).length) →
        exec .frameSentWhole s = .next s)
    ∧ (s.line.state ≠ .transmitting ∨ s.line.mismatch = false ∨ 11 ≤ s.line.readBack ∨ bitSent s = .driven →
        exec .lossOfArbitration s = .next s)
    ∧ (s.line.state ≠ .transmitting ∨ s.line.mismatch = false ∨ (s.line.readBack < 11 ∧ bitSent s = .released) →
        exec .bodyCollision s = .next s)
    ∧ (s.floor.state ≠ .live ∨ s.feed.waiting ≠ [] ∨ s.feed.sending.isSome = true
        ∨ (s.feed.gap = none ∧ s.feed.cursor = none) → exec .replayGeneration s = .next s)
    ∧ (s.floor.absenceTimer ≠ some 0 → exec .absenceTimerExpiry s = .next s)
    ∧ (s.floor.claimTimer ≠ some 0 ∨ s.floor.state ≠ .claiming → exec .claimWindowExpiry s = .next s)
    ∧ (s.floor.presenceTimer ≠ some 0 → exec .presenceTimerExpiry s = .next s)
    ∧ (s.attnTimer ≠ some 0 → exec .attnPulseExpiry s = .next s)
    ∧ (s.line.state ≠ .receiving ∨ s.line.charBits.length ≠ 11 → exec .characterTakenIn s = .next s)

/-! ## The invariants -/

/-- The part right after reset is in its invariant form. -/
def Obligations.ResetStateIsSound : Prop :=
  Sound State.reset

/-- Every step keeps the invariant form of the whole part: settings in range, the keyboard's sets and timers, the intake queue's limits, the balance of strokes, the port's read beside the step it serves, the tail's and replay list's limits, the line's counts, the sixteen places, the seqs of the tenure and the floor's timers. -/
def Obligations.EveryStepKeepsSound : Prop :=
  ∀ s t : State, Sound s → step s = .next t → Sound t

/-- The completed strokes are always those taken, those held and those lost, modulo 2^32, and a step keeps it so from any state in which it holds. -/
def Obligations.EveryStepKeepsStrokeBalance : Prop :=
  ∀ s t : State, StrokeBalance s → step s = .next t → StrokeBalance t

/-- The epoch of the floor view only ever moves to a newer epoch, except at reset. -/
def Obligations.ViewEpochOnlyMovesToNewer : Prop :=
  ∀ (c : Instr) (s t : State), (∀ straps, c ≠ .reset straps) → exec c s = .next t →
    t.floor.view.epoch = s.floor.view.epoch ∨ s.floor.view.epoch = none
      ∨ ∃ old new, s.floor.view.epoch = some old ∧ t.floor.view.epoch = some new ∧ epochNewer new old = true

/-- MUTE is left only by reset, and the outbound queue stays empty in it. -/
def Obligations.MuteLeftOnlyByReset : Prop :=
  ∀ (c : Instr) (s t : State), s.floor.state = .mute → (∀ straps, c ≠ .reset straps) → exec c s = .next t →
    t.floor.state = .mute
      ∧ (s.feed.waiting = [] ∧ s.feed.sending = none ∧ s.feed.held = none →
          t.feed.waiting = [] ∧ t.feed.sending = none ∧ t.feed.held = none)

/-- From the end of start-up to the next reset nothing changes what the header settled, nor the station number. -/
def Obligations.SettingsFixedUntilReset : Prop :=
  ∀ (c : Instr) (s t : State), s.startup.reading = false → (∀ straps, c ≠ .reset straps) → exec c s = .next t →
    settings t = settings s


/-! ## Reset and start-up -/

/-- RESET puts every block at its reset values and reads the station number from the straps; the contacts are pins and keep their levels (the model's choice, log entry 5), and the header read and its limit run (log entry 6). -/
def Obligations.ResetClearsThePart : Prop :=
  ∀ (straps : BitVec 4) (s : State), ∃ t, exec (.reset straps) s = .next t
    ∧ t.clock = 0 ∧ t.station.val = straps.toNat ∧ t.attnTimer = none
    ∧ t.startup = { reading := true, limitTimer := some 100, ended := false, headerValid := false, defaulted := false }
    ∧ (∀ c, (t.scanner.line c).closed = (s.scanner.line c).closed)
    ∧ (t.scanner.chord = .idle ∧ t.scanner.union = 0 ∧ t.scanner.stuck = 0 ∧ t.scanner.strokeTime = 0
        ∧ t.scanner.releaseTimer = none ∧ t.scanner.durationTimer = none ∧ t.scanner.completed = 0)
    ∧ t.intake = { items := [], lost := 0, taken := 0 }
    ∧ (t.port.timeouts = 0 ∧ t.port.faults = [] ∧ t.port.overflow = false ∧ t.port.watchdogTimer = none
        ∧ t.port.read = .none)
    ∧ (t.engine.tail = [] ∧ t.engine.replay = [] ∧ t.engine.replayTime = 0 ∧ t.engine.step = none
        ∧ t.engine.mode = .shadow ∧ t.engine.settleTimer = none ∧ t.engine.settleOnEntry = false
        ∧ t.engine.fullSettle = false ∧ t.engine.refusals = 0
        ∧ t.engine.context =
          { capNext := true, attachPending := false, glueLast := false, atParaStart := true, speaker := none })
    ∧ (t.feed.tenureEpoch = none ∧ t.feed.ring = [] ∧ t.feed.waiting = [] ∧ t.feed.sending = none ∧ t.feed.held = none
        ∧ t.feed.cursor = none ∧ t.feed.gap = none ∧ t.feed.markCounter = 1)
    ∧ (t.line.state = .integrating ∧ t.line.idle = 0 ∧ t.line.driven = 0 ∧ t.line.hunting = false ∧ t.line.received = []
        ∧ t.line.collisions = 0 ∧ t.line.errors = 0 ∧ t.line.integrated = false)
    ∧ (t.floor.state = .standby ∧ t.floor.view = { live := none, epoch := none, nextSeq := none, boundary := none }
        ∧ t.floor.lineOffset = 0 ∧ t.floor.claimant = none ∧ t.floor.origin = none ∧ t.floor.lastOffered = none
        ∧ t.floor.keptBack = none ∧ t.floor.presenceTimer = none ∧ t.floor.absenceTimer = none
        ∧ t.floor.claimTimer = none)

/-- The header is accepted exactly when its magic, version and CRC are right, its base is a nonzero multiple of 4096, and its slot area fits the flash with at least 10 bucket bits; the bucket bits are then the most that fit, at most the header's own clamped to 10..16, and every other parameter is brought into its range. -/
def Obligations.HeaderJudgedAndBroughtIntoRange : Prop :=
  (∀ bytes : List Byte,
      let sound := bytes.take 4 = [0x5A#8, 0x46#8, 0x44#8, 0x48#8] ∧ byteAt bytes 4 = 1 ∧ 5 ≤ bytes.length
        ∧ numberAt bytes 288 2 = (crc (bytes.take 288)).toNat
      let base := numberAt bytes 10 4
      let fits (b : Nat) := base + 2 ^ b * 64 ≤ numberAt bytes 6 4
      let asked := max 10 (min 16 (byteAt bytes 5).toNat)
      (acceptHeader bytes = none ↔ ¬(sound ∧ base % 4096 = 0 ∧ base ≠ 0 ∧ fits 10))
        ∧ ∀ p, acceptHeader bytes = some p →
            p.base = base ∧ 10 ≤ p.bits ∧ p.bits ≤ asked ∧ fits p.bits ∧ (p.bits < asked → ¬fits (p.bits + 1)))
    ∧ (∀ (bytes : List Byte) (p : Params), acceptHeader bytes = some p →
      p.probeLimit = max 1 (min 16 (numberAt bytes 14 1)) ∧ p.depth = max 4 (min 24 (numberAt bytes 15 1))
      ∧ p.settleIdle = max 500 (min 10000 (numberAt bytes 16 2)) / 100 * 100
      ∧ p.presencePeriod = max 200 (min 2000 (numberAt bytes 18 2))
      ∧ p.absenceTimeout = max (max 1000 (min 10000 (numberAt bytes 20 2))) (3 * p.presencePeriod)
      ∧ p.claimWindow = max 100 (min 1000 (numberAt bytes 22 2)) ∧ p.watchdog = max 1 (min 15 (numberAt bytes 24 1))
      ∧ (numberAt bytes 25 1 = 0 → p.rate = .kbit250) ∧ (numberAt bytes 25 1 = 2 → p.rate = .kbit1000)
      ∧ (numberAt bytes 25 1 ≠ 0 → numberAt bytes 25 1 ≠ 2 → p.rate = .kbit500)
      ∧ p.autoClaim = (byteAt bytes 26).getLsbD 0
      ∧ p.debounceTime = max 1 (min 8 (numberAt bytes 27 1)) ∧ p.releaseWindow = max 5 (min 40 (numberAt bytes 28 1))
      ∧ p.maxDuration = max 500 (min 4000 (numberAt bytes 29 2))
      ∧ p.acceptedCrc = some (BitVec.ofNat 16 (numberAt bytes 288 2))
      ∧ ∀ k : Fin 16, p.labels[k] =
          ((bytes.drop (33 + 16 * k.val)).take (min 15 (byteAt bytes (32 + 16 * k.val)).toNat)).map
            fun b => if 0x20 ≤ b.toNat ∧ b.toNat ≤ 0x7E then b else 0x3F#8)

/-- An accepted header ends start-up: every block is handed its settled values, the port stands UP, watching begins with the contacts as they stand, and integration starts. -/
def Obligations.HeaderAcceptedEndsStartup : Prop :=
  ∀ (s : State) (bytes : List Byte) (p : Params),
    s.startup.reading = true → bytes.length = 290 → acceptHeader bytes = some p →
    ∃ t, exec (.headerReadComplete .inFlight bytes) s = .next t
      ∧ t.startup = { reading := false, limitTimer := none, ended := true, headerValid := true, defaulted := false }
      ∧ t.port = { s.port with
          up := true, base := p.base, bits := p.bits, probeLimit := p.probeLimit, watchdog := p.watchdog
          acceptedCrc := p.acceptedCrc, labels := p.labels, recoveryTimer := none }
      ∧ t.engine = { s.engine with depth := p.depth, settleIdle := p.settleIdle, settleTimer := some p.settleIdle }
      ∧ t.line = { s.line with rate := p.rate, state := .integrating }
      ∧ t.floor = { s.floor with
          autoClaim := p.autoClaim, armed := p.autoClaim, presencePeriod := p.presencePeriod
          absenceTimeout := p.absenceTimeout, claimWindow := p.claimWindow }
      ∧ (∀ c, t.scanner.line c =
          { closed := (s.scanner.line c).closed, state := if (s.scanner.line c).closed then .down else .up })
      ∧ (∀ k : Fin 24, KeySet.has t.scanner.stuck k = s.scanner.keys[k].closed)
      ∧ t.scanner.debounceTime = p.debounceTime ∧ t.scanner.releaseWindow = p.releaseWindow
      ∧ t.scanner.maxDuration = p.maxDuration ∧ t.scanner.chord = s.scanner.chord ∧ t.scanner.union = s.scanner.union
      ∧ t.clock = s.clock ∧ t.station = s.station ∧ t.intake = s.intake ∧ t.feed = s.feed ∧ t.attnTimer = s.attnTimer

/-- An invalid header, or the start-up limit expiring first, makes a defaulted start: every default, AUTO_CLAIM clear, the defaulted flag, the port DOWN with the recovery timer running, empty labels and 500 000 bits per second. -/
def Obligations.DefaultedStart : Prop :=
  ∀ (s : State) (c : Instr), s.startup.reading = true →
    (c = .startupLimitExpiry ∧ s.startup.limitTimer = some 0
      ∨ ∃ bytes, c = .headerReadComplete .inFlight bytes ∧ bytes.length = 290 ∧ acceptHeader bytes = none) →
    ∃ t, exec c s = .next t
      ∧ t.startup = { reading := false, limitTimer := none, ended := true, headerValid := false, defaulted := true }
      ∧ t.port = { s.port with
          up := false, base := 4096, bits := 14, probeLimit := 8, watchdog := 3, acceptedCrc := none
          labels := Vector.replicate 16 [], recoveryTimer := some 1000 }
      ∧ t.engine = { s.engine with depth := 12, settleIdle := 2000, settleTimer := some 2000 }
      ∧ t.line = { s.line with rate := .kbit500, state := .integrating }
      ∧ t.floor = { s.floor with
          autoClaim := false, armed := false, presencePeriod := 500, absenceTimeout := 2000, claimWindow := 300 }
      ∧ (∀ k, t.scanner.line k =
          { closed := (s.scanner.line k).closed, state := if (s.scanner.line k).closed then .down else .up })
      ∧ (∀ k : Fin 24, KeySet.has t.scanner.stuck k = s.scanner.keys[k].closed)
      ∧ t.scanner.debounceTime = 3 ∧ t.scanner.releaseWindow = 12 ∧ t.scanner.maxDuration = 1500
      ∧ t.clock = s.clock ∧ t.station = s.station ∧ t.intake = s.intake ∧ t.feed = s.feed ∧ t.attnTimer = s.attnTimer

/-- Until start-up ends only RESET, the header read, its limit, the contacts' levels, the clock and the ATTN pulse have an effect: no line is watched, no item is taken, and the line takes no reading. -/
def Obligations.NothingRunsBeforeStartupEnds : Prop :=
  ∀ (c : Instr) (s : State), Sound s → s.startup.ended = false →
    (∀ straps, c ≠ .reset straps) → (∀ owner bytes, c ≠ .headerReadComplete owner bytes) → c ≠ .startupLimitExpiry →
    (∀ k closed, c ≠ .contactChange k closed) → c ≠ .attnPulseExpiry → c ≠ .stationClockTick →
    exec c s = .next s

/-! ## The clock and the timers -/

/-- A tick of the station clock adds 1 modulo 2^32 and takes one millisecond from every running timer; no other command but RESET, which leaves 0, changes the clock. -/
def Obligations.ClockCountsMilliseconds : Prop :=
  (∀ s : State, ∃ t, exec .stationClockTick s = .next t
      ∧ t.clock = s.clock + 1
      ∧ t.startup = { s.startup with limitTimer := s.startup.limitTimer.map (· - 1) }
      ∧ (∀ k, t.scanner.line k =
          { s.scanner.line k with
            state := match (s.scanner.line k).state with
              | .up => .up
              | .closing left => .closing (left - 1)
              | .down => .down
              | .opening left => .opening (left - 1) })
      ∧ t.scanner = { s.scanner with
          keys := t.scanner.keys, floorLine := t.scanner.floorLine, markLine := t.scanner.markLine
          releaseTimer := s.scanner.releaseTimer.map (· - 1), durationTimer := s.scanner.durationTimer.map (· - 1) }
      ∧ t.port = { s.port with
          watchdogTimer := s.port.watchdogTimer.map (· - 1), recoveryTimer := s.port.recoveryTimer.map (· - 1) }
      ∧ t.engine = { s.engine with settleTimer := s.engine.settleTimer.map (· - 1) }
      ∧ t.floor = { s.floor with
          presenceTimer := s.floor.presenceTimer.map (· - 1), absenceTimer := s.floor.absenceTimer.map (· - 1)
          claimTimer := s.floor.claimTimer.map (· - 1) }
      ∧ t.attnTimer = s.attnTimer.map (· - 1)
      ∧ t.station = s.station ∧ t.intake = s.intake ∧ t.feed = s.feed ∧ t.line = s.line)
    ∧ State.reset.clock = 0
    ∧ ∀ (c : Instr) (s t : State), c ≠ .stationClockTick → exec c s = .next t →
        t.clock = s.clock ∨ ∃ straps, c = .reset straps ∧ t.clock = 0

/-! ## The keyboard -/

/-- A contact change moves its line through the debounce states; before watching begins it moves the contact alone. Nothing else changes. -/
def Obligations.ContactChangeMovesDebounce : Prop :=
  ∀ (k : Contact) (closed : Bool) (s : State),
    exec (.contactChange k closed) s = .next { s with
      scanner := s.scanner.setLine k
        { closed := closed
          state :=
            if s.startup.ended then
              match (s.scanner.line k).state, closed with
              | .up, true => .closing s.scanner.debounceTime
              | .closing _, false => .up
              | .down, false => .opening s.scanner.debounceTime
              | .opening _, true => .down
              | unchanged, _ => unchanged
            else (s.scanner.line k).state } }

/-- An accepted key-down, by chord state: it starts a stroke, grows the union, or returns a releasing chord to CHORDING; a stuck key changes its line alone. An accepted key-up: the key leaves the stuck set, and in CHORDING, when every key outside the stuck set is then up, the release window is loaded and the state becomes RELEASING. Nothing else changes. -/
def Obligations.AcceptedKeyMovesChord : Prop :=
  (∀ (k : Fin 24) (s : State), s.scanner.keys[k].state = .closing 0 →
      let down := s.scanner.setLine (.key k) { s.scanner.keys[k] with state := .down }
      exec (.debounceExpiry (.key k)) s = .next { s with
        scanner :=
          if KeySet.has s.scanner.stuck k then down
          else
            match s.scanner.chord with
            | .idle =>
              { down with
                chord := .chording, strokeTime := s.clock, union := KeySet.single k
                durationTimer := some s.scanner.maxDuration }
            | .chording => { down with union := s.scanner.union ||| KeySet.single k }
            | .releasing =>
              { down with chord := .chording, releaseTimer := none, union := s.scanner.union ||| KeySet.single k } })
    ∧ (∀ (k : Fin 24) (s : State), s.scanner.keys[k].state = .opening 0 →
      let up := { s.scanner.setLine (.key k) { s.scanner.keys[k] with state := .up } with
        stuck := s.scanner.stuck &&& ~~~KeySet.single k }
      let allUp := ∀ j : Fin 24, up.keys[j].state.acceptedDown = true → KeySet.has up.stuck j = true
      (s.scanner.chord = .chording ∧ allUp →
          exec (.debounceExpiry (.key k)) s = .next { s with
            scanner := { up with chord := .releasing, releaseTimer := some s.scanner.releaseWindow } })
        ∧ (¬(s.scanner.chord = .chording ∧ allUp) →
          exec (.debounceExpiry (.key k)) s = .next { s with scanner := up }))

/-- A button item joins a queue of fewer than 32 items with the clock as its time; a full queue discards it with one ATTN pulse, and no lost total and no gap count changes. An accepted release hands nothing. -/
def Obligations.ButtonAccepted : Prop :=
  ∀ (k : Contact) (kind : ItemKind) (s : State), (k = .floor ∧ kind = .floor ∨ k = .mark ∧ kind = .mark) →
    ((s.scanner.line k).state = .closing 0 →
        let pressed := { s with scanner := s.scanner.setLine k { s.scanner.line k with state := .down } }
        (s.intake.items.length < 32 → exec (.debounceExpiry k) s = .next { pressed with
            intake := { s.intake with items := s.intake.items ++ [{ kind := kind, time := s.clock, gap := 0 }] } })
          ∧ (32 ≤ s.intake.items.length → exec (.debounceExpiry k) s = .next { pressed with attnTimer := some 250 }))
      ∧ ((s.scanner.line k).state = .opening 0 →
        exec (.debounceExpiry k) s = .next { s with
          scanner := s.scanner.setLine k { s.scanner.line k with state := .up } })

/-- Expiry of the release window completes the stroke: both timers stop, the union empties, the state becomes IDLE, the completed-stroke count rises, and the stroke is kept while the queue holds fewer than 30 strokes and 32 items, or is discarded with the newest item's gap count and the lost total raised. Expiry of the maximum stroke duration completes it as it stands: in CHORDING the keys of the union that are DOWN join the stuck set, in RELEASING none does. -/
def Obligations.ExpiryCompletesStroke : Prop :=
  (∀ s : State, s.scanner.releaseTimer = some 0 → s.scanner.chord = .releasing →
      let done := { s with
        scanner := { s.scanner with
          chord := .idle, union := 0, releaseTimer := none, durationTimer := none
          completed := s.scanner.completed + 1 } }
      (s.intake.strokes < 30 → s.intake.items.length < 32 →
          exec .releaseWindowExpiry s = .next { done with
            intake := { s.intake with
              items := s.intake.items ++
                [{ kind := .stroke (strokeCode s.scanner.union), time := s.scanner.strokeTime, gap := 0 }] } })
        ∧ (30 ≤ s.intake.strokes ∨ 32 ≤ s.intake.items.length → ∀ older newest, s.intake.items = older ++ [newest] →
          exec .releaseWindowExpiry s = .next { done with
            intake := { s.intake with
              items := older ++ [{ newest with gap := min 255 (newest.gap + 1) }], lost := s.intake.lost + 1 } }))
    ∧ (∀ s : State, s.scanner.durationTimer = some 0 → s.scanner.chord ≠ .idle →
      ∃ t, exec .maximumStrokeDurationExpiry s = .next t
        ∧ t.scanner = { s.scanner with
            chord := .idle, union := 0, releaseTimer := none, durationTimer := none
            completed := s.scanner.completed + 1, stuck := t.scanner.stuck }
        ∧ (∀ k : Fin 24, KeySet.has t.scanner.stuck k = true ↔
            KeySet.has s.scanner.stuck k = true ∨ (s.scanner.chord = .chording ∧ KeySet.has s.scanner.union k = true
              ∧ s.scanner.keys[k].state.acceptedDown = true))
        ∧ t.intake = s.intake.arriveStroke (strokeCode s.scanner.union) s.scanner.strokeTime
        ∧ t = { s with scanner := t.scanner, intake := t.intake })

/-- The code of a stroke is the sum of 2^p over the positions p of its union, and is not 0 when the union holds a key. -/
def Obligations.StrokeCodeIsSumOfPositions : Prop :=
  ∀ union : KeySet,
    (strokeCode union).toNat = ((List.finRange 24).map fun p => if KeySet.has union p then 2 ^ p.val else 0).sum
      ∧ ((∃ p : Fin 24, KeySet.has union p = true) → 1 ≤ (strokeCode union).toNat)

/-! ## The dictionary -/

/-- The bucket of a candidate key: the accumulator starts at the key's length, takes each stroke in key order, and is folded and cut to the bucket bits; accumulator and fold lie below 2^24. -/
def Obligations.BucketFollowsTheHash : Prop :=
  (∀ (b : Nat) (key : List StrokeCode) (a : Nat → Nat),
      a 0 = key.length →
      (∀ i (h : i < key.length), a (i + 1) = (a i * 33 + key[i].toNat) % 2 ^ 24) →
      bucket b key = (a key.length ^^^ (a key.length / 4096)) % 2 ^ b
        ∧ (key ≠ [] → a key.length < 2 ^ 24 ∧ a key.length ^^^ (a key.length / 4096) < 2 ^ 24))
    ∧ ∀ (b : Nat) (key : List StrokeCode), bucket b key < 2 ^ b

/-- What the 64 bytes of a slot say of a candidate key: a wrong check word or a key length above 8 is a fault, a key length of 0 is empty, and an entry is hit exactly when its key length is the candidate's and its first codes are the candidate's in order. -/
def Obligations.SlotJudgedByCheckAndKey : Prop :=
  ∀ (key : List StrokeCode) (bytes : List Byte),
    let n := (byteAt bytes 0).toNat
    let checked := numberAt bytes 62 2 = (crc (bytes.take 62)).toNat
    let equalsKey := n = key.length ∧ ∀ i (h : i < key.length), BitVec.ofNat 24 (numberAt bytes (4 + 3 * i) 3) = key[i]
    (¬checked → judgeSlot key bytes = .check)
    ∧ (checked → 9 ≤ n → judgeSlot key bytes = .check)
    ∧ (checked → n = 0 → judgeSlot key bytes = .empty)
    ∧ (checked → 1 ≤ n → n ≤ 8 → equalsKey → judgeSlot key bytes =
        .hit { flags := byteAt bytes 1, speaker := byteAt bytes 2, textLength := (byteAt bytes 3).toNat
               text := (bytes.drop 28).take 32 })
    ∧ (checked → 1 ≤ n → n ≤ 8 → ¬equalsKey → judgeSlot key bytes = .differ)

/-- What a completed slot read does to its lookup when it is no hit, and where the step then goes. Another key moves the probe to its next slot: past the probe limit the lookup ends as an ordinary miss, a slot in the fault table ends it as a faulted miss unread, and any other slot is read with the watchdog loaded. An empty slot ends it as an ordinary miss, and a failed check records the slot and ends it as a faulted miss. In each case the consecutive-timeout count becomes 0. After a miss the next smaller candidate is looked up: its first slot is read, or is a faulted miss at once when it is listed or the port is DOWN. When the candidate of the new stroke alone has missed too, the stroke is written as a NUMERAL record if it holds key 23 and a key of 12..21, and as a RAW record otherwise, without a seq in SHADOW and appended in LIVE. A SHADOW step that ends with a settle on entry due, or in MUTE, leaves an empty tail. -/
def Obligations.SlotReadDecidesProbeStep : Prop :=
  (∀ (s : State) (i : Nat) (l : Lookup) (w : Work) (bytes : List Byte),
    s.port.read = .slot i → s.port.lookup = some l → s.engine.step = some w → bytes.length = 64 →
    let next := (bucket s.port.bits l.key + (l.probe + 1)) % 2 ^ s.port.bits
    let ended := { s with
      port := { s.port with read := .none, lookup := none, watchdogTimer := none, timeouts := 0 } }
    (judgeSlot l.key bytes = .differ → l.probe + 1 < s.port.probeLimit → next ∉ s.port.faults →
        exec (.slotReadComplete .inFlight bytes) s = .next { s with
          port := { s.port with
            read := .slot next, lookup := some { key := l.key, probe := l.probe + 1 }
            watchdogTimer := some s.port.watchdog, timeouts := 0 } })
      ∧ (judgeSlot l.key bytes = .differ → l.probe + 1 < s.port.probeLimit → next ∈ s.port.faults →
        exec (.slotReadComplete .inFlight bytes) s = .next (lookupFrom w.candidate { w with faulted := true } ended))
      ∧ (judgeSlot l.key bytes = .differ → s.port.probeLimit ≤ l.probe + 1 →
        exec (.slotReadComplete .inFlight bytes) s = .next (lookupFrom w.candidate w ended))
      ∧ (judgeSlot l.key bytes = .empty →
        exec (.slotReadComplete .inFlight bytes) s = .next (lookupFrom w.candidate w ended))
      ∧ (judgeSlot l.key bytes = .check →
        exec (.slotReadComplete .inFlight bytes) s = .next (lookupFrom w.candidate { w with faulted := true } { ended with
          port := { ended.port with
            faults := if i ∈ s.port.faults ∨ 8 ≤ s.port.faults.length then s.port.faults else s.port.faults ++ [i]
            overflow := s.port.overflow || decide (i ∉ s.port.faults ∧ 8 ≤ s.port.faults.length) } })))
    ∧ (∀ (s : State) (w : Work) (k : Nat),
      let key := (s.engine.tail.drop (s.engine.tail.length - k)).flatMap Record.strokes ++ [w.code]
      let slot := bucket s.port.bits key % 2 ^ s.port.bits
      (s.port.up = true → slot ∉ s.port.faults → lookupFrom (k + 1) w s = { s with
          port := { s.port with
            read := .slot slot, lookup := some { key := key, probe := 0 }, watchdogTimer := some s.port.watchdog }
          engine := { s.engine with step := some { w with candidate := k } } })
        ∧ (s.port.up = false ∨ slot ∈ s.port.faults → lookupFrom (k + 1) w s = lookupFrom k { w with faulted := true } s))
    ∧ ∀ (s : State) (w : Work) (kind : RecordKind) (d : Descriptor),
      let numeral := KeySet.has w.code 23 = true ∧ ∃ p : Fin 24, 12 ≤ p.val ∧ p.val ≤ 21 ∧ KeySet.has w.code p = true
      (numeral ∧ kind = .numeral ∧ d = numeralDescriptor w.code ∨ ¬numeral ∧ kind = .raw ∧ d = rawDescriptor w.code) →
      s.engine.fullSettle = false →
      let formed := formSegment s.port.labels d s.engine.context
      let grown (seq : Option Seq) : List Record :=
        (if s.engine.tail = [] ∨ s.engine.tail.length < s.engine.depth then s.engine.tail else s.engine.tail.tail)
          ++ [{ strokes := [w.code], kind := kind, text := formed.1, saved := s.engine.context, seq := seq
                degraded := w.faulted }]
      let ended (tail : List Record) (feed : Feed) : State := { s with
        engine := { s.engine with
          tail := tail, context := formed.2, step := none, settleTimer := some s.engine.settleIdle }
        feed := feed }
      (s.engine.mode = .shadow → s.engine.settleOnEntry = false →
          lookupFrom 0 w s = ended (if s.floor.state = .mute then [] else grown none) s.feed)
        ∧ (s.engine.mode = .shadow → s.engine.settleOnEntry = true →
          lookupFrom 0 w s = (ended [] s.feed).setEngine { (ended [] s.feed).engine with settleOnEntry := false })
        ∧ (s.engine.mode = .live → s.floor.state = .live → s.engine.settleOnEntry = false →
          let time := w.time + s.floor.lineOffset
          let appended := s.feed.append formed.1 w.faulted time
          (w.gap ≠ 0 → lookupFrom 0 w s = ended [] (appended.lost (BitVec.ofNat 8 w.gap) time))
            ∧ (w.gap = 0 → lookupFrom 0 w s = ended (grown (some s.feed.nextSeq))
              (match s.engine.tail.head? with
              | some oldest =>
                if s.engine.depth ≤ s.engine.tail.length ∧ oldest.seq.isSome = true then
                  appended.settle (((grown (some s.feed.nextSeq)).head?.bind Record.seq).getD appended.nextSeq)
                else appended
              | none => appended)))

/-- A hit in a SHADOW step builds an ENTRY record: the absorbed records leave the tail, the context goes back to the oldest one's saved context, the text is formed from it, the record joins without a seq, a full tail settles its oldest locally, and the step ends with the settle idle timer loaded. No request and no frame is made. This holds in every floor state; when a settle on entry is due, or in MUTE, the whole tail settles locally as the step ends. The entry's descriptor holds the flags of bits 0 to 4, its speaker when that is 0..15, and as its body at most 32 characters of its text, each unprintable one replaced by '?'; a speaker or the PARA flag makes it a paragraph entry. -/
def Obligations.ShadowHitBuildsRecord : Prop :=
  (∀ (s : State) (i : Nat) (l : Lookup) (w : Work) (bytes : List Byte) (e : Entry),
    s.port.read = .slot i → s.port.lookup = some l → s.engine.step = some w → bytes.length = 64 →
    judgeSlot l.key bytes = .hit e → s.engine.mode = .shadow → s.engine.fullSettle = false →
    let absorbed := tailNewest s.engine.tail w.candidate
    let kept := s.engine.tail.take (s.engine.tail.length - w.candidate)
    let saved := (absorbed.head?.map Record.saved).getD s.engine.context
    let formed := formSegment s.port.labels (entryDescriptor e) saved
    let record : Record :=
      { strokes := absorbed.flatMap Record.strokes ++ [w.code], kind := .entry, text := formed.1, saved := saved
        seq := none, degraded := w.faulted }
    exec (.slotReadComplete .inFlight bytes) s = .next { s with
      port := { s.port with read := .none, lookup := none, watchdogTimer := none, timeouts := 0 }
      engine := { s.engine with
        tail :=
          if s.engine.settleOnEntry = true ∨ s.floor.state = .mute then []
          else if kept = [] ∨ kept.length < s.engine.depth then kept ++ [record]
          else kept.tail ++ [record]
        context := formed.2, step := none, settleTimer := some s.engine.settleIdle, settleOnEntry := false } })
    ∧ ∀ e : Entry,
      let d := entryDescriptor e
      d.attachBefore = e.flags.getLsbD 0 ∧ d.attachAfter = e.flags.getLsbD 1 ∧ d.capNext = e.flags.getLsbD 2
        ∧ d.glue = e.flags.getLsbD 3 ∧ d.para = e.flags.getLsbD 4 ∧ d.raw = false
        ∧ (∀ k : Fin 16, d.speaker = some k ↔ e.speaker.toNat = k.val)
        ∧ (d.isParagraph = true ↔ e.flags.getLsbD 4 = true ∨ e.speaker.toNat ≤ 15)
        ∧ d.body = (e.text.take (min 32 e.textLength)).map
            fun b => if 0x20 ≤ b.toNat ∧ b.toNat ≤ 0x7E then b else 0x3F#8

/-- A hit in a LIVE step. The absorbed records leave the tail with a cut at the oldest one's seq, the segment is appended with the stroke time in line time, and the record takes its seq; a full tail settles its oldest record with a settle request to the next one's seq. A gap count settles the whole tail with no settle request and a LOST segment follows. For the new stroke alone, with room in tail, ring and queue, the segment takes seq N, joins the sent ring and the back of the queue, N rises by 1, and S and W stand. An append is an entry of the ring and, with a place free, a TEXT frame at the back of the queue. -/
def Obligations.LiveHitAppendsSegment : Prop :=
  (∀ (s : State) (i : Nat) (l : Lookup) (w : Work) (bytes : List Byte) (e : Entry),
    s.port.read = .slot i → s.port.lookup = some l → s.engine.step = some w → bytes.length = 64 →
    judgeSlot l.key bytes = .hit e → s.engine.mode = .live → s.floor.state = .live →
    s.engine.settleOnEntry = false → s.engine.fullSettle = false →
    let absorbed := tailNewest s.engine.tail w.candidate
    let kept := s.engine.tail.take (s.engine.tail.length - w.candidate)
    let saved := (absorbed.head?.map Record.saved).getD s.engine.context
    let formed := formSegment s.port.labels (entryDescriptor e) saved
    let time := w.time + s.floor.lineOffset
    let cutFeed := match absorbed.head?.bind Record.seq with
      | some q => s.feed.cut q
      | none => s.feed
    let appended := cutFeed.append formed.1 w.faulted time
    let record : Record :=
      { strokes := absorbed.flatMap Record.strokes ++ [w.code], kind := .entry, text := formed.1, saved := saved
        seq := some cutFeed.nextSeq, degraded := w.faulted }
    let grown := if kept = [] ∨ kept.length < s.engine.depth then kept ++ [record] else kept.tail ++ [record]
    let ended (tail : List Record) (feed : Feed) : State := { s with
      port := { s.port with read := .none, lookup := none, watchdogTimer := none, timeouts := 0 }
      engine := { s.engine with
        tail := tail, context := formed.2, step := none, settleTimer := some s.engine.settleIdle }
      feed := feed }
    (w.gap = 0 → exec (.slotReadComplete .inFlight bytes) s = .next (ended grown
        (match kept.head? with
        | some oldest =>
          if s.engine.depth ≤ kept.length ∧ oldest.seq.isSome = true then
            appended.settle ((grown.head?.bind Record.seq).getD appended.nextSeq)
          else appended
        | none => appended)))
      ∧ (w.gap ≠ 0 → exec (.slotReadComplete .inFlight bytes) s = .next (ended []
        (appended.lost (BitVec.ofNat 8 w.gap) time)))
      ∧ (w.gap = 0 → w.candidate = 0 → s.engine.tail.length < s.engine.depth → s.feed.places < 16 →
        s.feed.ring.length < 128 →
        let segment : Segment := { seq := s.feed.nextSeq, body := .text formed.1 w.faulted, time := time }
        exec (.slotReadComplete .inFlight bytes) s = .next (ended (s.engine.tail ++ [record]) { s.feed with
          ring := s.feed.ring ++ [segment], nextSeq := s.feed.nextSeq + 1
          cursor := if s.feed.ring = [] ∧ s.feed.gap.isSome = true then some s.feed.nextSeq else s.feed.cursor
          waiting := s.feed.waiting ++ [.segment s.feed.epoch none segment] })))
    ∧ ∀ (f : Feed) (chars : List Byte) (degraded : Bool) (time : Clock), f.places < 16 →
      f.append chars degraded time = { f.push (.text chars degraded) time with
        waiting := f.waiting
          ++ [.segment f.epoch none { seq := f.nextSeq, body := .text chars degraded, time := time }] }

/-- A watchdog expiry abandons the read, records the slot or sets OVERFLOW when eight are listed, and raises the count of consecutive timeouts; at the fourth the port goes DOWN with the recovery timer loaded with 1000 ms. The lookup is a faulted miss: the step goes on with the next smaller candidate, and with the fallbacks after the last. -/
def Obligations.WatchdogRecordsFault : Prop :=
  ∀ (s : State) (i : Nat) (l : Lookup) (w : Work),
    s.port.read = .slot i → s.port.lookup = some l → s.engine.step = some w → s.port.watchdogTimer = some 0 →
    ∃ t, exec .lookupWatchdogExpiry s = .next t
      ∧ t = lookupFrom w.candidate { w with faulted := true } { s with
          port := { s.port with
            read := .none, lookup := none, watchdogTimer := none, timeouts := min 4 (s.port.timeouts + 1)
            faults := if i ∈ s.port.faults ∨ 8 ≤ s.port.faults.length then s.port.faults else s.port.faults ++ [i]
            overflow := s.port.overflow || decide (i ∉ s.port.faults ∧ 8 ≤ s.port.faults.length)
            up := if 3 ≤ s.port.timeouts then false else s.port.up
            recoveryTimer := if 3 ≤ s.port.timeouts then some 1000 else s.port.recoveryTimer } }
      ∧ t.port.faults =
          (if i ∈ s.port.faults ∨ 8 ≤ s.port.faults.length then s.port.faults else s.port.faults ++ [i])
      ∧ (t.port.overflow = true ↔ s.port.overflow = true ∨ (i ∉ s.port.faults ∧ 8 ≤ s.port.faults.length))
      ∧ t.port.timeouts = min 4 (s.port.timeouts + 1)
      ∧ (3 ≤ s.port.timeouts → t.port.up = false ∧ t.port.recoveryTimer = some 1000 ∧ t.port.read = .none)
      ∧ (s.port.timeouts < 3 → t.port.up = s.port.up ∧ t.port.recoveryTimer = s.port.recoveryTimer)
      ∧ t.intake = s.intake ∧ t.scanner = s.scanner ∧ t.line = s.line ∧ t.clock = s.clock ∧ t.startup = s.startup

/-- In DOWN each expiry of the recovery timer starts a recovery read, abandoning one in flight, and loads the timer again; a completed recovery read clears the consecutive-timeout count and returns the port to UP exactly when the header is good and its CRC is the accepted one. -/
def Obligations.RecoveryReadsReturnToUp : Prop :=
  (∀ s : State, s.port.up = false → s.port.recoveryTimer = some 0 →
      exec .recoveryTimerExpiry s = .next { s with
        port := { s.port with read := .recovery, recoveryTimer := some 1000 } })
    ∧ ∀ (s : State) (bytes : List Byte), s.port.read = .recovery → bytes.length = 290 →
      let good := bytes.take 5 = [0x5A#8, 0x46#8, 0x44#8, 0x48#8, 1#8]
        ∧ numberAt bytes 288 2 = (crc (bytes.take 288)).toNat
        ∧ s.port.acceptedCrc = some (BitVec.ofNat 16 (numberAt bytes 288 2))
      (good → exec (.recoveryReadComplete .inFlight bytes) s = .next { s with
          port := { s.port with read := .none, timeouts := 0, up := true, recoveryTimer := none } })
        ∧ (¬good → exec (.recoveryReadComplete .inFlight bytes) s = .next { s with
          port := { s.port with read := .none, timeouts := 0 } })

/-! ## Translation -/

/-- The eligible records of a stroke: the largest number such that the last records together hold at most 7 strokes; at most 7 when every record holds a stroke. -/
def Obligations.EligibleRecordsAreTheMost : Prop :=
  ∀ tail : List Record,
    let m := eligible 7 tail.reverse
    let held (k : Nat) := ((tail.drop (tail.length - k)).map fun r => r.strokes.length).sum
    m ≤ tail.length ∧ held m ≤ 7 ∧ (∀ k, k ≤ tail.length → held k ≤ 7 → k ≤ m)
      ∧ ((∀ r ∈ tail, 1 ≤ r.strokes.length) → m ≤ 7)

/-- A step that takes an ordinary stroke stops the settle idle timer, fixes its mode by the floor state, and looks up its longest candidate: the slot of the candidate's bucket is read. A stroke of the replay list comes before the intake queue, at the replay time and with no gap count; otherwise the oldest item is taken and the taken total rises. -/
def Obligations.StepBeginsWithLongestCandidate : Prop :=
  ∀ (s : State) (code : StrokeCode),
    s.startup.ended = true → s.engine.step = none → strokeShape code = .ordinary → s.port.up = true →
    (s.floor.state.inTenure = true → 3 ≤ s.feed.free) →
    let m := eligible 7 s.engine.tail.reverse
    let key := (s.engine.tail.drop (s.engine.tail.length - m)).flatMap Record.strokes ++ [code]
    let slot := bucket s.port.bits key % 2 ^ s.port.bits
    let reading := { s.port with
      read := .slot slot, lookup := some { key := key, probe := 0 }, watchdogTimer := some s.port.watchdog }
    let mode : Mode := if s.floor.state = .live then .live else .shadow
    slot ∉ s.port.faults →
    (∀ rest, s.engine.replay = code :: rest →
        exec .stepBegin s = .next { s with
          port := reading
          engine := { s.engine with
            replay := rest, settleTimer := none, mode := mode
            step := some { code := code, time := s.engine.replayTime, gap := 0, candidate := m, faulted := false } } })
      ∧ (∀ item rest, s.engine.replay = [] → s.intake.items = item :: rest → item.kind = .stroke code →
        exec .stepBegin s = .next { s with
          intake := { s.intake with items := rest, taken := s.intake.taken + 1 }
          port := reading
          engine := { s.engine with
            settleTimer := none, mode := mode
            step := some { code := code, time := item.time, gap := item.gap, candidate := m, faulted := false } } })

/-- In DOWN a step reads no slot: its stroke is written at once as a NUMERAL or RAW record, DEGRADED, and the port is untouched. A NUMERAL body is the digits of positions 12..21 in position order, with GLUE as its one flag; a RAW body is '#', the left-bank letters, the thumb letters or '-' when there is none but a right-bank key or key 22, the right-bank letters and '*', without a flag; neither has a speaker. -/
def Obligations.StepInDownFallsBack : Prop :=
  (∀ (s : State) (code : StrokeCode) (item : Item) (rest : List Item),
    s.startup.ended = true → s.engine.step = none → s.engine.replay = [] → s.intake.items = item :: rest →
    item.kind = .stroke code → strokeShape code = .ordinary → s.port.up = false →
    s.engine.settleOnEntry = false → s.engine.fullSettle = false →
    (s.floor.state = .standby ∨ s.floor.state = .claiming) → s.engine.tail.length < s.engine.depth →
    let numeral := KeySet.has code 23 = true ∧ ∃ p : Fin 24, 12 ≤ p.val ∧ p.val ≤ 21 ∧ KeySet.has code p = true
    let write (kind : RecordKind) (d : Descriptor) : Host.Outcome State Fault Refusal :=
      let formed := formSegment s.port.labels d s.engine.context
      .next { s with
        intake := { s.intake with items := rest, taken := s.intake.taken + 1 }
        engine := { s.engine with
          tail := s.engine.tail ++
            [{ strokes := [code], kind := kind, text := formed.1, saved := s.engine.context, seq := none
               degraded := true }]
          context := formed.2, mode := .shadow, settleTimer := some s.engine.settleIdle } }
    (numeral → exec .stepBegin s = write .numeral (numeralDescriptor code))
      ∧ (¬numeral → exec .stepBegin s = write .raw (rawDescriptor code)))
    ∧ ∀ code : StrokeCode,
      let letters (keys : List (Fin 24 × Byte)) : List Byte :=
        keys.filterMap fun k => if KeySet.has code k.1 then some k.2 else none
      let left := letters [(0, 0x42#8), (1, 0x43#8), (2, 0x44#8), (3, 0x46#8), (4, 0x47#8), (5, 0x48#8), (6, 0x4A#8),
        (7, 0x4B#8)]
      let thumb := letters [(8, 0x61#8), (9, 0x65#8), (10, 0x69#8), (11, 0x6F#8)]
      let right := letters [(12, 0x4C#8), (13, 0x4D#8), (14, 0x4E#8), (15, 0x50#8), (16, 0x51#8), (17, 0x53#8),
        (18, 0x54#8), (19, 0x56#8), (20, 0x58#8), (21, 0x5A#8)]
      let star := letters [(22, 0x2A#8)]
      let number := letters [(23, 0x23#8)]
      numeralDescriptor code =
          { attachBefore := false, attachAfter := false, capNext := false, glue := true, para := false, speaker := none
            body := letters [(12, 0x31#8), (13, 0x32#8), (14, 0x33#8), (15, 0x34#8), (16, 0x35#8), (17, 0x36#8),
              (18, 0x37#8), (19, 0x38#8), (20, 0x39#8), (21, 0x30#8)]
            raw := false }
        ∧ rawDescriptor code =
          { attachBefore := false, attachAfter := false, capNext := false, glue := false, para := false, speaker := none
            body := number ++ left ++ (if thumb = [] ∧ (right ≠ [] ∨ star ≠ []) then [0x2D#8] else thumb) ++ right ++ star
            raw := true }

/-- A retract stroke removes the newest record whole, restores its saved context, puts all its strokes but the last into the replay list at the item's time, and in LIVE hands a cut at its seq; on an empty tail it is refused: one count and one ATTN pulse. A word retract of count d removes the newest min(d, L) records whole, restores the oldest removed one's saved context, leaves the replay list, hands one cut in LIVE, and is refused once when d exceeds L. A gap count of the item is dealt with after the retraction and any cut: in LIVE the rest of the tail settles with no settle request and a LOST segment of that count follows, elsewhere it is dropped. -/
def Obligations.RetractionsRemoveRecords : Prop :=
  (∀ (s : State) (item : Item) (rest : List Item),
      s.startup.ended = true → s.engine.step = none → s.engine.replay = [] → s.intake.items = item :: rest →
      item.kind = .stroke 4194304#24 → s.engine.settleOnEntry = false → s.engine.fullSettle = false →
      (s.floor.state.inTenure = true → 3 ≤ s.feed.free) →
      let took := { s.intake with items := rest, taken := s.intake.taken + 1 }
      let lost : Prop := s.floor.state = .live ∧ item.gap ≠ 0
      let told (f : Feed) : Feed :=
        if lost then f.lost (BitVec.ofNat 8 item.gap) (item.time + s.floor.lineOffset) else f
      let mode : Mode := if s.floor.state = .live then .live else .shadow
      (s.engine.tail = [] → exec .stepBegin s = .next { s with
          intake := took, attnTimer := some 250, feed := told s.feed
          engine := { s.engine with
            mode := mode, settleTimer := some s.engine.settleIdle, refusals := min 65535 (s.engine.refusals + 1) } })
        ∧ (∀ older newest, s.floor.state ≠ .mute → s.engine.tail = older ++ [newest] → exec .stepBegin s = .next { s with
          intake := took
          engine := { s.engine with
            tail := if lost then [] else older, context := newest.saved, mode := mode, settleTimer := some s.engine.settleIdle
            replay := if 1 < newest.strokes.length then newest.strokes.dropLast else []
            replayTime := if 1 < newest.strokes.length then item.time else s.engine.replayTime }
          feed := told
            (match s.floor.state, newest.seq with
            | .live, some q => s.feed.cut q
            | _, _ => s.feed) }))
    ∧ (∀ (s : State) (item : Item) (rest : List Item) (p : Nat),
      s.startup.ended = true → s.engine.step = none → s.engine.replay = [] → s.intake.items = item :: rest →
      12 ≤ p → p ≤ 20 → item.kind = .stroke (BitVec.ofNat 24 (12582912 + 2 ^ p)) →
      s.engine.settleOnEntry = false → s.engine.fullSettle = false →
      (s.floor.state.inTenure = true → 3 ≤ s.feed.free) → (s.floor.state = .mute → s.engine.tail = []) →
      let d := p - 11
      let lost : Prop := s.floor.state = .live ∧ item.gap ≠ 0
      let told (f : Feed) : Feed :=
        if lost then f.lost (BitVec.ofNat 8 item.gap) (item.time + s.floor.lineOffset) else f
      let kept := s.engine.tail.take (s.engine.tail.length - min d s.engine.tail.length)
      let oldest := (s.engine.tail.drop (s.engine.tail.length - min d s.engine.tail.length)).head?
      ∃ t, exec .stepBegin s = .next t
        ∧ t.engine = { s.engine with
            tail := if lost then [] else kept, context := (oldest.map Record.saved).getD s.engine.context
            mode := if s.floor.state = .live then .live else .shadow, settleTimer := some s.engine.settleIdle
            refusals := if s.engine.tail.length < d then min 65535 (s.engine.refusals + 1) else s.engine.refusals }
        ∧ t.attnTimer = (if s.engine.tail.length < d then some 250 else s.attnTimer)
        ∧ t.feed = told
            (match s.floor.state, oldest.bind Record.seq with
            | .live, some q => s.feed.cut q
            | _, _ => s.feed)
        ∧ t.intake = { s.intake with items := rest, taken := s.intake.taken + 1 }
        ∧ t.port = s.port ∧ t.line = s.line ∧ t.floor = s.floor ∧ t.scanner = s.scanner ∧ t.clock = s.clock)

/-- A MARK item in LIVE settles the whole tail with no settle request and appends a MARK segment with the mark counter's value, which makes it the settled boundary's last segment and withdraws every waiting SETTLE; off the floor it is discarded with one refusal and one ATTN pulse, and the tail stands. A gap count of the item is dealt with after that: in LIVE a LOST segment of that count follows, in SHADOW it is dropped. A MARK or LOST segment takes seq N with its number or count and its time, joins the ring, sets S to one past itself, withdraws the SETTLEs that wait and marks one in transmission, and joins the back of the queue; a ring with room takes an entry at its back. -/
def Obligations.MarkItemAndGapCount : Prop :=
  (∀ (s : State) (item : Item) (rest : List Item),
      s.startup.ended = true → s.engine.step = none → s.engine.replay = [] → s.intake.items = item :: rest →
      item.kind = .mark → (item.gap = 0 ∨ s.floor.state ≠ .live) → s.engine.settleOnEntry = false → s.engine.fullSettle = false →
      (s.floor.state = .live → 3 ≤ s.feed.free → s.feed.held = none → s.feed.ring.length < 128 →
        let segment : Segment :=
          { seq := s.feed.nextSeq, body := .mark s.feed.markCounter, time := item.time + s.floor.lineOffset }
        exec .stepBegin s = .next { s with
          intake := { s.intake with items := rest }
          engine := { s.engine with tail := [], mode := .live, settleTimer := some s.engine.settleIdle }
          feed := { s.feed with
            ring := s.feed.ring ++ [segment], nextSeq := s.feed.nextSeq + 1, settled := s.feed.nextSeq + 1
            markCounter := s.feed.markCounter + 1
            cursor := if s.feed.ring = [] ∧ s.feed.gap.isSome = true then some s.feed.nextSeq else s.feed.cursor
            waiting := s.feed.waiting.filter (fun f => !f.isSettle) ++ [.segment s.feed.epoch none segment]
            sending := s.feed.sending.map fun x => if x.frame.isSettle then { x with withdrawn := true } else x } })
        ∧ (s.floor.state ≠ .live → (s.floor.state = .handing → 3 ≤ s.feed.free) →
            (s.floor.state = .mute → s.engine.tail = []) → exec .stepBegin s = .next { s with
          intake := { s.intake with items := rest }, attnTimer := some 250
          engine := { s.engine with
            mode := .shadow, settleTimer := some s.engine.settleIdle, refusals := min 65535 (s.engine.refusals + 1) } }))
    ∧ (∀ (s : State) (item : Item) (rest : List Item),
      s.startup.ended = true → s.engine.step = none → s.engine.replay = [] → s.intake.items = item :: rest →
      item.kind = .mark → 1 ≤ item.gap → item.gap ≤ 255 → s.engine.settleOnEntry = false → s.engine.fullSettle = false →
      (s.floor.state = .live → 3 ≤ s.feed.free →
        exec .stepBegin s = .next { s with
          intake := { s.intake with items := rest }
          engine := { s.engine with tail := [], mode := .live, settleTimer := some s.engine.settleIdle }
          feed := (s.feed.mark (item.time + s.floor.lineOffset)).lost (BitVec.ofNat 8 item.gap)
            (item.time + s.floor.lineOffset) })
        ∧ (s.floor.state = .standby ∨ s.floor.state = .claiming →
          exec .stepBegin s = .next { s with
            intake := { s.intake with items := rest }, attnTimer := some 250
            engine := { s.engine with
              mode := .shadow, settleTimer := some s.engine.settleIdle, refusals := min 65535 (s.engine.refusals + 1) } }))
    ∧ (∀ (f : Feed) (time : Clock), f.held = none → f.places < 16 →
      let settling (segment : Segment) (pushed : Feed) : Feed := { pushed with
        settled := f.nextSeq + 1
        waiting := f.waiting.filter (fun x => !x.isSettle) ++ [.segment f.epoch none segment]
        sending := f.sending.map fun x => if x.frame.isSettle then { x with withdrawn := true } else x }
      (∀ count : Byte, f.lost count time =
          settling { seq := f.nextSeq, body := .lost count, time := time } (f.push (.lost count) time))
        ∧ f.mark time = { settling { seq := f.nextSeq, body := .mark f.markCounter, time := time }
            (f.push (.mark f.markCounter) time) with markCounter := f.markCounter + 1 })
    ∧ ∀ (f : Feed) (body : SegmentBody) (time : Clock), f.ring.length < 128 → f.push body time = { f with
      ring := f.ring ++ [{ seq := f.nextSeq, body := body, time := time }], nextSeq := f.nextSeq + 1
      cursor := if f.ring = [] ∧ f.gap.isSome = true then some f.nextSeq else f.cursor }

/-- A FLOOR item: in STANDBY it opens a claim of the reporter's with a CLAIM of the view's epoch, and the claim window starts when the view is vacant and start-up integration is done, in CLAIMING it withdraws the claim and disarms, in LIVE the station moves to HANDING, in HANDING it is refused with one ATTN pulse, and in MUTE it is ignored. On the move to HANDING replay ends with its waiting frames withdrawn and one in transmission marked, the item's gap count follows as LOST, the tail settles with a settle request when a record carries a seq, and the hand-over is built from the claimant and N at the step's end: it is offered to the queue, or kept back while a takeover of this station is not yet sent whole. Off LIVE the gap count is dropped. -/
def Obligations.FloorItemByFloorState : Prop :=
  ∀ (s : State) (item : Item) (rest : List Item),
    s.startup.ended = true → s.engine.step = none → s.engine.replay = [] → s.intake.items = item :: rest →
    item.kind = .floor → s.engine.settleOnEntry = false → s.engine.fullSettle = false →
    (s.floor.state.inTenure = true → 3 ≤ s.feed.free) →
    ∃ t, exec .stepBegin s = .next t
      ∧ t.intake = { s.intake with items := rest } ∧ t.port = s.port ∧ t.scanner = s.scanner ∧ t.line = s.line
      ∧ t.engine.context = s.engine.context ∧ t.engine.refusals = s.engine.refusals
      ∧ (s.floor.state = .standby →
          t.floor.state = .claiming ∧ t.floor.origin = some .reporter
            ∧ t.floor = { s.floor with
                state := .claiming, origin := some .reporter, presenceTimer := some s.floor.presencePeriod
                claimTimer :=
                  if s.floor.view.live = none ∧ s.line.integrated = true ∧ s.floor.claimTimer = none then
                    some s.floor.claimWindow
                  else s.floor.claimTimer }
            ∧ t.feed = s.feed.offerClaim (.claim s.floor.view.epoch false)
            ∧ t.engine.tail = s.engine.tail ∧ t.attnTimer = s.attnTimer)
      ∧ (s.floor.state = .claiming →
          t.floor = { s.floor with
              state := .standby, origin := none, claimTimer := none, armed := false
              presenceTimer := some (4 * s.floor.presencePeriod) }
            ∧ t.feed = s.feed.offerClaim (.claim s.floor.view.epoch true)
            ∧ t.engine.tail = s.engine.tail ∧ t.attnTimer = s.attnTimer)
      ∧ (s.floor.state = .live → s.feed.held = none →
          let replay (x : Frame) : Bool :=
            match x with | .segment _ copy _ => copy.isSome | .gap _ _ _ => true | _ => false
          let ended := { s.feed with
            cursor := none, gap := none, waiting := s.feed.waiting.filter (fun x => !replay x)
            sending := s.feed.sending.map fun x => if replay x.frame then { x with withdrawn := true } else x }
          let told :=
            if item.gap ≠ 0 then ended.lost (BitVec.ofNat 8 item.gap) (item.time + s.floor.lineOffset)
            else if s.engine.tail.any (fun r => r.seq.isSome) then ended.settle s.feed.nextSeq
            else ended
          let handover : Handover :=
            { epoch := s.feed.epoch + 1, successor := s.floor.claimant
              nextSeq := if item.gap = 0 then s.feed.nextSeq else s.feed.nextSeq + 1
              lineTime := s.clock + s.floor.lineOffset }
          let unsent : Prop := ∃ h : Handover, h.successor = some s.station
            ∧ (.handover h ∈ s.feed.waiting ∨ ∃ x, s.feed.sending = some x ∧ x.frame = .handover h)
          t.engine.tail = [] ∧ t.engine.fullSettle = false ∧ t.attnTimer = s.attnTimer
            ∧ (¬unsent → t.feed = told.offerHandover handover ∧ t.floor = { s.floor with
                state := .handing
                lastOffered := some
                  { epoch := handover.epoch, successor := handover.successor, nextSeq := handover.nextSeq } })
            ∧ (unsent → t.feed = told ∧ t.floor = { s.floor with state := .handing, keptBack := some handover }))
      ∧ (s.floor.state = .handing → t.floor = s.floor ∧ t.feed = s.feed ∧ t.attnTimer = some 250)
      ∧ (s.floor.state = .mute → t.floor = s.floor ∧ t.feed = s.feed ∧ t.attnTimer = s.attnTimer)

/-- Expiry of the settle idle timer settles the whole tail and loads the timer again; a shadow tail settles locally. In LIVE with a claimant pending the pause moves the station to HANDING: replay ends with its waiting frames withdrawn and one in transmission marked, and the hand-over from the claimant and N is offered behind the settle, or kept back while a takeover of this station is not yet sent whole. A settle request sets S to its boundary: a SETTLE at the back of the queue is rewritten with it, otherwise a SETTLE joins the back, and none joins when all 16 places are taken. -/
def Obligations.SettleIdleSettlesTail : Prop :=
  (∀ s : State, s.engine.settleTimer = some 0 → s.engine.step = none → s.engine.settleOnEntry = false →
    s.engine.fullSettle = false →
    ∃ t, exec .settleIdleExpiry s = .next t
      ∧ t.engine = { s.engine with tail := [], settleTimer := some s.engine.settleIdle }
      ∧ (s.floor.state.inTenure = false → t = { s with engine := t.engine })
      ∧ (s.floor.state = .live → s.floor.claimant = none →
          t.floor = s.floor ∧ t.feed =
            (if s.engine.tail.any (fun r => r.seq.isSome) then s.feed.settle s.feed.nextSeq else s.feed))
      ∧ (s.floor.state = .live → s.floor.claimant.isSome = true → t.floor.state = .handing)
      ∧ (s.floor.state = .live → s.floor.claimant.isSome = true → s.feed.held = none →
          let replay (x : Frame) : Bool :=
            match x with | .segment _ copy _ => copy.isSome | .gap _ _ _ => true | _ => false
          let settled := if s.engine.tail.any (fun r => r.seq.isSome) then s.feed.settle s.feed.nextSeq else s.feed
          let ended := { settled with
            cursor := none, gap := none, waiting := settled.waiting.filter (fun x => !replay x)
            sending := s.feed.sending.map fun x => if replay x.frame then { x with withdrawn := true } else x }
          let handover : Handover :=
            { epoch := s.feed.epoch + 1, successor := s.floor.claimant, nextSeq := s.feed.nextSeq
              lineTime := s.clock + s.floor.lineOffset }
          let unsent : Prop := ∃ h : Handover, h.successor = some s.station
            ∧ (.handover h ∈ s.feed.waiting ∨ ∃ x, s.feed.sending = some x ∧ x.frame = .handover h)
          (¬unsent → t.feed = ended.offerHandover handover ∧ t.floor = { s.floor with
              state := .handing
              lastOffered := some
                { epoch := handover.epoch, successor := handover.successor, nextSeq := handover.nextSeq } })
            ∧ (unsent → t.feed = ended ∧ t.floor = { s.floor with state := .handing, keptBack := some handover }))
      ∧ t.port = s.port ∧ t.intake = s.intake ∧ t.scanner = s.scanner ∧ t.line = s.line ∧ t.attnTimer = s.attnTimer)
    ∧ ∀ (f : Feed) (boundary : Seq),
      (∀ older epoch old, f.waiting = older ++ [.settle epoch old] →
          f.settle boundary = { f with settled := boundary, waiting := older ++ [.settle f.epoch boundary] })
        ∧ ((∀ older epoch old, f.waiting ≠ older ++ [.settle epoch old]) →
          f.settle boundary = { f with
            settled := boundary
            waiting := if f.places < 16 then f.waiting ++ [.settle f.epoch boundary] else f.waiting })

/-! ## Segment text -/

/-- The separator of a running entry is one space when its body is not empty and none of the four reasons against it holds, and empty otherwise; the segment is that separator and the body with its first letter perhaps raised. With an empty body the text is empty and the flags alone change the context. -/
def Obligations.SeparatorOfRunningEntry : Prop :=
  ∀ (labels : Vector (List Byte) 16) (d : Descriptor) (c : Context), d.isParagraph = false →
    let separator :=
      if d.body ≠ [] ∧ ¬(c.attachPending = true ∨ d.attachBefore = true ∨ (d.glue = true ∧ c.glueLast = true)
          ∨ c.atParaStart = true) then [0x20#8] else []
    (formSegment labels d c).1 = separator ++ capitalStage d c
      ∧ (capitalStage d c).length = d.body.length
      ∧ (d.body = [] → formSegment labels d c =
          ([], { c with attachPending := d.attachAfter, glueLast := d.glue, capNext := d.capNext || c.capNext }))

/-- The rest of the context after a segment is formed, for running and paragraph entries alike. -/
def Obligations.ContextAfterSegment : Prop :=
  ∀ (labels : Vector (List Byte) 16) (d : Descriptor) (c : Context),
    let c1 := if d.isParagraph then (paragraphStage labels d c).2 else c
    let t := (formSegment labels d c).2
    t.attachPending = d.attachAfter ∧ t.glueLast = d.glue
      ∧ t.capNext = (if d.capNext then true else if d.body ≠ [] then false else c1.capNext)
      ∧ t.atParaStart = (if d.body ≠ [] then false else c1.atParaStart)
      ∧ t.speaker = c1.speaker

/-- A paragraph entry breaks the paragraph unless it stands at a paragraph's start, takes its speaker or keeps the turn's, and opens with that speaker's label, a colon and a space when the label is not empty, which raises the next letter. A pending capital raises the first letter of a body that begins with a lower-case letter, but never that of a RAW record. -/
def Obligations.ParagraphLabelAndCapital : Prop :=
  (∀ (labels : Vector (List Byte) 16) (d : Descriptor) (c : Context), d.isParagraph = true →
      let speaker := if d.speaker.isSome then d.speaker else c.speaker
      let label : List Byte := match speaker with | some k => labels[k] | none => []
      let lines : List Byte := if c.atParaStart then [] else [0x0A#8, 0x0A#8]
      (paragraphStage labels d c).1 = lines ++ (if label = [] then [] else label ++ [0x3A#8, 0x20#8])
        ∧ (paragraphStage labels d c).2 =
            { c with atParaStart := true, speaker := speaker, capNext := if label = [] then c.capNext else true }
        ∧ (formSegment labels d c).1 = (paragraphStage labels d c).1 ++ capitalStage d (paragraphStage labels d c).2)
    ∧ (∀ (d : Descriptor) (c : Context) (first : Byte) (rest : List Byte), d.body = first :: rest →
      (c.capNext = true → d.raw = false → 0x61 ≤ first.toNat → first.toNat ≤ 0x7A →
          capitalStage d c = (first - 0x20#8) :: rest)
        ∧ (c.capNext = false ∨ d.raw = true ∨ first.toNat < 0x61 ∨ 0x7A < first.toNat →
          capitalStage d c = first :: rest))

/-! ## The feed -/

/-- A cut at s withdraws the waiting segment frames that are not older than s, marks such a frame in transmission, removes such entries of the ring, lowers N to s, and queues a CUT and lowers W exactly when s is older than W; a cut not newer than the replay cursor makes it absent. -/
def Obligations.CutWithdrawsSegments : Prop :=
  ∀ (f : Feed) (s : Seq), f.held = none → f.places < 16 →
    let covered (x : Frame) : Bool := match x.segmentSeq with | some q => !seqOlder q s | none => false
    let kept := f.waiting.filter fun x => !covered x
    f.cut s = { f with
      waiting := if seqOlder s f.wireNext then kept ++ [.cut f.epoch s] else kept
      sending := f.sending.map fun x => if covered x.frame then { x with withdrawn := true } else x
      ring := f.ring.filter fun e => seqOlder e.seq s
      nextSeq := s
      wireNext := if seqOlder s f.wireNext then s else f.wireNext
      cursor := match f.cursor with | some k => if seqNewer s k then some k else none | none => none }

/-- An append to a full ring drops the oldest entry; a cursor at it moves to the new oldest, and the pending GAP grows by the dropped seq. A REWIND from a seq not older than N asks for nothing; one from a seq older than N and not older than the ring's oldest moves the cursor back to it, and keeps a cursor that is not newer; one older than the ring's oldest, or on an empty ring, makes a GAP pending from that seq, or from the older from seq of a pending one, up to the ring's oldest seq with the cursor there, or up to N without a cursor. A REWIND frame is acted on in LIVE and ignored in every other floor state. -/
def Obligations.ReplayCursorFollowsRingAndRewind : Prop :=
  (∀ (f : Feed) (body : SegmentBody) (time : Clock) (dropped oldest : Segment) (rest : List Segment),
      f.ring = dropped :: oldest :: rest → f.ring.length = 128 →
      let grown := { f with
        ring := oldest :: rest ++ [{ seq := f.nextSeq, body := body, time := time }], nextSeq := f.nextSeq + 1 }
      (f.cursor ≠ some dropped.seq → f.push body time = grown)
        ∧ (f.cursor = some dropped.seq → f.push body time = { grown with
          cursor := some oldest.seq
          gap := some { fromSeq := (f.gap.map GapRun.fromSeq).getD dropped.seq, toSeq := oldest.seq } }))
    ∧ (∀ (f : Feed) (s oldest : Seq), f.oldest = some oldest → seqOlder s f.nextSeq = true → seqOlder s oldest = false →
      (∀ k, f.cursor = some k → seqNewer k s = false → f.rewind s = f)
        ∧ ((f.cursor = none ∨ ∃ k, f.cursor = some k ∧ seqNewer k s = true) → f.rewind s = { f with cursor := some s }))
    ∧ (∀ (f : Feed) (s : Seq),
      let pendingFrom : Seq :=
        match f.gap with
        | some g => if seqOlder g.fromSeq s then g.fromSeq else s
        | none => s
      (seqOlder s f.nextSeq = false → f.rewind s = f)
        ∧ (seqOlder s f.nextSeq = true → f.ring = [] →
          f.rewind s = { f with gap := some { fromSeq := pendingFrom, toSeq := f.nextSeq }, cursor := none })
        ∧ (∀ oldest, seqOlder s f.nextSeq = true → f.oldest = some oldest → seqOlder s oldest = true →
          f.rewind s = { f with gap := some { fromSeq := pendingFrom, toSeq := oldest }, cursor := some oldest }))
    ∧ ∀ (s : State) (sender : Station) (q : Seq),
      s.line.state = .receiving → s.line.charBits = [] → s.line.received = (Frame.rewind q).chars sender →
      s.engine.settleOnEntry = false → s.engine.fullSettle = false → (s.floor.state = .mute → s.engine.tail = []) →
      (s.floor.state = .live → exec .frameComplete s = .next { s with
          line := { s.line with state := .idle, received := [] }, feed := s.feed.rewind q })
        ∧ (s.floor.state ≠ .live → exec .frameComplete s = .next { s with
          line := { s.line with state := .idle, received := [] } })

/-- Replay generation in LIVE on an empty queue: a pending GAP goes out and is none afterwards; otherwise a copy of the entry at the cursor goes out, flagged SETTLED when it is older than S, and the cursor advances or becomes absent at N. -/
def Obligations.ReplayGeneratesOneFrame : Prop :=
  ∀ s : State, s.floor.state = .live → s.feed.waiting = [] → s.feed.sending = none →
    (∀ g, s.feed.gap = some g → exec .replayGeneration s = .next { s with
        feed := { s.feed with waiting := [.gap s.feed.epoch g.fromSeq g.toSeq], gap := none } })
      ∧ (∀ c e, s.feed.gap = none → s.feed.cursor = some c → s.feed.ring.find? (fun x => x.seq == c) = some e →
        exec .replayGeneration s = .next { s with
          feed := { s.feed with
            waiting := [.segment s.feed.epoch (some (seqOlder c s.feed.settled)) e]
            cursor := if c + 1 = s.feed.nextSeq then none else some (c + 1) } })

/-! ## The line -/

/-- The run counts in every line state, once integration has started: a reading of released raises the idle counter to at most 33 and clears the driven run, a reading of driven clears the idle counter and raises the driven run to at most 23. A start bit in IDLE begins a character, and so does one up to 22 quiet bit times after the last character of an unfinished frame; a character in reception takes the reading, and a bit being sent is compared with it. Nothing outside the Line Interface changes, and no reading counts before. -/
def Obligations.LineReadingCountsRuns : Prop :=
  ∀ (level : Level) (s : State),
    (s.startup.ended = false → exec (.lineReading level) s = .next s)
      ∧ (s.startup.ended = true → ∃ t, exec (.lineReading level) s = .next t
        ∧ t = { s with line := t.line }
        ∧ t.line.idle = (match level with | .released => min 33 (s.line.idle + 1) | .driven => 0)
        ∧ t.line.driven = (match level with | .released => 0 | .driven => min 23 (s.line.driven + 1))
        ∧ t.line.errors = s.line.errors ∧ t.line.collisions = s.line.collisions ∧ t.line.rate = s.line.rate
        ∧ t.line.hunting = s.line.hunting ∧ t.line.integrated = s.line.integrated
        ∧ (s.line.state = .idle → level = .driven → 0 < s.line.idle →
            t.line.state = .receiving ∧ t.line.charBits = [.driven])
        ∧ (s.line.state = .receiving → s.line.charBits = [] → level = .driven → 0 < s.line.idle → s.line.idle ≤ 22 →
            (∀ lead len rest, s.line.received = lead :: len :: rest → rest.length ≠ len.toNat + 2) →
            t.line.state = .receiving ∧ t.line.charBits = [.driven] ∧ t.line.received = s.line.received)
        ∧ (s.line.state = .receiving → s.line.charBits ≠ [] → s.line.charBits.length < 11 →
            t.line.state = .receiving ∧ t.line.charBits = s.line.charBits ++ [level])
        ∧ (s.line.state = .transmitting → s.line.mismatch = false → s.line.readBack < (sendingLevels s).length →
            (level = bitSent s → t.line.readBack = s.line.readBack + 1 ∧ t.line.mismatch = false)
              ∧ (level ≠ bitSent s → t.line.readBack = s.line.readBack ∧ t.line.mismatch = true)))

/-- A character's eleven levels on the line are read back as the same value and lead mark, with a good stop bit. The CRC run on over its own two characters leaves the register at 0, and over "123456789" it gives 0x29B1. -/
def Obligations.CharactersAndCrcReadBack : Prop :=
  (∀ (value : Byte) (leadMark : Bool),
      (charLevels value leadMark).length = 11
        ∧ charValue (charLevels value leadMark) = value
        ∧ charMark (charLevels value leadMark) = leadMark
        ∧ charStopGood (charLevels value leadMark) = true)
    ∧ ((∀ chars : List Byte, crc (chars ++ be16 (crc chars)) = 0)
      ∧ crc [0x31#8, 0x32#8, 0x33#8, 0x34#8, 0x35#8, 0x36#8, 0x37#8, 0x38#8, 0x39#8] = 0x29B1#16)

/-- What frame assembly does with a character taken in: a framing error drops the frame and sets the hunting flag; a lead mark begins a frame, dropping one in reception; a character without one joins the frame, is dropped with it when it announces more than 60 characters, or is discarded, counted once until the hunting flag clears. -/
def Obligations.CharacterTakenIntoFrame : Prop :=
  ∀ s : State, s.line.state = .receiving → s.line.charBits.length = 11 →
    let value := charValue s.line.charBits
    let one (n : Nat) := min 65535 (n + 1)
    let took (l : LineInterface) : Prop := exec .characterTakenIn s = .next { s with line := l }
    (charStopGood s.line.charBits = false → took { s.line with
        state := .idle, hunting := true, received := [], charBits := [], errors := one s.line.errors })
    ∧ (charStopGood s.line.charBits = true → charMark s.line.charBits = true → took { s.line with
        received := [value], charBits := [], hunting := false
        errors := if s.line.received = [] then s.line.errors else one s.line.errors })
    ∧ (charStopGood s.line.charBits = true → charMark s.line.charBits = false → s.line.received = [] →
        took { s.line with
          state := .idle, charBits := [], hunting := true
          errors := if s.line.hunting then s.line.errors else one s.line.errors })
    ∧ (charStopGood s.line.charBits = true → charMark s.line.charBits = false → s.line.received.length = 1 →
        60 < value.toNat → took { s.line with
          state := .idle, hunting := true, received := [], charBits := [], errors := one s.line.errors })
    ∧ (charStopGood s.line.charBits = true → charMark s.line.charBits = false → s.line.received ≠ [] →
        ¬(s.line.received.length = 1 ∧ 60 < value.toNat) →
        took { s.line with received := s.line.received ++ [value], charBits := [] })

/-- The idle counter at 14 clears the hunting flag; past 22 between the characters of a frame it drops the frame; the driven run past 22 found in IDLE is a line fault. Each changes the Line Interface alone. -/
def Obligations.RunCountsEndFramesAndFindFaults : Prop :=
  ∀ s : State,
    (s.line.hunting = true → 14 ≤ s.line.idle →
        exec .huntingFlagClear s = .next { s with line := { s.line with hunting := false } })
    ∧ (s.line.state = .receiving → s.line.received ≠ [] → frameDone s.line.received = false → s.line.charBits = [] →
        22 < s.line.idle →
        exec .frameBreakOff s = .next { s with
          line := { s.line with state := .idle, received := [], errors := min 65535 (s.line.errors + 1) } })
    ∧ (s.line.state = .idle → 22 < s.line.driven →
        exec .lineFault s = .next { s with line := { s.line with state := .fault, hunting := false } })

/-- Thirty-three quiet bit times end integration: after a line fault the line is IDLE and nothing is reported; at start-up the presence timer is loaded, and a claiming station's window starts, or an armed station standing by with a vacant view claims by itself. -/
def Obligations.IntegrationEnds : Prop :=
  ∀ s : State, s.startup.ended = true → 33 ≤ s.line.idle →
    (s.line.state = .fault →
        exec .integrationEnd s = .next { s with line := { s.line with state := .idle, hunting := false } })
      ∧ (s.line.state = .integrating → ∃ t, exec .integrationEnd s = .next t
        ∧ t.line = { s.line with state := .idle, hunting := false, integrated := true }
        ∧ (s.floor.state = .standby → s.floor.armed = false ∨ s.floor.view.live ≠ none →
            t = { s with
              line := t.line
              floor := { s.floor with presenceTimer := some (4 * s.floor.presencePeriod) } })
        ∧ (s.floor.state = .standby → s.floor.armed = true → s.floor.view.live = none → s.floor.claimTimer = none →
            t.floor.state = .claiming ∧ t.floor.origin = some .auto ∧ t.floor.claimTimer = some s.floor.claimWindow
              ∧ t.floor.presenceTimer = some s.floor.presencePeriod
              ∧ t.feed = s.feed.offerClaim (.claim s.floor.view.epoch false))
        ∧ (s.floor.state = .claiming → s.floor.view.live = none → s.floor.claimTimer = none →
            t = { s with
              line := t.line
              floor := { s.floor with
                presenceTimer := some s.floor.presencePeriod, claimTimer := some s.floor.claimWindow } }))

/-- A complete frame with a wrong CRC, a kind of 10 to 15 or a body length that does not suit its kind is dropped: one line error, the line IDLE, and nothing handed on. A valid frame of another kind than REWIND that carries this station's number is a duplicate: the station enters MUTE, its queue, ring and replay state empty, its timers stop, its tail settles at the boundary, and the line state is IDLE with the hunting flag set. In MUTE a valid frame of any kind and station, a duplicate among them, is not acted on. -/
def Obligations.CompleteFrameDroppedOrDuplicate : Prop :=
  (∀ (s : State) (lead len : Byte) (body check : List Byte),
      s.line.state = .receiving → s.line.charBits = [] → s.line.received = lead :: len :: (body ++ check) →
      body.length = len.toNat → check.length = 2 →
      (check ≠ be16 (crc (len :: body)) ∨ 10 ≤ lead.toNat / 16 ∨ bodyLengthSuits (lead.toNat / 16) body.length = false) →
      exec .frameComplete s = .next { s with
        line := { s.line with state := .idle, received := [], errors := min 65535 (s.line.errors + 1) } })
    ∧ (∀ (s : State) (lead : Byte) (rest : List Byte),
      s.line.state = .receiving → s.line.charBits = [] → s.line.received = lead :: rest →
      frameDone s.line.received = true → frameValid lead rest = true → lead.toNat / 16 ≠ 8 →
      lead.toNat % 16 = s.station.val → s.floor.state ≠ .mute →
      ∃ t, exec .frameComplete s = .next t
        ∧ t.floor = { s.floor with
            state := .mute, presenceTimer := none, absenceTimer := none, claimTimer := none, claimant := none
            origin := none, keptBack := none }
        ∧ t.feed = { s.feed with
            waiting := [], sending := none, held := none, ring := [], cursor := none, gap := none }
        ∧ t.line = { s.line with state := .idle, hunting := true, received := [], readBack := 0, mismatch := false }
        ∧ (s.engine.step = none → t.engine.tail = []) ∧ (∀ r ∈ t.engine.tail, r.seq = none)
        ∧ t.intake = s.intake ∧ t.port = s.port ∧ t.scanner = s.scanner ∧ t.attnTimer = s.attnTimer)
    ∧ ∀ (s : State) (lead : Byte) (rest : List Byte),
      s.line.state = .receiving → s.line.charBits = [] → s.line.received = lead :: rest →
      frameDone s.line.received = true → frameValid lead rest = true → s.floor.state = .mute → s.engine.tail = [] →
      s.engine.settleOnEntry = false → s.engine.fullSettle = false →
      exec .frameComplete s = .next { s with line := { s.line with state := .idle, received := [] } }

/-! ## Frames -/

/-- Every frame a station sends is read back whole: its characters are a complete and valid frame whose lead gives its kind and the sender's station, and whose body is parsed to the same frame, every field at every value its layout allows. -/
def Obligations.FrameRoundTrip : Prop :=
  ∀ (sender : Station) (f : Frame), FrameSound f →
    ∃ lead rest, f.chars sender = lead :: rest
      ∧ frameDone (lead :: rest) = true ∧ frameValid lead rest = true
      ∧ leadKind lead = f.kind ∧ leadStation lead = sender
      ∧ parseFrame (leadKind lead) (frameBody rest) = some f

/-- A CLAIM of another station, by floor state. In LIVE it becomes the pending claimant when none is pending and changes nothing otherwise; a withdrawal of the pending claimant clears it, and any other changes nothing. In CLAIMING a CLAIM of a lower-numbered station heard while the window runs is a better bid: the station stands by with its withdrawal offered, and one ATTN pulse when its claim is the reporter's; any other changes nothing. In HANDING a withdrawal of the pending claimant clears it, and the hand-over kept back or waiting names NONE; any other CLAIM changes nothing. In STANDBY none changes anything. -/
def Obligations.ClaimBecomesPendingClaimant : Prop :=
  ∀ (s : State) (sender : Station) (epoch : Option Epoch) (withdraw : Bool),
    sender ≠ s.station → s.line.state = .receiving → s.line.charBits = [] →
    s.line.received = (Frame.claim epoch withdraw).chars sender →
    s.engine.settleOnEntry = false → s.engine.fullSettle = false →
    let quiet := { s.line with state := .idle, received := [] }
    (s.floor.state = .live → exec .frameComplete s = .next { s with
        line := quiet
        floor := { s.floor with
          claimant :=
            if withdraw then (if s.floor.claimant = some sender then none else s.floor.claimant)
            else if s.floor.claimant = none then some sender else s.floor.claimant } })
      ∧ (s.floor.state = .standby → exec .frameComplete s = .next { s with line := quiet })
      ∧ (s.floor.state = .claiming → withdraw = false → s.floor.claimTimer.isSome = true → sender < s.station →
        exec .frameComplete s = .next { s with
          line := quiet
          floor := { s.floor with
            state := .standby, origin := none, claimTimer := none, presenceTimer := some (4 * s.floor.presencePeriod) }
          feed := s.feed.offerClaim (.claim s.floor.view.epoch true)
          attnTimer := if s.floor.origin = some .reporter then some 250 else s.attnTimer })
      ∧ (s.floor.state = .claiming → withdraw = true ∨ s.floor.claimTimer = none ∨ s.station < sender →
        exec .frameComplete s = .next { s with line := quiet })
      ∧ (s.floor.state = .handing → withdraw = false ∨ s.floor.claimant ≠ some sender →
        exec .frameComplete s = .next { s with line := quiet })
      ∧ (s.floor.state = .handing → withdraw = true → s.floor.claimant = some sender →
        (∀ h, s.floor.keptBack = some h → exec .frameComplete s = .next { s with
            line := quiet
            floor := { s.floor with claimant := none, keptBack := some { h with successor := none } } })
          ∧ (∀ before h behind, s.floor.keptBack = none → s.feed.held = none →
            s.feed.waiting = before ++ .handover h :: behind → h.epoch = s.feed.epoch + 1 →
            (∀ f ∈ before ++ behind, f.isHandover = false) →
            exec .frameComplete s = .next { s with
              line := quiet
              floor := { s.floor with
                claimant := none
                lastOffered := s.floor.lastOffered.map fun o => { o with successor := none } }
              feed := { s.feed with waiting := before ++ .handover { h with successor := none } :: behind } }))

/-- How a tenure frame of another station moves the view of a station standing by: a TEXT moves the view next seq to one past its seq, a MARK or LOST both values, a CUT the next seq to its own, a SETTLE the boundary, a PRESENCE with role LIVE both and the line offset, and a GAP or a replay copy neither. A frame of a newer epoch, or heard while the view's epoch is unknown, is adopted with its sender live and what it does not give unknown. One of the same epoch refreshes the view when its sender is the live station, becomes the live station by its lower number, or fills a vacant view. In both cases the absence timer is loaded again. One of the same epoch from a higher-numbered station than the live one, and one of an older epoch, are stale and change nothing. -/
def Obligations.TextMovesTheView : Prop :=
  ∀ (s : State) (sender : Station) (epoch : Epoch) (frame : Frame)
    (reach : Option Seq → Option Seq → Option Seq × Option Seq) (offset : Clock),
    ((∃ q chars degraded time, frame = .segment epoch none { seq := q, body := .text chars degraded, time := time }
          ∧ (∀ next boundary, reach next boundary = (some (q + 1), boundary)) ∧ offset = s.floor.lineOffset)
      ∨ (∃ q body time, frame = .segment epoch none { seq := q, body := body, time := time }
          ∧ ((∃ number, body = .mark number) ∨ ∃ count, body = .lost count)
          ∧ (∀ next boundary, reach next boundary = (some (q + 1), some (q + 1))) ∧ offset = s.floor.lineOffset)
      ∨ (∃ q, frame = .cut epoch q
          ∧ (∀ next boundary, reach next boundary = (some q, boundary)) ∧ offset = s.floor.lineOffset)
      ∨ (∃ b, frame = .settle epoch b
          ∧ (∀ next boundary, reach next boundary = (next, some b)) ∧ offset = s.floor.lineOffset)
      ∨ (∃ p n b, frame = .presence (some p) ∧ p.role = .live
          ∧ p.reach = some { epoch := epoch, nextSeq := n, boundary := b }
          ∧ (∀ next boundary, reach next boundary = (some n, some b)) ∧ offset = p.lineTime - s.clock)
      ∨ (((∃ fromSeq toSeq, frame = .gap epoch fromSeq toSeq)
            ∨ ∃ settled seg, frame = .segment epoch (some settled) seg)
          ∧ (∀ next boundary, reach next boundary = (next, boundary)) ∧ offset = s.floor.lineOffset)) →
    FrameSound frame → s.line.received = frame.chars sender →
    s.floor.state = .standby → sender ≠ s.station → s.line.state = .receiving → s.line.charBits = [] →
    s.engine.settleOnEntry = false → s.engine.fullSettle = false →
    let quiet := { s.line with state := .idle, received := [] }
    let follows (r : Option Seq × Option Seq) : State := { s with
      line := quiet
      floor := { s.floor with
        view := { live := some sender, epoch := some epoch, nextSeq := r.1, boundary := r.2 }
        lineOffset := offset
        armed := if s.floor.view.live = none then s.floor.autoClaim else s.floor.armed
        absenceTimer := some s.floor.absenceTimeout } }
    ((∀ e, s.floor.view.epoch = some e → epochNewer epoch e = true) →
        exec .frameComplete s = .next (follows (reach none none)))
      ∧ (s.floor.view.epoch = some epoch → (∀ x, s.floor.view.live = some x → sender ≤ x) →
        exec .frameComplete s = .next (follows (reach s.floor.view.nextSeq s.floor.view.boundary)))
      ∧ (∀ x, s.floor.view.epoch = some epoch → s.floor.view.live = some x → x < sender →
        exec .frameComplete s = .next { s with line := quiet })
      ∧ (∀ e, s.floor.view.epoch = some e → epoch ≠ e → epochNewer epoch e = false →
        exec .frameComplete s = .next { s with line := quiet })

/-- What the tenure frames of another station do to a claiming one. A newer HANDOVER that names it makes it LIVE: the line offset follows the HANDOVER's line time, the tenure opens with its epoch and next seq, the view holds them with this station live, and the engine settles its shadow tail on entry. A newer HANDOVER that names another station ends the claim with a withdrawal, and with one ATTN pulse when the claim is the reporter's. A newer HANDOVER that names NONE leaves the view vacant and the window running, or starts it after integration. A segment that makes its sender the live station stops the window of a reporter's claim, which waits on, and ends an automatic one with a withdrawal and no pulse. -/
def Obligations.HandoverMakesClaimantLive : Prop :=
  (∀ (s : State) (sender : Station) (h : Handover),
      s.floor.state = .claiming → sender ≠ s.station → s.line.state = .receiving → s.line.charBits = [] →
      s.line.received = (Frame.handover h).chars sender →
      (∀ e, s.floor.view.epoch = some e → epochNewer h.epoch e = true) → s.engine.fullSettle = false →
      let view (live : Option Station) : View :=
        { live := live, epoch := some h.epoch, nextSeq := some h.nextSeq, boundary := some h.nextSeq }
      (h.successor = some s.station → ∃ t, exec .frameComplete s = .next t
          ∧ t.floor.state = .live ∧ t.floor.view = view (some s.station)
          ∧ t.floor.lineOffset = h.lineTime - s.clock
          ∧ t.floor.claimant = none ∧ t.floor.origin = none ∧ t.floor.claimTimer = none ∧ t.floor.absenceTimer = none
          ∧ t.floor.presenceTimer = some s.floor.presencePeriod
          ∧ t.feed = { s.feed with
              tenureEpoch := some h.epoch, nextSeq := h.nextSeq, settled := h.nextSeq, wireNext := h.nextSeq
              ring := [], cursor := none, gap := none }
          ∧ (s.engine.step = none → t.engine = { s.engine with tail := [], settleOnEntry := false })
          ∧ (s.engine.step.isSome = true → t.engine = { s.engine with settleOnEntry := true })
          ∧ t.intake = s.intake ∧ t.port = s.port ∧ t.scanner = s.scanner ∧ t.attnTimer = s.attnTimer)
        ∧ (∀ y, h.successor = some y → y ≠ s.station → s.engine.settleOnEntry = false →
          exec .frameComplete s = .next { s with
            line := { s.line with state := .idle, received := [] }
            floor := { s.floor with
              state := .standby, view := view (some y), lineOffset := h.lineTime - s.clock
              armed := if s.floor.view.live = none then s.floor.autoClaim else s.floor.armed
              origin := none, claimTimer := none, absenceTimer := some s.floor.absenceTimeout
              presenceTimer := some (4 * s.floor.presencePeriod) }
            feed := s.feed.offerClaim (.claim (some h.epoch) true)
            attnTimer := if s.floor.origin = some .reporter then some 250 else s.attnTimer })
        ∧ (h.successor = none → s.engine.settleOnEntry = false →
          exec .frameComplete s = .next { s with
            line := { s.line with state := .idle, received := [] }
            floor := { s.floor with
              view := view none, lineOffset := h.lineTime - s.clock, absenceTimer := none
              claimTimer :=
                if s.line.integrated = true ∧ s.floor.claimTimer = none then some s.floor.claimWindow
                else s.floor.claimTimer } }))
    ∧ ∀ (s : State) (sender : Station) (epoch : Epoch) (seg : Segment),
      s.floor.state = .claiming → sender ≠ s.station → s.line.state = .receiving → s.line.charBits = [] →
      FrameSound (.segment epoch none seg) → s.line.received = (Frame.segment epoch none seg).chars sender →
      s.engine.settleOnEntry = false → s.engine.fullSettle = false →
      ((∀ e, s.floor.view.epoch = some e → epochNewer epoch e = true)
        ∨ s.floor.view.epoch = some epoch ∧ ∀ x, s.floor.view.live = some x → sender < x) →
      ∃ t, exec .frameComplete s = .next t
        ∧ t.floor.view.live = some sender ∧ t.floor.view.epoch = some epoch
        ∧ t.floor.claimTimer = none ∧ t.floor.absenceTimer = some s.floor.absenceTimeout ∧ t.attnTimer = s.attnTimer
        ∧ (s.floor.origin = some .reporter →
          t.floor.state = .claiming ∧ t.floor.origin = some .reporter
            ∧ t.floor.presenceTimer = s.floor.presenceTimer ∧ t.feed = s.feed)
        ∧ (s.floor.origin = some .auto →
          t.floor.state = .standby ∧ t.floor.origin = none
            ∧ t.floor.presenceTimer = some (4 * s.floor.presencePeriod)
            ∧ t.feed = s.feed.offerClaim (.claim (some epoch) true))
        ∧ t.engine = s.engine ∧ t.intake = s.intake ∧ t.port = s.port ∧ t.scanner = s.scanner

/-- A HANDOVER of another station that a station standing by hears. A newer one that names this station is declined: the view is vacant in its epoch, the armed flag clears, and a HANDOVER of the next epoch with successor NONE and the same next seq is offered. A newer one that names another station is adopted with that station live: the line offset follows its line time, the absence timer is loaded, and the armed flag is set again after a vacant view. A newer one that names NONE leaves the view vacant and the absence timer stopped, and an armed station claims by itself, also when the view was vacant before (the model's reading of R164, log entry 19). One of the same epoch that names another station refreshes the view when that station is the live one, becomes it by its lower number or fills a vacant view, and is stale otherwise; one that names this station or NONE is ignored, and one of an older epoch changes nothing. A HANDOVER offered takes the place of one that is held, or of the newest one that waits (the model's choice among several, log entry 18); otherwise it joins the back of the queue, and is held when all 16 places are taken. -/
def Obligations.StandbyDeclinesHandover : Prop :=
  (∀ (s : State) (sender : Station) (h : Handover),
      s.floor.state = .standby → sender ≠ s.station → s.line.state = .receiving → s.line.charBits = [] →
      s.line.received = (Frame.handover h).chars sender →
      s.engine.settleOnEntry = false → s.engine.fullSettle = false →
      let quiet := { s.line with state := .idle, received := [] }
      let follows : State := { s with
        line := quiet
        floor := { s.floor with
          view := { live := h.successor, epoch := some h.epoch, nextSeq := some h.nextSeq, boundary := some h.nextSeq }
          lineOffset := h.lineTime - s.clock
          armed := if s.floor.view.live = none ∧ h.successor ≠ none then s.floor.autoClaim else s.floor.armed
          absenceTimer := if h.successor = none then none else some s.floor.absenceTimeout } }
      (h.successor = some s.station → (∀ e, s.floor.view.epoch = some e → epochNewer h.epoch e = true) →
          exec .frameComplete s = .next { s with
            line := quiet
            floor := { s.floor with
              view := { live := none, epoch := some h.epoch, nextSeq := some h.nextSeq, boundary := some h.nextSeq }
              lineOffset := h.lineTime - s.clock, armed := false, absenceTimer := none
              lastOffered := some { epoch := h.epoch + 1, successor := none, nextSeq := h.nextSeq } }
            feed := s.feed.offerHandover
              { epoch := h.epoch + 1, successor := none, nextSeq := h.nextSeq, lineTime := h.lineTime } })
        ∧ (h.successor ≠ some s.station → h.successor ≠ none ∨ s.floor.armed = false →
          (∀ e, s.floor.view.epoch = some e → epochNewer h.epoch e = true) → exec .frameComplete s = .next follows)
        ∧ (h.successor = none → s.floor.armed = true →
          (∀ e, s.floor.view.epoch = some e → epochNewer h.epoch e = true) →
          exec .frameComplete s = .next { follows with
            floor := { follows.floor with
              state := .claiming, origin := some .auto, presenceTimer := some s.floor.presencePeriod
              claimTimer :=
                if s.line.integrated = true ∧ s.floor.claimTimer = none then some s.floor.claimWindow
                else s.floor.claimTimer }
            feed := s.feed.offerClaim (.claim (some h.epoch) false) })
        ∧ (∀ y, h.successor = some y → y ≠ s.station → s.floor.view.epoch = some h.epoch →
          ((∀ x, s.floor.view.live = some x → y ≤ x) → exec .frameComplete s = .next follows)
            ∧ (∀ x, s.floor.view.live = some x → x < y → exec .frameComplete s = .next { s with line := quiet }))
        ∧ (s.floor.view.epoch = some h.epoch → s.floor.view.live ≠ some s.station →
          h.successor = some s.station ∨ h.successor = none → exec .frameComplete s = .next { s with line := quiet })
        ∧ (∀ e, s.floor.view.epoch = some e → h.epoch ≠ e → epochNewer h.epoch e = false →
          exec .frameComplete s = .next { s with line := quiet }))
    ∧ ∀ (f : Feed) (h : Handover),
      (f.held.isSome = true → f.offerHandover h = { f with held := some h })
        ∧ (∀ before old behind, f.held = none → f.waiting = before ++ .handover old :: behind →
          (∀ x ∈ behind, x.isHandover = false) →
          f.offerHandover h = { f with waiting := before ++ .handover h :: behind })
        ∧ (f.held = none → (∀ x ∈ f.waiting, x.isHandover = false) →
          (f.places < 16 → f.offerHandover h = { f with waiting := f.waiting ++ [.handover h] })
            ∧ (16 ≤ f.places → f.offerHandover h = { f with held := some h }))

/-- What a station in LIVE or HANDING does on the tenure frames of another station. A frame of a newer epoch, or of its own epoch from a lower-numbered station, demotes it: it stands by, its claimant and replay state are gone, no segment frame, GAP, copy or HANDOVER of its tenure waits, its tail carries no seq, and its line offset stands. A frame of an older epoch, or of its own epoch from a higher-numbered station, is stale: it changes no state of the floor, and a PRESENCE is offered at once, which joins only an empty queue. A HANDOVER is judged by its successor: a newer one demotes it whatever it names, to a view with the successor live, to a vacant view and a decline when it names this station, and to a vacant view, with an automatic claim when armed, when it names NONE; one of its own epoch demotes it when it names a lower-numbered station, refreshes the view when it names this station, is ignored when it names NONE, and is stale otherwise. -/
def Obligations.NewerTenureDemotesLiveStation : Prop :=
  (∀ (s : State) (sender : Station) (epoch viewEpoch : Epoch) (frame : Frame),
      (∃ copy seg, frame = .segment epoch copy seg) ∨ (∃ q, frame = .cut epoch q) ∨ (∃ b, frame = .settle epoch b)
        ∨ (∃ fromSeq toSeq, frame = .gap epoch fromSeq toSeq)
        ∨ (∃ p n b, frame = .presence (some p) ∧ p.role = .live
          ∧ p.reach = some { epoch := epoch, nextSeq := n, boundary := b }) →
      s.floor.state = .live ∨ s.floor.state = .handing → sender ≠ s.station → s.line.state = .receiving →
      s.line.charBits = [] → FrameSound frame → s.line.received = frame.chars sender →
      s.floor.view.epoch = some viewEpoch →
      (epochNewer epoch viewEpoch = true
          ∨ epoch = viewEpoch ∧ s.floor.view.live = some s.station ∧ sender < s.station →
        ∃ t, exec .frameComplete s = .next t
          ∧ t.floor.state = .standby ∧ t.floor.view.live = some sender ∧ t.floor.view.epoch = some epoch
          ∧ t.floor.claimant = none ∧ t.floor.keptBack = none ∧ t.floor.lineOffset = s.floor.lineOffset
          ∧ t.floor.presenceTimer = some (4 * s.floor.presencePeriod)
          ∧ t.floor.absenceTimer = some s.floor.absenceTimeout
          ∧ t.feed.ring = [] ∧ t.feed.cursor = none ∧ t.feed.gap = none ∧ t.feed.held = none
          ∧ t.feed.waiting = s.feed.waiting.filter (fun f => !f.ofTenure)
          ∧ (∀ r ∈ t.engine.tail, r.seq = none) ∧ t.engine.context = s.engine.context
          ∧ t.engine.replay = s.engine.replay ∧ t.intake = s.intake ∧ t.port = s.port ∧ t.attnTimer = s.attnTimer)
        ∧ (epoch ≠ viewEpoch ∧ epochNewer epoch viewEpoch = false
            ∨ epoch = viewEpoch ∧ s.floor.view.live = some s.station ∧ s.station < sender →
          s.engine.settleOnEntry = false → s.engine.fullSettle = false →
          exec .frameComplete s = .next { s with
            line := { s.line with state := .idle, received := [] }
            feed :=
              if s.feed.waiting = [] ∧ s.feed.sending = none then { s.feed with waiting := [.presence none] }
              else s.feed }))
    ∧ ∀ (s : State) (sender : Station) (h : Handover) (viewEpoch : Epoch),
      s.floor.state = .live ∨ s.floor.state = .handing → sender ≠ s.station → s.line.state = .receiving →
      s.line.charBits = [] → s.line.received = (Frame.handover h).chars sender →
      s.floor.view.epoch = some viewEpoch → s.floor.view.live = some s.station →
      let quiet := { s.line with state := .idle, received := [] }
      let view (live : Option Station) : View :=
        { live := live, epoch := some h.epoch, nextSeq := some h.nextSeq, boundary := some h.nextSeq }
      let closed : Feed := { s.feed with
        ring := [], cursor := none, gap := none, held := none
        waiting := s.feed.waiting.filter (fun f => !f.ofTenure)
        sending := s.feed.sending.map fun x => if x.frame.ofTenure then { x with withdrawn := true } else x }
      let demoted (live : Option Station) : Floor := { s.floor with
        state := .standby, view := view live, claimant := none, keptBack := none
        presenceTimer := some (4 * s.floor.presencePeriod)
        absenceTimer := if live = none then none else some s.floor.absenceTimeout }
      let leaves (floor : Floor) (feed : Feed) : Prop := ∃ t, exec .frameComplete s = .next t
        ∧ t.floor = floor ∧ t.feed = feed ∧ t.line = quiet ∧ (∀ r ∈ t.engine.tail, r.seq = none)
        ∧ t.engine.context = s.engine.context ∧ t.engine.replay = s.engine.replay
        ∧ t.intake = s.intake ∧ t.port = s.port ∧ t.scanner = s.scanner ∧ t.attnTimer = s.attnTimer
      (∀ y, h.successor = some y → y ≠ s.station →
          epochNewer h.epoch viewEpoch = true ∨ h.epoch = viewEpoch ∧ y < s.station → leaves (demoted (some y)) closed)
        ∧ (h.successor = some s.station → epochNewer h.epoch viewEpoch = true →
          leaves
            { demoted none with
              armed := false
              lastOffered := some { epoch := h.epoch + 1, successor := none, nextSeq := h.nextSeq } }
            (closed.offerHandover
              { epoch := h.epoch + 1, successor := none, nextSeq := h.nextSeq
                lineTime := s.clock + s.floor.lineOffset }))
        ∧ (h.successor = none → epochNewer h.epoch viewEpoch = true →
          (s.floor.armed = false → leaves (demoted none) closed)
            ∧ (s.floor.armed = true →
              leaves
                { demoted none with
                  state := .claiming, origin := some .auto, presenceTimer := some s.floor.presencePeriod
                  claimTimer :=
                    if s.line.integrated = true ∧ s.floor.claimTimer = none then some s.floor.claimWindow
                    else s.floor.claimTimer }
                (closed.offerClaim (.claim (some h.epoch) false))))
        ∧ (s.engine.settleOnEntry = false → s.engine.fullSettle = false →
          (h.epoch = viewEpoch → h.successor = some s.station → exec .frameComplete s = .next { s with
              line := quiet, floor := { s.floor with view := view (some s.station), absenceTimer := none } })
            ∧ (h.epoch = viewEpoch → h.successor = none → exec .frameComplete s = .next { s with line := quiet })
            ∧ (h.epoch ≠ viewEpoch ∧ epochNewer h.epoch viewEpoch = false
                ∨ h.epoch = viewEpoch ∧ (∃ y, h.successor = some y ∧ s.station < y) →
              exec .frameComplete s = .next { s with
                line := quiet
                feed :=
                  if s.feed.waiting = [] ∧ s.feed.sending = none then { s.feed with waiting := [.presence none] }
                  else s.feed }))

/-! ## Sending -/

/-- In IDLE, after 14 quiet bit times and outside MUTE, the head frame begins transmission: it becomes the frame in transmission, a PRESENCE is filled at that moment, and W rises to one past a segment seq it carries when that is newer. -/
def Obligations.HeadFrameBeginsTransmission : Prop :=
  ∀ (s : State) (head : Frame) (rest : List Frame),
    s.line.state = .idle → 14 ≤ s.line.idle → s.feed.waiting = head :: rest → s.floor.state ≠ .mute →
    exec .transmitBegin s = .next { s with
      line := { s.line with state := .transmitting, readBack := 0, mismatch := false }
      feed := { s.feed with
        waiting := rest
        sending := some {
          frame := (match head with | .presence _ => .presence (some (presenceFields s)) | other => other)
          withdrawn := false }
        wireNext :=
          match head.segmentSeq with
          | some q => if seqNewer (q + 1) s.feed.wireNext then q + 1 else s.feed.wireNext
          | none => s.feed.wireNext } }

/-- The fields of a PRESENCE: role and line time of the floor, epoch, next seq and boundary of the tenure in LIVE and HANDING and of the view elsewhere when all three are known, and the health fields read from the blocks that hold them. -/
def Obligations.PresenceFieldsReadFromBlocks : Prop :=
  ∀ s : State,
    let p := presenceFields s
    (s.floor.state = .live ∨ s.floor.state = .handing →
        p.role = .live
          ∧ p.reach = some { epoch := s.feed.epoch, nextSeq := s.feed.nextSeq, boundary := s.feed.settled })
    ∧ (s.floor.state = .standby → p.role = .standby) ∧ (s.floor.state = .claiming → p.role = .claiming)
    ∧ (s.floor.state = .standby ∨ s.floor.state = .claiming →
        (p.reach = none ↔ s.floor.view.epoch = none ∨ s.floor.view.nextSeq = none ∨ s.floor.view.boundary = none)
          ∧ ∀ r, p.reach = some r → s.floor.view.epoch = some r.epoch ∧ s.floor.view.nextSeq = some r.nextSeq
              ∧ s.floor.view.boundary = some r.boundary)
    ∧ p.lineTime = s.clock + s.floor.lineOffset
    ∧ p.lost.toNat = min 65535 s.intake.lost.toNat
    ∧ (s.line.errors ≤ 65535 → p.lineErrors.toNat = s.line.errors)
    ∧ (s.engine.refusals ≤ 65535 → p.refusals.toNat = s.engine.refusals)
    ∧ (s.port.faults.length ≤ 8 → p.faultEntries.toNat = s.port.faults.length)
    ∧ p.down = !s.port.up ∧ p.overflow = s.port.overflow ∧ p.defaulted = s.startup.defaulted
    ∧ (p.stuck = true ↔ s.scanner.stuck ≠ 0)

/-- A frame whose last stop bit has been read back is sent whole: it frees its place, which a held HANDOVER takes, the body-collision count becomes 0, the line is IDLE and the presence timer is loaded with the floor state's value. The hand-over HANDOVER, told by its epoch (log entry 17), sent whole ends the tenure: the station stands by, the view holds the new epoch with the successor live or vacant, the presence timer is loaded with four periods, the absence timer when a station succeeds, and a hand-over to NONE disarms the automatic claim. A takeover sent whole refreshes the view of its own tenure, and a hand-over kept back behind it is then offered. A decline sent whole is applied to the view as if received: of a newer epoch it leaves it vacant there, the window of a claim runs or starts, and an armed station standing by claims by itself, also when the view was vacant before (the model's reading of R164, log entry 19); otherwise a takeover or decline that is no longer newer changes nothing there. -/
def Obligations.FrameSentWhole : Prop :=
  (∀ (s : State) (x : Sending),
      s.line.state = .transmitting → s.line.mismatch = false → s.feed.sending = some x →
      s.line.readBack = (x.frame.levels s.station).length → x.frame.isHandover = false → s.feed.waiting.length < 16 →
      s.engine.settleOnEntry = false → s.engine.fullSettle = false → s.floor.state ≠ .mute →
      exec .frameSentWhole s = .next { s with
        line := { s.line with state := .idle, readBack := 0, collisions := 0 }
        feed := (match s.feed.held with
          | none => { s.feed with sending := none }
          | some h => { s.feed with sending := none, waiting := s.feed.waiting ++ [.handover h], held := none })
        floor := { s.floor with
          presenceTimer := some (if s.floor.state = .standby then 4 * s.floor.presencePeriod else s.floor.presencePeriod) } })
    ∧ (∀ (s : State) (x : Sending) (h : Handover) (e : Epoch),
      s.line.state = .transmitting → s.line.mismatch = false → s.feed.sending = some x → x.frame = .handover h →
      s.line.readBack = (x.frame.levels s.station).length → s.floor.state = .handing →
      s.feed.tenureEpoch = some e → s.floor.view.epoch = some e → s.floor.view.live = some s.station →
      h.epoch = e + 1 → h.successor ≠ some s.station →
      ∃ t, exec .frameSentWhole s = .next t
        ∧ t.floor.state = .standby
        ∧ t.floor.view =
            { live := h.successor, epoch := some h.epoch, nextSeq := some h.nextSeq, boundary := some h.nextSeq }
        ∧ t.floor.claimant = none ∧ t.floor.presenceTimer = some (4 * s.floor.presencePeriod)
        ∧ t.floor.absenceTimer = (if h.successor = none then none else some s.floor.absenceTimeout)
        ∧ t.floor.armed = (if h.successor = none then false else s.floor.armed)
        ∧ t.feed.sending = none ∧ t.feed.ring = [] ∧ t.line.state = .idle ∧ t.line.collisions = 0
        ∧ (∀ r ∈ t.engine.tail, r.seq = none)
        ∧ t.intake = s.intake ∧ t.port = s.port ∧ t.scanner = s.scanner ∧ t.attnTimer = s.attnTimer)
    ∧ ∀ (s : State) (x : Sending) (h : Handover),
      s.line.state = .transmitting → s.line.mismatch = false → s.feed.sending = some x → x.frame = .handover h →
      s.line.readBack = (x.frame.levels s.station).length → s.feed.waiting.length < 16 →
      s.engine.settleOnEntry = false → s.engine.fullSettle = false →
      let freed : Feed := match s.feed.held with
        | none => { s.feed with sending := none }
        | some w => { s.feed with sending := none, waiting := s.feed.waiting ++ [.handover w], held := none }
      let sent (floor : Floor) (feed : Feed) : State := { s with
        line := { s.line with state := .idle, readBack := 0, collisions := 0 }
        floor := { floor with
          presenceTimer := some (if s.floor.state = .standby then 4 * s.floor.presencePeriod else s.floor.presencePeriod) }
        feed := feed }
      let view : View :=
        { live := h.successor, epoch := some h.epoch, nextSeq := some h.nextSeq, boundary := some h.nextSeq }
      (s.floor.state = .live ∨ s.floor.state = .handing → h.successor = some s.station →
          s.feed.tenureEpoch = some h.epoch → s.floor.view.epoch = some h.epoch → s.floor.view.live = some s.station →
          (s.floor.keptBack = none → exec .frameSentWhole s = .next
              (sent { s.floor with view := view, absenceTimer := none } freed))
            ∧ (∀ kept, s.floor.keptBack = some kept → exec .frameSentWhole s = .next
              (sent
                { s.floor with
                  view := view, absenceTimer := none, keptBack := none
                  lastOffered := some { epoch := kept.epoch, successor := kept.successor, nextSeq := kept.nextSeq } }
                (freed.offerHandover kept))))
        ∧ (h.successor = none → (∀ e, s.floor.view.epoch = some e → epochNewer h.epoch e = true) →
          (s.floor.state = .standby → s.floor.armed = false → exec .frameSentWhole s = .next
              (sent { s.floor with view := view, absenceTimer := none } freed))
            ∧ (s.floor.state = .standby → s.floor.armed = true → ∃ t, exec .frameSentWhole s = .next t
              ∧ t.floor.state = .claiming ∧ t.floor.origin = some .auto ∧ t.floor.view = view
              ∧ t.floor.claimTimer =
                (if s.line.integrated = true ∧ s.floor.claimTimer = none then some s.floor.claimWindow
                else s.floor.claimTimer)
              ∧ t.feed = freed.offerClaim (.claim (some h.epoch) false))
            ∧ (s.floor.state = .claiming → exec .frameSentWhole s = .next
              (sent
                { s.floor with
                  view := view, absenceTimer := none
                  claimTimer :=
                    if s.line.integrated = true ∧ s.floor.claimTimer = none then some s.floor.claimWindow
                    else s.floor.claimTimer }
                freed)))
        ∧ (s.floor.state = .standby ∨ s.floor.state = .claiming → h.successor = none ∨ h.successor = some s.station →
          s.floor.keptBack = none → s.floor.view.live ≠ some s.station →
          (∃ e, s.floor.view.epoch = some e ∧ epochNewer h.epoch e = false) →
          exec .frameSentWhole s = .next (sent s.floor freed))

/-- A mismatch of the first kind in the lead character is a loss of arbitration: the frame goes back to the head, or is dropped when it carries a withdrawal mark, the bits read back are the character being received, and no count changes. A mismatch after the lead character, or a drive that fails anywhere, is a body collision: below three the frame is handed back, the count rises and the characters read back are kept as a frame in reception; the third enters MUTE with an empty queue, the line state IDLE and the hunting flag set; the frame in reception that the collision left is given up without a count (log entry 15). Below three, the reading at which the mismatch is found is a bit of the character received (log entry 26). -/
def Obligations.MismatchHandsFrameBack : Prop :=
  (∀ (s : State) (x : Sending),
      s.line.state = .transmitting → s.line.mismatch = true → s.feed.sending = some x → s.line.readBack < 11 →
      bitSent s = .released → s.feed.held = none →
      exec .lossOfArbitration s = .next { s with
        line := { s.line with
          state := .receiving, received := [], readBack := 0, mismatch := false
          charBits := (x.frame.levels s.station).take s.line.readBack ++ [.driven] }
        feed := { s.feed with
          sending := none, waiting := if x.withdrawn then s.feed.waiting else x.frame :: s.feed.waiting } })
    ∧ (∀ (s : State) (x : Sending),
      s.line.state = .transmitting → s.line.mismatch = true → s.feed.sending = some x →
      (11 ≤ s.line.readBack ∨ bitSent s = .driven) → s.feed.held = none →
      (s.line.collisions < 2 → exec .bodyCollision s = .next { s with
          line := { s.line with
            state := .receiving, readBack := 0, mismatch := false, collisions := s.line.collisions + 1
            received := (x.frame.chars s.station).take (s.line.readBack / 11)
            charBits := ((x.frame.levels s.station).drop (s.line.readBack / 11 * 11)).take (s.line.readBack % 11)
              ++ [flipLevel (bitSent s)] }
          feed := { s.feed with
            sending := none, waiting := if x.withdrawn then s.feed.waiting else x.frame :: s.feed.waiting } })
        ∧ (2 ≤ s.line.collisions → s.floor.state ≠ .mute → ∃ t, exec .bodyCollision s = .next t
          ∧ t.floor.state = .mute ∧ t.line = { s.line with
              state := .idle, hunting := true, received := [], charBits := [], readBack := 0, mismatch := false
              collisions := 3 }
          ∧ t.feed.waiting = [] ∧ t.feed.sending = none ∧ (∀ r ∈ t.engine.tail, r.seq = none)
          ∧ t.intake = s.intake ∧ t.port = s.port ∧ t.scanner = s.scanner ∧ t.attnTimer = s.attnTimer))

/-! ## The floor's timers and the status outputs -/

/-- Expiry of the absence timer makes the view vacant and keeps its epoch, next seq and boundary; an armed station standing by then claims by itself, with its window when start-up integration is done, and a claiming one starts its window. Expiry of the presence timer loads it again and offers a CLAIM in CLAIMING and a PRESENCE elsewhere, which joins only an empty queue. A CLAIM offered takes the place of the newest one that waits (the model's choice when two wait, log entry 18); otherwise it joins the back of the queue while a place is free (R143 finds it one; a full queue is log entry 24). -/
def Obligations.AbsenceAndPresenceTimers : Prop :=
  (∀ s : State, s.floor.absenceTimer = some 0 →
      ∃ t, exec .absenceTimerExpiry s = .next t
        ∧ t.floor.view = { s.floor.view with live := none } ∧ t.floor.absenceTimer = none
        ∧ (s.floor.state = .standby → s.floor.armed = false → t = { s with floor := t.floor } ∧ t.floor.state = .standby)
        ∧ (s.floor.state = .standby → s.floor.armed = true →
            t.floor.state = .claiming ∧ t.floor.origin = some .auto
              ∧ t.floor.claimTimer =
                (if s.line.integrated = true ∧ s.floor.claimTimer = none then some s.floor.claimWindow
                else s.floor.claimTimer)
              ∧ t.floor.presenceTimer = some s.floor.presencePeriod
              ∧ t.feed = s.feed.offerClaim (.claim s.floor.view.epoch false))
        ∧ (s.floor.state = .claiming → s.line.integrated = true → s.floor.claimTimer = none →
            t.floor.state = .claiming ∧ t.floor.claimTimer = some s.floor.claimWindow ∧ t.feed = s.feed)
        ∧ t.engine = s.engine ∧ t.port = s.port ∧ t.intake = s.intake ∧ t.line = s.line ∧ t.attnTimer = s.attnTimer)
    ∧ (∀ s : State, s.floor.presenceTimer = some 0 → s.floor.state ≠ .mute →
      exec .presenceTimerExpiry s = .next { s with
        floor := { s.floor with
          presenceTimer := some (if s.floor.state = .standby then 4 * s.floor.presencePeriod else s.floor.presencePeriod) }
        feed :=
          if s.floor.state = .claiming then s.feed.offerClaim (.claim s.floor.view.epoch false)
          else if s.feed.waiting = [] ∧ s.feed.sending = none then { s.feed with waiting := [.presence none] }
          else s.feed })
    ∧ ∀ (f : Feed) (epoch : Option Epoch) (withdraw : Bool),
      (∀ before oldEpoch oldWithdraw behind, f.waiting = before ++ .claim oldEpoch oldWithdraw :: behind →
          (∀ x ∈ behind, x.isClaim = false) →
          f.offerClaim (.claim epoch withdraw) = { f with waiting := before ++ .claim epoch withdraw :: behind })
        ∧ ((∀ x ∈ f.waiting, x.isClaim = false) → f.offerClaim (.claim epoch withdraw) = { f with
            waiting := if f.places < 16 then f.waiting ++ [.claim epoch withdraw] else f.waiting })

/-- Expiry of the claim window takes the floor: a takeover of the next epoch (1 from an unknown one) at the view next seq (0 when unknown) is offered, the view and the tenure open with it, and the shadow tail settles on entry. -/
def Obligations.ClaimWindowTakesTheFloor : Prop :=
  ∀ s : State, s.floor.claimTimer = some 0 → s.floor.state = .claiming → s.engine.fullSettle = false →
    let epoch : Epoch := match s.floor.view.epoch with | some e => e + 1 | none => 1
    let next : Seq := s.floor.view.nextSeq.getD 0
    let takeover : Handover :=
      { epoch := epoch, successor := some s.station, nextSeq := next, lineTime := s.clock + s.floor.lineOffset }
    ∃ t, exec .claimWindowExpiry s = .next t
      ∧ t.floor.state = .live
      ∧ t.floor.view = { live := some s.station, epoch := some epoch, nextSeq := some next, boundary := some next }
      ∧ t.floor.lastOffered = some { epoch := epoch, successor := some s.station, nextSeq := next }
      ∧ t.floor.origin = none ∧ t.floor.claimTimer = none ∧ t.floor.absenceTimer = none
      ∧ t.floor.presenceTimer = some s.floor.presencePeriod ∧ t.floor.lineOffset = s.floor.lineOffset
      ∧ t.feed = { s.feed.offerHandover takeover with
          tenureEpoch := some epoch, nextSeq := next, settled := next, wireNext := next
          ring := [], cursor := none, gap := none }
      ∧ (s.engine.step = none → t.engine = { s.engine with tail := [], settleOnEntry := false })
      ∧ (s.engine.step.isSome = true → t.engine = { s.engine with settleOnEntry := true })
      ∧ t.port = s.port ∧ t.intake = s.intake ∧ t.line = s.line ∧ t.attnTimer = s.attnTimer

/-- Expiry of the ATTN pulse timer stops it, and ATTN is lit while the port is DOWN, the start was defaulted, the station is MUTE, a key is stuck, or the pulse timer runs. -/
def Obligations.AttnPulseAndLamp : Prop :=
  ∀ s : State,
    (s.attnTimer = some 0 → exec .attnPulseExpiry s = .next { s with attnTimer := none })
      ∧ (attnLamp s = true ↔ s.port.up = false ∨ s.startup.defaulted = true ∨ s.floor.state = .mute
          ∨ s.scanner.stuck ≠ 0 ∨ s.attnTimer.isSome = true)

/-- The LIVE lamp is lit in LIVE and HANDING; the CLAIM lamp is lit in CLAIMING, and in LIVE while a claimant is pending. After reset both are dark. -/
def Obligations.LiveAndClaimLamps : Prop :=
  (∀ s : State,
      (liveLamp s = true ↔ s.floor.state = .live ∨ s.floor.state = .handing)
        ∧ (claimLamp s = true ↔ s.floor.state = .claiming
            ∨ (s.floor.state = .live ∧ ∃ c, s.floor.claimant = some c)))
    ∧ (∀ (straps : BitVec 4) (s t : State), exec (.reset straps) s = .next t →
        liveLamp t = false ∧ claimLamp t = false)

end
end

