-- ==== Sys2Proof/Laws/State.lean ====
section
/-! SUPPORT. What each update of one block of the state leaves in every field: one lemma per field per update, and the collapse of two updates of the same block. -/

namespace Sys2Proof.Machine

variable (s : State)

@[simp] theorem State.setClock_clock (x : Clock) : (s.setClock x).clock = x := rfl
@[simp] theorem State.setClock_station (x : Clock) : (s.setClock x).station = s.station := rfl
@[simp] theorem State.setClock_startup (x : Clock) : (s.setClock x).startup = s.startup := rfl
@[simp] theorem State.setClock_scanner (x : Clock) : (s.setClock x).scanner = s.scanner := rfl
@[simp] theorem State.setClock_intake (x : Clock) : (s.setClock x).intake = s.intake := rfl
@[simp] theorem State.setClock_port (x : Clock) : (s.setClock x).port = s.port := rfl
@[simp] theorem State.setClock_engine (x : Clock) : (s.setClock x).engine = s.engine := rfl
@[simp] theorem State.setClock_feed (x : Clock) : (s.setClock x).feed = s.feed := rfl
@[simp] theorem State.setClock_line (x : Clock) : (s.setClock x).line = s.line := rfl
@[simp] theorem State.setClock_floor (x : Clock) : (s.setClock x).floor = s.floor := rfl
@[simp] theorem State.setClock_attnTimer (x : Clock) : (s.setClock x).attnTimer = s.attnTimer := rfl
@[simp] theorem State.setClock_pending (x : Clock) : (s.setClock x).pending = s.pending := rfl
@[simp] theorem State.setClock_setClock (x y : Clock) : (s.setClock x).setClock y = s.setClock y := rfl
@[simp] theorem State.setClock_self : s.setClock s.clock = s := rfl

@[simp] theorem State.setStation_clock (x : Station) : (s.setStation x).clock = s.clock := rfl
@[simp] theorem State.setStation_station (x : Station) : (s.setStation x).station = x := rfl
@[simp] theorem State.setStation_startup (x : Station) : (s.setStation x).startup = s.startup := rfl
@[simp] theorem State.setStation_scanner (x : Station) : (s.setStation x).scanner = s.scanner := rfl
@[simp] theorem State.setStation_intake (x : Station) : (s.setStation x).intake = s.intake := rfl
@[simp] theorem State.setStation_port (x : Station) : (s.setStation x).port = s.port := rfl
@[simp] theorem State.setStation_engine (x : Station) : (s.setStation x).engine = s.engine := rfl
@[simp] theorem State.setStation_feed (x : Station) : (s.setStation x).feed = s.feed := rfl
@[simp] theorem State.setStation_line (x : Station) : (s.setStation x).line = s.line := rfl
@[simp] theorem State.setStation_floor (x : Station) : (s.setStation x).floor = s.floor := rfl
@[simp] theorem State.setStation_attnTimer (x : Station) : (s.setStation x).attnTimer = s.attnTimer := rfl
@[simp] theorem State.setStation_pending (x : Station) : (s.setStation x).pending = s.pending := rfl
@[simp] theorem State.setStation_setStation (x y : Station) : (s.setStation x).setStation y = s.setStation y := rfl
@[simp] theorem State.setStation_self : s.setStation s.station = s := rfl

@[simp] theorem State.setStartup_clock (x : Startup) : (s.setStartup x).clock = s.clock := rfl
@[simp] theorem State.setStartup_station (x : Startup) : (s.setStartup x).station = s.station := rfl
@[simp] theorem State.setStartup_startup (x : Startup) : (s.setStartup x).startup = x := rfl
@[simp] theorem State.setStartup_scanner (x : Startup) : (s.setStartup x).scanner = s.scanner := rfl
@[simp] theorem State.setStartup_intake (x : Startup) : (s.setStartup x).intake = s.intake := rfl
@[simp] theorem State.setStartup_port (x : Startup) : (s.setStartup x).port = s.port := rfl
@[simp] theorem State.setStartup_engine (x : Startup) : (s.setStartup x).engine = s.engine := rfl
@[simp] theorem State.setStartup_feed (x : Startup) : (s.setStartup x).feed = s.feed := rfl
@[simp] theorem State.setStartup_line (x : Startup) : (s.setStartup x).line = s.line := rfl
@[simp] theorem State.setStartup_floor (x : Startup) : (s.setStartup x).floor = s.floor := rfl
@[simp] theorem State.setStartup_attnTimer (x : Startup) : (s.setStartup x).attnTimer = s.attnTimer := rfl
@[simp] theorem State.setStartup_pending (x : Startup) : (s.setStartup x).pending = s.pending := rfl
@[simp] theorem State.setStartup_setStartup (x y : Startup) : (s.setStartup x).setStartup y = s.setStartup y := rfl
@[simp] theorem State.setStartup_self : s.setStartup s.startup = s := rfl

@[simp] theorem State.setScanner_clock (x : Scanner) : (s.setScanner x).clock = s.clock := rfl
@[simp] theorem State.setScanner_station (x : Scanner) : (s.setScanner x).station = s.station := rfl
@[simp] theorem State.setScanner_startup (x : Scanner) : (s.setScanner x).startup = s.startup := rfl
@[simp] theorem State.setScanner_scanner (x : Scanner) : (s.setScanner x).scanner = x := rfl
@[simp] theorem State.setScanner_intake (x : Scanner) : (s.setScanner x).intake = s.intake := rfl
@[simp] theorem State.setScanner_port (x : Scanner) : (s.setScanner x).port = s.port := rfl
@[simp] theorem State.setScanner_engine (x : Scanner) : (s.setScanner x).engine = s.engine := rfl
@[simp] theorem State.setScanner_feed (x : Scanner) : (s.setScanner x).feed = s.feed := rfl
@[simp] theorem State.setScanner_line (x : Scanner) : (s.setScanner x).line = s.line := rfl
@[simp] theorem State.setScanner_floor (x : Scanner) : (s.setScanner x).floor = s.floor := rfl
@[simp] theorem State.setScanner_attnTimer (x : Scanner) : (s.setScanner x).attnTimer = s.attnTimer := rfl
@[simp] theorem State.setScanner_pending (x : Scanner) : (s.setScanner x).pending = s.pending := rfl
@[simp] theorem State.setScanner_setScanner (x y : Scanner) : (s.setScanner x).setScanner y = s.setScanner y := rfl
@[simp] theorem State.setScanner_self : s.setScanner s.scanner = s := rfl

@[simp] theorem State.setIntake_clock (x : Intake) : (s.setIntake x).clock = s.clock := rfl
@[simp] theorem State.setIntake_station (x : Intake) : (s.setIntake x).station = s.station := rfl
@[simp] theorem State.setIntake_startup (x : Intake) : (s.setIntake x).startup = s.startup := rfl
@[simp] theorem State.setIntake_scanner (x : Intake) : (s.setIntake x).scanner = s.scanner := rfl
@[simp] theorem State.setIntake_intake (x : Intake) : (s.setIntake x).intake = x := rfl
@[simp] theorem State.setIntake_port (x : Intake) : (s.setIntake x).port = s.port := rfl
@[simp] theorem State.setIntake_engine (x : Intake) : (s.setIntake x).engine = s.engine := rfl
@[simp] theorem State.setIntake_feed (x : Intake) : (s.setIntake x).feed = s.feed := rfl
@[simp] theorem State.setIntake_line (x : Intake) : (s.setIntake x).line = s.line := rfl
@[simp] theorem State.setIntake_floor (x : Intake) : (s.setIntake x).floor = s.floor := rfl
@[simp] theorem State.setIntake_attnTimer (x : Intake) : (s.setIntake x).attnTimer = s.attnTimer := rfl
@[simp] theorem State.setIntake_pending (x : Intake) : (s.setIntake x).pending = s.pending := rfl
@[simp] theorem State.setIntake_setIntake (x y : Intake) : (s.setIntake x).setIntake y = s.setIntake y := rfl
@[simp] theorem State.setIntake_self : s.setIntake s.intake = s := rfl

@[simp] theorem State.setPort_clock (x : Port) : (s.setPort x).clock = s.clock := rfl
@[simp] theorem State.setPort_station (x : Port) : (s.setPort x).station = s.station := rfl
@[simp] theorem State.setPort_startup (x : Port) : (s.setPort x).startup = s.startup := rfl
@[simp] theorem State.setPort_scanner (x : Port) : (s.setPort x).scanner = s.scanner := rfl
@[simp] theorem State.setPort_intake (x : Port) : (s.setPort x).intake = s.intake := rfl
@[simp] theorem State.setPort_port (x : Port) : (s.setPort x).port = x := rfl
@[simp] theorem State.setPort_engine (x : Port) : (s.setPort x).engine = s.engine := rfl
@[simp] theorem State.setPort_feed (x : Port) : (s.setPort x).feed = s.feed := rfl
@[simp] theorem State.setPort_line (x : Port) : (s.setPort x).line = s.line := rfl
@[simp] theorem State.setPort_floor (x : Port) : (s.setPort x).floor = s.floor := rfl
@[simp] theorem State.setPort_attnTimer (x : Port) : (s.setPort x).attnTimer = s.attnTimer := rfl
@[simp] theorem State.setPort_pending (x : Port) : (s.setPort x).pending = s.pending := rfl
@[simp] theorem State.setPort_setPort (x y : Port) : (s.setPort x).setPort y = s.setPort y := rfl
@[simp] theorem State.setPort_self : s.setPort s.port = s := rfl

@[simp] theorem State.setEngine_clock (x : Engine) : (s.setEngine x).clock = s.clock := rfl
@[simp] theorem State.setEngine_station (x : Engine) : (s.setEngine x).station = s.station := rfl
@[simp] theorem State.setEngine_startup (x : Engine) : (s.setEngine x).startup = s.startup := rfl
@[simp] theorem State.setEngine_scanner (x : Engine) : (s.setEngine x).scanner = s.scanner := rfl
@[simp] theorem State.setEngine_intake (x : Engine) : (s.setEngine x).intake = s.intake := rfl
@[simp] theorem State.setEngine_port (x : Engine) : (s.setEngine x).port = s.port := rfl
@[simp] theorem State.setEngine_engine (x : Engine) : (s.setEngine x).engine = x := rfl
@[simp] theorem State.setEngine_feed (x : Engine) : (s.setEngine x).feed = s.feed := rfl
@[simp] theorem State.setEngine_line (x : Engine) : (s.setEngine x).line = s.line := rfl
@[simp] theorem State.setEngine_floor (x : Engine) : (s.setEngine x).floor = s.floor := rfl
@[simp] theorem State.setEngine_attnTimer (x : Engine) : (s.setEngine x).attnTimer = s.attnTimer := rfl
@[simp] theorem State.setEngine_pending (x : Engine) : (s.setEngine x).pending = s.pending := rfl
@[simp] theorem State.setEngine_setEngine (x y : Engine) : (s.setEngine x).setEngine y = s.setEngine y := rfl
@[simp] theorem State.setEngine_self : s.setEngine s.engine = s := rfl

@[simp] theorem State.setFeed_clock (x : Feed) : (s.setFeed x).clock = s.clock := rfl
@[simp] theorem State.setFeed_station (x : Feed) : (s.setFeed x).station = s.station := rfl
@[simp] theorem State.setFeed_startup (x : Feed) : (s.setFeed x).startup = s.startup := rfl
@[simp] theorem State.setFeed_scanner (x : Feed) : (s.setFeed x).scanner = s.scanner := rfl
@[simp] theorem State.setFeed_intake (x : Feed) : (s.setFeed x).intake = s.intake := rfl
@[simp] theorem State.setFeed_port (x : Feed) : (s.setFeed x).port = s.port := rfl
@[simp] theorem State.setFeed_engine (x : Feed) : (s.setFeed x).engine = s.engine := rfl
@[simp] theorem State.setFeed_feed (x : Feed) : (s.setFeed x).feed = x := rfl
@[simp] theorem State.setFeed_line (x : Feed) : (s.setFeed x).line = s.line := rfl
@[simp] theorem State.setFeed_floor (x : Feed) : (s.setFeed x).floor = s.floor := rfl
@[simp] theorem State.setFeed_attnTimer (x : Feed) : (s.setFeed x).attnTimer = s.attnTimer := rfl
@[simp] theorem State.setFeed_pending (x : Feed) : (s.setFeed x).pending = s.pending := rfl
@[simp] theorem State.setFeed_setFeed (x y : Feed) : (s.setFeed x).setFeed y = s.setFeed y := rfl
@[simp] theorem State.setFeed_self : s.setFeed s.feed = s := rfl

@[simp] theorem State.setLine_clock (x : LineInterface) : (s.setLine x).clock = s.clock := rfl
@[simp] theorem State.setLine_station (x : LineInterface) : (s.setLine x).station = s.station := rfl
@[simp] theorem State.setLine_startup (x : LineInterface) : (s.setLine x).startup = s.startup := rfl
@[simp] theorem State.setLine_scanner (x : LineInterface) : (s.setLine x).scanner = s.scanner := rfl
@[simp] theorem State.setLine_intake (x : LineInterface) : (s.setLine x).intake = s.intake := rfl
@[simp] theorem State.setLine_port (x : LineInterface) : (s.setLine x).port = s.port := rfl
@[simp] theorem State.setLine_engine (x : LineInterface) : (s.setLine x).engine = s.engine := rfl
@[simp] theorem State.setLine_feed (x : LineInterface) : (s.setLine x).feed = s.feed := rfl
@[simp] theorem State.setLine_line (x : LineInterface) : (s.setLine x).line = x := rfl
@[simp] theorem State.setLine_floor (x : LineInterface) : (s.setLine x).floor = s.floor := rfl
@[simp] theorem State.setLine_attnTimer (x : LineInterface) : (s.setLine x).attnTimer = s.attnTimer := rfl
@[simp] theorem State.setLine_pending (x : LineInterface) : (s.setLine x).pending = s.pending := rfl
@[simp] theorem State.setLine_setLine (x y : LineInterface) : (s.setLine x).setLine y = s.setLine y := rfl
@[simp] theorem State.setLine_self : s.setLine s.line = s := rfl

@[simp] theorem State.setFloor_clock (x : Floor) : (s.setFloor x).clock = s.clock := rfl
@[simp] theorem State.setFloor_station (x : Floor) : (s.setFloor x).station = s.station := rfl
@[simp] theorem State.setFloor_startup (x : Floor) : (s.setFloor x).startup = s.startup := rfl
@[simp] theorem State.setFloor_scanner (x : Floor) : (s.setFloor x).scanner = s.scanner := rfl
@[simp] theorem State.setFloor_intake (x : Floor) : (s.setFloor x).intake = s.intake := rfl
@[simp] theorem State.setFloor_port (x : Floor) : (s.setFloor x).port = s.port := rfl
@[simp] theorem State.setFloor_engine (x : Floor) : (s.setFloor x).engine = s.engine := rfl
@[simp] theorem State.setFloor_feed (x : Floor) : (s.setFloor x).feed = s.feed := rfl
@[simp] theorem State.setFloor_line (x : Floor) : (s.setFloor x).line = s.line := rfl
@[simp] theorem State.setFloor_floor (x : Floor) : (s.setFloor x).floor = x := rfl
@[simp] theorem State.setFloor_attnTimer (x : Floor) : (s.setFloor x).attnTimer = s.attnTimer := rfl
@[simp] theorem State.setFloor_pending (x : Floor) : (s.setFloor x).pending = s.pending := rfl
@[simp] theorem State.setFloor_setFloor (x y : Floor) : (s.setFloor x).setFloor y = s.setFloor y := rfl
@[simp] theorem State.setFloor_self : s.setFloor s.floor = s := rfl

@[simp] theorem State.setAttnTimer_clock (x : Timer) : (s.setAttnTimer x).clock = s.clock := rfl
@[simp] theorem State.setAttnTimer_station (x : Timer) : (s.setAttnTimer x).station = s.station := rfl
@[simp] theorem State.setAttnTimer_startup (x : Timer) : (s.setAttnTimer x).startup = s.startup := rfl
@[simp] theorem State.setAttnTimer_scanner (x : Timer) : (s.setAttnTimer x).scanner = s.scanner := rfl
@[simp] theorem State.setAttnTimer_intake (x : Timer) : (s.setAttnTimer x).intake = s.intake := rfl
@[simp] theorem State.setAttnTimer_port (x : Timer) : (s.setAttnTimer x).port = s.port := rfl
@[simp] theorem State.setAttnTimer_engine (x : Timer) : (s.setAttnTimer x).engine = s.engine := rfl
@[simp] theorem State.setAttnTimer_feed (x : Timer) : (s.setAttnTimer x).feed = s.feed := rfl
@[simp] theorem State.setAttnTimer_line (x : Timer) : (s.setAttnTimer x).line = s.line := rfl
@[simp] theorem State.setAttnTimer_floor (x : Timer) : (s.setAttnTimer x).floor = s.floor := rfl
@[simp] theorem State.setAttnTimer_attnTimer (x : Timer) : (s.setAttnTimer x).attnTimer = x := rfl
@[simp] theorem State.setAttnTimer_pending (x : Timer) : (s.setAttnTimer x).pending = s.pending := rfl
@[simp] theorem State.setAttnTimer_setAttnTimer (x y : Timer) : (s.setAttnTimer x).setAttnTimer y = s.setAttnTimer y := rfl
@[simp] theorem State.setAttnTimer_self : s.setAttnTimer s.attnTimer = s := rfl

@[simp] theorem State.setPending_clock (x : List Instr) : (s.setPending x).clock = s.clock := rfl
@[simp] theorem State.setPending_station (x : List Instr) : (s.setPending x).station = s.station := rfl
@[simp] theorem State.setPending_startup (x : List Instr) : (s.setPending x).startup = s.startup := rfl
@[simp] theorem State.setPending_scanner (x : List Instr) : (s.setPending x).scanner = s.scanner := rfl
@[simp] theorem State.setPending_intake (x : List Instr) : (s.setPending x).intake = s.intake := rfl
@[simp] theorem State.setPending_port (x : List Instr) : (s.setPending x).port = s.port := rfl
@[simp] theorem State.setPending_engine (x : List Instr) : (s.setPending x).engine = s.engine := rfl
@[simp] theorem State.setPending_feed (x : List Instr) : (s.setPending x).feed = s.feed := rfl
@[simp] theorem State.setPending_line (x : List Instr) : (s.setPending x).line = s.line := rfl
@[simp] theorem State.setPending_floor (x : List Instr) : (s.setPending x).floor = s.floor := rfl
@[simp] theorem State.setPending_attnTimer (x : List Instr) : (s.setPending x).attnTimer = s.attnTimer := rfl
@[simp] theorem State.setPending_pending (x : List Instr) : (s.setPending x).pending = x := rfl
@[simp] theorem State.setPending_setPending (x y : List Instr) : (s.setPending x).setPending y = s.setPending y := rfl
@[simp] theorem State.setPending_self : s.setPending s.pending = s := rfl

/-- Two states with the same blocks are the same state. -/
theorem State.ext_blocks {s t : State}
    (h_clock : s.clock = t.clock)
    (h_station : s.station = t.station)
    (h_startup : s.startup = t.startup)
    (h_scanner : s.scanner = t.scanner)
    (h_intake : s.intake = t.intake)
    (h_port : s.port = t.port)
    (h_engine : s.engine = t.engine)
    (h_feed : s.feed = t.feed)
    (h_line : s.line = t.line)
    (h_floor : s.floor = t.floor)
    (h_attnTimer : s.attnTimer = t.attnTimer)
    (h_pending : s.pending = t.pending) : s = t := by
  cases s; cases t; simp_all

end Sys2Proof.Machine
end

