-- ==== Sys2Proof/Laws/Frame.lean ====
section
/-! SUPPORT. The blocks that each operation leaves untouched: one lemma per operation. -/

namespace Sys2Proof.Machine

variable (s : State)

@[simp] theorem requestPulse_frame :
    (requestPulse s).clock = s.clock ∧ (requestPulse s).station = s.station ∧ (requestPulse s).startup = s.startup ∧
      (requestPulse s).scanner = s.scanner ∧ (requestPulse s).intake = s.intake ∧ (requestPulse s).port = s.port ∧
      (requestPulse s).engine = s.engine ∧ (requestPulse s).feed = s.feed ∧ (requestPulse s).line = s.line ∧
      (requestPulse s).floor = s.floor ∧ (requestPulse s).pending = s.pending := by
  simp [requestPulse]

@[simp] theorem handCut_frame (q : Seq) :
    (handCut q s).clock = s.clock ∧ (handCut q s).station = s.station ∧ (handCut q s).startup = s.startup ∧
      (handCut q s).scanner = s.scanner ∧ (handCut q s).intake = s.intake ∧ (handCut q s).port = s.port ∧
      (handCut q s).engine = s.engine ∧ (handCut q s).line = s.line ∧ (handCut q s).floor = s.floor ∧
      (handCut q s).attnTimer = s.attnTimer ∧ (handCut q s).pending = s.pending := by
  unfold handCut
  split <;> simp

@[simp] theorem handSettle_frame (q : Seq) :
    (handSettle q s).clock = s.clock ∧ (handSettle q s).station = s.station ∧ (handSettle q s).startup = s.startup ∧
      (handSettle q s).scanner = s.scanner ∧ (handSettle q s).intake = s.intake ∧ (handSettle q s).port = s.port ∧
      (handSettle q s).engine = s.engine ∧ (handSettle q s).line = s.line ∧ (handSettle q s).floor = s.floor ∧
      (handSettle q s).attnTimer = s.attnTimer ∧ (handSettle q s).pending = s.pending := by
  unfold handSettle
  split <;> simp

@[simp] theorem handAppend_frame (chars : List Byte) (degraded : Bool) (time : Clock) :
    (handAppend chars degraded time s).clock = s.clock ∧ (handAppend chars degraded time s).station = s.station ∧
      (handAppend chars degraded time s).startup = s.startup ∧
      (handAppend chars degraded time s).scanner = s.scanner ∧ (handAppend chars degraded time s).intake = s.intake ∧
      (handAppend chars degraded time s).port = s.port ∧ (handAppend chars degraded time s).engine = s.engine ∧
      (handAppend chars degraded time s).line = s.line ∧ (handAppend chars degraded time s).floor = s.floor ∧
      (handAppend chars degraded time s).attnTimer = s.attnTimer ∧
      (handAppend chars degraded time s).pending = s.pending := by
  unfold handAppend
  split <;> simp

@[simp] theorem handMark_frame (time : Clock) :
    (handMark time s).clock = s.clock ∧ (handMark time s).station = s.station ∧
      (handMark time s).startup = s.startup ∧ (handMark time s).scanner = s.scanner ∧
      (handMark time s).intake = s.intake ∧ (handMark time s).port = s.port ∧ (handMark time s).engine = s.engine ∧
      (handMark time s).line = s.line ∧ (handMark time s).floor = s.floor ∧
      (handMark time s).attnTimer = s.attnTimer ∧ (handMark time s).pending = s.pending := by
  unfold handMark
  split <;> simp

@[simp] theorem handLost_frame (count : Nat) (time : Clock) :
    (handLost count time s).clock = s.clock ∧ (handLost count time s).station = s.station ∧
      (handLost count time s).startup = s.startup ∧ (handLost count time s).scanner = s.scanner ∧
      (handLost count time s).intake = s.intake ∧ (handLost count time s).port = s.port ∧
      (handLost count time s).engine = s.engine ∧ (handLost count time s).line = s.line ∧
      (handLost count time s).floor = s.floor ∧ (handLost count time s).attnTimer = s.attnTimer ∧
      (handLost count time s).pending = s.pending := by
  unfold handLost
  split <;> simp

@[simp] theorem refuse_frame :
    (refuse s).clock = s.clock ∧ (refuse s).station = s.station ∧ (refuse s).startup = s.startup ∧
      (refuse s).scanner = s.scanner ∧ (refuse s).intake = s.intake ∧ (refuse s).port = s.port ∧
      (refuse s).feed = s.feed ∧ (refuse s).line = s.line ∧ (refuse s).floor = s.floor ∧
      (refuse s).pending = s.pending := by
  simp [refuse]

@[simp] theorem settleLocal_frame :
    (settleLocal s).clock = s.clock ∧ (settleLocal s).station = s.station ∧ (settleLocal s).startup = s.startup ∧
      (settleLocal s).scanner = s.scanner ∧ (settleLocal s).intake = s.intake ∧ (settleLocal s).port = s.port ∧
      (settleLocal s).feed = s.feed ∧ (settleLocal s).line = s.line ∧ (settleLocal s).floor = s.floor ∧
      (settleLocal s).attnTimer = s.attnTimer ∧ (settleLocal s).pending = s.pending := by
  simp [settleLocal]

@[simp] theorem settleToEnd_frame :
    (settleToEnd s).clock = s.clock ∧ (settleToEnd s).station = s.station ∧ (settleToEnd s).startup = s.startup ∧
      (settleToEnd s).scanner = s.scanner ∧ (settleToEnd s).intake = s.intake ∧ (settleToEnd s).port = s.port ∧
      (settleToEnd s).line = s.line ∧ (settleToEnd s).floor = s.floor ∧ (settleToEnd s).attnTimer = s.attnTimer ∧
      (settleToEnd s).pending = s.pending := by
  unfold settleToEnd
  split <;> simp

@[simp] theorem placeRecord_frame (r : Record) (lossFollows : Bool) :
    (placeRecord r lossFollows s).clock = s.clock ∧ (placeRecord r lossFollows s).station = s.station ∧
      (placeRecord r lossFollows s).startup = s.startup ∧ (placeRecord r lossFollows s).scanner = s.scanner ∧
      (placeRecord r lossFollows s).intake = s.intake ∧ (placeRecord r lossFollows s).port = s.port ∧
      (placeRecord r lossFollows s).line = s.line ∧ (placeRecord r lossFollows s).floor = s.floor ∧
      (placeRecord r lossFollows s).attnTimer = s.attnTimer ∧ (placeRecord r lossFollows s).pending = s.pending := by
  unfold placeRecord
  (repeat' split) <;> simp

@[simp] theorem removeNewest_frame (k : Nat) :
    (removeNewest k s).clock = s.clock ∧ (removeNewest k s).station = s.station ∧
      (removeNewest k s).startup = s.startup ∧ (removeNewest k s).scanner = s.scanner ∧
      (removeNewest k s).intake = s.intake ∧ (removeNewest k s).port = s.port ∧ (removeNewest k s).feed = s.feed ∧
      (removeNewest k s).line = s.line ∧ (removeNewest k s).floor = s.floor ∧
      (removeNewest k s).attnTimer = s.attnTimer ∧ (removeNewest k s).pending = s.pending := by
  simp [removeNewest]

@[simp] theorem handCutAt_frame (point : Option Seq) :
    (handCutAt point s).clock = s.clock ∧ (handCutAt point s).station = s.station ∧
      (handCutAt point s).startup = s.startup ∧ (handCutAt point s).scanner = s.scanner ∧
      (handCutAt point s).intake = s.intake ∧ (handCutAt point s).port = s.port ∧
      (handCutAt point s).engine = s.engine ∧ (handCutAt point s).line = s.line ∧
      (handCutAt point s).floor = s.floor ∧ (handCutAt point s).attnTimer = s.attnTimer ∧
      (handCutAt point s).pending = s.pending := by
  unfold handCutAt
  (repeat' split) <;> simp

@[simp] theorem reportGap_frame (gap : Nat) (time : Clock) :
    (reportGap gap time s).clock = s.clock ∧ (reportGap gap time s).station = s.station ∧
      (reportGap gap time s).startup = s.startup ∧ (reportGap gap time s).scanner = s.scanner ∧
      (reportGap gap time s).intake = s.intake ∧ (reportGap gap time s).port = s.port ∧
      (reportGap gap time s).line = s.line ∧ (reportGap gap time s).floor = s.floor ∧
      (reportGap gap time s).attnTimer = s.attnTimer ∧ (reportGap gap time s).pending = s.pending := by
  unfold reportGap
  (repeat' split) <;> simp

@[simp] theorem offer_frame (place : Feed → Feed) :
    (offer place s).clock = s.clock ∧ (offer place s).station = s.station ∧ (offer place s).startup = s.startup ∧
      (offer place s).scanner = s.scanner ∧ (offer place s).intake = s.intake ∧ (offer place s).port = s.port ∧
      (offer place s).engine = s.engine ∧ (offer place s).line = s.line ∧ (offer place s).floor = s.floor ∧
      (offer place s).attnTimer = s.attnTimer ∧ (offer place s).pending = s.pending := by
  unfold offer
  split <;> simp

@[simp] theorem offerPresence_frame :
    (offerPresence s).clock = s.clock ∧ (offerPresence s).station = s.station ∧
      (offerPresence s).startup = s.startup ∧ (offerPresence s).scanner = s.scanner ∧
      (offerPresence s).intake = s.intake ∧ (offerPresence s).port = s.port ∧ (offerPresence s).engine = s.engine ∧
      (offerPresence s).line = s.line ∧ (offerPresence s).floor = s.floor ∧
      (offerPresence s).attnTimer = s.attnTimer ∧ (offerPresence s).pending = s.pending := by
  simp [offerPresence]

@[simp] theorem offerClaim_frame (withdraw : Bool) :
    (offerClaim withdraw s).clock = s.clock ∧ (offerClaim withdraw s).station = s.station ∧
      (offerClaim withdraw s).startup = s.startup ∧ (offerClaim withdraw s).scanner = s.scanner ∧
      (offerClaim withdraw s).intake = s.intake ∧ (offerClaim withdraw s).port = s.port ∧
      (offerClaim withdraw s).engine = s.engine ∧ (offerClaim withdraw s).line = s.line ∧
      (offerClaim withdraw s).floor = s.floor ∧ (offerClaim withdraw s).attnTimer = s.attnTimer ∧
      (offerClaim withdraw s).pending = s.pending := by
  simp [offerClaim]

@[simp] theorem offerHandover_frame (h : Handover) :
    (offerHandover h s).clock = s.clock ∧ (offerHandover h s).station = s.station ∧
      (offerHandover h s).startup = s.startup ∧ (offerHandover h s).scanner = s.scanner ∧
      (offerHandover h s).intake = s.intake ∧ (offerHandover h s).port = s.port ∧
      (offerHandover h s).engine = s.engine ∧ (offerHandover h s).line = s.line ∧
      (offerHandover h s).attnTimer = s.attnTimer ∧ (offerHandover h s).pending = s.pending := by
  simp [offerHandover]

@[simp] theorem loadPresence_frame :
    (loadPresence s).clock = s.clock ∧ (loadPresence s).station = s.station ∧ (loadPresence s).startup = s.startup ∧
      (loadPresence s).scanner = s.scanner ∧ (loadPresence s).intake = s.intake ∧ (loadPresence s).port = s.port ∧
      (loadPresence s).engine = s.engine ∧ (loadPresence s).feed = s.feed ∧ (loadPresence s).line = s.line ∧
      (loadPresence s).attnTimer = s.attnTimer ∧ (loadPresence s).pending = s.pending := by
  simp [loadPresence]

@[simp] theorem loadClaimWindow_frame :
    (loadClaimWindow s).clock = s.clock ∧ (loadClaimWindow s).station = s.station ∧
      (loadClaimWindow s).startup = s.startup ∧ (loadClaimWindow s).scanner = s.scanner ∧
      (loadClaimWindow s).intake = s.intake ∧ (loadClaimWindow s).port = s.port ∧
      (loadClaimWindow s).engine = s.engine ∧ (loadClaimWindow s).feed = s.feed ∧ (loadClaimWindow s).line = s.line ∧
      (loadClaimWindow s).attnTimer = s.attnTimer ∧ (loadClaimWindow s).pending = s.pending := by
  unfold loadClaimWindow
  split <;> simp

@[simp] theorem enterClaiming_frame (origin : Origin) :
    (enterClaiming origin s).clock = s.clock ∧ (enterClaiming origin s).station = s.station ∧
      (enterClaiming origin s).startup = s.startup ∧ (enterClaiming origin s).scanner = s.scanner ∧
      (enterClaiming origin s).intake = s.intake ∧ (enterClaiming origin s).port = s.port ∧
      (enterClaiming origin s).engine = s.engine ∧ (enterClaiming origin s).line = s.line ∧
      (enterClaiming origin s).attnTimer = s.attnTimer ∧ (enterClaiming origin s).pending = s.pending := by
  simp [enterClaiming]

@[simp] theorem leaveClaiming_frame :
    (leaveClaiming s).clock = s.clock ∧ (leaveClaiming s).station = s.station ∧
      (leaveClaiming s).startup = s.startup ∧ (leaveClaiming s).scanner = s.scanner ∧
      (leaveClaiming s).intake = s.intake ∧ (leaveClaiming s).port = s.port ∧ (leaveClaiming s).engine = s.engine ∧
      (leaveClaiming s).line = s.line ∧ (leaveClaiming s).attnTimer = s.attnTimer ∧
      (leaveClaiming s).pending = s.pending := by
  simp [leaveClaiming]

@[simp] theorem enterLive_frame (epoch : Epoch) (next : Seq) :
    (enterLive epoch next s).clock = s.clock ∧ (enterLive epoch next s).station = s.station ∧
      (enterLive epoch next s).startup = s.startup ∧ (enterLive epoch next s).scanner = s.scanner ∧
      (enterLive epoch next s).intake = s.intake ∧ (enterLive epoch next s).port = s.port ∧
      (enterLive epoch next s).line = s.line ∧ (enterLive epoch next s).attnTimer = s.attnTimer ∧
      (enterLive epoch next s).pending = s.pending := by
  simp [enterLive]

@[simp] theorem enterHanding_frame :
    (enterHanding s).clock = s.clock ∧ (enterHanding s).station = s.station ∧ (enterHanding s).startup = s.startup ∧
      (enterHanding s).scanner = s.scanner ∧ (enterHanding s).intake = s.intake ∧ (enterHanding s).port = s.port ∧
      (enterHanding s).line = s.line ∧ (enterHanding s).attnTimer = s.attnTimer ∧ (enterHanding s).pending = s.pending := by
  simp [enterHanding]

@[simp] theorem leaveTenure_frame :
    (leaveTenure s).clock = s.clock ∧ (leaveTenure s).station = s.station ∧ (leaveTenure s).startup = s.startup ∧
      (leaveTenure s).scanner = s.scanner ∧ (leaveTenure s).intake = s.intake ∧ (leaveTenure s).port = s.port ∧
      (leaveTenure s).line = s.line ∧ (leaveTenure s).attnTimer = s.attnTimer ∧ (leaveTenure s).pending = s.pending := by
  simp [leaveTenure]

@[simp] theorem enterMute_frame :
    (enterMute s).clock = s.clock ∧ (enterMute s).station = s.station ∧ (enterMute s).startup = s.startup ∧
      (enterMute s).scanner = s.scanner ∧ (enterMute s).intake = s.intake ∧ (enterMute s).port = s.port ∧
      (enterMute s).attnTimer = s.attnTimer ∧ (enterMute s).pending = s.pending := by
  unfold enterMute
  split <;> simp

@[simp] theorem buildHandover_frame :
    (buildHandover s).clock = s.clock ∧ (buildHandover s).station = s.station ∧
      (buildHandover s).startup = s.startup ∧ (buildHandover s).scanner = s.scanner ∧
      (buildHandover s).intake = s.intake ∧ (buildHandover s).port = s.port ∧ (buildHandover s).engine = s.engine ∧
      (buildHandover s).line = s.line ∧ (buildHandover s).attnTimer = s.attnTimer ∧
      (buildHandover s).pending = s.pending := by
  unfold buildHandover
  split <;> simp

@[simp] theorem settleOnEntry_frame :
    (settleOnEntry s).clock = s.clock ∧ (settleOnEntry s).station = s.station ∧
      (settleOnEntry s).startup = s.startup ∧ (settleOnEntry s).scanner = s.scanner ∧
      (settleOnEntry s).intake = s.intake ∧ (settleOnEntry s).port = s.port ∧ (settleOnEntry s).feed = s.feed ∧
      (settleOnEntry s).line = s.line ∧ (settleOnEntry s).floor = s.floor ∧
      (settleOnEntry s).attnTimer = s.attnTimer ∧ (settleOnEntry s).pending = s.pending := by
  unfold settleOnEntry
  split <;> simp

@[simp] theorem fullSettle_frame :
    (fullSettle s).clock = s.clock ∧ (fullSettle s).station = s.station ∧ (fullSettle s).startup = s.startup ∧
      (fullSettle s).scanner = s.scanner ∧ (fullSettle s).intake = s.intake ∧ (fullSettle s).port = s.port ∧
      (fullSettle s).line = s.line ∧ (fullSettle s).attnTimer = s.attnTimer ∧ (fullSettle s).pending = s.pending := by
  unfold fullSettle
  (repeat' split) <;> simp

@[simp] theorem settleMute_frame :
    (settleMute s).clock = s.clock ∧ (settleMute s).station = s.station ∧ (settleMute s).startup = s.startup ∧
      (settleMute s).scanner = s.scanner ∧ (settleMute s).intake = s.intake ∧ (settleMute s).port = s.port ∧
      (settleMute s).feed = s.feed ∧ (settleMute s).line = s.line ∧ (settleMute s).floor = s.floor ∧
      (settleMute s).attnTimer = s.attnTimer ∧ (settleMute s).pending = s.pending := by
  unfold settleMute
  split <;> simp

@[simp] theorem boundaryWork_frame :
    (boundaryWork s).clock = s.clock ∧ (boundaryWork s).station = s.station ∧ (boundaryWork s).startup = s.startup ∧
      (boundaryWork s).scanner = s.scanner ∧ (boundaryWork s).intake = s.intake ∧ (boundaryWork s).port = s.port ∧
      (boundaryWork s).line = s.line ∧ (boundaryWork s).attnTimer = s.attnTimer ∧ (boundaryWork s).pending = s.pending := by
  simp [boundaryWork]

@[simp] theorem boundaryIfBetween_frame :
    (boundaryIfBetween s).clock = s.clock ∧ (boundaryIfBetween s).station = s.station ∧
      (boundaryIfBetween s).startup = s.startup ∧ (boundaryIfBetween s).scanner = s.scanner ∧
      (boundaryIfBetween s).intake = s.intake ∧ (boundaryIfBetween s).port = s.port ∧
      (boundaryIfBetween s).line = s.line ∧ (boundaryIfBetween s).attnTimer = s.attnTimer ∧
      (boundaryIfBetween s).pending = s.pending := by
  unfold boundaryIfBetween
  split <;> simp

@[simp] theorem takeLineTime_frame (f : Frame) :
    (takeLineTime f s).clock = s.clock ∧ (takeLineTime f s).station = s.station ∧
      (takeLineTime f s).startup = s.startup ∧ (takeLineTime f s).scanner = s.scanner ∧
      (takeLineTime f s).intake = s.intake ∧ (takeLineTime f s).port = s.port ∧
      (takeLineTime f s).engine = s.engine ∧ (takeLineTime f s).feed = s.feed ∧ (takeLineTime f s).line = s.line ∧
      (takeLineTime f s).attnTimer = s.attnTimer ∧ (takeLineTime f s).pending = s.pending := by
  unfold takeLineTime
  (repeat' split) <;> simp

@[simp] theorem moveView_frame (view : View) :
    (moveView view s).clock = s.clock ∧ (moveView view s).station = s.station ∧
      (moveView view s).startup = s.startup ∧ (moveView view s).scanner = s.scanner ∧
      (moveView view s).intake = s.intake ∧ (moveView view s).port = s.port ∧ (moveView view s).engine = s.engine ∧
      (moveView view s).feed = s.feed ∧ (moveView view s).line = s.line ∧ (moveView view s).attnTimer = s.attnTimer ∧
      (moveView view s).pending = s.pending := by
  simp [moveView]

@[simp] theorem decline_frame (h : Handover) :
    (decline h s).clock = s.clock ∧ (decline h s).station = s.station ∧ (decline h s).startup = s.startup ∧
      (decline h s).scanner = s.scanner ∧ (decline h s).intake = s.intake ∧ (decline h s).port = s.port ∧
      (decline h s).engine = s.engine ∧ (decline h s).line = s.line ∧ (decline h s).attnTimer = s.attnTimer ∧
      (decline h s).pending = s.pending := by
  simp [decline]

@[simp] theorem reactStandby_frame (f : Frame) :
    (reactStandby f s).clock = s.clock ∧ (reactStandby f s).station = s.station ∧
      (reactStandby f s).startup = s.startup ∧ (reactStandby f s).scanner = s.scanner ∧
      (reactStandby f s).intake = s.intake ∧ (reactStandby f s).port = s.port ∧
      (reactStandby f s).engine = s.engine ∧ (reactStandby f s).line = s.line ∧
      (reactStandby f s).attnTimer = s.attnTimer ∧ (reactStandby f s).pending = s.pending := by
  unfold reactStandby
  (repeat' split) <;> simp

@[simp] theorem reactClaiming_frame (v : Verdict) (f : Frame) :
    (reactClaiming v f s).clock = s.clock ∧ (reactClaiming v f s).station = s.station ∧
      (reactClaiming v f s).startup = s.startup ∧ (reactClaiming v f s).scanner = s.scanner ∧
      (reactClaiming v f s).intake = s.intake ∧ (reactClaiming v f s).port = s.port ∧
      (reactClaiming v f s).engine = s.engine ∧ (reactClaiming v f s).line = s.line ∧
      (reactClaiming v f s).pending = s.pending := by
  unfold reactClaiming
  (repeat' split) <;> simp

@[simp] theorem reactToView_frame (v : Verdict) (f : Frame) :
    (reactToView v f s).clock = s.clock ∧ (reactToView v f s).station = s.station ∧
      (reactToView v f s).startup = s.startup ∧ (reactToView v f s).scanner = s.scanner ∧
      (reactToView v f s).intake = s.intake ∧ (reactToView v f s).port = s.port ∧ (reactToView v f s).line = s.line ∧
      (reactToView v f s).pending = s.pending := by
  unfold reactToView
  (repeat' split) <;> simp

@[simp] theorem takeTenureFrame_frame (sender : Station) (epoch : Option Epoch) (f : Frame) :
    (takeTenureFrame sender epoch f s).clock = s.clock ∧ (takeTenureFrame sender epoch f s).station = s.station ∧
      (takeTenureFrame sender epoch f s).startup = s.startup ∧
      (takeTenureFrame sender epoch f s).scanner = s.scanner ∧ (takeTenureFrame sender epoch f s).intake = s.intake ∧
      (takeTenureFrame sender epoch f s).port = s.port ∧ (takeTenureFrame sender epoch f s).line = s.line ∧
      (takeTenureFrame sender epoch f s).pending = s.pending := by
  unfold takeTenureFrame
  dsimp only
  (repeat' split) <;> simp

@[simp] theorem applyOwnHandover_frame (h : Handover) :
    (applyOwnHandover h s).clock = s.clock ∧ (applyOwnHandover h s).station = s.station ∧
      (applyOwnHandover h s).startup = s.startup ∧ (applyOwnHandover h s).scanner = s.scanner ∧
      (applyOwnHandover h s).intake = s.intake ∧ (applyOwnHandover h s).port = s.port ∧
      (applyOwnHandover h s).line = s.line ∧ (applyOwnHandover h s).pending = s.pending := by
  unfold applyOwnHandover
  dsimp only
  split <;> simp

@[simp] theorem unnameClaimant_frame :
    (unnameClaimant s).clock = s.clock ∧ (unnameClaimant s).station = s.station ∧
      (unnameClaimant s).startup = s.startup ∧ (unnameClaimant s).scanner = s.scanner ∧
      (unnameClaimant s).intake = s.intake ∧ (unnameClaimant s).port = s.port ∧
      (unnameClaimant s).engine = s.engine ∧ (unnameClaimant s).line = s.line ∧
      (unnameClaimant s).attnTimer = s.attnTimer ∧ (unnameClaimant s).pending = s.pending := by
  unfold unnameClaimant
  (repeat' split) <;> simp

@[simp] theorem takeClaim_frame (sender : Station) (withdraw : Bool) :
    (takeClaim sender withdraw s).clock = s.clock ∧ (takeClaim sender withdraw s).station = s.station ∧
      (takeClaim sender withdraw s).startup = s.startup ∧ (takeClaim sender withdraw s).scanner = s.scanner ∧
      (takeClaim sender withdraw s).intake = s.intake ∧ (takeClaim sender withdraw s).port = s.port ∧
      (takeClaim sender withdraw s).engine = s.engine ∧ (takeClaim sender withdraw s).line = s.line ∧
      (takeClaim sender withdraw s).pending = s.pending := by
  unfold takeClaim
  (repeat' split) <;> simp

@[simp] theorem floorTakes_frame (sender : Station) (f : Frame) :
    (floorTakes sender f s).clock = s.clock ∧ (floorTakes sender f s).station = s.station ∧
      (floorTakes sender f s).startup = s.startup ∧ (floorTakes sender f s).scanner = s.scanner ∧
      (floorTakes sender f s).intake = s.intake ∧ (floorTakes sender f s).port = s.port ∧
      (floorTakes sender f s).line = s.line ∧ (floorTakes sender f s).pending = s.pending := by
  unfold floorTakes
  (repeat' split) <;> simp

@[simp] theorem floorItem_frame :
    (floorItem s).clock = s.clock ∧ (floorItem s).station = s.station ∧ (floorItem s).startup = s.startup ∧
      (floorItem s).scanner = s.scanner ∧ (floorItem s).intake = s.intake ∧ (floorItem s).port = s.port ∧
      (floorItem s).line = s.line ∧ (floorItem s).pending = s.pending := by
  unfold floorItem
  split <;> simp

@[simp] theorem pauseReport_frame :
    (pauseReport s).clock = s.clock ∧ (pauseReport s).station = s.station ∧ (pauseReport s).startup = s.startup ∧
      (pauseReport s).scanner = s.scanner ∧ (pauseReport s).intake = s.intake ∧ (pauseReport s).port = s.port ∧
      (pauseReport s).line = s.line ∧ (pauseReport s).attnTimer = s.attnTimer ∧ (pauseReport s).pending = s.pending := by
  unfold pauseReport
  split <;> simp

@[simp] theorem endStep_frame :
    (endStep s).clock = s.clock ∧ (endStep s).station = s.station ∧ (endStep s).startup = s.startup ∧
      (endStep s).scanner = s.scanner ∧ (endStep s).intake = s.intake ∧ (endStep s).port = s.port ∧
      (endStep s).line = s.line ∧ (endStep s).attnTimer = s.attnTimer ∧ (endStep s).pending = s.pending := by
  simp [endStep]

@[simp] theorem finishStroke_frame (k : Nat) (kind : RecordKind) (d : Descriptor) (w : Work) :
    (finishStroke k kind d w s).clock = s.clock ∧ (finishStroke k kind d w s).station = s.station ∧
      (finishStroke k kind d w s).startup = s.startup ∧ (finishStroke k kind d w s).scanner = s.scanner ∧
      (finishStroke k kind d w s).intake = s.intake ∧ (finishStroke k kind d w s).port = s.port ∧
      (finishStroke k kind d w s).line = s.line ∧ (finishStroke k kind d w s).attnTimer = s.attnTimer ∧
      (finishStroke k kind d w s).pending = s.pending := by
  unfold finishStroke
  dsimp only
  split <;> simp

@[simp] theorem fallback_frame (w : Work) :
    (fallback w s).clock = s.clock ∧ (fallback w s).station = s.station ∧ (fallback w s).startup = s.startup ∧
      (fallback w s).scanner = s.scanner ∧ (fallback w s).intake = s.intake ∧ (fallback w s).port = s.port ∧
      (fallback w s).line = s.line ∧ (fallback w s).attnTimer = s.attnTimer ∧ (fallback w s).pending = s.pending := by
  unfold fallback
  split <;> simp

@[simp] theorem startRead_frame (key : List StrokeCode) (j : Nat) (w : Work) :
    (startRead key j w s).clock = s.clock ∧ (startRead key j w s).station = s.station ∧
      (startRead key j w s).startup = s.startup ∧ (startRead key j w s).scanner = s.scanner ∧
      (startRead key j w s).intake = s.intake ∧ (startRead key j w s).feed = s.feed ∧
      (startRead key j w s).line = s.line ∧ (startRead key j w s).floor = s.floor ∧
      (startRead key j w s).attnTimer = s.attnTimer ∧ (startRead key j w s).pending = s.pending := by
  simp [startRead]

@[simp] theorem lookupFrom_frame (n : Nat) (w : Work) :
    (lookupFrom n w s).clock = s.clock ∧ (lookupFrom n w s).station = s.station ∧
      (lookupFrom n w s).startup = s.startup ∧ (lookupFrom n w s).scanner = s.scanner ∧
      (lookupFrom n w s).intake = s.intake ∧ (lookupFrom n w s).line = s.line ∧
      (lookupFrom n w s).attnTimer = s.attnTimer ∧ (lookupFrom n w s).pending = s.pending := by
  induction n generalizing w s with
  | zero => simp [lookupFrom]
  | succ n ih =>
    unfold lookupFrom
    simp only []
    split
    · simp
    · exact ih _ _

@[simp] theorem probeOn_frame (key : List StrokeCode) (j : Nat) (w : Work) :
    (probeOn key j w s).clock = s.clock ∧ (probeOn key j w s).station = s.station ∧
      (probeOn key j w s).startup = s.startup ∧ (probeOn key j w s).scanner = s.scanner ∧
      (probeOn key j w s).intake = s.intake ∧ (probeOn key j w s).line = s.line ∧
      (probeOn key j w s).attnTimer = s.attnTimer ∧ (probeOn key j w s).pending = s.pending := by
  unfold probeOn
  (repeat' split) <;> simp

@[simp] theorem arriveButton_frame (kind : ItemKind) :
    (arriveButton kind s).clock = s.clock ∧ (arriveButton kind s).station = s.station ∧
      (arriveButton kind s).startup = s.startup ∧ (arriveButton kind s).scanner = s.scanner ∧
      (arriveButton kind s).port = s.port ∧ (arriveButton kind s).engine = s.engine ∧
      (arriveButton kind s).feed = s.feed ∧ (arriveButton kind s).line = s.line ∧
      (arriveButton kind s).floor = s.floor ∧ (arriveButton kind s).pending = s.pending := by
  unfold arriveButton
  split <;> simp

@[simp] theorem completeStroke_frame :
    (completeStroke s).clock = s.clock ∧ (completeStroke s).station = s.station ∧
      (completeStroke s).startup = s.startup ∧ (completeStroke s).port = s.port ∧
      (completeStroke s).engine = s.engine ∧ (completeStroke s).feed = s.feed ∧ (completeStroke s).line = s.line ∧
      (completeStroke s).floor = s.floor ∧ (completeStroke s).attnTimer = s.attnTimer ∧
      (completeStroke s).pending = s.pending := by
  simp [completeStroke]

@[simp] theorem changeContact_frame (c : Contact) (closed : Bool) :
    (changeContact c closed s).clock = s.clock ∧ (changeContact c closed s).station = s.station ∧
      (changeContact c closed s).startup = s.startup ∧ (changeContact c closed s).intake = s.intake ∧
      (changeContact c closed s).port = s.port ∧ (changeContact c closed s).engine = s.engine ∧
      (changeContact c closed s).feed = s.feed ∧ (changeContact c closed s).line = s.line ∧
      (changeContact c closed s).floor = s.floor ∧ (changeContact c closed s).attnTimer = s.attnTimer ∧
      (changeContact c closed s).pending = s.pending := by
  simp [changeContact]

@[simp] theorem setDebounce_frame (c : Contact) (d : Debounce) :
    (setDebounce c d s).clock = s.clock ∧ (setDebounce c d s).station = s.station ∧
      (setDebounce c d s).startup = s.startup ∧ (setDebounce c d s).intake = s.intake ∧
      (setDebounce c d s).port = s.port ∧ (setDebounce c d s).engine = s.engine ∧ (setDebounce c d s).feed = s.feed ∧
      (setDebounce c d s).line = s.line ∧ (setDebounce c d s).floor = s.floor ∧
      (setDebounce c d s).attnTimer = s.attnTimer ∧ (setDebounce c d s).pending = s.pending := by
  simp [setDebounce]

@[simp] theorem acceptDown_frame (c : Contact) :
    (acceptDown c s).clock = s.clock ∧ (acceptDown c s).station = s.station ∧ (acceptDown c s).startup = s.startup ∧
      (acceptDown c s).port = s.port ∧ (acceptDown c s).engine = s.engine ∧ (acceptDown c s).feed = s.feed ∧
      (acceptDown c s).line = s.line ∧ (acceptDown c s).floor = s.floor ∧ (acceptDown c s).pending = s.pending := by
  unfold acceptDown
  split <;> simp

@[simp] theorem acceptUp_frame (c : Contact) :
    (acceptUp c s).clock = s.clock ∧ (acceptUp c s).station = s.station ∧ (acceptUp c s).startup = s.startup ∧
      (acceptUp c s).intake = s.intake ∧ (acceptUp c s).port = s.port ∧ (acceptUp c s).engine = s.engine ∧
      (acceptUp c s).feed = s.feed ∧ (acceptUp c s).line = s.line ∧ (acceptUp c s).floor = s.floor ∧
      (acceptUp c s).attnTimer = s.attnTimer ∧ (acceptUp c s).pending = s.pending := by
  unfold acceptUp
  split <;> simp

@[simp] theorem expireDebounce_frame (c : Contact) :
    (expireDebounce c s).clock = s.clock ∧ (expireDebounce c s).station = s.station ∧
      (expireDebounce c s).startup = s.startup ∧ (expireDebounce c s).port = s.port ∧
      (expireDebounce c s).engine = s.engine ∧ (expireDebounce c s).feed = s.feed ∧
      (expireDebounce c s).line = s.line ∧ (expireDebounce c s).floor = s.floor ∧
      (expireDebounce c s).pending = s.pending := by
  unfold expireDebounce
  split <;> simp

@[simp] theorem expireReleaseWindow_frame :
    (expireReleaseWindow s).clock = s.clock ∧ (expireReleaseWindow s).station = s.station ∧
      (expireReleaseWindow s).startup = s.startup ∧ (expireReleaseWindow s).port = s.port ∧
      (expireReleaseWindow s).engine = s.engine ∧ (expireReleaseWindow s).feed = s.feed ∧
      (expireReleaseWindow s).line = s.line ∧ (expireReleaseWindow s).floor = s.floor ∧
      (expireReleaseWindow s).attnTimer = s.attnTimer ∧ (expireReleaseWindow s).pending = s.pending := by
  unfold expireReleaseWindow
  split <;> simp

@[simp] theorem expireDuration_frame :
    (expireDuration s).clock = s.clock ∧ (expireDuration s).station = s.station ∧
      (expireDuration s).startup = s.startup ∧ (expireDuration s).port = s.port ∧
      (expireDuration s).engine = s.engine ∧ (expireDuration s).feed = s.feed ∧ (expireDuration s).line = s.line ∧
      (expireDuration s).floor = s.floor ∧ (expireDuration s).attnTimer = s.attnTimer ∧
      (expireDuration s).pending = s.pending := by
  unfold expireDuration
  split <;> simp

@[simp] theorem endStartup_frame (p : Params) (valid : Bool) :
    (endStartup p valid s).clock = s.clock ∧ (endStartup p valid s).station = s.station ∧
      (endStartup p valid s).intake = s.intake ∧ (endStartup p valid s).feed = s.feed ∧
      (endStartup p valid s).attnTimer = s.attnTimer ∧ (endStartup p valid s).pending = s.pending := by
  simp [endStartup]

@[simp] theorem defaultedStart_frame :
    (defaultedStart s).clock = s.clock ∧ (defaultedStart s).station = s.station ∧
      (defaultedStart s).intake = s.intake ∧ (defaultedStart s).feed = s.feed ∧
      (defaultedStart s).attnTimer = s.attnTimer ∧ (defaultedStart s).pending = s.pending := by
  simp [defaultedStart]

@[simp] theorem completeHeaderRead_frame (owner : ReadOwner) (bytes : List Byte) :
    (completeHeaderRead owner bytes s).clock = s.clock ∧ (completeHeaderRead owner bytes s).station = s.station ∧
      (completeHeaderRead owner bytes s).intake = s.intake ∧ (completeHeaderRead owner bytes s).feed = s.feed ∧
      (completeHeaderRead owner bytes s).attnTimer = s.attnTimer ∧
      (completeHeaderRead owner bytes s).pending = s.pending := by
  unfold completeHeaderRead
  (repeat' split) <;> simp

@[simp] theorem expireStartupLimit_frame :
    (expireStartupLimit s).clock = s.clock ∧ (expireStartupLimit s).station = s.station ∧
      (expireStartupLimit s).intake = s.intake ∧ (expireStartupLimit s).feed = s.feed ∧
      (expireStartupLimit s).attnTimer = s.attnTimer ∧ (expireStartupLimit s).pending = s.pending := by
  unfold expireStartupLimit
  split <;> simp

@[simp] theorem judgeRead_frame (index : Nat) (l : Lookup) (w : Work) (bytes : List Byte) :
    (judgeRead index l w bytes s).clock = s.clock ∧ (judgeRead index l w bytes s).station = s.station ∧
      (judgeRead index l w bytes s).startup = s.startup ∧ (judgeRead index l w bytes s).scanner = s.scanner ∧
      (judgeRead index l w bytes s).intake = s.intake ∧ (judgeRead index l w bytes s).line = s.line ∧
      (judgeRead index l w bytes s).attnTimer = s.attnTimer ∧ (judgeRead index l w bytes s).pending = s.pending := by
  unfold judgeRead
  split <;> simp

@[simp] theorem completeSlotRead_frame (owner : ReadOwner) (bytes : List Byte) :
    (completeSlotRead owner bytes s).clock = s.clock ∧ (completeSlotRead owner bytes s).station = s.station ∧
      (completeSlotRead owner bytes s).startup = s.startup ∧ (completeSlotRead owner bytes s).scanner = s.scanner ∧
      (completeSlotRead owner bytes s).intake = s.intake ∧ (completeSlotRead owner bytes s).line = s.line ∧
      (completeSlotRead owner bytes s).attnTimer = s.attnTimer ∧ (completeSlotRead owner bytes s).pending = s.pending := by
  unfold completeSlotRead
  (repeat' split) <;> simp

@[simp] theorem expireWatchdog_frame :
    (expireWatchdog s).clock = s.clock ∧ (expireWatchdog s).station = s.station ∧
      (expireWatchdog s).startup = s.startup ∧ (expireWatchdog s).scanner = s.scanner ∧
      (expireWatchdog s).intake = s.intake ∧ (expireWatchdog s).line = s.line ∧
      (expireWatchdog s).attnTimer = s.attnTimer ∧ (expireWatchdog s).pending = s.pending := by
  unfold expireWatchdog
  (repeat' split) <;> simp

@[simp] theorem expireRecovery_frame :
    (expireRecovery s).clock = s.clock ∧ (expireRecovery s).station = s.station ∧
      (expireRecovery s).startup = s.startup ∧ (expireRecovery s).scanner = s.scanner ∧
      (expireRecovery s).intake = s.intake ∧ (expireRecovery s).engine = s.engine ∧
      (expireRecovery s).feed = s.feed ∧ (expireRecovery s).line = s.line ∧ (expireRecovery s).floor = s.floor ∧
      (expireRecovery s).attnTimer = s.attnTimer ∧ (expireRecovery s).pending = s.pending := by
  unfold expireRecovery
  split <;> simp

@[simp] theorem completeRecovery_frame (owner : ReadOwner) (bytes : List Byte) :
    (completeRecovery owner bytes s).clock = s.clock ∧ (completeRecovery owner bytes s).station = s.station ∧
      (completeRecovery owner bytes s).startup = s.startup ∧ (completeRecovery owner bytes s).scanner = s.scanner ∧
      (completeRecovery owner bytes s).intake = s.intake ∧ (completeRecovery owner bytes s).engine = s.engine ∧
      (completeRecovery owner bytes s).feed = s.feed ∧ (completeRecovery owner bytes s).line = s.line ∧
      (completeRecovery owner bytes s).floor = s.floor ∧ (completeRecovery owner bytes s).attnTimer = s.attnTimer ∧
      (completeRecovery owner bytes s).pending = s.pending := by
  unfold completeRecovery
  (repeat' split) <;> simp

@[simp] theorem retractStroke_frame (time : Clock) :
    (retractStroke time s).clock = s.clock ∧ (retractStroke time s).station = s.station ∧
      (retractStroke time s).startup = s.startup ∧ (retractStroke time s).scanner = s.scanner ∧
      (retractStroke time s).intake = s.intake ∧ (retractStroke time s).port = s.port ∧
      (retractStroke time s).line = s.line ∧ (retractStroke time s).floor = s.floor ∧
      (retractStroke time s).pending = s.pending := by
  unfold retractStroke
  (repeat' split) <;> simp

@[simp] theorem wordRetract_frame (count : Nat) :
    (wordRetract count s).clock = s.clock ∧ (wordRetract count s).station = s.station ∧
      (wordRetract count s).startup = s.startup ∧ (wordRetract count s).scanner = s.scanner ∧
      (wordRetract count s).intake = s.intake ∧ (wordRetract count s).port = s.port ∧
      (wordRetract count s).line = s.line ∧ (wordRetract count s).floor = s.floor ∧
      (wordRetract count s).pending = s.pending := by
  unfold wordRetract
  split <;> simp

@[simp] theorem strokeStep_frame (code : StrokeCode) (time : Clock) (gap : Nat) :
    (strokeStep code time gap s).clock = s.clock ∧ (strokeStep code time gap s).station = s.station ∧
      (strokeStep code time gap s).startup = s.startup ∧ (strokeStep code time gap s).scanner = s.scanner ∧
      (strokeStep code time gap s).intake = s.intake ∧ (strokeStep code time gap s).line = s.line ∧
      (strokeStep code time gap s).attnTimer = s.attnTimer ∧ (strokeStep code time gap s).pending = s.pending := by
  simp [strokeStep]

@[simp] theorem takeStroke_frame (code : StrokeCode) (time : Clock) (gap : Nat) :
    (takeStroke code time gap s).clock = s.clock ∧ (takeStroke code time gap s).station = s.station ∧
      (takeStroke code time gap s).startup = s.startup ∧ (takeStroke code time gap s).scanner = s.scanner ∧
      (takeStroke code time gap s).intake = s.intake ∧ (takeStroke code time gap s).line = s.line ∧
      (takeStroke code time gap s).pending = s.pending := by
  unfold takeStroke
  split <;> simp

@[simp] theorem markItem_frame (time : Clock) :
    (markItem time s).clock = s.clock ∧ (markItem time s).station = s.station ∧
      (markItem time s).startup = s.startup ∧ (markItem time s).scanner = s.scanner ∧
      (markItem time s).intake = s.intake ∧ (markItem time s).port = s.port ∧ (markItem time s).line = s.line ∧
      (markItem time s).floor = s.floor ∧ (markItem time s).pending = s.pending := by
  unfold markItem
  dsimp only
  (repeat' split) <;> simp

@[simp] theorem takeItem_frame (i : Item) :
    (takeItem i s).clock = s.clock ∧ (takeItem i s).station = s.station ∧ (takeItem i s).startup = s.startup ∧
      (takeItem i s).scanner = s.scanner ∧ (takeItem i s).intake = s.intake ∧ (takeItem i s).line = s.line ∧
      (takeItem i s).pending = s.pending := by
  unfold takeItem
  split <;> simp

@[simp] theorem openStep_frame :
    (openStep s).clock = s.clock ∧ (openStep s).station = s.station ∧ (openStep s).startup = s.startup ∧
      (openStep s).scanner = s.scanner ∧ (openStep s).intake = s.intake ∧ (openStep s).port = s.port ∧
      (openStep s).feed = s.feed ∧ (openStep s).line = s.line ∧ (openStep s).floor = s.floor ∧
      (openStep s).attnTimer = s.attnTimer ∧ (openStep s).pending = s.pending := by
  simp [openStep]

@[simp] theorem beginStep_frame :
    (beginStep s).clock = s.clock ∧ (beginStep s).station = s.station ∧ (beginStep s).startup = s.startup ∧
      (beginStep s).scanner = s.scanner ∧ (beginStep s).line = s.line ∧ (beginStep s).pending = s.pending := by
  unfold beginStep
  (repeat' split) <;> simp

@[simp] theorem expireSettleIdle_frame :
    (expireSettleIdle s).clock = s.clock ∧ (expireSettleIdle s).station = s.station ∧
      (expireSettleIdle s).startup = s.startup ∧ (expireSettleIdle s).scanner = s.scanner ∧
      (expireSettleIdle s).intake = s.intake ∧ (expireSettleIdle s).port = s.port ∧
      (expireSettleIdle s).line = s.line ∧ (expireSettleIdle s).attnTimer = s.attnTimer ∧
      (expireSettleIdle s).pending = s.pending := by
  unfold expireSettleIdle
  split <;> simp

@[simp] theorem readLine_frame (level : Level) :
    (readLine level s).clock = s.clock ∧ (readLine level s).station = s.station ∧
      (readLine level s).startup = s.startup ∧ (readLine level s).scanner = s.scanner ∧
      (readLine level s).intake = s.intake ∧ (readLine level s).port = s.port ∧
      (readLine level s).engine = s.engine ∧ (readLine level s).feed = s.feed ∧ (readLine level s).floor = s.floor ∧
      (readLine level s).attnTimer = s.attnTimer ∧ (readLine level s).pending = s.pending := by
  unfold readLine
  (repeat' split) <;> simp

@[simp] theorem takeCharacter_frame :
    (takeCharacter s).clock = s.clock ∧ (takeCharacter s).station = s.station ∧
      (takeCharacter s).startup = s.startup ∧ (takeCharacter s).scanner = s.scanner ∧
      (takeCharacter s).intake = s.intake ∧ (takeCharacter s).port = s.port ∧ (takeCharacter s).engine = s.engine ∧
      (takeCharacter s).feed = s.feed ∧ (takeCharacter s).floor = s.floor ∧
      (takeCharacter s).attnTimer = s.attnTimer ∧ (takeCharacter s).pending = s.pending := by
  unfold takeCharacter
  split <;> simp

@[simp] theorem clearHunting_frame :
    (clearHunting s).clock = s.clock ∧ (clearHunting s).station = s.station ∧ (clearHunting s).startup = s.startup ∧
      (clearHunting s).scanner = s.scanner ∧ (clearHunting s).intake = s.intake ∧ (clearHunting s).port = s.port ∧
      (clearHunting s).engine = s.engine ∧ (clearHunting s).feed = s.feed ∧ (clearHunting s).floor = s.floor ∧
      (clearHunting s).attnTimer = s.attnTimer ∧ (clearHunting s).pending = s.pending := by
  unfold clearHunting
  split <;> simp

@[simp] theorem breakOff_frame :
    (breakOff s).clock = s.clock ∧ (breakOff s).station = s.station ∧ (breakOff s).startup = s.startup ∧
      (breakOff s).scanner = s.scanner ∧ (breakOff s).intake = s.intake ∧ (breakOff s).port = s.port ∧
      (breakOff s).engine = s.engine ∧ (breakOff s).feed = s.feed ∧ (breakOff s).floor = s.floor ∧
      (breakOff s).attnTimer = s.attnTimer ∧ (breakOff s).pending = s.pending := by
  unfold breakOff
  split <;> simp

@[simp] theorem feedTakes_frame (f : Frame) :
    (feedTakes f s).clock = s.clock ∧ (feedTakes f s).station = s.station ∧ (feedTakes f s).startup = s.startup ∧
      (feedTakes f s).scanner = s.scanner ∧ (feedTakes f s).intake = s.intake ∧ (feedTakes f s).port = s.port ∧
      (feedTakes f s).engine = s.engine ∧ (feedTakes f s).line = s.line ∧ (feedTakes f s).floor = s.floor ∧
      (feedTakes f s).attnTimer = s.attnTimer ∧ (feedTakes f s).pending = s.pending := by
  unfold feedTakes
  (repeat' split) <;> simp

@[simp] theorem handOn_frame (lead : Byte) (rest : List Byte) :
    (handOn lead rest s).clock = s.clock ∧ (handOn lead rest s).station = s.station ∧
      (handOn lead rest s).startup = s.startup ∧ (handOn lead rest s).scanner = s.scanner ∧
      (handOn lead rest s).intake = s.intake ∧ (handOn lead rest s).port = s.port ∧
      (handOn lead rest s).pending = s.pending := by
  unfold handOn
  (repeat' split) <;> simp

@[simp] theorem completeFrame_frame :
    (completeFrame s).clock = s.clock ∧ (completeFrame s).station = s.station ∧
      (completeFrame s).startup = s.startup ∧ (completeFrame s).scanner = s.scanner ∧
      (completeFrame s).intake = s.intake ∧ (completeFrame s).port = s.port ∧ (completeFrame s).pending = s.pending := by
  unfold completeFrame
  (repeat' split) <;> simp

@[simp] theorem findLineFault_frame :
    (findLineFault s).clock = s.clock ∧ (findLineFault s).station = s.station ∧
      (findLineFault s).startup = s.startup ∧ (findLineFault s).scanner = s.scanner ∧
      (findLineFault s).intake = s.intake ∧ (findLineFault s).port = s.port ∧ (findLineFault s).engine = s.engine ∧
      (findLineFault s).feed = s.feed ∧ (findLineFault s).floor = s.floor ∧
      (findLineFault s).attnTimer = s.attnTimer ∧ (findLineFault s).pending = s.pending := by
  unfold findLineFault
  split <;> simp

@[simp] theorem integrationReported_frame :
    (integrationReported s).clock = s.clock ∧ (integrationReported s).station = s.station ∧
      (integrationReported s).startup = s.startup ∧ (integrationReported s).scanner = s.scanner ∧
      (integrationReported s).intake = s.intake ∧ (integrationReported s).port = s.port ∧
      (integrationReported s).engine = s.engine ∧ (integrationReported s).line = s.line ∧
      (integrationReported s).attnTimer = s.attnTimer ∧ (integrationReported s).pending = s.pending := by
  unfold integrationReported
  dsimp only
  split <;> simp

@[simp] theorem endIntegration_frame :
    (endIntegration s).clock = s.clock ∧ (endIntegration s).station = s.station ∧
      (endIntegration s).startup = s.startup ∧ (endIntegration s).scanner = s.scanner ∧
      (endIntegration s).intake = s.intake ∧ (endIntegration s).port = s.port ∧
      (endIntegration s).engine = s.engine ∧ (endIntegration s).attnTimer = s.attnTimer ∧
      (endIntegration s).pending = s.pending := by
  unfold endIntegration
  (repeat' split) <;> simp

@[simp] theorem beginTransmission_frame :
    (beginTransmission s).clock = s.clock ∧ (beginTransmission s).station = s.station ∧
      (beginTransmission s).startup = s.startup ∧ (beginTransmission s).scanner = s.scanner ∧
      (beginTransmission s).intake = s.intake ∧ (beginTransmission s).port = s.port ∧
      (beginTransmission s).engine = s.engine ∧ (beginTransmission s).floor = s.floor ∧
      (beginTransmission s).attnTimer = s.attnTimer ∧ (beginTransmission s).pending = s.pending := by
  unfold beginTransmission
  split <;> simp

@[simp] theorem leaveHanding_frame (h : Handover) :
    (leaveHanding h s).clock = s.clock ∧ (leaveHanding h s).station = s.station ∧
      (leaveHanding h s).startup = s.startup ∧ (leaveHanding h s).scanner = s.scanner ∧
      (leaveHanding h s).intake = s.intake ∧ (leaveHanding h s).port = s.port ∧ (leaveHanding h s).line = s.line ∧
      (leaveHanding h s).pending = s.pending := by
  unfold leaveHanding
  split <;> simp

@[simp] theorem releaseKeptBack_frame (h : Handover) :
    (releaseKeptBack h s).clock = s.clock ∧ (releaseKeptBack h s).station = s.station ∧
      (releaseKeptBack h s).startup = s.startup ∧ (releaseKeptBack h s).scanner = s.scanner ∧
      (releaseKeptBack h s).intake = s.intake ∧ (releaseKeptBack h s).port = s.port ∧
      (releaseKeptBack h s).engine = s.engine ∧ (releaseKeptBack h s).line = s.line ∧
      (releaseKeptBack h s).attnTimer = s.attnTimer ∧ (releaseKeptBack h s).pending = s.pending := by
  unfold releaseKeptBack
  (repeat' split) <;> simp

@[simp] theorem handoverSent_frame (h : Handover) :
    (handoverSent h s).clock = s.clock ∧ (handoverSent h s).station = s.station ∧
      (handoverSent h s).startup = s.startup ∧ (handoverSent h s).scanner = s.scanner ∧
      (handoverSent h s).intake = s.intake ∧ (handoverSent h s).port = s.port ∧ (handoverSent h s).line = s.line ∧
      (handoverSent h s).pending = s.pending := by
  unfold handoverSent
  split <;> simp

@[simp] theorem frameSent_frame (f : Frame) :
    (frameSent f s).clock = s.clock ∧ (frameSent f s).station = s.station ∧ (frameSent f s).startup = s.startup ∧
      (frameSent f s).scanner = s.scanner ∧ (frameSent f s).intake = s.intake ∧ (frameSent f s).port = s.port ∧
      (frameSent f s).line = s.line ∧ (frameSent f s).pending = s.pending := by
  unfold frameSent
  split <;> simp

@[simp] theorem sendWhole_frame :
    (sendWhole s).clock = s.clock ∧ (sendWhole s).station = s.station ∧ (sendWhole s).startup = s.startup ∧
      (sendWhole s).scanner = s.scanner ∧ (sendWhole s).intake = s.intake ∧ (sendWhole s).port = s.port ∧
      (sendWhole s).pending = s.pending := by
  unfold sendWhole
  (repeat' split) <;> simp

@[simp] theorem loseArbitration_frame :
    (loseArbitration s).clock = s.clock ∧ (loseArbitration s).station = s.station ∧
      (loseArbitration s).startup = s.startup ∧ (loseArbitration s).scanner = s.scanner ∧
      (loseArbitration s).intake = s.intake ∧ (loseArbitration s).port = s.port ∧
      (loseArbitration s).engine = s.engine ∧ (loseArbitration s).floor = s.floor ∧
      (loseArbitration s).attnTimer = s.attnTimer ∧ (loseArbitration s).pending = s.pending := by
  unfold loseArbitration
  split <;> simp

@[simp] theorem collide_frame :
    (collide s).clock = s.clock ∧ (collide s).station = s.station ∧ (collide s).startup = s.startup ∧
      (collide s).scanner = s.scanner ∧ (collide s).intake = s.intake ∧ (collide s).port = s.port ∧
      (collide s).attnTimer = s.attnTimer ∧ (collide s).pending = s.pending := by
  unfold collide
  dsimp only
  (repeat' split) <;> simp

@[simp] theorem generateReplay_frame :
    (generateReplay s).clock = s.clock ∧ (generateReplay s).station = s.station ∧
      (generateReplay s).startup = s.startup ∧ (generateReplay s).scanner = s.scanner ∧
      (generateReplay s).intake = s.intake ∧ (generateReplay s).port = s.port ∧
      (generateReplay s).engine = s.engine ∧ (generateReplay s).line = s.line ∧ (generateReplay s).floor = s.floor ∧
      (generateReplay s).attnTimer = s.attnTimer ∧ (generateReplay s).pending = s.pending := by
  unfold generateReplay
  split <;> simp

@[simp] theorem reactToVacancy_frame :
    (reactToVacancy s).clock = s.clock ∧ (reactToVacancy s).station = s.station ∧
      (reactToVacancy s).startup = s.startup ∧ (reactToVacancy s).scanner = s.scanner ∧
      (reactToVacancy s).intake = s.intake ∧ (reactToVacancy s).port = s.port ∧
      (reactToVacancy s).engine = s.engine ∧ (reactToVacancy s).line = s.line ∧
      (reactToVacancy s).attnTimer = s.attnTimer ∧ (reactToVacancy s).pending = s.pending := by
  unfold reactToVacancy
  (repeat' split) <;> simp

@[simp] theorem expireAbsence_frame :
    (expireAbsence s).clock = s.clock ∧ (expireAbsence s).station = s.station ∧
      (expireAbsence s).startup = s.startup ∧ (expireAbsence s).scanner = s.scanner ∧
      (expireAbsence s).intake = s.intake ∧ (expireAbsence s).port = s.port ∧ (expireAbsence s).engine = s.engine ∧
      (expireAbsence s).line = s.line ∧ (expireAbsence s).attnTimer = s.attnTimer ∧
      (expireAbsence s).pending = s.pending := by
  unfold expireAbsence
  split <;> simp

@[simp] theorem takeFloor_frame :
    (takeFloor s).clock = s.clock ∧ (takeFloor s).station = s.station ∧ (takeFloor s).startup = s.startup ∧
      (takeFloor s).scanner = s.scanner ∧ (takeFloor s).intake = s.intake ∧ (takeFloor s).port = s.port ∧
      (takeFloor s).line = s.line ∧ (takeFloor s).attnTimer = s.attnTimer ∧ (takeFloor s).pending = s.pending := by
  simp [takeFloor]

@[simp] theorem expireClaimWindow_frame :
    (expireClaimWindow s).clock = s.clock ∧ (expireClaimWindow s).station = s.station ∧
      (expireClaimWindow s).startup = s.startup ∧ (expireClaimWindow s).scanner = s.scanner ∧
      (expireClaimWindow s).intake = s.intake ∧ (expireClaimWindow s).port = s.port ∧
      (expireClaimWindow s).line = s.line ∧ (expireClaimWindow s).attnTimer = s.attnTimer ∧
      (expireClaimWindow s).pending = s.pending := by
  unfold expireClaimWindow
  split <;> simp

@[simp] theorem expirePresence_frame :
    (expirePresence s).clock = s.clock ∧ (expirePresence s).station = s.station ∧
      (expirePresence s).startup = s.startup ∧ (expirePresence s).scanner = s.scanner ∧
      (expirePresence s).intake = s.intake ∧ (expirePresence s).port = s.port ∧
      (expirePresence s).engine = s.engine ∧ (expirePresence s).line = s.line ∧
      (expirePresence s).attnTimer = s.attnTimer ∧ (expirePresence s).pending = s.pending := by
  unfold expirePresence
  dsimp only
  (repeat' split) <;> simp

@[simp] theorem expireAttnPulse_frame :
    (expireAttnPulse s).clock = s.clock ∧ (expireAttnPulse s).station = s.station ∧
      (expireAttnPulse s).startup = s.startup ∧ (expireAttnPulse s).scanner = s.scanner ∧
      (expireAttnPulse s).intake = s.intake ∧ (expireAttnPulse s).port = s.port ∧
      (expireAttnPulse s).engine = s.engine ∧ (expireAttnPulse s).feed = s.feed ∧ (expireAttnPulse s).line = s.line ∧
      (expireAttnPulse s).floor = s.floor ∧ (expireAttnPulse s).pending = s.pending := by
  unfold expireAttnPulse
  split <;> simp

@[simp] theorem tick_frame :
    (tick s).station = s.station ∧ (tick s).intake = s.intake ∧ (tick s).feed = s.feed ∧ (tick s).line = s.line ∧
      (tick s).pending = s.pending := by
  simp [tick]

end Sys2Proof.Machine
end

