-- ==== Sys2Proof/Laws/Settings.lean ====
section
/-! SUPPORT. No operation but those of start-up and reset changes a setting. -/

namespace Sys2Proof.Machine

variable (s : State)

@[simp] theorem settings_setEngine (x : Engine) (h1 : x.depth = s.engine.depth) (h2 : x.settleIdle = s.engine.settleIdle) :
    settings (s.setEngine x) = settings s := by
  simp [settings, h1, h2]

@[simp] theorem settings_setFloor (x : Floor) (h1 : x.autoClaim = s.floor.autoClaim)
    (h2 : x.presencePeriod = s.floor.presencePeriod) (h3 : x.absenceTimeout = s.floor.absenceTimeout)
    (h4 : x.claimWindow = s.floor.claimWindow) : settings (s.setFloor x) = settings s := by
  simp [settings, h1, h2, h3, h4]

@[simp] theorem settings_setPort (x : Port) (h1 : x.base = s.port.base) (h2 : x.bits = s.port.bits)
    (h3 : x.probeLimit = s.port.probeLimit) (h4 : x.watchdog = s.port.watchdog)
    (h5 : x.acceptedCrc = s.port.acceptedCrc) (h6 : x.labels = s.port.labels) : settings (s.setPort x) = settings s := by
  simp [settings, h1, h2, h3, h4, h5, h6]

@[simp] theorem settings_setScanner (x : Scanner) (h1 : x.debounceTime = s.scanner.debounceTime)
    (h2 : x.releaseWindow = s.scanner.releaseWindow) (h3 : x.maxDuration = s.scanner.maxDuration) :
    settings (s.setScanner x) = settings s := by
  simp [settings, h1, h2, h3]

@[simp] theorem settings_setLine (x : LineInterface) (h : x.rate = s.line.rate) : settings (s.setLine x) = settings s := by
  simp [settings, h]

@[simp] theorem settings_setFeed (x : Feed) : settings (s.setFeed x) = settings s := rfl

@[simp] theorem settings_setIntake (x : Intake) : settings (s.setIntake x) = settings s := rfl

@[simp] theorem settings_setAttnTimer (x : Timer) : settings (s.setAttnTimer x) = settings s := rfl

@[simp] theorem settings_setPending (x : List Instr) : settings (s.setPending x) = settings s := rfl

@[simp] theorem recordFault_settings (i : Nat) (p : Port) :
    (p.recordFault i).base = p.base ∧ (p.recordFault i).bits = p.bits ∧ (p.recordFault i).probeLimit = p.probeLimit ∧
      (p.recordFault i).watchdog = p.watchdog ∧ (p.recordFault i).acceptedCrc = p.acceptedCrc ∧
      (p.recordFault i).labels = p.labels := by
  unfold Port.recordFault
  split <;> [skip; split] <;> simp

@[simp] theorem timeout_settings (p : Port) :
    p.timeout.base = p.base ∧ p.timeout.bits = p.bits ∧ p.timeout.probeLimit = p.probeLimit ∧
      p.timeout.watchdog = p.watchdog ∧ p.timeout.acceptedCrc = p.acceptedCrc ∧ p.timeout.labels = p.labels := by
  unfold Port.timeout
  dsimp only
  split <;> simp

@[simp] theorem endRead_settings (p : Port) :
    p.endRead.base = p.base ∧ p.endRead.bits = p.bits ∧ p.endRead.probeLimit = p.probeLimit ∧
      p.endRead.watchdog = p.watchdog ∧ p.endRead.acceptedCrc = p.acceptedCrc ∧ p.endRead.labels = p.labels := by
  simp [Port.endRead]

@[simp] theorem keyDown_settings (now : Clock) (p : Fin 24) (k : Scanner) :
    (k.keyDown now p).debounceTime = k.debounceTime ∧ (k.keyDown now p).releaseWindow = k.releaseWindow ∧
      (k.keyDown now p).maxDuration = k.maxDuration := by
  unfold Scanner.keyDown
  (repeat' split) <;> simp

@[simp] theorem keyUp_settings (p : Fin 24) (k : Scanner) :
    (k.keyUp p).debounceTime = k.debounceTime ∧ (k.keyUp p).releaseWindow = k.releaseWindow ∧
      (k.keyUp p).maxDuration = k.maxDuration := by
  unfold Scanner.keyUp
  dsimp only
  (repeat' split) <;> simp

@[simp] theorem stickKeys_settings (k : Scanner) :
    k.stickKeys.debounceTime = k.debounceTime ∧ k.stickKeys.releaseWindow = k.releaseWindow ∧
      k.stickKeys.maxDuration = k.maxDuration := by
  unfold Scanner.stickKeys
  split <;> simp

@[simp] theorem setLine_settings (c : Contact) (l : Line) (k : Scanner) :
    (k.setLine c l).debounceTime = k.debounceTime ∧ (k.setLine c l).releaseWindow = k.releaseWindow ∧
      (k.setLine c l).maxDuration = k.maxDuration := by
  cases c <;> simp [Scanner.setLine]

@[simp] theorem leaveTenure_settings (e : Engine) :
    e.leaveTenure.depth = e.depth ∧ e.leaveTenure.settleIdle = e.settleIdle := by
  simp [Engine.leaveTenure]

@[simp] theorem enterLive_settings (e : Engine) :
    e.enterLive.depth = e.depth ∧ e.enterLive.settleIdle = e.settleIdle := by
  simp [Engine.enterLive]

@[simp] theorem count_rate (level : Level) (l : LineInterface) : (l.count level).rate = l.rate := by
  cases level <;> rfl

@[simp] theorem receive_rate (level : Level) (l : LineInterface) : (l.receive level).rate = l.rate := by
  unfold LineInterface.receive
  dsimp only
  (repeat' split) <;> simp

@[simp] theorem compare_rate (level sent : Level) (total : Nat) (l : LineInterface) :
    (l.compare level sent total).rate = l.rate := by
  unfold LineInterface.compare
  dsimp only
  (repeat' split) <;> simp

@[simp] theorem takeChar_rate (l : LineInterface) : l.takeChar.rate = l.rate := by
  unfold LineInterface.takeChar LineInterface.framingError LineInterface.beginFrame LineInterface.discardChar
    LineInterface.extendFrame LineInterface.countError
  dsimp only
  (repeat' split) <;> simp

@[simp] theorem abandon_rate (l : LineInterface) : l.abandon.rate = l.rate := rfl

@[simp] theorem turnToReceiving_rate : (turnToReceiving s).rate = s.line.rate := rfl

@[simp] theorem countError_rate (l : LineInterface) : l.countError.rate = l.rate := rfl

@[simp] theorem scannerTick_settings (k : Scanner) :
    k.tick.debounceTime = k.debounceTime ∧ k.tick.releaseWindow = k.releaseWindow ∧ k.tick.maxDuration = k.maxDuration := by
  simp [Scanner.tick]

@[simp] theorem requestPulse_settings : settings (requestPulse s) = settings s := by
  simp [requestPulse]

@[simp] theorem handCut_settings (q : Seq) : settings (handCut q s) = settings s := by
  unfold handCut
  split <;> simp

@[simp] theorem handSettle_settings (q : Seq) : settings (handSettle q s) = settings s := by
  unfold handSettle
  split <;> simp

@[simp] theorem handAppend_settings (chars : List Byte) (degraded : Bool) (time : Clock) : settings (handAppend chars degraded time s) = settings s := by
  unfold handAppend
  split <;> simp

@[simp] theorem handMark_settings (time : Clock) : settings (handMark time s) = settings s := by
  unfold handMark
  split <;> simp

@[simp] theorem handLost_settings (count : Nat) (time : Clock) : settings (handLost count time s) = settings s := by
  unfold handLost
  split <;> simp

@[simp] theorem refuse_settings : settings (refuse s) = settings s := by
  simp [refuse]

@[simp] theorem settleLocal_settings : settings (settleLocal s) = settings s := by
  simp [settleLocal]

@[simp] theorem settleToEnd_settings : settings (settleToEnd s) = settings s := by
  unfold settleToEnd
  split <;> simp

@[simp] theorem placeRecord_settings (r : Record) (lossFollows : Bool) : settings (placeRecord r lossFollows s) = settings s := by
  unfold placeRecord
  (repeat' split) <;> simp

@[simp] theorem removeNewest_settings (k : Nat) : settings (removeNewest k s) = settings s := by
  simp [removeNewest]

@[simp] theorem handCutAt_settings (point : Option Seq) : settings (handCutAt point s) = settings s := by
  unfold handCutAt
  (repeat' split) <;> simp

@[simp] theorem reportGap_settings (gap : Nat) (time : Clock) : settings (reportGap gap time s) = settings s := by
  unfold reportGap
  (repeat' split) <;> simp

@[simp] theorem offer_settings (place : Feed → Feed) : settings (offer place s) = settings s := by
  unfold offer
  split <;> simp

@[simp] theorem offerPresence_settings : settings (offerPresence s) = settings s := by
  simp [offerPresence]

@[simp] theorem offerClaim_settings (withdraw : Bool) : settings (offerClaim withdraw s) = settings s := by
  simp [offerClaim]

@[simp] theorem offerHandover_settings (h : Handover) : settings (offerHandover h s) = settings s := by
  simp [offerHandover]

@[simp] theorem loadPresence_settings : settings (loadPresence s) = settings s := by
  simp [loadPresence]

@[simp] theorem loadClaimWindow_settings : settings (loadClaimWindow s) = settings s := by
  unfold loadClaimWindow
  split <;> simp

@[simp] theorem enterClaiming_settings (origin : Origin) : settings (enterClaiming origin s) = settings s := by
  simp [enterClaiming]

@[simp] theorem leaveClaiming_settings : settings (leaveClaiming s) = settings s := by
  simp [leaveClaiming]

@[simp] theorem enterLive_settings_state (epoch : Epoch) (next : Seq) : settings (enterLive epoch next s) = settings s := by
  simp [enterLive, loadPresence, settings]

@[simp] theorem enterHanding_settings : settings (enterHanding s) = settings s := by
  simp [enterHanding, settings]

@[simp] theorem leaveTenure_settings_state : settings (leaveTenure s) = settings s := by
  simp [leaveTenure, loadPresence, settings]

@[simp] theorem enterMute_settings : settings (enterMute s) = settings s := by
  unfold enterMute
  split
  · rfl
  · simp [settings]

@[simp] theorem buildHandover_settings : settings (buildHandover s) = settings s := by
  unfold buildHandover
  split <;> simp

@[simp] theorem settleOnEntry_settings : settings (settleOnEntry s) = settings s := by
  unfold settleOnEntry
  split <;> simp

@[simp] theorem fullSettle_settings : settings (fullSettle s) = settings s := by
  unfold fullSettle
  (repeat' split) <;> simp

@[simp] theorem settleMute_settings : settings (settleMute s) = settings s := by
  unfold settleMute
  split <;> simp

@[simp] theorem boundaryWork_settings : settings (boundaryWork s) = settings s := by
  simp [boundaryWork]

@[simp] theorem boundaryIfBetween_settings : settings (boundaryIfBetween s) = settings s := by
  unfold boundaryIfBetween
  split <;> simp

@[simp] theorem takeLineTime_settings (f : Frame) : settings (takeLineTime f s) = settings s := by
  unfold takeLineTime
  (repeat' split) <;> simp

@[simp] theorem moveView_settings (view : View) : settings (moveView view s) = settings s := by
  simp [moveView]

@[simp] theorem decline_settings (h : Handover) : settings (decline h s) = settings s := by
  simp [decline]

@[simp] theorem reactStandby_settings (f : Frame) : settings (reactStandby f s) = settings s := by
  unfold reactStandby
  (repeat' split) <;> simp

@[simp] theorem reactClaiming_settings (v : Verdict) (f : Frame) : settings (reactClaiming v f s) = settings s := by
  unfold reactClaiming
  (repeat' split) <;> simp

@[simp] theorem reactToView_settings (v : Verdict) (f : Frame) : settings (reactToView v f s) = settings s := by
  unfold reactToView
  (repeat' split) <;> simp

@[simp] theorem takeTenureFrame_settings (sender : Station) (epoch : Option Epoch) (f : Frame) : settings (takeTenureFrame sender epoch f s) = settings s := by
  unfold takeTenureFrame
  dsimp only
  (repeat' split) <;> simp

@[simp] theorem applyOwnHandover_settings (h : Handover) : settings (applyOwnHandover h s) = settings s := by
  unfold applyOwnHandover
  dsimp only
  split <;> simp

@[simp] theorem unnameClaimant_settings : settings (unnameClaimant s) = settings s := by
  unfold unnameClaimant
  (repeat' split) <;> simp

@[simp] theorem takeClaim_settings (sender : Station) (withdraw : Bool) : settings (takeClaim sender withdraw s) = settings s := by
  unfold takeClaim
  (repeat' split) <;> simp

@[simp] theorem floorTakes_settings (sender : Station) (f : Frame) : settings (floorTakes sender f s) = settings s := by
  unfold floorTakes
  (repeat' split) <;> simp

@[simp] theorem floorItem_settings : settings (floorItem s) = settings s := by
  unfold floorItem
  split <;> simp

@[simp] theorem pauseReport_settings : settings (pauseReport s) = settings s := by
  unfold pauseReport
  split <;> simp

@[simp] theorem endStep_settings : settings (endStep s) = settings s := by
  simp [endStep]

@[simp] theorem finishStroke_settings (k : Nat) (kind : RecordKind) (d : Descriptor) (w : Work) : settings (finishStroke k kind d w s) = settings s := by
  unfold finishStroke
  dsimp only
  split <;> simp

@[simp] theorem fallback_settings (w : Work) : settings (fallback w s) = settings s := by
  unfold fallback
  split <;> simp

@[simp] theorem startRead_settings (key : List StrokeCode) (j : Nat) (w : Work) : settings (startRead key j w s) = settings s := by
  simp [startRead, settings]

@[simp] theorem lookupFrom_settings (n : Nat) (w : Work) : settings (lookupFrom n w s) = settings s := by
  induction n generalizing w s with
  | zero => simp [lookupFrom]
  | succ n ih =>
    unfold lookupFrom
    dsimp only
    split
    · simp
    · exact ih _ _

@[simp] theorem probeOn_settings (key : List StrokeCode) (j : Nat) (w : Work) : settings (probeOn key j w s) = settings s := by
  unfold probeOn
  (repeat' split) <;> simp

@[simp] theorem arriveButton_settings (kind : ItemKind) : settings (arriveButton kind s) = settings s := by
  unfold arriveButton
  split <;> simp

@[simp] theorem completeStroke_settings : settings (completeStroke s) = settings s := by
  simp [completeStroke]

@[simp] theorem changeContact_settings (c : Contact) (closed : Bool) : settings (changeContact c closed s) = settings s := by
  simp [changeContact]

@[simp] theorem setDebounce_settings (c : Contact) (d : Debounce) : settings (setDebounce c d s) = settings s := by
  simp [setDebounce]

@[simp] theorem acceptDown_settings (c : Contact) : settings (acceptDown c s) = settings s := by
  unfold acceptDown
  split <;> simp

@[simp] theorem acceptUp_settings (c : Contact) : settings (acceptUp c s) = settings s := by
  unfold acceptUp
  split <;> simp

@[simp] theorem expireDebounce_settings (c : Contact) : settings (expireDebounce c s) = settings s := by
  unfold expireDebounce
  split <;> simp

@[simp] theorem expireReleaseWindow_settings : settings (expireReleaseWindow s) = settings s := by
  unfold expireReleaseWindow
  split <;> simp

@[simp] theorem expireDuration_settings : settings (expireDuration s) = settings s := by
  unfold expireDuration
  split <;> simp

@[simp] theorem judgeRead_settings (index : Nat) (l : Lookup) (w : Work) (bytes : List Byte) : settings (judgeRead index l w bytes s) = settings s := by
  unfold judgeRead
  split <;> simp

@[simp] theorem completeSlotRead_settings (owner : ReadOwner) (bytes : List Byte) : settings (completeSlotRead owner bytes s) = settings s := by
  unfold completeSlotRead
  (repeat' split) <;> simp

@[simp] theorem expireWatchdog_settings : settings (expireWatchdog s) = settings s := by
  unfold expireWatchdog
  (repeat' split) <;> simp

@[simp] theorem expireRecovery_settings : settings (expireRecovery s) = settings s := by
  unfold expireRecovery
  split <;> simp

@[simp] theorem completeRecovery_settings (owner : ReadOwner) (bytes : List Byte) : settings (completeRecovery owner bytes s) = settings s := by
  unfold completeRecovery
  (repeat' split) <;> simp

@[simp] theorem retractStroke_settings (time : Clock) : settings (retractStroke time s) = settings s := by
  unfold retractStroke
  (repeat' split) <;> simp

@[simp] theorem wordRetract_settings (count : Nat) : settings (wordRetract count s) = settings s := by
  unfold wordRetract
  split <;> simp

@[simp] theorem strokeStep_settings (code : StrokeCode) (time : Clock) (gap : Nat) : settings (strokeStep code time gap s) = settings s := by
  simp [strokeStep]

@[simp] theorem takeStroke_settings (code : StrokeCode) (time : Clock) (gap : Nat) : settings (takeStroke code time gap s) = settings s := by
  unfold takeStroke
  split <;> simp

@[simp] theorem markItem_settings (time : Clock) : settings (markItem time s) = settings s := by
  unfold markItem
  dsimp only
  (repeat' split) <;> simp

@[simp] theorem takeItem_settings (i : Item) : settings (takeItem i s) = settings s := by
  unfold takeItem
  split <;> simp

@[simp] theorem openStep_settings : settings (openStep s) = settings s := by
  simp [openStep]

@[simp] theorem beginStep_settings : settings (beginStep s) = settings s := by
  unfold beginStep
  (repeat' split) <;> simp

@[simp] theorem expireSettleIdle_settings : settings (expireSettleIdle s) = settings s := by
  unfold expireSettleIdle
  split <;> simp

@[simp] theorem readLine_settings (level : Level) : settings (readLine level s) = settings s := by
  unfold readLine
  (repeat' split) <;> simp

@[simp] theorem takeCharacter_settings : settings (takeCharacter s) = settings s := by
  unfold takeCharacter
  split <;> simp

@[simp] theorem clearHunting_settings : settings (clearHunting s) = settings s := by
  unfold clearHunting
  split <;> simp

@[simp] theorem breakOff_settings : settings (breakOff s) = settings s := by
  unfold breakOff
  split <;> simp

@[simp] theorem feedTakes_settings (f : Frame) : settings (feedTakes f s) = settings s := by
  unfold feedTakes
  (repeat' split) <;> simp

@[simp] theorem handOn_settings (lead : Byte) (rest : List Byte) : settings (handOn lead rest s) = settings s := by
  unfold handOn
  (repeat' split) <;> simp

@[simp] theorem completeFrame_settings : settings (completeFrame s) = settings s := by
  unfold completeFrame
  dsimp only
  (repeat' split) <;> first | rfl | simp

@[simp] theorem findLineFault_settings : settings (findLineFault s) = settings s := by
  unfold findLineFault
  split <;> simp

@[simp] theorem integrationReported_settings : settings (integrationReported s) = settings s := by
  unfold integrationReported
  dsimp only
  split <;> simp

@[simp] theorem endIntegration_settings : settings (endIntegration s) = settings s := by
  unfold endIntegration
  (repeat' split) <;> simp

@[simp] theorem beginTransmission_settings : settings (beginTransmission s) = settings s := by
  unfold beginTransmission
  split <;> simp [settings]

@[simp] theorem leaveHanding_settings (h : Handover) : settings (leaveHanding h s) = settings s := by
  unfold leaveHanding
  split <;> simp

@[simp] theorem releaseKeptBack_settings (h : Handover) : settings (releaseKeptBack h s) = settings s := by
  unfold releaseKeptBack
  (repeat' split) <;> simp

@[simp] theorem handoverSent_settings (h : Handover) : settings (handoverSent h s) = settings s := by
  unfold handoverSent
  split <;> simp

@[simp] theorem frameSent_settings (f : Frame) : settings (frameSent f s) = settings s := by
  unfold frameSent
  split <;> simp

@[simp] theorem sendWhole_settings : settings (sendWhole s) = settings s := by
  unfold sendWhole
  (repeat' split) <;> simp

@[simp] theorem loseArbitration_settings : settings (loseArbitration s) = settings s := by
  unfold loseArbitration
  split <;> simp [settings]

@[simp] theorem collide_settings : settings (collide s) = settings s := by
  unfold collide
  dsimp only
  split
  · split <;> simp <;> rfl
  · rfl

@[simp] theorem generateReplay_settings : settings (generateReplay s) = settings s := by
  unfold generateReplay
  split <;> simp

@[simp] theorem reactToVacancy_settings : settings (reactToVacancy s) = settings s := by
  unfold reactToVacancy
  (repeat' split) <;> simp

@[simp] theorem expireAbsence_settings : settings (expireAbsence s) = settings s := by
  unfold expireAbsence
  split <;> simp

@[simp] theorem takeFloor_settings : settings (takeFloor s) = settings s := by
  simp [takeFloor]

@[simp] theorem expireClaimWindow_settings : settings (expireClaimWindow s) = settings s := by
  unfold expireClaimWindow
  split <;> simp

@[simp] theorem expirePresence_settings : settings (expirePresence s) = settings s := by
  unfold expirePresence
  dsimp only
  (repeat' split) <;> simp

@[simp] theorem expireAttnPulse_settings : settings (expireAttnPulse s) = settings s := by
  unfold expireAttnPulse
  split <;> simp

@[simp] theorem tick_settings : settings (tick s) = settings s := by
  simp [tick, settings]

end Sys2Proof.Machine
end

