-- ==== Sys2Proof/Laws/KeyboardSound.lean ====
section
/-! SUPPORT. The scanner keeps its form: sets of keys as booleans at a contact, and what a key down, a key up, a
debounce and a stuck key keep (R4 to R14). -/

namespace Sys2Proof.Machine
set_option linter.all false

theorem KeySet.has_add (k : KeySet) (p q : Fin 24)
    : KeySet.has (KeySet.add k p) q = (KeySet.has k q || decide (q = p)) := by
  simp only [KeySet.has, KeySet.add, KeySet.single, BitVec.getLsbD_or, BitVec.getLsbD_twoPow]
  congr 1
  have := q.isLt
  simp [Fin.ext_iff]
  omega

theorem KeySet.has_remove (k : KeySet) (p q : Fin 24)
    : KeySet.has (KeySet.remove k p) q = (KeySet.has k q && !decide (q = p)) := by
  have hq := q.isLt
  have hp := p.isLt
  simp only [KeySet.has, KeySet.remove, KeySet.single, BitVec.getLsbD_and, BitVec.getLsbD_not, BitVec.getLsbD_twoPow]
  simp only [hq, hp, decide_true, Bool.true_and]
  congr 2
  simp [Fin.ext_iff, eq_comm]

theorem KeySet.has_single (p q : Fin 24) : KeySet.has (KeySet.single p) q = decide (q = p) := by
  have hq := q.isLt
  simp only [KeySet.has, KeySet.single, BitVec.getLsbD_twoPow]
  simp [Fin.ext_iff]
  omega

theorem KeySet.single_ne_zero (p : Fin 24) : KeySet.single p ≠ 0 := by
  intro h
  have := KeySet.has_single p p
  rw [h] at this
  simp [KeySet.has] at this

theorem KeySet.add_ne_zero (k : KeySet) (p : Fin 24) : KeySet.add k p ≠ 0 := by
  intro h
  have := KeySet.has_add k p p
  rw [h] at this
  simp [KeySet.has] at this

theorem KeySet.has_zero (q : Fin 24) : KeySet.has 0 q = false := by simp [KeySet.has]

theorem KeySet.has_ofFnLE (f : Fin 24 → Bool) (q : Fin 24) : KeySet.has (BitVec.ofFnLE f) q = f q := by
  simp [KeySet.has, BitVec.getLsbD_ofFnLE]

theorem Scanner.has_downKeys (k : Scanner) (q : Fin 24) : KeySet.has k.downKeys q = k.keys[q].state.acceptedDown := by
  rw [Scanner.downKeys, KeySet.has_ofFnLE]

theorem KeySet.ext {a b : KeySet} (h : ∀ q, KeySet.has a q = KeySet.has b q) : a = b := by
  apply BitVec.eq_of_getLsbD_eq
  intro i hi
  exact h ⟨i, hi⟩

theorem KeySet.eq_zero_iff (a : KeySet) : a = 0 ↔ ∀ q, KeySet.has a q = false := by
  constructor
  · rintro rfl q; exact KeySet.has_zero q
  · intro h; apply KeySet.ext; intro q; rw [h, KeySet.has_zero]

theorem Scanner.freeKeysUp_iff (k : Scanner) : k.freeKeysUp = true ↔
    ∀ q : Fin 24, k.keys[q].state.acceptedDown = true → KeySet.has k.stuck q = true := by
  unfold Scanner.freeKeysUp
  rw [beq_iff_eq, KeySet.eq_zero_iff]
  constructor
  · intro h q hq
    have := h q
    rw [← Scanner.has_downKeys] at hq
    simp only [KeySet.has, BitVec.getLsbD_and, BitVec.getLsbD_not] at *
    have hlt := q.isLt
    simp [hlt, hq] at this
    exact this
  · intro h q
    have := h q
    rw [← Scanner.has_downKeys] at this
    simp only [KeySet.has, BitVec.getLsbD_and, BitVec.getLsbD_not] at *
    have hlt := q.isLt
    cases h1 : k.downKeys.getLsbD q <;> simp_all

/-- keys after setLine -/
theorem setLine_key (k : Scanner) (p q : Fin 24) (l : Line) :
    (k.setLine (.key p) l).keys[q] = if q = p then l else k.keys[q] := by
  simp only [Scanner.setLine, Fin.getElem_fin, Vector.getElem_set, Fin.ext_iff, eq_comm]

@[simp] theorem setLine_frame (c : Contact) (l : Line) (k : Scanner) :
    (k.setLine c l).chord = k.chord ∧ (k.setLine c l).union = k.union ∧ (k.setLine c l).strokeTime = k.strokeTime ∧
      (k.setLine c l).stuck = k.stuck ∧ (k.setLine c l).releaseTimer = k.releaseTimer ∧
      (k.setLine c l).durationTimer = k.durationTimer ∧ (k.setLine c l).completed = k.completed := by
  cases c <;> simp [Scanner.setLine]

theorem initial_sound (a : Vector Line 24) (b c : Line) : ScannerSound (Scanner.initial a b c) := by
  constructor <;> simp [Scanner.initial, Line.initial, Debounce.acceptedDown, KeySet.has]

theorem contact_acceptedDown (d : Nat) (b : Bool) (x : Debounce) : (x.contact d b).acceptedDown = x.acceptedDown := by
  cases x <;> cases b <;> rfl

/-- ScannerSound depends on the levels only -/
theorem ScannerSound.congr {k k' : Scanner} (h : ScannerSound k)
    (h1 : ∀ q : Fin 24, k'.keys[q].state.acceptedDown = k.keys[q].state.acceptedDown)
    (h2 : k'.stuck = k.stuck) (h3 : k'.union = k.union) (h4 : k'.chord = k.chord)
    (h5 : k'.releaseTimer.isSome = k.releaseTimer.isSome) (h6 : k'.durationTimer.isSome = k.durationTimer.isSome) : ScannerSound k' := by
  constructor
  · intro p hp; rw [h2, h3]; exact h.downKnown p (by rw [← h1]; exact hp)
  · intro p hp; rw [h1]; exact h.stuckDown p (by rw [← h2]; exact hp)
  · intro hc p hp; rw [h2]; exact h.freeUp (by rw [← h4]; exact hc) p (by rw [← h1]; exact hp)
  · rw [h4, h3]; exact h.idleUnion
  · rw [h5, h4]; exact h.release
  · rw [h6, h4]; exact h.duration

theorem changeContact_sound (c : Contact) (b : Bool) (s : State) (h : ScannerSound s.scanner) :
    ScannerSound (changeContact c b s).scanner := by
  unfold changeContact
  simp only [State.setScanner_scanner]
  cases c with
  | key p =>
    refine h.congr ?_ rfl rfl rfl rfl rfl
    intro q
    rw [setLine_key]
    split
    · subst q
      simp only [Scanner.line]
      split
      · exact contact_acceptedDown _ _ _
      · rfl
    · rfl
  | floor => exact h.congr (fun _ => rfl) rfl rfl rfl rfl rfl
  | mark => exact h.congr (fun _ => rfl) rfl rfl rfl rfl rfl

theorem keyDown_sound (now : Clock) (p : Fin 24) (k : Scanner) (left : Nat) (h : ScannerSound k)
    (hp : k.keys[p].state = .closing left) :
    ScannerSound ((k.setLine (.key p) { k.keys[p] with state := .down }).keyDown now p) := by
  have hnot : KeySet.has k.stuck p = false := by
    by_contra hc
    have := h.stuckDown p (by simpa using hc)
    rw [hp] at this
    simp [Debounce.acceptedDown] at this
  have hkeys : ∀ q : Fin 24, (k.setLine (.key p) { k.keys[p] with state := .down }).keys[q].state.acceptedDown = true →
      q = p ∨ k.keys[q].state.acceptedDown = true := by
    intro q hq
    rw [setLine_key] at hq
    split at hq
    · left; assumption
    · right; exact hq
  have hkeys2 : ∀ q : Fin 24, k.keys[q].state.acceptedDown = true → (k.setLine (.key p) { k.keys[p] with state := .down }).keys[q].state.acceptedDown = true := by
    intro q hq
    rw [setLine_key]
    split
    · rfl
    · exact hq
  unfold Scanner.keyDown
  have e1 : (k.setLine (.key p) { k.keys[p] with state := .down }).stuck = k.stuck := rfl
  have e2 : (k.setLine (.key p) { k.keys[p] with state := .down }).chord = k.chord := rfl
  have e3 : (k.setLine (.key p) { k.keys[p] with state := .down }).union = k.union := rfl
  rw [e1, hnot, e2]
  simp only [Bool.false_eq_true, if_false]
  cases hc : k.chord with
  | idle =>
    constructor
    · intro q hq
      rcases hkeys q hq with rfl | hq'
      · right; simp [KeySet.has_single]
      · have hu := h.idleUnion.1 hc
        rcases h.downKnown q hq' with h1 | h1
        · left; exact h1
        · rw [hu, KeySet.has_zero] at h1; cases h1
    · intro q hq; exact hkeys2 q (h.stuckDown q hq)
    · intro hx; cases hx
    · exact ⟨fun hx => by simp at hx, fun hx => absurd hx (KeySet.single_ne_zero p)⟩
    · have := h.release
      rw [hc] at this
      simp at this ⊢
      exact this
    · simp
  | chording =>
    constructor
    · intro q hq
      rcases hkeys q hq with rfl | hq'
      · right; simp [KeySet.has_add]
      · rcases h.downKnown q hq' with h1 | h1
        · left; exact h1
        · right; show KeySet.has (KeySet.add k.union p) q = true; simp [KeySet.has_add, h1]
    · intro q hq; exact hkeys2 q (h.stuckDown q hq)
    · intro hx; simp [e2, hc] at hx
    · exact ⟨fun hx => by simp [e2, hc] at hx, fun hx => absurd hx (KeySet.add_ne_zero _ p)⟩
    · have := h.release
      rw [hc] at this
      simpa [hc] using this
    · have := h.duration
      rw [hc] at this
      simpa [hc] using this
  | releasing =>
    constructor
    · intro q hq
      rcases hkeys q hq with rfl | hq'
      · right; simp [KeySet.has_add]
      · rcases h.downKnown q hq' with h1 | h1
        · left; exact h1
        · right; show KeySet.has (KeySet.add k.union p) q = true; simp [KeySet.has_add, h1]
    · intro q hq; exact hkeys2 q (h.stuckDown q hq)
    · intro hx; cases hx
    · exact ⟨fun hx => by simp at hx, fun hx => absurd hx (KeySet.add_ne_zero _ p)⟩
    · simp
    · have := h.duration
      rw [hc] at this
      simpa using this

theorem keyUp_sound (p : Fin 24) (k : Scanner) (left : Nat) (h : ScannerSound k)
    (hp : k.keys[p].state = .opening left) :
    ScannerSound ((k.setLine (.key p) { k.keys[p] with state := .up }).keyUp p) := by
  have hkeys : ∀ q : Fin 24, (k.setLine (.key p) { k.keys[p] with state := .up }).keys[q].state.acceptedDown = true ↔
      q ≠ p ∧ k.keys[q].state.acceptedDown = true := by
    intro q
    rw [setLine_key]
    split
    · simp [Debounce.acceptedDown, *]
    · simp [*]
  have hst : ∀ q, KeySet.has (KeySet.remove k.stuck p) q = true ↔ KeySet.has k.stuck q = true ∧ q ≠ p := by
    intro q; simp [KeySet.has_remove]
  have base : ∀ (k1 : Scanner), k1.keys = (k.setLine (.key p) { k.keys[p] with state := .up }).keys → k1.stuck = KeySet.remove k.stuck p →
      k1.union = k.union → (∀ q : Fin 24, k1.keys[q].state.acceptedDown = true → KeySet.has k1.stuck q = true ∨ KeySet.has k1.union q = true)
      ∧ (∀ q : Fin 24, KeySet.has k1.stuck q = true → k1.keys[q].state.acceptedDown = true) := by
    intro k1 hk hs hu
    rw [hk, hs, hu]
    constructor
    · intro q hq
      obtain ⟨hne, hd⟩ := (hkeys q).1 hq
      rcases h.downKnown q hd with h1 | h1
      · left; exact (hst q).2 ⟨h1, hne⟩
      · right; exact h1
    · intro q hq
      obtain ⟨h1, hne⟩ := (hst q).1 hq
      exact (hkeys q).2 ⟨hne, h.stuckDown q h1⟩
  obtain ⟨b1, b2⟩ := base { (k.setLine (.key p) { k.keys[p] with state := .up }) with stuck := KeySet.remove k.stuck p } rfl rfl rfl
  have plain : k.chord ≠ .releasing → ScannerSound { (k.setLine (.key p) { k.keys[p] with state := .up }) with stuck := KeySet.remove k.stuck p } :=
    fun hx => ⟨b1, b2, fun hy => absurd hy hx, h.idleUnion, h.release, h.duration⟩
  unfold Scanner.keyUp
  dsimp only
  split
  · rename_i hc
    exact plain (by rw [show k.chord = .idle from hc]; simp)
  · rename_i hc
    replace hc : k.chord = .chording := hc
    split
    · rename_i hf
      rw [Scanner.freeKeysUp_iff] at hf
      refine ⟨b1, b2, fun _ => hf, ?_, ?_, ?_⟩
      · have := h.idleUnion
        rw [hc] at this
        simpa using this
      · simp
      · have := h.duration
        rw [hc] at this
        simpa using this
    · exact plain (by rw [hc]; simp)
  · rename_i hc
    replace hc : k.chord = .releasing := hc
    refine ⟨b1, b2, ?_, h.idleUnion, h.release, h.duration⟩
    intro hx q hq
    obtain ⟨hne, hd⟩ := (hkeys q).1 hq
    exact (hst q).2 ⟨h.freeUp hc q hd, hne⟩

theorem expireDebounce_sound (c : Contact) (s : State) (h : ScannerSound s.scanner)
    : ScannerSound (expireDebounce c s).scanner := by
  unfold expireDebounce
  split
  · rename_i hs
    cases c with
    | key p => exact keyDown_sound _ p _ 0 h hs
    | floor =>
      simp only [acceptDown, arriveButton_frame, setDebounce, State.setScanner_scanner]
      exact h.congr (fun _ => rfl) rfl rfl rfl rfl rfl
    | mark =>
      simp only [acceptDown, arriveButton_frame, setDebounce, State.setScanner_scanner]
      exact h.congr (fun _ => rfl) rfl rfl rfl rfl rfl
  · rename_i hs
    cases c with
    | key p => exact keyUp_sound p _ 0 h hs
    | floor =>
      simp only [acceptUp, setDebounce, State.setScanner_scanner]
      exact h.congr (fun _ => rfl) rfl rfl rfl rfl rfl
    | mark =>
      simp only [acceptUp, setDebounce, State.setScanner_scanner]
      exact h.congr (fun _ => rfl) rfl rfl rfl rfl rfl
  · exact h

theorem completeStroke_sound (s : State)
    (h1 : ∀ p : Fin 24, s.scanner.keys[p].state.acceptedDown = true → KeySet.has s.scanner.stuck p = true)
    (h2 : ∀ p : Fin 24, KeySet.has s.scanner.stuck p = true → s.scanner.keys[p].state.acceptedDown = true) :
    ScannerSound (completeStroke s).scanner := by
  unfold completeStroke
  constructor <;> simp
  · intro p hp; left; exact h1 p hp
  · exact h2

theorem expireReleaseWindow_sound (s : State) (h : ScannerSound s.scanner)
    : ScannerSound (expireReleaseWindow s).scanner := by
  unfold expireReleaseWindow
  split
  · rename_i hc
    simp at hc
    exact completeStroke_sound s (h.freeUp hc.2) h.stuckDown
  · exact h

@[simp] theorem stickKeys_frame (k : Scanner) : k.stickKeys.keys = k.keys ∧ k.stickKeys.floorLine = k.floorLine ∧
    k.stickKeys.markLine = k.markLine ∧ k.stickKeys.chord = k.chord ∧ k.stickKeys.union = k.union ∧
    k.stickKeys.strokeTime = k.strokeTime ∧ k.stickKeys.releaseTimer = k.releaseTimer ∧
    k.stickKeys.durationTimer = k.durationTimer ∧ k.stickKeys.completed = k.completed := by
  unfold Scanner.stickKeys
  split <;> simp

theorem has_stickKeys (k : Scanner) (p : Fin 24) : KeySet.has k.stickKeys.stuck p =
    (KeySet.has k.stuck p || (k.chord == .chording && (KeySet.has k.union p && k.keys[p].state.acceptedDown))) := by
  unfold Scanner.stickKeys
  split
  · rename_i h
    rw [← Scanner.has_downKeys, h]
    simp [KeySet.has]
  · rename_i h
    simp [h]

theorem keys_eq {k k' : Scanner} (h : k'.keys = k.keys) (p : Fin 24) : k'.keys[p] = k.keys[p] := by
  simp [h]

theorem expireDuration_sound (s : State) (h : ScannerSound s.scanner) : ScannerSound (expireDuration s).scanner := by
  unfold expireDuration
  split
  · rename_i hc
    simp at hc
    apply completeStroke_sound
    · intro p hp
      replace hp : s.scanner.stickKeys.keys[p].state.acceptedDown = true := hp
      rw [keys_eq (stickKeys_frame s.scanner).1 p] at hp
      rw [State.setScanner_scanner, has_stickKeys, hp]
      cases hch : s.scanner.chord with
      | idle => exact absurd hch hc.2
      | chording => rcases h.downKnown p hp with h3 | h3 <;> simp [h3]
      | releasing => simp [h.freeUp hch p hp]
    · intro p hp
      rw [State.setScanner_scanner, has_stickKeys] at hp
      show s.scanner.stickKeys.keys[p].state.acceptedDown = true
      rw [keys_eq (stickKeys_frame s.scanner).1 p]
      simp only [Bool.or_eq_true, Bool.and_eq_true] at hp
      rcases hp with hp | hp
      · exact h.stuckDown p hp
      · exact hp.2.2
  · exact h

theorem Timer.tick_isSome (t : Timer) : (Timer.tick t).isSome = t.isSome := by cases t <;> rfl

theorem debounce_tick (d : Debounce) : d.tick.acceptedDown = d.acceptedDown := by cases d <;> rfl

theorem tick_scanner_sound (s : State) (h : ScannerSound s.scanner) : ScannerSound (tick s).scanner := by
  refine h.congr ?_ rfl rfl rfl (Timer.tick_isSome _) (Timer.tick_isSome _)
  intro q
  simp [tick, Scanner.tick, Line.tick, debounce_tick]

theorem beginWatching_sound (p : Params) (k : Scanner) (h : ScannerSound k) (hc : k.chord = .idle)
    : ScannerSound (k.beginWatching p) := by
  have hk : ∀ q : Fin 24, (k.beginWatching p).keys[q].state.acceptedDown = true ↔ k.keys[q].closed = true := by
    intro q
    simp [Scanner.beginWatching, Line.watch]
    split <;> simp_all [Debounce.acceptedDown]
  have hs : ∀ q : Fin 24, KeySet.has (k.beginWatching p).stuck q = k.keys[q].closed := by
    intro q
    simp only [Scanner.beginWatching, KeySet.has_ofFnLE]
  constructor
  · intro q hq; left; rw [hs]; exact (hk q).1 hq
  · intro q hq; rw [hk]; rw [hs] at hq; exact hq
  · intro hx; simp [Scanner.beginWatching, hc] at hx
  · exact h.idleUnion
  · exact h.release
  · exact h.duration

end Sys2Proof.Machine
end

