-- ==== Sys2Proof/Laws/StrokeCode.lean ====
section
/-! SUPPORT. The stroke code of a set of keys has exactly the bits of its keys (R1). -/

namespace Sys2Proof.Machine
set_option linter.all false

theorem codeSum_getLsbD (u : KeySet) (l : List (Fin 24)) (hl : l.Nodup) (i : Nat) :
    ((l.map fun p => if KeySet.has u p then KeySet.single p else 0).sum).getLsbD i =
      (u.getLsbD i && l.any fun p => decide (p.val = i)) := by
  induction l generalizing i with
  | nil => simp
  | cons p rest ih =>
    have hp : p ∉ rest := (List.nodup_cons.1 hl).1
    have hr := (List.nodup_cons.1 hl).2
    simp only [List.map_cons, List.sum_cons, List.any_cons]
    have hx : ∀ j, (if KeySet.has u p then KeySet.single p else 0).getLsbD j = (u.getLsbD j && decide (p.val = j)) := by
      intro j
      have := p.isLt
      split
      · rename_i h
        simp only [KeySet.has] at h
        by_cases hj : p.val = j
        · subst hj; simp [KeySet.single, BitVec.getLsbD_twoPow, h, this]
        · simp [KeySet.single, BitVec.getLsbD_twoPow, hj]
      · rename_i h
        simp only [KeySet.has] at h
        by_cases hj : p.val = j
        · subst hj; simpa using h
        · simp [hj]
    rw [BitVec.add_eq_or_of_and_eq_zero, BitVec.getLsbD_or, hx, ih hr]
    · cases u.getLsbD i <;> simp
    · apply BitVec.eq_of_getLsbD_eq
      intro j hj
      rw [BitVec.getLsbD_and, hx, ih hr]
      by_cases h : p.val = j
      · subst h
        have : (rest.any fun q => decide (q.val = p.val)) = false := by
          simp only [List.any_eq_false, decide_eq_true_eq]
          intro q hq he
          exact hp (by rwa [← Fin.ext he])
        simp [this]
      · simp [h]

theorem strokeCode_eq (u : KeySet) : strokeCode u = u := by
  apply BitVec.eq_of_getLsbD_eq
  intro i hi
  rw [strokeCode, codeSum_getLsbD u _ (List.nodup_finRange 24)]
  have : ((List.finRange 24).any fun p => decide (p.val = i)) = true := by
    simp only [List.any_eq_true, decide_eq_true_eq]
    exact ⟨⟨i, hi⟩, List.mem_finRange _, rfl⟩
  simp [this]

end Sys2Proof.Machine
end

