-- ==== Sys2Proof/Laws/IntakeSound.lean ====
section
/-! SUPPORT. The intake queue keeps its form, and no completed stroke goes missing (R15 to R19). -/

namespace Sys2Proof.Machine
set_option linter.all false

theorem mapNewest_length (f : Item → Item) (l : List Item) : (mapNewest f l).length = l.length := by
  induction l with
  | nil => rfl
  | cons a r ih => cases r with
    | nil => rfl
    | cons b r => simp [mapNewest] at ih ⊢; exact ih

theorem mapNewest_mem (f : Item → Item) (l : List Item) : ∀ i ∈ mapNewest f l, i ∈ l ∨ ∃ j ∈ l, i = f j := by
  induction l with
  | nil => simp [mapNewest]
  | cons a r ih => cases r with
    | nil => simp [mapNewest]
    | cons b r =>
      intro i hi
      simp only [mapNewest, List.mem_cons] at hi
      rcases hi with rfl | hi
      · simp
      · rcases ih i (by simpa [mapNewest] using hi) with h | ⟨j, hj, h⟩
        · left; exact List.mem_cons_of_mem _ h
        · right; exact ⟨j, List.mem_cons_of_mem _ hj, h⟩

/-- stroke count -/
def isStroke (i : Item) : Bool := match i.kind with | .stroke _ => true | _ => false

theorem strokes_eq (q : Intake) : q.strokes = q.items.countP isStroke := rfl

theorem mapNewest_countP (l : List Item) : (mapNewest Item.raiseGap l).countP isStroke = l.countP isStroke := by
  induction l with
  | nil => rfl
  | cons a r ih => cases r with
    | nil => rcases a with ⟨k, _, _⟩; cases k <;> rfl
    | cons b r =>
      rw [mapNewest, List.countP_cons, List.countP_cons, ih]
      simp

theorem arriveStroke_sound (code : StrokeCode) (t : Clock) (q : Intake) (h : IntakeSound q) (hc : code ≠ 0) :
    IntakeSound (q.arriveStroke code t) := by
  unfold Intake.arriveStroke
  split
  · rename_i hh
    simp only [Config.intakeStrokes, Config.intakeItems] at hh
    constructor
    · simp; omega
    · have := hh.1
      simp only [strokes_eq, List.countP_append, List.countP_singleton, isStroke] at this ⊢
      simp; exact this
    · intro i hi
      simp at hi
      rcases hi with hi | rfl
      · exact h.gaps i hi
      · simp
    · intro i hi c hk
      simp at hi
      rcases hi with hi | rfl
      · exact h.codes i hi c hk
      · simp at hk; subst hk; exact hc
  · constructor
    · simp [mapNewest_length]; exact h.items
    · rw [strokes_eq, mapNewest_countP]; exact h.strokes
    · intro i hi
      rcases mapNewest_mem _ _ i hi with h1 | ⟨j, hj, rfl⟩
      · exact h.gaps i h1
      · simp [Item.raiseGap, saturate]
    · intro i hi c hk
      rcases mapNewest_mem _ _ i hi with h1 | ⟨j, hj, rfl⟩
      · exact h.codes i h1 c hk
      · exact h.codes j hj c hk

theorem arriveButton_sound (kind : ItemKind) (s : State) (h : IntakeSound s.intake) (hk : ∀ c, kind ≠ .stroke c) :
    IntakeSound (arriveButton kind s).intake := by
  unfold arriveButton
  split
  · rename_i hh
    simp only [Config.intakeItems] at hh
    simp only [State.setIntake_intake]
    constructor
    · simp; omega
    · have := h.strokes
      simp only [strokes_eq, List.countP_append, List.countP_singleton] at this ⊢
      have : isStroke { kind := kind, time := s.clock, gap := 0 } = false := by
        unfold isStroke
        cases kind with
        | stroke c => exact absurd rfl (hk c)
        | floor => rfl
        | mark => rfl
      simp [this]; assumption
    · intro i hi
      simp at hi
      rcases hi with hi | rfl
      · exact h.gaps i hi
      · simp
    · intro i hi c hkk
      simp at hi
      rcases hi with hi | rfl
      · exact h.codes i hi c hkk
      · exact absurd hkk (hk c)
  · simp; exact h

theorem take_sound (q : Intake) (i : Item) (rest : List Item) (h : IntakeSound q) (hq : q.items = i :: rest) :
    IntakeSound (q.take i rest) := by
  have hl := h.items
  have hs := h.strokes
  rw [hq] at hl
  rw [strokes_eq, hq, List.countP_cons] at hs
  constructor
  · simp [Intake.take] at hl ⊢; omega
  · simp only [strokes_eq, Intake.take]; split at hs <;> omega
  · intro j hj; exact h.gaps j (by rw [hq]; exact List.mem_cons_of_mem _ hj)
  · intro j hj; exact h.codes j (by rw [hq]; exact List.mem_cons_of_mem _ hj)

theorem completeStroke_intake (s : State) (h : IntakeSound s.intake) (hu : s.scanner.union ≠ 0) :
    IntakeSound (completeStroke s).intake := by
  unfold completeStroke
  simp only [State.setIntake_intake]
  exact arriveStroke_sound _ _ _ h (by rw [strokeCode_eq]; exact hu)

theorem arriveStroke_balance (code : StrokeCode) (t : Clock) (q : Intake) (hs : q.strokes ≤ 30) :
    (q.arriveStroke code t).taken + BitVec.ofNat 32 (q.arriveStroke code t).strokes + (q.arriveStroke code t).lost =
      q.taken + BitVec.ofNat 32 q.strokes + q.lost + 1 := by
  unfold Intake.arriveStroke
  split
  · have : ({ q with items := q.items ++ [{ kind := .stroke code, time := t, gap := 0 }] } : Intake).strokes = q.strokes + 1 := by
      simp [strokes_eq, List.countP_append, isStroke]
    rw [this]
    simp only []
    rw [BitVec.ofNat_add, show BitVec.ofNat 32 1 = 1 from rfl]
    ring
  · have : ({ q with items := mapNewest Item.raiseGap q.items, lost := q.lost + 1 } : Intake).strokes = q.strokes := by
      simp [strokes_eq, mapNewest_countP]
    rw [this]
    simp only []
    ring

theorem completeStroke_balance (s : State) (h : StrokeBalance s) (hi : IntakeSound s.intake)
    : StrokeBalance (completeStroke s) := by
  unfold StrokeBalance completeStroke at *
  simp only [State.setIntake_intake, State.setIntake_scanner, State.setScanner_scanner]
  rw [arriveStroke_balance _ _ _ hi.strokes, h]

theorem take_balance (q : Intake) (i : Item) (rest : List Item) (hq : q.items = i :: rest) :
    (q.take i rest).taken + BitVec.ofNat 32 (q.take i rest).strokes + (q.take i rest).lost =
      q.taken + BitVec.ofNat 32 q.strokes + q.lost := by
  simp only [strokes_eq, hq, List.countP_cons, Intake.take]
  cases hk : i.kind with
  | stroke c => simp [isStroke, hk, BitVec.ofNat_add]; ring
  | floor => simp [isStroke, hk]
  | mark => simp [isStroke, hk]

end Sys2Proof.Machine
end

