-- ==== Sys2Proof/Laws/SeqRun.lean ====
section
/-! SUPPORT. The run of consecutive sequence numbers that ends a feed (R138, R139): its length, members, filters
and cuts. -/

namespace Sys2Proof.Machine
set_option linter.all false

theorem seqRun_zero (N : Seq) : seqRun N 0 = [] := rfl

theorem seqRun_length (N : Seq) (n : Nat) : (seqRun N n).length = n := by simp [seqRun]

theorem seqRun_succ (N : Seq) (n : Nat) : seqRun N (n + 1) = (N - BitVec.ofNat 16 (n + 1)) :: seqRun N n := by
  unfold seqRun
  rw [List.range_succ_eq_map, List.map_cons, List.map_map]
  congr 1
  apply List.map_congr_left
  intro i hi
  simp only [Function.comp, Nat.succ_eq_add_one]
  congr 2
  omega

theorem seqRun_snoc (N : Seq) (n : Nat) : seqRun (N + 1) (n + 1) = seqRun N n ++ [N] := by
  unfold seqRun
  rw [List.range_succ, List.map_append]
  congr 1
  · apply List.map_congr_left
    intro i hi
    rw [List.mem_range] at hi
    rw [show n + 1 - i = (n - i) + 1 by omega, BitVec.ofNat_add]
    generalize BitVec.ofNat 16 (n - i) = x
    bv_omega
  · simp

theorem seqRun_mem (N q : Seq) (n : Nat) (hn : n ≤ 1000) : q ∈ seqRun N n ↔ 1 ≤ (N - q).toNat ∧
    (N - q).toNat ≤ n := by
  unfold seqRun
  simp only [List.mem_map, List.mem_range]
  constructor
  · rintro ⟨i, hi, rfl⟩
    have : n - i ≤ 1000 := by omega
    have h1 : 1 ≤ n - i := by omega
    have h2 : n - i ≤ n := by omega
    generalize n - i = k at *
    bv_omega
  · rintro ⟨h1, h2⟩
    refine ⟨n - (N - q).toNat, by omega, ?_⟩
    have : n - (n - (N - q).toNat) = (N - q).toNat := by omega
    rw [this]
    bv_omega

/-- the run cut at a seq `k` behind its end -/
theorem seqRun_filter (N : Seq) (n k : Nat) (hk : k ≤ n) (hn : n ≤ 1000) :
    (seqRun N n).filter (fun q => seqOlder q (N - BitVec.ofNat 16 k)) = seqRun (N - BitVec.ofNat 16 k) (n - k) := by
  induction n with
  | zero => simp [seqRun]
  | succ n ih =>
    rw [seqRun_succ, List.filter_cons]
    by_cases h : k = n + 1
    · subst h
      have h1 : seqOlder (N - BitVec.ofNat 16 (n + 1)) (N - BitVec.ofNat 16 (n + 1)) = false := by
        simp [seqOlder]
      rw [h1]
      simp only [Bool.false_eq_true, if_false, Nat.sub_self, seqRun_zero]
      rw [List.filter_eq_nil_iff]
      intro q hq
      rw [seqRun_mem _ _ _ (by omega)] at hq
      simp only [seqOlder, decide_eq_true_eq]
      bv_omega
    · have hk' : k ≤ n := by omega
      have h1 : seqOlder (N - BitVec.ofNat 16 (n + 1)) (N - BitVec.ofNat 16 k) = true := by
        simp only [seqOlder, decide_eq_true_eq]
        bv_omega
      rw [h1, if_pos rfl, ih hk' (by omega), show n + 1 - k = (n - k) + 1 by omega, seqRun_succ]
      congr 1
      have : n - k + 1 = n + 1 - k := by omega
      rw [this]
      bv_omega

theorem seqRun_map_range (N : Seq) (n : Nat) (k : Nat) (hk : k ≤ n) :
    (seqRun N n).drop (n - k) = seqRun N k := by
  induction n with
  | zero => have : k = 0 := by omega
            subst this; rfl
  | succ n ih =>
    by_cases h : k = n + 1
    · subst h; simp
    · rw [seqRun_succ, show n + 1 - k = (n - k) + 1 by omega, List.drop_succ_cons]
      exact ih (by omega)

theorem seqRun_take (N : Seq) (n : Nat) (k : Nat) (hk : k ≤ n) :
    (seqRun N n).take (n - k) = seqRun (N - BitVec.ofNat 16 k) (n - k) := by
  induction n with
  | zero => have : k = 0 := by omega
            subst this; rfl
  | succ n ih =>
    by_cases h : k = n + 1
    · subst h; simp [seqRun]
    · rw [seqRun_succ, show n + 1 - k = (n - k) + 1 by omega, List.take_succ_cons, seqRun_succ, ih (by omega)]
      congr 1
      have e : BitVec.ofNat 16 (n + 1) = BitVec.ofNat 16 k + BitVec.ofNat 16 (n - k + 1) := by
        rw [← BitVec.ofNat_add]; congr 1; omega
      rw [e]
      generalize BitVec.ofNat 16 k = a
      generalize BitVec.ofNat 16 (n - k + 1) = b
      bv_omega

end Sys2Proof.Machine
end

