-- ==== Sys2Proof/Laws/FeedPlaces.lean ====
section
/-! SUPPORT. The sixteen places of the outbound queue (R140): every operation of the feed keeps their number,
and keeps a HANDOVER waiting outside the queue only while the queue is full (R142). -/

namespace Sys2Proof.Machine
set_option linter.all false

/-- The queue holds at most sixteen frames, and a HANDOVER waits outside it only when it is full (R140, R142). -/
structure FeedPlaces (f : Feed) : Prop where
  places : f.places ≤ 16
  held : f.held.isSome = true → f.places = 16

theorem liveSeqs_append (a b : List Frame) : liveSeqs (a ++ b) = liveSeqs a ++ liveSeqs b := by simp [liveSeqs]
theorem copySeqs_append (a b : List Frame) : copySeqs (a ++ b) = copySeqs a ++ copySeqs b := by simp [copySeqs]
theorem liveSeqs_cons (a : Frame) (b : List Frame) : liveSeqs (a :: b) = liveSeqs [a] ++ liveSeqs b := by
  rw [← liveSeqs_append]; rfl
theorem copySeqs_cons (a : Frame) (b : List Frame) : copySeqs (a :: b) = copySeqs [a] ++ copySeqs b := by
  rw [← copySeqs_append]; rfl

/-- carries no segment seq -/
def Plain (f : Frame) : Prop := f.segmentSeq = none

theorem Plain.live {f : Frame} (h : Plain f) : liveSeqs [f] = [] := by
  cases f <;> simp_all [Plain, Frame.segmentSeq, liveSeqs]
theorem Plain.copy {f : Frame} (h : Plain f) : copySeqs [f] = [] := by
  cases f <;> simp_all [Plain, Frame.segmentSeq, copySeqs]

theorem liveSeqs_length (a : List Frame) : (liveSeqs a).length ≤ a.length := List.length_filterMap_le _ _

theorem FeedSound.congr {f f' : Feed} {u : Nat} (h : FeedSound f u) (h1 : f'.ring = f.ring)
    (h2 : f'.nextSeq = f.nextSeq)
    (h3 : f'.settled = f.settled) (h4 : f'.wireNext = f.wireNext) (h5 : f'.cursor = f.cursor) (h6 : f'.gap = f.gap)
    (h7 : liveSeqs f'.waiting = liveSeqs f.waiting) (h8 : ∀ q ∈ copySeqs f'.waiting, q ∈ copySeqs f.waiting)
    (h9 : ∀ x, f'.sending = some x → x.withdrawn = false → f.sending = some x)
    (h10 : ∀ q ∈ copySeqs f'.waiting.tail, q ∈ copySeqs f.waiting.tail) (h11 : f'.sending.isSome = true → f.sending.isSome = true) : FeedSound f' u := by
  have ho : f'.oldest = f.oldest := by simp [Feed.oldest, h1]
  refine ⟨?_, ?_, ?_, ?_, ?_, ?_, ?_, ?_, ?_, ?_, ?_, ?_, ?_, ?_⟩
  · rw [h1, h2]; exact h.ring
  · rw [h1]; exact h.ringPlaces
  · rw [h2, h3]; exact h.settled
  · rw [h1]; exact h.settledInRing
  · rw [h7, h2]; exact h.queued
  · rw [h7, h4, h2]; exact h.wire
  · intro q hq; rw [h4]; exact h.copies q (h8 q hq)
  · apply List.eq_nil_iff_forall_not_mem.2
    intro q hq
    have := h10 q hq
    rw [h.copyFirst] at this; cases this
  · intro hne
    obtain ⟨q, hq⟩ := List.exists_mem_of_ne_nil _ hne
    have := h.copyAlone (List.ne_nil_of_mem (h8 q hq))
    cases hs : f'.sending with
    | none => rfl
    | some y => rw [hs, this] at h11; exact absurd (h11 rfl) (by simp)
  · intro x hx hw q hq; rw [h2, h7]; exact h.sendingLive x (h9 x hx hw) hw q hq
  · intro x hx hw q hq; rw [h4]; exact h.sendingCopy x (h9 x hx hw) hw q hq
  · intro c hc; rw [h2, h1]; exact h.cursor c (by rw [← h5]; exact hc)
  · intro g hg; rw [ho, h2]; exact h.gapTo g (by rw [← h6]; exact hg)
  · intro g hg; rw [ho, h5]; exact h.gapCursor g (by rw [← h6]; exact hg)

/-! ## Places -/

theorem join_places (fr : Frame) (f : Feed) (h : FeedPlaces f) : FeedPlaces (f.join fr) := by
  have h1 := h.places
  have h2 := h.held
  unfold Feed.join
  split
  · rename_i hlt
    simp only [Config.queuePlaces] at hlt
    constructor
    · simp [Feed.places] at *; omega
    · intro hh; have := h2 hh; omega
  · exact h

theorem joinHeld_places (f : Feed) (h : f.places ≤ 16) : FeedPlaces f.joinHeld := by
  unfold Feed.joinHeld
  split
  · rename_i hn
    exact ⟨h, by simp [hn]⟩
  · split
    · rename_i hlt
      simp only [Config.queuePlaces] at hlt
      constructor
      · simp [Feed.places] at *; omega
      · simp
    · rename_i hlt
      simp only [Config.queuePlaces] at hlt
      exact ⟨h, fun _ => by omega⟩

theorem withdraw_places (p : Frame → Bool) (f : Feed) (h : f.places ≤ 16) : FeedPlaces (f.withdraw p) := by
  unfold Feed.withdraw
  apply joinHeld_places
  have : (f.waiting.filter fun fr => !p fr).length ≤ f.waiting.length := List.length_filter_le _ _
  simp only [Feed.places, Option.isSome_map] at *
  omega

theorem replaceNewest_length (p : Frame → Bool) (fr : Frame) (l : List Frame)
    : (replaceNewest p fr l).length = l.length := by
  induction l with
  | nil => rfl
  | cons a r ih => unfold replaceNewest; (repeat' split) <;> simp [ih]

/-- The newest frame that satisfies `p` is the one replaced. -/
theorem replaceNewest_split (p : Frame → Bool) (fr old : Frame) (before behind : List Frame) (h : p old = true)
    (hb : ∀ x ∈ behind, p x = false) :
    replaceNewest p fr (before ++ old :: behind) = before ++ fr :: behind := by
  have hn : behind.any p = false := by simpa using hb
  induction before with
  | nil => simp [replaceNewest, hn, h]
  | cons x rest ih => rw [List.cons_append, replaceNewest, ih]; simp [h]

theorem offerPresence_places (f : Feed) (h : FeedPlaces f) : FeedPlaces f.offerPresence := by
  unfold Feed.offerPresence
  split
  · exact join_places _ _ h
  · exact h

theorem offerClaim_places (fr : Frame) (f : Feed) (h : FeedPlaces f) : FeedPlaces (f.offerClaim fr) := by
  unfold Feed.offerClaim
  split
  · exact ⟨by have := h.places; simpa [Feed.places, replaceNewest_length] using this,
      fun hh => by have := h.held hh; simpa [Feed.places, replaceNewest_length] using this⟩
  · exact join_places _ _ h

theorem offerHandover_places (ho : Handover) (f : Feed) (h : FeedPlaces f) : FeedPlaces (f.offerHandover ho) := by
  have h1 := h.places
  have h2 := h.held
  unfold Feed.offerHandover
  split
  · rename_i hh
    exact ⟨h1, fun _ => h2 hh⟩
  · rename_i hh
    split
    · exact ⟨by simpa [Feed.places, replaceNewest_length] using h1,
        fun hh => by simpa [Feed.places, replaceNewest_length] using h2 hh⟩
    · split
      · rename_i hlt
        simp only [Config.queuePlaces] at hlt
        exact ⟨by simp [Feed.places] at *; omega, fun h' => absurd h' hh⟩
      · rename_i hlt
        simp only [Config.queuePlaces] at hlt
        exact ⟨h1, fun _ => by simp [Feed.places] at *; omega⟩

theorem begun_places (p : Presence) (f : Feed) (h : FeedPlaces f) (hs : f.sending = none)
    : FeedPlaces (f.begun p) := by
  have h1 := h.places
  have h2 := h.held
  unfold Feed.begun
  split
  · exact h
  · rename_i head rest hw
    constructor
    · simp [Feed.places, hw, hs] at *; omega
    · intro hh; have := h2 hh; simp [Feed.places, hw, hs] at *; omega

theorem sentWhole_places (f : Feed) (h : f.places ≤ 16) : FeedPlaces f.sentWhole := by
  unfold Feed.sentWhole
  apply joinHeld_places
  simp [Feed.places] at *; omega

theorem handedBack_places (f : Feed) (h : FeedPlaces f) : FeedPlaces f.handedBack := by
  have h1 := h.places
  have h2 := h.held
  unfold Feed.handedBack
  split
  · exact h
  · rename_i x hx
    split
    · apply joinHeld_places
      simp [Feed.places, hx] at *; omega
    · constructor
      · simp [Feed.places, hx] at *; omega
      · intro hh; have := h2 hh; simp [Feed.places, hx] at *; omega

@[simp] theorem push_queue (b : SegmentBody) (t : Clock) (f : Feed) :
    (f.push b t).waiting = f.waiting ∧ (f.push b t).sending = f.sending ∧ (f.push b t).held = f.held ∧
      (f.push b t).nextSeq = f.nextSeq + 1 ∧ (f.push b t).settled = f.settled ∧ (f.push b t).wireNext = f.wireNext ∧
      (f.push b t).tenureEpoch = f.tenureEpoch ∧ (f.push b t).markCounter = f.markCounter := by
  unfold Feed.push
  dsimp only
  split
  · simp
  · split
    · simp
    · split <;> simp

theorem push_places (b : SegmentBody) (t : Clock) (f : Feed) (h : FeedPlaces f) : FeedPlaces (f.push b t) :=
  ⟨by have := h.places; simpa [Feed.places] using this, fun hh => by
    have := h.held (by simpa using hh); simpa [Feed.places] using this⟩

theorem append_places (c : List Byte) (d : Bool) (t : Clock) (f : Feed) (h : FeedPlaces f)
    : FeedPlaces (f.append c d t) :=
  join_places _ _ (push_places _ _ _ h)

theorem appendSettling_places (b : SegmentBody) (t : Clock) (f : Feed) (h : FeedPlaces f)
    : FeedPlaces (f.appendSettling b t) := by
  unfold Feed.appendSettling
  apply join_places
  apply withdraw_places
  have := (push_places b t f h).places
  simpa [Feed.places] using this

theorem settle_places (b : Seq) (f : Feed) (h : FeedPlaces f) : FeedPlaces (f.settle b) := by
  unfold Feed.settle
  dsimp only
  split
  · rename_i e b' hl
    have hne : f.waiting ≠ [] := by intro h; simp [h] at hl
    have hlen : (f.waiting.dropLast ++ [Frame.settle f.epoch b]).length = f.waiting.length := by
      have := List.length_pos_of_ne_nil hne
      simp; omega
    exact ⟨by have := h.places; simp only [Feed.places] at *; rw [hlen]; exact this,
      fun hh => by have := h.held hh; simp only [Feed.places] at *; rw [hlen]; exact this⟩
  · exact join_places _ _ ⟨h.places, h.held⟩

theorem cut_places (q : Seq) (f : Feed) (h : FeedPlaces f) : FeedPlaces (f.cut q) := by
  unfold Feed.cut
  dsimp only
  have h1 := withdraw_places (Frame.cutBy q) f h.places
  have h2 : FeedPlaces { f.withdraw (Frame.cutBy q) with
      ring := (f.withdraw (Frame.cutBy q)).ring.filter (fun e => seqOlder e.seq q), nextSeq := q } := ⟨h1.places, h1.held⟩
  split
  · have := join_places (.cut (Feed.epoch { f.withdraw (Frame.cutBy q) with
      ring := (f.withdraw (Frame.cutBy q)).ring.filter (fun e => seqOlder e.seq q), nextSeq := q }) q) _ h2
    exact ⟨this.places, this.held⟩
  · exact ⟨h1.places, h1.held⟩

theorem rewind_frame (q : Seq) (f : Feed) : (f.rewind q).waiting = f.waiting ∧ (f.rewind q).sending = f.sending ∧
    (f.rewind q).held = f.held ∧ (f.rewind q).ring = f.ring ∧ (f.rewind q).nextSeq = f.nextSeq ∧
    (f.rewind q).settled = f.settled ∧ (f.rewind q).wireNext = f.wireNext ∧ (f.rewind q).tenureEpoch = f.tenureEpoch ∧
    (f.rewind q).markCounter = f.markCounter := by
  unfold Feed.rewind
  dsimp only
  (repeat' split) <;> simp

theorem rewind_places (q : Seq) (f : Feed) (h : FeedPlaces f) : FeedPlaces (f.rewind q) := by
  have hf := rewind_frame q f
  have e : (f.rewind q).places = f.places := by unfold Feed.places; rw [hf.1, hf.2.1]
  exact ⟨by rw [e]; exact h.places, fun hh => by rw [e]; exact h.held (by rw [← hf.2.2.1]; exact hh)⟩

theorem generate_places (f : Feed) (h : FeedPlaces f) : FeedPlaces f.generate := by
  unfold Feed.generate
  split
  · have := join_places (.gap f.epoch ‹GapRun›.fromSeq ‹GapRun›.toSeq) f h
    exact ⟨this.places, this.held⟩
  · split
    · exact h
    · split
      · exact h
      · have := join_places (.segment f.epoch (some (seqOlder ‹Seq› f.settled)) ‹Segment›) f h
        exact ⟨this.places, this.held⟩

theorem openTenure_places (e : Epoch) (n : Seq) (f : Feed) (h : FeedPlaces f)
    : FeedPlaces (f.openTenure e n) := ⟨h.places, h.held⟩
theorem endReplay_places (f : Feed) (h : FeedPlaces f) : FeedPlaces f.endReplay := withdraw_places _ _ h.places
theorem closeTenure_places (f : Feed) (h : FeedPlaces f) : FeedPlaces f.closeTenure := withdraw_places _ _ h.places
theorem mute_places (f : Feed) : FeedPlaces f.mute := ⟨by simp [Feed.mute, Feed.places], by simp [Feed.mute]⟩
theorem unname_places (f : Feed) (h : FeedPlaces f) : FeedPlaces f.unnameHandover := by
  have e : f.unnameHandover.places = f.places := by unfold Feed.places Feed.unnameHandover; simp only [List.length_map]
  exact ⟨by rw [e]; exact h.places, fun hh => by rw [e]; exact h.held (by simpa [Feed.unnameHandover] using hh)⟩

end Sys2Proof.Machine
end

