-- ==== Sys2Proof/Laws/FeedSound.lean ====
section
/-! SUPPORT. The feed keeps its form (`FeedSound`) under every operation that queues, numbers, settles or cuts
(R137 to R148). -/

namespace Sys2Proof.Machine
set_option linter.all false

theorem copySeqs_tail_append (a : List Frame) (fr : Frame) (hf : copySeqs [fr] = []) :
    ∀ q ∈ copySeqs (a ++ [fr]).tail, q ∈ copySeqs a.tail := by
  cases a with
  | nil => intro q hq; cases hq
  | cons x r => intro q hq; simp only [List.cons_append, List.tail_cons, copySeqs_append, hf, List.append_nil] at hq ⊢; exact hq

theorem liveSeqs_filter (p : Frame → Bool) (hp : ∀ f, p f = true → liveSeqs [f] = []) (l : List Frame) :
    liveSeqs (l.filter fun fr => !p fr) = liveSeqs l := by
  induction l with
  | nil => rfl
  | cons a r ih =>
    rw [List.filter_cons]
    split
    · rw [liveSeqs_cons a (List.filter _ _), liveSeqs_cons a r, ih]
    · rename_i h
      rw [ih, liveSeqs_cons a r, hp a (by simpa using h)]
      rfl

theorem copySeqs_filter (p : Frame → Bool) (l : List Frame) :
    ∀ q ∈ copySeqs (l.filter fun fr => !p fr), q ∈ copySeqs l := by
  intro q hq
  simp only [copySeqs, List.mem_filterMap, List.mem_filter] at *
  obtain ⟨f, ⟨h1, _⟩, h2⟩ := hq
  exact ⟨f, h1, h2⟩

theorem copySeqs_filter_tail (p : Frame → Bool) (l : List Frame) :
    ∀ q ∈ copySeqs (l.filter fun fr => !p fr).tail, q ∈ copySeqs l.tail := by
  cases l with
  | nil => intro q hq; cases hq
  | cons a r =>
    intro q hq
    rw [List.filter_cons] at hq
    split at hq
    · exact copySeqs_filter p r q hq
    · apply copySeqs_filter p r q
      cases hr : (r.filter fun fr => !p fr) with
      | nil => rw [hr] at hq; cases hq
      | cons b r' =>
        rw [hr] at hq
        rw [copySeqs_cons]
        exact List.mem_append_right _ hq

theorem marks_sending (p : Frame → Bool) (o : Option Sending) (x : Sending)
    (hx : (o.map fun x => if p x.frame then { x with withdrawn := true } else x) = some x) (hw : x.withdrawn = false) :
    o = some x ∧ p x.frame = false := by
  cases o with
  | none => cases hx
  | some y =>
    simp only [Option.map_some, Option.some.injEq] at hx
    split at hx
    · subst hx; simp at hw
    · subst hx; rename_i h; exact ⟨rfl, by simpa using h⟩

theorem joinHeld_frame (f : Feed) : f.joinHeld.ring = f.ring ∧ f.joinHeld.nextSeq = f.nextSeq ∧
    f.joinHeld.settled = f.settled ∧
    f.joinHeld.wireNext = f.wireNext ∧ f.joinHeld.cursor = f.cursor ∧ f.joinHeld.gap = f.gap ∧ f.joinHeld.sending = f.sending ∧
    f.joinHeld.tenureEpoch = f.tenureEpoch ∧ f.joinHeld.markCounter = f.markCounter ∧
    liveSeqs f.joinHeld.waiting = liveSeqs f.waiting ∧ copySeqs f.joinHeld.waiting = copySeqs f.waiting ∧
    (∀ q ∈ copySeqs f.joinHeld.waiting.tail, q ∈ copySeqs f.waiting.tail) := by
  unfold Feed.joinHeld
  split
  · simp
  · split
    · refine ⟨rfl, rfl, rfl, rfl, rfl, rfl, rfl, rfl, rfl, ?_, ?_, ?_⟩
      · simp [liveSeqs_append]; simp [liveSeqs]
      · simp [copySeqs_append]; simp [copySeqs]
      · exact copySeqs_tail_append _ _ rfl
    · simp

theorem joinHeld_sound {f : Feed} {u : Nat} (h : FeedSound f u) : FeedSound f.joinHeld u := by
  have e := joinHeld_frame f
  exact h.congr e.1 e.2.1 e.2.2.1 e.2.2.2.1 e.2.2.2.2.1 e.2.2.2.2.2.1 (by simp [e]) (by simp [e]) (by
    intro x hx _; rw [← hx]; simp [e]) e.2.2.2.2.2.2.2.2.2.2.2 (by rw [e.2.2.2.2.2.2.1]; exact id)

theorem withdraw_sound {f : Feed} {u : Nat} (h : FeedSound f u) (p : Frame → Bool)
    (hp : ∀ f, p f = true → liveSeqs [f] = []) :
    FeedSound (f.withdraw p) u := by
  unfold Feed.withdraw
  apply joinHeld_sound
  exact h.congr rfl rfl rfl rfl rfl rfl (liveSeqs_filter p hp _) (copySeqs_filter p _) (by
    intro x hx hw
    exact (marks_sending p _ x hx hw).1) (copySeqs_filter_tail p _) (by simp)

theorem join_sound {f : Feed} {u : Nat} (h : FeedSound f u) (fr : Frame) (hf : Plain fr)
    : FeedSound (f.join fr) u := by
  unfold Feed.join
  split
  · exact h.congr rfl rfl rfl rfl rfl rfl (by simp [liveSeqs_append, hf.live]) (by simp [copySeqs_append, hf.copy]) (by
      intro x hx _; exact hx) (copySeqs_tail_append _ _ hf.copy) id
  · exact h

theorem replaceNewest_seqs (p : Frame → Bool) (fr : Frame) (hf : Plain fr) (hp : ∀ f, p f = true → Plain f)
    (l : List Frame) :
    liveSeqs (replaceNewest p fr l) = liveSeqs l ∧ copySeqs (replaceNewest p fr l) = copySeqs l := by
  induction l with
  | nil => exact ⟨rfl, rfl⟩
  | cons a r ih =>
    unfold replaceNewest
    split
    · constructor
      · rw [liveSeqs_cons a (replaceNewest _ _ _), liveSeqs_cons a r, ih.1]
      · rw [copySeqs_cons a (replaceNewest _ _ _), copySeqs_cons a r, ih.2]
    · split
      · rename_i h
        constructor
        · rw [liveSeqs_cons fr, liveSeqs_cons a, hf.live, (hp a h).live]
        · rw [copySeqs_cons fr, copySeqs_cons a, hf.copy, (hp a h).copy]
      · exact ⟨rfl, rfl⟩

theorem replaceNewest_tail (p : Frame → Bool) (fr : Frame) (hf : Plain fr) (hp : ∀ f, p f = true → Plain f)
    (l : List Frame) :
    ∀ q ∈ copySeqs (replaceNewest p fr l).tail, q ∈ copySeqs l.tail := by
  cases l with
  | nil => intro q hq; cases hq
  | cons a r =>
    intro q hq
    unfold replaceNewest at hq
    split at hq
    · simp only [List.tail_cons] at hq ⊢
      rw [← (replaceNewest_seqs p fr hf hp r).2]; exact hq
    · split at hq <;> exact hq

theorem isClaim_plain (f : Frame) (h : f.isClaim = true)
    : Plain f := by cases f <;> simp_all [Frame.isClaim, Plain, Frame.segmentSeq]
theorem isHandover_plain (f : Frame) (h : f.isHandover = true)
    : Plain f := by cases f <;> simp_all [Frame.isHandover, Plain, Frame.segmentSeq]

theorem offerPresence_sound {f : Feed} {u : Nat} (h : FeedSound f u) : FeedSound f.offerPresence u := by
  unfold Feed.offerPresence
  split
  · exact join_sound h _ rfl
  · exact h

theorem offerClaim_sound {f : Feed} {u : Nat} (h : FeedSound f u) (fr : Frame) (hf : Plain fr)
    : FeedSound (f.offerClaim fr) u := by
  unfold Feed.offerClaim
  split
  · have e := replaceNewest_seqs Frame.isClaim fr hf isClaim_plain f.waiting
    exact h.congr rfl rfl rfl rfl rfl rfl e.1 (by intro q hq; rw [← e.2]; exact hq) (fun _ hx _ => hx) (replaceNewest_tail _ _ hf isClaim_plain _) id
  · exact join_sound h _ hf

theorem offerHandover_sound {f : Feed} {u : Nat} (h : FeedSound f u) (ho : Handover)
    : FeedSound (f.offerHandover ho) u := by
  unfold Feed.offerHandover
  split
  · exact h.congr rfl rfl rfl rfl rfl rfl rfl (fun _ hq => hq) (fun _ hx _ => hx) (fun _ hq => hq) id
  · split
    · have e := replaceNewest_seqs Frame.isHandover (.handover ho) rfl isHandover_plain f.waiting
      exact h.congr rfl rfl rfl rfl rfl rfl e.1 (by intro q hq; rw [← e.2]; exact hq) (fun _ hx _ => hx) (replaceNewest_tail Frame.isHandover (.handover ho) rfl isHandover_plain _) id
    · split
      · exact h.congr rfl rfl rfl rfl rfl rfl (by simp [liveSeqs_append]; rfl) (by simp [copySeqs_append]; simp [copySeqs]) (fun _ hx _ => hx) (copySeqs_tail_append _ _ rfl) id
      · exact h.congr rfl rfl rfl rfl rfl rfl rfl (fun _ hq => hq) (fun _ hx _ => hx) (fun _ hq => hq) id

theorem unname_seqs (e : Epoch) (l : List Frame) : liveSeqs (l.map (Frame.unname e)) = liveSeqs l ∧
    copySeqs (l.map (Frame.unname e)) = copySeqs l := by
  induction l with
  | nil => exact ⟨rfl, rfl⟩
  | cons a r ih =>
    rw [List.map_cons, liveSeqs_cons, liveSeqs_cons a, copySeqs_cons, copySeqs_cons a, ih.1, ih.2]
    cases a <;> simp [Frame.unname]
    rename_i h
    split <;> simp [liveSeqs, copySeqs]

theorem unname_sound {f : Feed} {u : Nat} (h : FeedSound f u) : FeedSound f.unnameHandover u := by
  have e := unname_seqs (f.epoch + 1) f.waiting
  refine h.congr rfl rfl rfl rfl rfl rfl e.1 (by intro q hq; rw [← e.2]; exact hq) (fun _ hx _ => hx) ?_ id
  intro q hq
  have e2 := (unname_seqs (f.epoch + 1) f.waiting.tail).2
  rw [← e2]
  simpa [Feed.unnameHandover, List.map_tail] using hq

theorem endReplay_sound {f : Feed} {u : Nat} (h : FeedSound f u) : FeedSound f.endReplay u := by
  unfold Feed.endReplay
  apply withdraw_sound
  · refine ⟨h.ring, h.ringPlaces, h.settled, h.settledInRing, h.queued, h.wire, h.copies, h.copyFirst, h.copyAlone, h.sendingLive, h.sendingCopy, ?_, ?_, ?_⟩ <;> simp
  · intro f hf
    cases f <;> simp_all [Frame.isReplay, liveSeqs]
    rename_i c _
    cases c <;> simp_all

theorem openTenure_sound (e : Epoch) (n : Seq) (f : Feed) (h1 : liveSeqs f.waiting = [])
    (h2 : copySeqs f.waiting = [])
    (h3 : ∀ x, f.sending = some x → x.frame.ofTenure = true → x.frame.isHandover = false → x.withdrawn = true) :
    FeedSound (f.openTenure e n) 0 := by
  unfold Feed.openTenure
  have h4 : copySeqs f.waiting.tail = [] := by
    cases hw : f.waiting with
    | nil => rfl
    | cons a r => rw [hw, copySeqs_cons] at h2; exact (List.append_eq_nil_iff.1 h2).2
  refine ⟨?_, ?_, ?_, ?_, ?_, ?_, ?_, ?_, ?_, ?_, ?_, ?_, ?_, ?_⟩ <;> simp [h1, h2, h4, seqRun, Feed.oldest]
  · intro x hx hw q hq
    have : x.withdrawn = true := h3 x hx (by cases hf : x.frame <;> simp_all [liveSeqs, Frame.ofTenure]) (by
      cases hf : x.frame <;> simp_all [liveSeqs, Frame.isHandover])
    simp [hw] at this
  · intro x hx hw q hq
    have : x.withdrawn = true := h3 x hx (by cases hf : x.frame <;> simp_all [copySeqs, Frame.ofTenure]) (by
      cases hf : x.frame <;> simp_all [copySeqs, Frame.isHandover])
    simp [hw] at this

/-- a request that appends a segment, its live frame joining -/
theorem pushed_sound (f : Feed) (u : Nat) (h : FeedSound f u) (hu : u < 128) (b : SegmentBody) (t : Clock) :
    let f' := f.push b t
    f'.ring.map Segment.seq = seqRun f'.nextSeq f'.ring.length ∧ f'.ring.length ≤ 128 ∧ u + 1 ≤ f'.ring.length ∧ 1 ≤ f'.ring.length ∧
    (∀ c, f'.cursor = some c → 1 ≤ (f'.nextSeq - c).toNat ∧ (f'.nextSeq - c).toNat ≤ f'.ring.length) ∧
    (∀ g, f'.gap = some g → g.toSeq = f'.oldest.getD f'.nextSeq) ∧ (∀ g, f'.gap = some g → f'.cursor = f'.oldest) := by
  dsimp only
  have hr := h.ring
  have hp := h.ringPlaces
  have hs := h.settledInRing
  cases hring : f.ring with
  | nil =>
    have e : f.push b t = { f with
        ring := [{ seq := f.nextSeq, body := b, time := t }]
        nextSeq := f.nextSeq + 1
        cursor := if f.gap.isSome then some f.nextSeq else f.cursor } := by
      simp [Feed.push, hring]
    rw [e]
    rw [hring] at hs hr hp
    refine ⟨?_, by simp, by simp at hs ⊢; omega, by simp, ?_, ?_, ?_⟩
    · simp only [List.map_cons, List.map_nil, List.length_singleton]
      rw [show (1 : Nat) = 0 + 1 from rfl, seqRun_snoc]; rfl
    · intro c hc
      simp only at hc ⊢
      split at hc
      · cases hc; simp
      · have := h.cursor c hc; rw [hring] at this; simp at this; omega
    · intro g hg
      have := h.gapTo g hg
      simp [Feed.oldest, hring] at this ⊢
      exact this
    · intro g hg
      replace hg : f.gap = some g := hg
      simp [Feed.oldest, hg]
  | cons d rest =>
    rw [hring] at hr hp hs
    by_cases hlen : (d :: rest).length < 128
    · have e : f.push b t = { f with ring := f.ring ++ [{ seq := f.nextSeq, body := b, time := t }], nextSeq := f.nextSeq + 1 } := by
        simp only [Feed.push, hring, Config.ringPlaces]
        rw [if_pos hlen]
      rw [e, hring]
      refine ⟨?_, by simp at hlen ⊢; omega, by simp at hs ⊢; omega, by simp, ?_, ?_, ?_⟩
      · simp only [List.map_append, hr, List.map_cons, List.map_nil, List.length_append, List.length_singleton]
        rw [← seqRun_snoc]
        try simp at hr ⊢
      · intro c hc
        have := h.cursor c hc
        rw [hring] at this
        simp only [List.length_append, List.length_cons, List.length_nil] at this hlen ⊢
        generalize rest.length = L at *
        bv_omega
      · intro g hg
        have := h.gapTo g hg
        simp [Feed.oldest, hring] at this ⊢
        exact this
      · intro g hg
        have := h.gapCursor g hg
        simp [Feed.oldest, hring] at this ⊢
        exact this
    · have hl : (d :: rest).length = 128 := by omega
      have hrest : rest.length = 127 := by simpa using hl
      have hr' : (rest ++ [({ seq := f.nextSeq, body := b, time := t } : Segment)]).map Segment.seq = seqRun (f.nextSeq + 1) 128 := by
        rw [hl, seqRun_succ, List.map_cons] at hr
        have := (List.cons.inj hr).2
        rw [List.map_append, this, show (128 : Nat) = 127 + 1 from rfl, seqRun_snoc]; rfl
      have hd : d.seq = f.nextSeq - BitVec.ofNat 16 128 := by
        rw [hl, seqRun_succ, List.map_cons] at hr
        exact (List.cons.inj hr).1
      have hold : (rest ++ [({ seq := f.nextSeq, body := b, time := t } : Segment)]).head?.map Segment.seq =
          some (f.nextSeq + 1 - BitVec.ofNat 16 128) := by
        rw [← List.head?_map, hr', seqRun_succ]; rfl
      by_cases hc : f.cursor = some d.seq
      · have e : f.push b t = { f with
            ring := rest ++ [{ seq := f.nextSeq, body := b, time := t }]
            nextSeq := f.nextSeq + 1
            cursor := some (f.nextSeq + 1 - BitVec.ofNat 16 128)
            gap := some { fromSeq := (f.gap.map GapRun.fromSeq).getD d.seq, toSeq := f.nextSeq + 1 - BitVec.ofNat 16 128 } } := by
          simp only [Feed.push, hring, Config.ringPlaces]
          rw [if_neg hlen, if_pos hc, hold]
          rfl
        rw [e]
        refine ⟨?_, by simp [hrest], by simp [hrest]; omega, by simp, ?_, ?_, ?_⟩
        · simp only [List.length_append, hrest, List.length_singleton]; exact hr'
        · intro c hc'
          simp only [Option.some.injEq] at hc'
          subst hc'
          simp only [List.length_append, hrest, List.length_singleton]
          bv_omega
        · intro g hg
          simp only [Option.some.injEq] at hg
          subst hg
          simp only [Feed.oldest, hold]; rfl
        · intro g hg
          simp only [Feed.oldest, hold]
      · have e : f.push b t = { f with ring := rest ++ [{ seq := f.nextSeq, body := b, time := t }], nextSeq := f.nextSeq + 1 } := by
          simp only [Feed.push, hring, Config.ringPlaces]
          rw [if_neg hlen, if_neg hc]
        rw [e]
        have hgap : ∀ g, f.gap = some g → False := by
          intro g hg
          have := h.gapCursor g hg
          rw [Feed.oldest, hring] at this
          exact hc this
        refine ⟨?_, by simp [hrest], by simp [hrest]; omega, by simp, ?_, ?_, ?_⟩
        · simp only [List.length_append, hrest, List.length_singleton]; exact hr'
        · intro c hc'
          have h1 := h.cursor c hc'
          have h2 : c ≠ d.seq := by intro he; exact hc (by rw [← he]; exact hc')
          rw [hd] at h2
          rw [hring, hl] at h1
          simp only [List.length_append, hrest, List.length_singleton]
          bv_omega
        · intro g hg; exact absurd hg (fun hg => hgap g hg)
        · intro g hg; exact absurd hg (fun hg => hgap g hg)

theorem grown_sound {f g : Feed} {u v : Nat} (h : FeedSound f u) (b : SegmentBody) (t : Clock) (w : List Frame)
    (e : Epoch) (hu : u < 128)
    (hring : g.ring = (f.push b t).ring) (hcursor : g.cursor = (f.push b t).cursor) (hgap : g.gap = (f.push b t).gap)
    (hN : g.nextSeq = f.nextSeq + 1) (hW : g.wireNext = f.wireNext) (hwait : g.waiting = w ++ [.segment e none { seq := f.nextSeq, body := b, time := t }])
    (hl : liveSeqs w = liveSeqs f.waiting) (hc : ∀ q ∈ copySeqs w, q ∈ copySeqs f.waiting)
    (hx : ∀ x, g.sending = some x → x.withdrawn = false → f.sending = some x) (hxs : g.sending.isSome = true → f.sending.isSome = true)
    (hct : ∀ q ∈ copySeqs w.tail, q ∈ copySeqs f.waiting.tail)
    (hS : g.settled = g.nextSeq - BitVec.ofNat 16 v) (hv : v ≤ u + 1) : FeedSound g v := by
  obtain ⟨p1, p2, p3, p3', p4, p5, p6⟩ := pushed_sound f u h hu b t
  have hN' : (f.push b t).nextSeq = f.nextSeq + 1 := (push_queue _ _ _).2.2.2.1
  have hlive : liveSeqs g.waiting = liveSeqs f.waiting ++ [f.nextSeq] := by
    rw [hwait, liveSeqs_append, hl]; rfl
  have hcopy : copySeqs g.waiting = copySeqs w := by
    rw [hwait, copySeqs_append]; simp [copySeqs]
  have ho : g.oldest = (f.push b t).oldest := by simp only [Feed.oldest, hring]
  refine ⟨?_, ?_, hS, ?_, ?_, ?_, ?_, ?_, ?_, ?_, ?_, ?_, ?_, ?_⟩
  · rw [hring, hN, ← hN']; exact p1
  · rw [hring]; exact p2
  · rw [hring]; omega
  · rw [hlive, hN, List.length_append, List.length_singleton, seqRun_snoc, ← h.queued]
  · obtain ⟨n, hn, hw⟩ := h.wire
    refine ⟨n + 1, by rw [hlive]; simp; omega, ?_⟩
    rw [hW, hN, hw, BitVec.ofNat_add]
    generalize BitVec.ofNat 16 n = x
    bv_omega
  · rw [hcopy, hW]; intro q hq; exact h.copies q (hc q hq)
  · apply List.eq_nil_iff_forall_not_mem.2
    intro q hq
    rw [hwait] at hq
    have := hct q (copySeqs_tail_append _ _ rfl q hq)
    rw [h.copyFirst] at this; cases this
  · intro hne
    obtain ⟨q, hq⟩ := List.exists_mem_of_ne_nil _ hne
    rw [hcopy] at hq
    have := h.copyAlone (List.ne_nil_of_mem (hc q hq))
    cases hs : g.sending with
    | none => rfl
    | some y => rw [hs, this] at hxs; exact absurd (hxs rfl) (by simp)
  · intro x hx' hw q hq
    have := h.sendingLive x (hx x hx' hw) hw q hq
    rw [this, hlive, hN, List.length_append, List.length_singleton, BitVec.ofNat_add _ 1]
    generalize BitVec.ofNat 16 ((liveSeqs f.waiting).length + 1) = y
    bv_omega
  · intro x hx' hw q hq
    rw [hW]
    exact h.sendingCopy x (hx x hx' hw) hw q hq
  · rw [hcursor, hring, hN, ← hN']; exact p4
  · rw [hgap, ho, hN, ← hN']; exact p5
  · rw [hgap, ho, hcursor]; exact p6

theorem push_places_eq (b : SegmentBody) (t : Clock) (f : Feed) : (f.push b t).places = f.places := by
  have := push_queue b t f
  unfold Feed.places; rw [this.1, this.2.1]

theorem append_sound {f : Feed} {u : Nat} (h : FeedSound f u) (hu : u < 128) (hp : f.places < 16) (c : List Byte)
    (d : Bool) (t : Clock) :
    FeedSound (f.append c d t) (u + 1) := by
  have e : f.append c d t = { f.push (.text c d) t with
      waiting := f.waiting ++ [.segment (f.push (.text c d) t).epoch none { seq := f.nextSeq, body := .text c d, time := t }] } := by
    unfold Feed.append Feed.joinSegment Feed.join
    rw [push_places_eq, if_pos (by simpa [Config.queuePlaces] using hp), (push_queue _ _ _).1]
  rw [e]
  refine grown_sound h (.text c d) t f.waiting _ hu rfl rfl rfl (by simp) (by simp) rfl rfl (fun _ hq => hq) (by simp only [push_queue]; exact fun x hx _ => hx) (by simp) (fun _ hq => hq) ?_ (Nat.le_refl _)
  simp only [push_queue]
  rw [h.settled, BitVec.ofNat_add]
  generalize BitVec.ofNat 16 u = x
  bv_omega

theorem withdraw_noHeld_of_room (p : Frame → Bool) (f : Feed) (hh : f.held = none) : f.withdraw p =
    { f with
      waiting := f.waiting.filter fun fr => !p fr
      sending := f.sending.map fun x => if p x.frame then { x with withdrawn := true } else x } := by
  unfold Feed.withdraw Feed.joinHeld
  simp [hh]

theorem noHeld_of_room {f : Feed} (h : FeedPlaces f) (hp : f.places < 16) : f.held = none := by
  have := h.held
  cases hh : f.held with
  | none => rfl
  | some x => rw [hh] at this; have := this rfl; omega

theorem isSettle_plain (f : Frame) (h : f.isSettle = true)
    : Plain f := by cases f <;> simp_all [Frame.isSettle, Plain, Frame.segmentSeq]

theorem appendSettling_sound {f : Feed} {u : Nat} (h : FeedSound f u) (hu : u < 128) (hq : FeedPlaces f)
    (hp : f.places < 16)
    (b : SegmentBody) (t : Clock) : FeedSound (f.appendSettling b t) 0 := by
  have hh := noHeld_of_room hq hp
  unfold Feed.appendSettling
  dsimp only
  rw [withdraw_noHeld_of_room _ _ (by simpa using hh)]
  unfold Feed.joinSegment Feed.join
  have hpl : Feed.places { (f.push b t) with
      settled := (f.push b t).nextSeq
      waiting := (f.push b t).waiting.filter fun fr => !fr.isSettle
      sending := (f.push b t).sending.map fun x => if x.frame.isSettle then { x with withdrawn := true } else x } < Config.queuePlaces := by
    have h1 : (f.waiting.filter fun fr => !fr.isSettle).length ≤ f.waiting.length := List.length_filter_le _ _
    simp only [Feed.places, push_queue, Option.isSome_map, Config.queuePlaces] at *
    omega
  rw [if_pos hpl]
  refine grown_sound h b t (f.waiting.filter fun fr => !fr.isSettle) _ hu rfl rfl rfl (by simp) (by simp) (by simp; rfl)
    (liveSeqs_filter _ (fun f hf => (isSettle_plain f hf).live) _) (copySeqs_filter _ _) ?_ (by simp) (copySeqs_filter_tail _ _) (by simp) (by omega)
  intro x hx hw
  simp only [push_queue] at hx
  exact (marks_sending _ _ x hx hw).1

theorem settle_sound {f : Feed} {u k : Nat} (h : FeedSound f u) (hk : k ≤ u) :
    FeedSound (f.settle (f.nextSeq - BitVec.ofNat 16 k)) k := by
  have h' : FeedSound { f with settled := f.nextSeq - BitVec.ofNat 16 k } k :=
    ⟨h.ring, h.ringPlaces, rfl, Nat.le_trans hk h.settledInRing, h.queued, h.wire, h.copies, h.copyFirst, h.copyAlone, h.sendingLive, h.sendingCopy, h.cursor, h.gapTo, h.gapCursor⟩
  unfold Feed.settle
  dsimp only
  split
  · rename_i e b' hl
    have hd : f.waiting = f.waiting.dropLast ++ [.settle e b'] := by
      have hne : f.waiting ≠ [] := by intro h; simp [h] at hl
      rw [List.getLast?_eq_some_getLast hne] at hl
      simp only [Option.some.injEq] at hl
      rw [← hl]; exact (List.dropLast_append_getLast hne).symm
    have e1 : liveSeqs f.waiting = liveSeqs f.waiting.dropLast := by
      conv => lhs; rw [hd, liveSeqs_append]
      simp [liveSeqs]
    have e2 : copySeqs f.waiting = copySeqs f.waiting.dropLast := by
      conv => lhs; rw [hd, copySeqs_append]
      simp [copySeqs]
    refine h'.congr rfl rfl rfl rfl rfl rfl ?_ ?_ (fun _ hx _ => hx) ?_ id
    · simp only [liveSeqs_append, e1]; simp [liveSeqs]
    · simp only [copySeqs_append, e2]; simp [copySeqs]
    · intro q hq
      have h1 := copySeqs_tail_append _ _ rfl q hq
      show q ∈ copySeqs f.waiting.tail
      rw [hd]
      cases hdl : f.waiting.dropLast with
      | nil => rw [hdl] at h1; cases h1
      | cons a r =>
        rw [hdl] at h1
        simp only [List.tail_cons, List.cons_append, copySeqs_append, List.mem_append] at h1 ⊢
        exact Or.inl h1
  · exact join_sound h' _ rfl

theorem cutBy_live {fr : Frame} {q s : Seq} (hq : q ∈ liveSeqs [fr]) (h : fr.cutBy s = false)
    : seqOlder q s = true := by
  cases fr <;> simp_all [liveSeqs, Frame.cutBy, Frame.segmentSeq]
  rename_i cp sg
  cases cp <;> simp_all

theorem cutBy_copy {fr : Frame} {q s : Seq} (hq : q ∈ copySeqs [fr]) (h : fr.cutBy s = false)
    : seqOlder q s = true := by
  cases fr <;> simp_all [copySeqs, Frame.cutBy, Frame.segmentSeq]
  rename_i cp sg
  cases cp <;> simp_all

set_option maxHeartbeats 2000000 in
theorem cut_sound {f : Feed} {u k : Nat} (h : FeedSound f u) (hk : k ≤ u) (hk1 : 1 ≤ k) (hq : FeedPlaces f)
    (hp : f.places < 16) :
    FeedSound (f.cut (f.nextSeq - BitVec.ofNat 16 k)) (u - k) ∧ (f.cut (f.nextSeq - BitVec.ofNat 16 k)).nextSeq = f.nextSeq - BitVec.ofNat 16 k := by
  have hh := noHeld_of_room hq hp
  have hur := h.settledInRing
  have hrl := h.ringPlaces
  generalize hs : f.nextSeq - BitVec.ofNat 16 k = s
  unfold Feed.cut
  dsimp only
  rw [withdraw_noHeld_of_room _ _ hh]
  -- the ring
  have hring : (f.ring.filter fun e => seqOlder e.seq s).map Segment.seq = seqRun s (f.ring.length - k) := by
    have := seqRun_filter f.nextSeq f.ring.length k (by omega) (by omega)
    rw [hs, ← h.ring, List.filter_map] at this
    exact this
  have hringl : (f.ring.filter fun e => seqOlder e.seq s).length = f.ring.length - k := by
    have := congrArg List.length hring
    simpa [seqRun_length] using this
  -- the waiting frames
  have hfl : ∀ l : List Frame, liveSeqs (l.filter fun fr => !fr.cutBy s) = (liveSeqs l).filter fun q => seqOlder q s := by
    intro l
    induction l with
    | nil => rfl
    | cons a r ih =>
      rw [List.filter_cons, liveSeqs_cons a r, List.filter_append, ← ih]
      split
      · rename_i ha
        rw [liveSeqs_cons]
        congr 1
        cases a <;> simp_all [liveSeqs, Frame.cutBy, Frame.segmentSeq]
        rename_i cp sg
        cases cp <;> simp_all
      · rename_i ha
        have : List.filter (fun q => seqOlder q s) (liveSeqs [a]) = [] := by
          cases a <;> simp_all [liveSeqs, Frame.cutBy, Frame.segmentSeq]
          rename_i cp sg
          cases cp <;> simp_all
        rw [this]; rfl
  have hfc : ∀ q ∈ copySeqs (f.waiting.filter fun fr => !fr.cutBy s), q ∈ copySeqs f.waiting ∧ seqOlder q s = true := by
    intro q hq
    simp only [copySeqs, List.mem_filterMap, List.mem_filter] at hq ⊢
    obtain ⟨fr, ⟨h1, h2⟩, h3⟩ := hq
    refine ⟨⟨fr, h1, h3⟩, ?_⟩
    cases fr <;> simp_all [Frame.cutBy, Frame.segmentSeq]
    rename_i cp sg
    cases cp <;> simp_all
  have hll : (liveSeqs f.waiting).length ≤ 16 := Nat.le_trans (liveSeqs_length _) (by have := hq.places; simp only [Feed.places] at this; omega)
  generalize hL : (liveSeqs f.waiting).length = L at hll
  have hlive : liveSeqs (f.waiting.filter fun fr => !fr.cutBy s) = seqRun s (L - k) := by
    rw [hfl, h.queued, hL]
    by_cases hkL : k ≤ L
    · rw [← hs]; exact seqRun_filter _ _ _ hkL (by omega)
    · rw [show L - k = 0 by omega, seqRun_zero, List.filter_eq_nil_iff]
      intro q hq
      rw [seqRun_mem _ _ _ (by omega)] at hq
      simp only [seqOlder, decide_eq_true_eq]
      bv_omega
  obtain ⟨n, hn, hw⟩ := h.wire
  rw [hL] at hn
  have hlivel : (liveSeqs (f.waiting.filter fun fr => !fr.cutBy s)).length = L - k := by rw [hlive, seqRun_length]
  -- common parts, for any wire next
  have common : ∀ g : Feed, g.ring = (f.ring.filter fun e => seqOlder e.seq s) → g.nextSeq = s → g.settled = f.settled →
      g.cursor = cutCursor s f.cursor → g.gap = f.gap → liveSeqs g.waiting = seqRun s (L - k) →
      (∀ q ∈ copySeqs g.waiting, q ∈ copySeqs f.waiting ∧ seqOlder q s = true) →
      g.sending = (f.sending.map fun x => if x.frame.cutBy s then { x with withdrawn := true } else x) →
      (∀ q ∈ copySeqs g.waiting.tail, q ∈ copySeqs f.waiting.tail) →
      (∃ m, m ≤ L - k ∧ g.wireNext = s - BitVec.ofNat 16 m) → (g.wireNext = f.wireNext ∨ g.wireNext = s ∧ seqOlder s f.wireNext = true) →
      FeedSound g (u - k) := by
    intro g g1 g2 g3 g4 g5 g6 g7 g8 gt g9 g10
    have g6l : (liveSeqs g.waiting).length = L - k := by rw [g6, seqRun_length]
    have hmark : ∀ x, g.sending = some x → x.withdrawn = false → f.sending = some x ∧ x.frame.cutBy s = false := by
      intro x hx hw'
      rw [g8] at hx
      exact marks_sending _ _ x hx hw'
    have hcopyBound : ∀ q : Seq, 1 ≤ (f.wireNext - q).toNat ∧ (f.wireNext - q).toNat ≤ 128 → seqOlder q s = true →
        1 ≤ (g.wireNext - q).toNat ∧ (g.wireNext - q).toNat ≤ 128 := by
      intro q hb hold
      rcases g10 with g10 | ⟨g10, hold'⟩
      · rw [g10]; exact hb
      · rw [g10]
        simp only [seqOlder, decide_eq_true_eq] at hold hold'
        bv_omega
    refine ⟨?_, ?_, ?_, ?_, ?_, ?_, ?_, ?_, ?_, ?_, ?_, ?_, ?_, ?_⟩
    · rw [g1, g2, hring, hringl]
    · rw [g1, hringl]; omega
    · rw [g3, g2, h.settled, ← hs]
      have : BitVec.ofNat 16 u = BitVec.ofNat 16 k + BitVec.ofNat 16 (u - k) := by rw [← BitVec.ofNat_add]; congr 1; omega
      rw [this]
      generalize BitVec.ofNat 16 k = a
      generalize BitVec.ofNat 16 (u - k) = b
      bv_omega
    · rw [g1, hringl]; omega
    · rw [g6l, g6, g2]
    · obtain ⟨m, hm, hm'⟩ := g9
      exact ⟨m, by rw [g6l]; exact hm, by rw [hm', g2]⟩
    · intro q hq
      obtain ⟨h1, h2⟩ := g7 q hq
      exact hcopyBound q (h.copies q h1) h2
    · apply List.eq_nil_iff_forall_not_mem.2
      intro q hq
      have := gt q hq
      rw [h.copyFirst] at this; cases this
    · intro hne
      obtain ⟨q, hq⟩ := List.exists_mem_of_ne_nil _ hne
      have := h.copyAlone (List.ne_nil_of_mem (g7 q hq).1)
      rw [g8, this]; rfl
    · intro x hx hw' q hq
      obtain ⟨h1, h2⟩ := hmark x hx hw'
      have hqq := h.sendingLive x h1 hw' q hq
      have : seqOlder q s = true := cutBy_live hq h2
      rw [hL] at hqq
      rw [g6l, g2]
      simp only [seqOlder, decide_eq_true_eq] at this
      have hkL : k ≤ L := by
        by_contra hc
        rw [hqq, ← hs] at this
        bv_omega
      rw [hqq, ← hs]
      have e : BitVec.ofNat 16 (L + 1) = BitVec.ofNat 16 k + BitVec.ofNat 16 (L - k + 1) := by rw [← BitVec.ofNat_add]; congr 1; omega
      rw [e]
      generalize BitVec.ofNat 16 k = a
      generalize BitVec.ofNat 16 (L - k + 1) = b
      bv_omega
    · intro x hx hw' q hq
      obtain ⟨h1, h2⟩ := hmark x hx hw'
      have : seqOlder q s = true := cutBy_copy hq h2
      exact hcopyBound q (h.sendingCopy x h1 hw' q hq) this
    · intro c hc
      rw [g4] at hc
      unfold cutCursor at hc
      split at hc
      · rename_i k' hk'
        split at hc
        · rename_i hnew
          cases hc
          have := h.cursor c hk'
          rw [g1, g2, hringl]
          simp only [seqNewer, seqOlder, decide_eq_true_eq] at hnew
          rw [← hs] at hnew ⊢
          bv_omega
        · cases hc
      · cases hc
    · intro gg hgg
      rw [g5] at hgg
      have h1 := h.gapTo gg hgg
      rw [g2]
      rw [h1]
      by_cases hke : k = f.ring.length
      · have hnil : g.ring = [] := by rw [g1]; apply List.length_eq_zero_iff.1; rw [hringl]; omega
        simp only [Feed.oldest, hnil]
        have : f.ring.head?.map Segment.seq = some s := by
          rw [← List.head?_map, h.ring, ← hke]
          obtain ⟨k0, rfl⟩ : ∃ k0, k = k0 + 1 := ⟨k - 1, by omega⟩
          rw [seqRun_succ]; simp [hs]
        rw [this]; rfl
      · obtain ⟨r, hr⟩ : ∃ r, f.ring.length = r + 1 := ⟨f.ring.length - 1, by omega⟩
        have e1 : f.ring.head?.map Segment.seq = some (f.nextSeq - BitVec.ofNat 16 (r + 1)) := by
          rw [← List.head?_map, h.ring, hr, seqRun_succ]; rfl
        have e2 : g.ring.head?.map Segment.seq = some (f.nextSeq - BitVec.ofNat 16 (r + 1)) := by
          rw [g1, ← List.head?_map, hring]
          obtain ⟨r2, hr2⟩ : ∃ r2, f.ring.length - k = r2 + 1 := ⟨f.ring.length - k - 1, by omega⟩
          rw [hr2, seqRun_succ, ← hs]
          simp only [List.head?_cons, Option.some.injEq]
          have : BitVec.ofNat 16 (r + 1) = BitVec.ofNat 16 k + BitVec.ofNat 16 (r2 + 1) := by rw [← BitVec.ofNat_add]; congr 1; omega
          rw [this]
          generalize BitVec.ofNat 16 k = a
          generalize BitVec.ofNat 16 (r2 + 1) = b
          bv_omega
        simp only [Feed.oldest, e1, e2]; rfl
    · intro gg hgg
      rw [g5] at hgg
      have h1 := h.gapCursor gg hgg
      rw [g4, h1]
      by_cases hke : k = f.ring.length
      · have hnil : g.ring = [] := by rw [g1]; apply List.length_eq_zero_iff.1; rw [hringl]; omega
        have : f.ring.head?.map Segment.seq = some s := by
          rw [← List.head?_map, h.ring, ← hke]
          obtain ⟨k0, rfl⟩ : ∃ k0, k = k0 + 1 := ⟨k - 1, by omega⟩
          rw [seqRun_succ]; simp [hs]
        simp only [Feed.oldest, hnil, this, cutCursor]
        simp [seqNewer, seqOlder]
      · obtain ⟨r, hr⟩ : ∃ r, f.ring.length = r + 1 := ⟨f.ring.length - 1, by omega⟩
        have e1 : f.ring.head?.map Segment.seq = some (f.nextSeq - BitVec.ofNat 16 (r + 1)) := by
          rw [← List.head?_map, h.ring, hr, seqRun_succ]; rfl
        have e2 : g.ring.head?.map Segment.seq = some (f.nextSeq - BitVec.ofNat 16 (r + 1)) := by
          rw [g1, ← List.head?_map, hring]
          obtain ⟨r2, hr2⟩ : ∃ r2, f.ring.length - k = r2 + 1 := ⟨f.ring.length - k - 1, by omega⟩
          rw [hr2, seqRun_succ, ← hs]
          simp only [List.head?_cons, Option.some.injEq]
          have : BitVec.ofNat 16 (r + 1) = BitVec.ofNat 16 k + BitVec.ofNat 16 (r2 + 1) := by rw [← BitVec.ofNat_add]; congr 1; omega
          rw [this]
          generalize BitVec.ofNat 16 k = a
          generalize BitVec.ofNat 16 (r2 + 1) = b
          bv_omega
        simp only [Feed.oldest, e1, e2, cutCursor]
        have : seqNewer s (f.nextSeq - BitVec.ofNat 16 (r + 1)) = true := by
          simp only [seqNewer, seqOlder, decide_eq_true_eq, ← hs]
          bv_omega
        rw [this]; rfl
  have hfree : ∀ (W : Seq), Feed.places { f with
      waiting := f.waiting.filter fun fr => !fr.cutBy s
      sending := f.sending.map fun x => if x.frame.cutBy s then { x with withdrawn := true } else x
      ring := f.ring.filter fun e => seqOlder e.seq s, nextSeq := s } < Config.queuePlaces := by
    intro W
    have h1 : (f.waiting.filter fun fr => !fr.cutBy s).length ≤ f.waiting.length := List.length_filter_le _ _
    simp only [Feed.places, Option.isSome_map, Config.queuePlaces] at *
    omega
  by_cases hold : seqOlder s f.wireNext = true
  · simp only [hold, if_true]
    unfold Feed.join
    rw [if_pos (hfree s)]
    refine ⟨common _ rfl rfl rfl rfl rfl ?_ ?_ rfl ?_ ⟨0, by omega, by simp⟩ (Or.inr ⟨rfl, hold⟩), rfl⟩
    · simp only [liveSeqs_append, hlive]; simp [liveSeqs]
    · intro q hq
      simp only [copySeqs_append, List.mem_append] at hq
      rcases hq with hq | hq
      · exact hfc q hq
      · simp [copySeqs] at hq
    · intro q hq
      exact copySeqs_filter_tail _ _ q (copySeqs_tail_append _ _ rfl q hq)
  · simp only [hold, Bool.false_eq_true, if_false]
    refine ⟨common _ rfl rfl rfl rfl rfl hlive hfc rfl (copySeqs_filter_tail _ _) ⟨n - k, by omega, ?_⟩ (Or.inl rfl), trivial⟩
    simp only [hw]
    have hkn : k ≤ n := by
      by_contra hc
      apply hold
      simp only [seqOlder, decide_eq_true_eq, hw, ← hs]
      bv_omega
    rw [← hs]
    have : BitVec.ofNat 16 n = BitVec.ofNat 16 k + BitVec.ofNat 16 (n - k) := by rw [← BitVec.ofNat_add]; congr 1; omega
    rw [this]
    generalize BitVec.ofNat 16 k = a
    generalize BitVec.ofNat 16 (n - k) = b
    bv_omega

end Sys2Proof.Machine
end

