-- ==== Sys2Proof/Laws/FeedReplay.lean ====
section
/-! SUPPORT. The feed keeps its form under sending, handing back, rewinding and the generation of replay copies
(R141, R149 to R151). -/

namespace Sys2Proof.Machine
set_option linter.all false

theorem sentWhole_sound {f : Feed} {u : Nat} (h : FeedSound f u) : FeedSound f.sentWhole u := by
  unfold Feed.sentWhole
  apply joinHeld_sound
  exact h.congr rfl rfl rfl rfl rfl rfl rfl (fun _ hq => hq) (fun x hx _ => by cases hx) (fun _ hq => hq) (by simp)

theorem segment_seqs (f : Frame) (hf : liveSeqs [f] ≠ [] ∨ copySeqs [f] ≠ []) : ∃ e c sg, f = .segment e c sg := by
  cases f <;> simp_all [liveSeqs, copySeqs]

theorem frame_cases (f : Frame)
    : Plain f ∨ (∃ e sg, f = .segment e none sg) ∨ (∃ e b sg, f = .segment e (some b) sg) := by
  cases f with
  | segment e c sg => cases c with
    | none => right; left; exact ⟨e, sg, rfl⟩
    | some b => right; right; exact ⟨e, b, sg, rfl⟩
  | _ => left; rfl

theorem handedBack_sound {f : Feed} {u : Nat} (h : FeedSound f u) (hl : f.waiting.length ≤ 16)
    : FeedSound f.handedBack u := by
  unfold Feed.handedBack
  split
  · exact h
  · rename_i x hx
    split
    · apply joinHeld_sound
      exact h.congr rfl rfl rfl rfl rfl rfl rfl (fun _ hq => hq) (fun x hx _ => by cases hx) (fun _ hq => hq) (by simp)
    · rename_i hw
      have hw' : x.withdrawn = false := by simpa using hw
      have hwc : copySeqs f.waiting = [] := by
        by_contra hc
        have := h.copyAlone hc
        rw [hx] at this; cases this
      rcases frame_cases x.frame with hp | ⟨e, sg, hf⟩ | ⟨e, b, sg, hf⟩
      · exact h.congr rfl rfl rfl rfl rfl rfl (by simp only []; rw [liveSeqs_cons, hp.live]; rfl)
          (by simp only []; rw [copySeqs_cons, hp.copy]; exact fun _ hq => hq) (fun x hx _ => by cases hx)
          (by intro q hq; exact absurd hq (by rw [show copySeqs (x.frame :: f.waiting).tail = [] from hwc]; simp)) (by simp)
      · have hq := h.sendingLive x hx hw' sg.seq (by rw [hf]; simp [liveSeqs])
        have hlive : liveSeqs (x.frame :: f.waiting) = sg.seq :: liveSeqs f.waiting := by rw [hf]; simp [liveSeqs]
        have hcopy : copySeqs (x.frame :: f.waiting) = copySeqs f.waiting := by rw [hf]; simp [copySeqs]
        refine ⟨h.ring, h.ringPlaces, h.settled, h.settledInRing, ?_, ?_, ?_, hwc, fun _ => rfl, by simp, by simp, h.cursor, h.gapTo, h.gapCursor⟩
        · simp only [hlive, List.length_cons]
          rw [seqRun_succ, ← h.queued, hq]
        · obtain ⟨n, hn, hW⟩ := h.wire
          exact ⟨n, by simp only [hlive, List.length_cons]; omega, hW⟩
        · simp only [hcopy]; exact h.copies
      · have hq := h.sendingCopy x hx hw' sg.seq (by rw [hf]; simp [copySeqs])
        have hlive : liveSeqs (x.frame :: f.waiting) = liveSeqs f.waiting := by rw [hf]; simp [liveSeqs]
        have hcopy : copySeqs (x.frame :: f.waiting) = sg.seq :: copySeqs f.waiting := by rw [hf]; simp [copySeqs]
        refine ⟨h.ring, h.ringPlaces, h.settled, h.settledInRing, ?_, ?_, ?_, hwc, fun _ => rfl, by simp, by simp, h.cursor, h.gapTo, h.gapCursor⟩
        · simp only [hlive]; exact h.queued
        · simp only [hlive]; exact h.wire
        · simp only [hcopy, List.mem_cons]
          rintro q (rfl | hq')
          · exact hq
          · exact h.copies q hq'

theorem begun_rest {f : Feed} {u : Nat} (h : FeedSound f u) {head : Frame} {rest : List Frame}
    (hw : f.waiting = head :: rest) :
    copySeqs rest = [] ∧ copySeqs rest.tail = [] := by
  have h1 : copySeqs rest = [] := by have := h.copyFirst; rw [hw] at this; exact this
  refine ⟨h1, ?_⟩
  cases rest with
  | nil => rfl
  | cons a r => rw [copySeqs_cons] at h1; exact (List.append_eq_nil_iff.1 h1).2

theorem begun_plain {f : Feed} {u : Nat} (h : FeedSound f u) (head fr : Frame) (rest : List Frame)
    (hw : f.waiting = head :: rest)
    (hp : Plain head) (hf : Plain fr) : FeedSound { f with waiting := rest, sending := some { frame := fr, withdrawn := false } } u := by
  have hl : liveSeqs rest = liveSeqs f.waiting := by rw [hw, liveSeqs_cons, hp.live]; rfl
  obtain ⟨r1, r2⟩ := begun_rest h hw
  refine ⟨h.ring, h.ringPlaces, h.settled, h.settledInRing, ?_, ?_, by simp [r1], by simp [r2], by simp [r1], ?_, ?_, h.cursor, h.gapTo, h.gapCursor⟩
  · simp only [hl]; exact h.queued
  · simp only [hl]; exact h.wire
  · intro x hx _ q hq
    cases hx
    rw [hf.live] at hq; cases hq
  · intro x hx _ q hq
    cases hx
    rw [hf.copy] at hq; cases hq

theorem begun_sound {f : Feed} {u : Nat} (h : FeedSound f u) (p : Presence) (hl : f.waiting.length ≤ 16)
    : FeedSound (f.begun p) u := by
  unfold Feed.begun
  split
  · exact h
  · rename_i head rest hw
    have hL := liveSeqs_length f.waiting
    obtain ⟨r1, r2⟩ := begun_rest h hw
    cases head with
    | segment e c sg =>
      simp only [Frame.segmentSeq]
      cases c with
      | none =>
        have hlive : liveSeqs f.waiting = sg.seq :: liveSeqs rest := by rw [hw]; simp [liveSeqs]
        have hqd := h.queued
        obtain ⟨n, hn, hW⟩ := h.wire
        rw [hlive, List.length_cons] at hqd hn hL
        rw [seqRun_succ] at hqd
        obtain ⟨hq, hqd⟩ := List.cons.inj hqd
        generalize hk : (liveSeqs rest).length = k at *
        have hnew : ∃ m, m ≤ k ∧ (if seqNewer (sg.seq + 1) f.wireNext then sg.seq + 1 else f.wireNext) = f.nextSeq - BitVec.ofNat 16 m := by
          split
          · refine ⟨k, Nat.le_refl _, ?_⟩
            rw [hq, BitVec.ofNat_add]
            generalize BitVec.ofNat 16 k = a
            bv_omega
          · rename_i hx
            refine ⟨n, ?_, hW⟩
            by_contra hc
            apply hx
            have : n = k + 1 := by omega
            subst this
            simp only [seqNewer, seqOlder, decide_eq_true_eq, hW, hq]
            bv_omega
        obtain ⟨m, hm, hWm⟩ := hnew
        refine ⟨h.ring, h.ringPlaces, h.settled, h.settledInRing, ?_, ?_, by simp [r1], by simp [r2], by simp [r1], ?_, ?_, h.cursor, h.gapTo, h.gapCursor⟩
        · simp only [hk]; exact hqd
        · exact ⟨m, by simp only [hk]; exact hm, hWm⟩
        · intro x hx _ q hq'
          cases hx
          simp [liveSeqs] at hq'
          simp only [hk, hq']
          exact hq
        · intro x hx _ q hq'
          cases hx
          simp [copySeqs] at hq'
      | some b =>
        have hlive : liveSeqs f.waiting = liveSeqs rest := by rw [hw]; simp [liveSeqs]
        have hcopy : copySeqs f.waiting = sg.seq :: copySeqs rest := by rw [hw]; simp [copySeqs]
        have hb := h.copies sg.seq (by rw [hcopy]; simp)
        have hno : seqNewer (sg.seq + 1) f.wireNext = false := by
          simp only [seqNewer, seqOlder, decide_eq_false_iff_not]
          bv_omega
        rw [hno]
        refine ⟨h.ring, h.ringPlaces, h.settled, h.settledInRing, ?_, ?_, by simp [r1], by simp [r2], by simp [r1], ?_, ?_, h.cursor, h.gapTo, h.gapCursor⟩
        · simp only [← hlive]; exact h.queued
        · simp only [← hlive]; exact h.wire
        · intro x hx _ q hq'
          cases hx
          simp [liveSeqs] at hq'
        · intro x hx _ q hq'
          cases hx
          simp [copySeqs] at hq'
          rw [hq']; exact hb
    | presence o => exact begun_plain h _ _ rest hw rfl rfl
    | handover _ => exact begun_plain h _ _ rest hw rfl rfl
    | claim _ _ => exact begun_plain h _ _ rest hw rfl rfl
    | cut _ _ => exact begun_plain h _ _ rest hw rfl rfl
    | settle _ _ => exact begun_plain h _ _ rest hw rfl rfl
    | rewind _ => exact begun_plain h _ _ rest hw rfl rfl
    | gap _ _ _ => exact begun_plain h _ _ rest hw rfl rfl

theorem oldest_eq {f : Feed} {u : Nat} (h : FeedSound f u)
    : f.oldest = if f.ring.length = 0 then none else some (f.nextSeq - BitVec.ofNat 16 f.ring.length) := by
  unfold Feed.oldest
  rw [← List.head?_map, h.ring]
  cases hl : f.ring.length with
  | zero => rfl
  | succ n => rw [seqRun_succ]; rfl

theorem rewind_sound {f : Feed} {u : Nat} (h : FeedSound f u) (s : Seq) : FeedSound (f.rewind s) u := by
  have ho := oldest_eq h
  have hp := h.ringPlaces
  unfold Feed.rewind
  split
  · exact h
  · rename_i hold
    have hold' : seqOlder s f.nextSeq = true := by simpa using hold
    dsimp only
    split
    · rename_i hn
      have hr : f.ring.length = 0 := by by_contra hc; rw [hn, if_neg hc] at ho; cases ho
      refine ⟨h.ring, h.ringPlaces, h.settled, h.settledInRing, h.queued, h.wire, h.copies, h.copyFirst, h.copyAlone, h.sendingLive, h.sendingCopy, by simp, ?_, ?_⟩
      · intro g hg; simp only [Option.some.injEq] at hg; subst hg
        simp only [Feed.oldest] at hn ⊢; rw [hn]; rfl
      · intro g hg; simp only [Feed.oldest] at hn ⊢; rw [hn]
    · rename_i oldest hn
      have hr : f.ring.length ≠ 0 := by intro hc; rw [hn, if_pos hc] at ho; cases ho
      rw [hn, if_neg hr] at ho
      have ho : oldest = f.nextSeq - BitVec.ofNat 16 f.ring.length := by simpa using ho
      split
      · refine ⟨h.ring, h.ringPlaces, h.settled, h.settledInRing, h.queued, h.wire, h.copies, h.copyFirst, h.copyAlone, h.sendingLive, h.sendingCopy, ?_, ?_, ?_⟩
        · intro c hc; simp only [Option.some.injEq] at hc; subst hc
          simp only [ho]
          generalize f.ring.length = L at *
          bv_omega
        · intro g hg; simp only [Option.some.injEq] at hg; subst hg
          simp only [Feed.oldest] at hn ⊢; rw [hn]; rfl
        · intro g hg; simp only [Feed.oldest] at hn ⊢; rw [hn]
      · rename_i hno
        have hin : 1 ≤ (f.nextSeq - s).toNat ∧ (f.nextSeq - s).toNat ≤ f.ring.length := by
          simp only [seqOlder, decide_eq_true_eq, ho] at hno hold'
          generalize f.ring.length = L at *
          bv_omega
        have hset : (∀ g, f.gap = some g → some s = f.oldest) → FeedSound { f with cursor := some s } u := by
          intro hg'
          refine ⟨h.ring, h.ringPlaces, h.settled, h.settledInRing, h.queued, h.wire, h.copies, h.copyFirst, h.copyAlone, h.sendingLive, h.sendingCopy, ?_, h.gapTo, ?_⟩
          · intro c hc; simp only [Option.some.injEq] at hc; subst hc; exact hin
          · intro g hg; exact hg' g hg
        split
        · rename_i k hk
          split
          · rename_i hnew
            apply hset
            intro g hg
            have h1 := h.gapCursor g hg
            rw [hk, hn] at h1
            exfalso
            have h1 : k = oldest := by simpa using h1
            simp only [seqNewer, seqOlder, decide_eq_true_eq] at hnew
            rw [h1, ho] at hnew
            generalize f.ring.length = L at *
            bv_omega
          · exact h
        · rename_i hk
          apply hset
          intro g hg
          have h1 := h.gapCursor g hg
          rw [hk, hn] at h1; cases h1

theorem queueEmpty_iff (f : Feed) : f.queueEmpty = true ↔ f.waiting = [] ∧ f.sending = none := by
  simp [Feed.queueEmpty]

theorem generate_sound {f : Feed} {u : Nat} (h : FeedSound f u) (he : f.queueEmpty = true)
    : FeedSound f.generate u := by
  obtain ⟨hw, hs⟩ := (queueEmpty_iff f).1 he
  have hp := h.ringPlaces
  unfold Feed.generate
  split
  · rename_i g hg
    have := join_sound h (.gap f.epoch g.fromSeq g.toSeq) rfl
    exact ⟨this.ring, this.ringPlaces, this.settled, this.settledInRing, this.queued, this.wire, this.copies, this.copyFirst, this.copyAlone, this.sendingLive, this.sendingCopy, this.cursor, by simp, by simp⟩
  · rename_i hg
    split
    · exact h
    · rename_i c hc
      split
      · exact h
      · rename_i e hfind
        have hes : e.seq = c := by simpa using List.find?_some hfind
        have hb := h.cursor c hc
        have hwire : f.wireNext = f.nextSeq := by
          obtain ⟨n, hn, hW⟩ := h.wire
          rw [hw] at hn
          have : n = 0 := by simpa [liveSeqs] using hn
          rw [hW, this]; simp
        unfold Feed.join
        have hpl : f.places < Config.queuePlaces := by simp [Feed.places, hw, hs, Config.queuePlaces]
        rw [if_pos hpl]
        have e1 : f.waiting ++ [Frame.segment f.epoch (some (seqOlder c f.settled)) e] = [Frame.segment f.epoch (some (seqOlder c f.settled)) e] := by rw [hw]; rfl
        refine ⟨h.ring, h.ringPlaces, h.settled, h.settledInRing, ?_, ?_, ?_, ?_, ?_, ?_, ?_, ?_, ?_, ?_⟩
        · simp only [e1]; simp [liveSeqs, seqRun]
        · exact ⟨0, by simp, by simp only [hwire]; simp⟩
        · simp only [e1]
          intro q hq
          simp [copySeqs] at hq
          rw [hq, hes, hwire]
          exact ⟨hb.1, by omega⟩
        · simp only [e1]; rfl
        · intro _; exact hs
        · intro x hx; rw [hs] at hx; cases hx
        · intro x hx; rw [hs] at hx; cases hx
        · intro c' hc'
          simp only at hc' ⊢
          split at hc'
          · cases hc'
          · simp only [Option.some.injEq] at hc'
            subst hc'
            rename_i hne
            generalize f.ring.length = L at *
            bv_omega
        · simp only [hg]; simp
        · simp only [hg]; simp

end Sys2Proof.Machine
end

