-- ==== Sys2Proof/Laws/Hub.lean ====
section
/-! SUPPORT. The joint form of the floor state, the translation engine and the feed: what each of them says of the
others (R63 to R66, R138, R152 to R155), kept by every operation that touches two of them. -/

namespace Sys2Proof.Machine
set_option linter.all false

/-- In LIVE: the tail's seqs end the feed, but hold none before the settle on entry. -/
def OpenForm (e : Engine) (f : Feed) : Prop :=
  (e.settleOnEntry = false → e.tail.map Record.seq = (seqRun f.nextSeq e.tail.length).map some ∧ FeedSound f e.tail.length)
    ∧ (e.settleOnEntry = true → (∀ r ∈ e.tail, r.seq = none) ∧ FeedSound f 0)

/-- Outside LIVE: no stroke of the tail is linked to a segment, and the feed holds nothing unsettled. -/
def ClosedForm (e : Engine) (f : Feed) : Prop :=
  (∀ r ∈ e.tail, r.seq = none) ∧ FeedSound f 0

/-- The joint form of floor state, engine and feed. -/
structure Hub (st : FloorState) (e : Engine) (f : Feed) : Prop where
  tailLen : e.tail.length ≤ 24
  places : FeedPlaces f
  full : e.fullSettle = true → e.step = none
  shadowSeqs : st.inTenure = false → ∀ r ∈ e.tail, r.seq = none
  outside : st.inTenure = false → f.ring = [] ∧ f.cursor = none ∧ f.gap = none ∧ ∀ x ∈ f.waiting, x.ofTenure = true → x.isHandover = true
  handing : st = .handing → f.cursor = none ∧ f.gap = none ∧ ∀ x ∈ f.waiting, x.isReplay = false
  handingSent : st = .handing → ∀ x, f.sending = some x → x.frame.isReplay = true → x.withdrawn = true
  outsideSent : st.inTenure = false → ∀ x, f.sending = some x → x.frame.ofTenure = true → x.frame.isHandover = false → x.withdrawn = true
  mute : st = .mute → f.waiting = [] ∧ f.sending = none ∧ f.held = none
  live : st = .live → OpenForm e f
  handFull : st = .handing → e.fullSettle = true → OpenForm e f
  hand : st = .handing → e.fullSettle = false → ClosedForm e f
  shadowStep : e.step.isSome = true → e.mode = .live → st = .live ∧ e.settleOnEntry = false
  liveStep : e.step.isSome = true → st = .live → e.settleOnEntry = false → e.mode = .live
  room : e.step.isSome = true → e.mode = .live → 3 ≤ f.free

/-- What holds of the engine besides, when no work is due at a boundary. -/
structure HubDone (st : FloorState) (e : Engine) : Prop where
  entry : e.settleOnEntry = true → e.step.isSome = true
  full : e.fullSettle = false
  muteTail : st = .mute → e.step = none → e.tail = []

/-- A frame of the tenure that waits outside LIVE can only be a HANDOVER. -/
def Loose (x : Frame) : Prop := x.ofTenure = true → x.isHandover = true

theorem Loose.noReplay {x : Frame} (h : Loose x) : x.isReplay = false := by
  cases x <;> simp_all [Loose, Frame.ofTenure, Frame.isHandover, Frame.isReplay]

theorem OpenForm.feed {e : Engine} {f g : Feed} (h : OpenForm e f) (hn : g.nextSeq = f.nextSeq)
    (hs : ∀ u, FeedSound f u → FeedSound g u) : OpenForm e g :=
  ⟨fun he => ⟨by rw [hn]; exact (h.1 he).1, hs _ (h.1 he).2⟩, fun he => ⟨(h.2 he).1, hs _ (h.2 he).2⟩⟩

theorem Hub.feed {st : FloorState} {e : Engine} {f g : Feed} (h : Hub st e f) (hp : FeedPlaces g)
    (hn : g.nextSeq = f.nextSeq)
    (hs : st.inTenure = true → ∀ u, FeedSound f u → FeedSound g u) (hr : g.ring = f.ring) (hc : g.cursor = f.cursor) (hg : g.gap = f.gap)
    (hw : ∀ x ∈ g.waiting, x ∈ f.waiting ∨ Loose x ∨ ∃ y, f.sending = some y ∧ y.withdrawn = false ∧ y.frame = x)
    (hd : ∀ x, g.sending = some x → (∃ y, f.sending = some y ∧ y.frame = x.frame ∧ (y.withdrawn = true → x.withdrawn = true)) ∨ x.frame ∈ f.waiting ∨ Loose x.frame)
    (hm : st = .mute → g.waiting = [] ∧ g.sending = none ∧ g.held = none)
    (ho : e.step.isSome = true → e.mode = .live → 3 ≤ g.free) : Hub st e g := by
  refine ⟨h.tailLen, hp, h.full, h.shadowSeqs, ?_, ?_, ?_, ?_, hm, ?_, ?_, ?_, h.shadowStep, h.liveStep, ho⟩
  · intro hst
    obtain ⟨h1, h2, h3, h4⟩ := h.outside hst
    refine ⟨hr.trans h1, hc.trans h2, hg.trans h3, ?_⟩
    intro x hx ht
    rcases hw x hx with hx | hx | ⟨y, hy, hyw, rfl⟩
    · exact h4 x hx ht
    · exact hx ht
    · by_contra hh
      have := h.outsideSent hst y hy ht (by simpa using hh)
      rw [hyw] at this; cases this
  · intro hst
    obtain ⟨h1, h2, h3⟩ := h.handing hst
    refine ⟨hc.trans h1, hg.trans h2, ?_⟩
    intro x hx
    rcases hw x hx with hx | hx | ⟨y, hy, hyw, rfl⟩
    · exact h3 x hx
    · exact hx.noReplay
    · by_contra hh
      have := h.handingSent hst y hy (by simpa using hh)
      rw [hyw] at this; cases this
  · intro hst x hx hrp
    rcases hd x hx with ⟨y, hy, hyf, hyw⟩ | hx' | hx'
    · exact hyw (h.handingSent hst y hy (by rw [hyf]; exact hrp))
    · have := (h.handing hst).2.2 _ hx'
      rw [this] at hrp; cases hrp
    · have := hx'.noReplay
      rw [this] at hrp; cases hrp
  · intro hst x hx ht hh
    rcases hd x hx with ⟨y, hy, hyf, hyw⟩ | hx' | hx'
    · exact hyw (h.outsideSent hst y hy (by rw [hyf]; exact ht) (by rw [hyf]; exact hh))
    · have := (h.outside hst).2.2.2 _ hx' ht
      rw [this] at hh; cases hh
    · have := hx' ht
      rw [this] at hh; cases hh
  · intro hst; exact (h.live hst).feed hn (hs (by rw [hst]; rfl))
  · intro hst hf; exact (h.handFull hst hf).feed hn (hs (by rw [hst]; rfl))
  · intro hst hf; exact ⟨(h.hand hst hf).1, hs (by rw [hst]; rfl) _ (h.hand hst hf).2⟩

/-! ## Frames of the queue operations -/

theorem replaceNewest_mem (p : Frame → Bool) (fr : Frame) (l : List Frame)
    : ∀ x ∈ replaceNewest p fr l, x ∈ l ∨ x = fr := by
  induction l with
  | nil => simp [replaceNewest]
  | cons a r ih =>
    intro x hx
    unfold replaceNewest at hx
    (repeat' split at hx) <;> simp only [List.mem_cons] at hx ⊢
    · rcases hx with rfl | hx
      · exact Or.inl (Or.inl rfl)
      · exact (ih x hx).imp Or.inr id
    · rcases hx with rfl | hx
      · exact Or.inr rfl
      · exact Or.inl (Or.inr hx)
    · exact Or.inl hx

/-- what an offer or a join leaves -/
structure QueueStep (f g : Feed) (ok : Frame → Prop) : Prop where
  next : g.nextSeq = f.nextSeq
  settled : g.settled = f.settled
  epoch : g.tenureEpoch = f.tenureEpoch
  ring : g.ring = f.ring
  cursor : g.cursor = f.cursor
  gap : g.gap = f.gap
  sending : g.sending = f.sending
  waiting : ∀ x ∈ g.waiting, x ∈ f.waiting ∨ ok x

theorem join_step (fr : Frame) (f : Feed) : QueueStep f (f.join fr) (· = fr) := by
  unfold Feed.join
  split
  · exact ⟨rfl, rfl, rfl, rfl, rfl, rfl, rfl, by simp +contextual⟩
  · exact ⟨rfl, rfl, rfl, rfl, rfl, rfl, rfl, by simp +contextual⟩

theorem offerPresence_step (f : Feed) : QueueStep f f.offerPresence (· = .presence none) := by
  unfold Feed.offerPresence
  split
  · exact join_step _ _
  · exact ⟨rfl, rfl, rfl, rfl, rfl, rfl, rfl, by simp +contextual⟩

theorem offerClaim_step (fr : Frame) (f : Feed) : QueueStep f (f.offerClaim fr) (· = fr) := by
  unfold Feed.offerClaim
  split
  · exact ⟨rfl, rfl, rfl, rfl, rfl, rfl, rfl, fun x hx => replaceNewest_mem _ _ _ x hx⟩
  · exact join_step _ _

theorem offerHandover_step (h : Handover) (f : Feed) : QueueStep f (f.offerHandover h) (· = .handover h) := by
  unfold Feed.offerHandover
  split
  · exact ⟨rfl, rfl, rfl, rfl, rfl, rfl, rfl, by simp +contextual⟩
  · split
    · exact ⟨rfl, rfl, rfl, rfl, rfl, rfl, rfl, fun x hx => replaceNewest_mem _ _ _ x hx⟩
    · split <;> exact ⟨rfl, rfl, rfl, rfl, rfl, rfl, rfl, by simp +contextual⟩

theorem unname_step (f : Feed) : QueueStep f f.unnameHandover (fun x => x.isHandover = true) := by
  refine ⟨rfl, rfl, rfl, rfl, rfl, rfl, rfl, ?_⟩
  intro x hx
  simp only [Feed.unnameHandover, List.mem_map] at hx
  obtain ⟨y, hy, rfl⟩ := hx
  cases y with
  | handover h => right; simp only [Frame.unname]; split <;> rfl
  | _ => left; exact hy

theorem joinHeld_step (f : Feed) : QueueStep f f.joinHeld (fun x => x.isHandover = true) := by
  unfold Feed.joinHeld
  split
  · exact ⟨rfl, rfl, rfl, rfl, rfl, rfl, rfl, by simp +contextual⟩
  · split
    · refine ⟨rfl, rfl, rfl, rfl, rfl, rfl, rfl, ?_⟩
      intro x hx; simp at hx ⊢; rcases hx with h | rfl
      · exact Or.inl h
      · exact Or.inr rfl
    · exact ⟨rfl, rfl, rfl, rfl, rfl, rfl, rfl, by simp +contextual⟩

theorem loose_handover {x : Frame} (h : x.isHandover = true) : Loose x := fun _ => h

theorem Hub.offered {st : FloorState} {e : Engine} {f g : Feed} (h : Hub st e f) (ok : Frame → Prop)
    (hok : ∀ x, ok x → Loose x) (hst : QueueStep f g ok)
    (hp : FeedPlaces g) (hs : ∀ u, FeedSound f u → FeedSound g u) (hm : st ≠ .mute)
    (ho : e.step.isSome = true → e.mode = .live → 3 ≤ g.free) : Hub st e g :=
  h.feed hp hst.next (fun _ => hs) hst.ring hst.cursor hst.gap (fun x hx => (hst.waiting x hx).imp id fun hx => Or.inl (hok x hx))
    (fun x hx => Or.inl ⟨x, by rw [← hst.sending]; exact hx, rfl, id⟩) (fun hh => absurd hh hm) ho

theorem Hub.offerPresence {st : FloorState} {e : Engine} {f : Feed} (h : Hub st e f) (hm : st ≠ .mute)
    : Hub st e f.offerPresence := by
  refine h.offered _ ?_ (offerPresence_step f) (offerPresence_places f h.places) (fun u hu => offerPresence_sound hu) hm ?_
  · rintro x rfl; intro ht; cases ht
  · intro h1 h2
    have := h.room h1 h2
    unfold Feed.offerPresence
    split
    · rename_i hq
      obtain ⟨hw, hsd⟩ := (queueEmpty_iff f).1 hq
      simp [Feed.join, Feed.free, Feed.places, hw, hsd, Config.queuePlaces]
    · exact this

theorem Hub.offerClaim {st : FloorState} {e : Engine} {f : Feed} (h : Hub st e f) (hm : st ≠ .mute)
    (hl : st ≠ .live) (ep : Option Epoch) (w : Bool) :
    Hub st e (f.offerClaim (.claim ep w)) := by
  refine h.offered _ ?_ (offerClaim_step _ f) (offerClaim_places _ f h.places) (fun u hu => offerClaim_sound hu _ rfl) hm ?_
  · rintro x rfl; intro ht; cases ht
  · intro h1 h2; exact absurd (h.shadowStep h1 h2).1 hl

theorem Hub.offerHandover {st : FloorState} {e : Engine} {f : Feed} (h : Hub st e f) (hm : st ≠ .mute)
    (hl : st ≠ .live) (ho : Handover) :
    Hub st e (f.offerHandover ho) := by
  refine h.offered _ ?_ (offerHandover_step _ f) (offerHandover_places _ f h.places) (fun u hu => offerHandover_sound hu _) hm ?_
  · rintro x rfl; intro ht; rfl
  · intro h1 h2; exact absurd (h.shadowStep h1 h2).1 hl

theorem Hub.unname {st : FloorState} {e : Engine} {f : Feed} (h : Hub st e f) (hm : st ≠ .mute) (hl : st ≠ .live) :
    Hub st e f.unnameHandover := by
  refine h.offered _ (fun x hx => loose_handover hx) (unname_step f) (unname_places f h.places) (fun u hu => unname_sound hu) hm ?_
  intro h1 h2; exact absurd (h.shadowStep h1 h2).1 hl

theorem joinHeld_none (f : Feed) (h : f.held = none) : f.joinHeld = f := by unfold Feed.joinHeld; rw [h]

theorem Hub.room_held {st : FloorState} {e : Engine} {f : Feed} (h : Hub st e f) (h1 : e.step.isSome = true)
    (h2 : e.mode = .live) : f.held = none := by
  have h3 := h.room h1 h2
  apply noHeld_of_room h.places
  simp only [Feed.free, Config.queuePlaces] at h3
  omega

theorem Hub.sentWhole {st : FloorState} {e : Engine} {f : Feed} (h : Hub st e f) : Hub st e f.sentWhole := by
  have hj := joinHeld_step { f with sending := none }
  have hw : f.sentWhole = Feed.joinHeld { f with sending := none } := rfl
  refine h.feed (sentWhole_places f h.places.places) hj.next (fun _ u hu => sentWhole_sound hu) hj.ring hj.cursor hj.gap
    (fun x hx => (hj.waiting x hx).imp id fun hx => Or.inl (loose_handover hx)) ?_ ?_ ?_
  · intro x hx; rw [hw, hj.sending] at hx; cases hx
  · intro hm
    have := h.mute hm
    rw [hw, joinHeld_none { f with sending := none } this.2.2]
    exact ⟨this.1, rfl, this.2.2⟩
  · intro h1 h2
    rw [hw, joinHeld_none { f with sending := none } (h.room_held h1 h2)]
    have := h.room h1 h2
    simp [Feed.free, Feed.places] at *; omega

theorem Hub.handedBack {st : FloorState} {e : Engine} {f : Feed} (h : Hub st e f) : Hub st e f.handedBack := by
  cases hx : f.sending with
  | none => have : f.handedBack = f := by unfold Feed.handedBack; rw [hx]
            rw [this]; exact h
  | some x =>
    have hl : f.waiting.length ≤ 16 := by have := h.places.places; simp [Feed.places] at this; omega
    by_cases hwd : x.withdrawn = true
    · have e1 : f.handedBack = f.sentWhole := by unfold Feed.handedBack Feed.sentWhole; rw [hx]; simp [hwd]
      rw [e1]; exact h.sentWhole
    · have e1 : f.handedBack = { f with sending := none, waiting := x.frame :: f.waiting } := by
        unfold Feed.handedBack; rw [hx]; simp [hwd]
      refine h.feed (handedBack_places f h.places) ?_ (fun _ u hu => handedBack_sound hu hl) ?_ ?_ ?_ ?_ ?_ ?_ ?_
      · rw [e1]
      · rw [e1]
      · rw [e1]
      · rw [e1]
      · rw [e1]
        intro y hy
        simp only [List.mem_cons] at hy
        rcases hy with rfl | hy
        · exact Or.inr (Or.inr ⟨x, hx, by simpa using hwd, rfl⟩)
        · exact Or.inl hy
      · rw [e1]; intro y hy; cases hy
      · intro hm; have := (h.mute hm).2.1; rw [hx] at this; cases this
      · intro h1 h2
        have := h.room h1 h2
        rw [e1]
        simp [Feed.free, Feed.places, hx] at *; omega

theorem begun_frame (p : Presence) (f : Feed) : (f.begun p).nextSeq = f.nextSeq ∧ (f.begun p).ring = f.ring ∧
    (f.begun p).cursor = f.cursor ∧
    (f.begun p).gap = f.gap ∧ (f.begun p).held = f.held ∧ (f.begun p).tenureEpoch = f.tenureEpoch ∧ (f.begun p).settled = f.settled ∧
    (∀ x ∈ (f.begun p).waiting, x ∈ f.waiting) := by
  unfold Feed.begun
  split
  · simp
  · rename_i head rest hw
    refine ⟨rfl, rfl, rfl, rfl, rfl, rfl, rfl, ?_⟩
    intro x hx; rw [hw]; exact List.mem_cons_of_mem _ hx

theorem Hub.begun {st : FloorState} {e : Engine} {f : Feed} (h : Hub st e f) (p : Presence) (hs : f.sending = none)
    (hm : st ≠ .mute) : Hub st e (f.begun p) := by
  have hl : f.waiting.length ≤ 16 := by have := h.places.places; simp [Feed.places] at this; omega
  obtain ⟨b1, b2, b3, b4, b5, b6, b7, b8⟩ := begun_frame p f
  refine h.feed (begun_places p f h.places hs) b1 (fun _ u hu => begun_sound hu p hl) b2 b3 b4 (fun x hx => Or.inl (b8 x hx)) ?_ (fun hh => absurd hh hm) ?_
  · intro x hx
    unfold Feed.begun at hx
    split at hx
    · rw [hs] at hx; cases hx
    · rename_i head rest hw
      simp only [Option.some.injEq] at hx
      subst hx
      right
      cases head with
      | presence o => right; intro ht; cases ht
      | _ => left; rw [hw]; exact List.mem_cons_self
  · intro h1 h2
    have := h.room h1 h2
    unfold Feed.begun
    split
    · exact this
    · rename_i head rest hw
      simp [Feed.free, Feed.places, hs, hw] at *; omega

theorem Hub.rewind {e : Engine} {f : Feed} (h : Hub .live e f) (q : Seq) : Hub .live e (f.rewind q) := by
  have r := rewind_frame q f
  refine ⟨h.tailLen, rewind_places q f h.places, h.full, h.shadowSeqs, (by intro hh; cases hh), (by intro hh; cases hh), (by intro hh; cases hh),
    (by intro hh; cases hh), (by intro hh; cases hh), ?_, (by intro hh; cases hh), (by intro hh; cases hh), h.shadowStep, h.liveStep, ?_⟩
  · intro _; exact (h.live rfl).feed r.2.2.2.2.1 (fun u hu => rewind_sound hu q)
  · intro h1 h2
    have := h.room h1 h2
    simpa [Feed.free, Feed.places, r.1, r.2.1] using this

theorem generate_frame (f : Feed) : f.generate.nextSeq = f.nextSeq ∧ f.generate.sending = f.sending ∧
    f.generate.tenureEpoch = f.tenureEpoch ∧
    f.generate.waiting.length ≤ f.waiting.length + 1 := by
  have hj : ∀ fr, (f.join fr).waiting.length ≤ f.waiting.length + 1 ∧ (f.join fr).nextSeq = f.nextSeq ∧ (f.join fr).sending = f.sending ∧ (f.join fr).tenureEpoch = f.tenureEpoch := by
    intro fr; unfold Feed.join; split <;> simp
  unfold Feed.generate
  split
  · have := hj (.gap f.epoch ‹GapRun›.fromSeq ‹GapRun›.toSeq)
    exact ⟨this.2.1, this.2.2.1, this.2.2.2, this.1⟩
  · split
    · simp
    · split
      · simp
      · have := hj (.segment f.epoch (some (seqOlder ‹Seq› f.settled)) ‹Segment›)
        exact ⟨this.2.1, this.2.2.1, this.2.2.2, this.1⟩

theorem Hub.generate {e : Engine} {f : Feed} (h : Hub .live e f) (hq : f.queueEmpty = true)
    : Hub .live e f.generate := by
  have r := generate_frame f
  refine ⟨h.tailLen, generate_places f h.places, h.full, h.shadowSeqs, (by intro hh; cases hh), (by intro hh; cases hh), (by intro hh; cases hh),
    (by intro hh; cases hh), (by intro hh; cases hh), ?_, (by intro hh; cases hh), (by intro hh; cases hh), h.shadowStep, h.liveStep, ?_⟩
  · intro _; exact (h.live rfl).feed r.1 (fun u hu => generate_sound hu hq)
  · intro h1 h2
    obtain ⟨hw, hs⟩ := (queueEmpty_iff f).1 hq
    have h3 := r.2.2.2
    have h4 := r.2.1
    simp only [hw, List.length_nil] at h3
    simp only [Feed.free, Feed.places, h4, hs, Config.queuePlaces]
    simp
    omega

/-! ## Changes of floor state -/

theorem Hub.retitle {st st' : FloorState} {e : Engine} {f : Feed} (h : Hub st e f) (h1 : st.inTenure = false)
    (h2 : st'.inTenure = false) (h3 : st' ≠ .mute) : Hub st' e f := by
  have hne : st ≠ .live := by intro hh; rw [hh] at h1; cases h1
  refine ⟨h.tailLen, h.places, h.full, fun _ => h.shadowSeqs h1, fun _ => h.outside h1, ?_, ?_, fun _ => h.outsideSent h1, fun hh => absurd hh h3, ?_, ?_, ?_, ?_, ?_, h.room⟩
  · intro hh; rw [hh] at h2; cases h2
  · intro hh; rw [hh] at h2; cases h2
  · intro hh; rw [hh] at h2; cases h2
  · intro hh; rw [hh] at h2; cases h2
  · intro hh; rw [hh] at h2; cases h2
  · intro h4 h5; exact absurd (h.shadowStep h4 h5).1 hne
  · intro h4 h5; rw [h5] at h2; cases h2

theorem Hub.enterLive {st : FloorState} {e : Engine} {f : Feed} (h : Hub st e f) (h1 : st.inTenure = false)
    (ep : Epoch) (n : Seq) :
    Hub .live e.enterLive (f.openTenure ep n) := by
  have hne : st ≠ .live := by intro hh; rw [hh] at h1; cases h1
  have hq : ∀ x ∈ f.waiting, Plain x := by
    intro x hx
    have := (h.outside h1).2.2.2 x hx
    cases x <;> simp_all [Plain, Frame.segmentSeq, Frame.ofTenure, Frame.isHandover]
  have hl : liveSeqs f.waiting = [] := by
    have : ∀ l : List Frame, (∀ x ∈ l, Plain x) → liveSeqs l = [] ∧ copySeqs l = [] := by
      intro l
      induction l with
      | nil => intro _; exact ⟨rfl, rfl⟩
      | cons a r ih =>
        intro hh
        have h1 := hh a List.mem_cons_self
        have h2 := ih fun x hx => hh x (List.mem_cons_of_mem _ hx)
        rw [liveSeqs_cons, copySeqs_cons, h1.live, h1.copy, h2.1, h2.2]; exact ⟨rfl, rfl⟩
    exact (this _ hq).1
  have hc : copySeqs f.waiting = [] := by
    have : ∀ l : List Frame, (∀ x ∈ l, Plain x) → copySeqs l = [] := by
      intro l
      induction l with
      | nil => intro _; rfl
      | cons a r ih =>
        intro hh
        rw [copySeqs_cons, (hh a List.mem_cons_self).copy, ih fun x hx => hh x (List.mem_cons_of_mem _ hx)]; rfl
    exact this _ hq
  have hfs := openTenure_sound ep n f hl hc (h.outsideSent h1)
  refine ⟨h.tailLen, openTenure_places _ _ _ h.places, h.full, (by intro hh; cases hh), (by intro hh; cases hh), (by intro hh; cases hh), (by intro hh; cases hh), (by intro hh; cases hh),
    (by intro hh; cases hh), ?_, (by intro hh; cases hh), (by intro hh; cases hh), ?_, ?_, ?_⟩
  · intro _
    refine ⟨fun hh => by simp [Engine.enterLive] at hh, fun _ => ⟨h.shadowSeqs h1, hfs⟩⟩
  · intro h4 h5; exact absurd (h.shadowStep h4 h5).1 hne
  · intro _ _ hh; simp [Engine.enterLive] at hh
  · intro h4 h5; exact absurd (h.shadowStep h4 h5).1 hne

theorem withdraw_mem (p : Frame → Bool) (f : Feed)
    : ∀ x ∈ (f.withdraw p).waiting, (x ∈ f.waiting ∧ p x = false) ∨ x.isHandover = true := by
  intro x hx
  unfold Feed.withdraw at hx
  rcases (joinHeld_step _).waiting x hx with h | h
  · left; simp only [List.mem_filter] at h; simpa using h
  · right; exact h

theorem withdraw_fields (p : Frame → Bool) (f : Feed) : (f.withdraw p).nextSeq = f.nextSeq ∧
    (f.withdraw p).ring = f.ring ∧ (f.withdraw p).cursor = f.cursor ∧
    (f.withdraw p).gap = f.gap ∧ (f.withdraw p).settled = f.settled ∧ (f.withdraw p).tenureEpoch = f.tenureEpoch ∧
    (f.withdraw p).sending = f.sending.map fun x => if p x.frame then { x with withdrawn := true } else x := by
  unfold Feed.withdraw
  have hj := joinHeld_step { f with
      waiting := f.waiting.filter fun fr => !p fr
      sending := f.sending.map fun x => if p x.frame then { x with withdrawn := true } else x }
  exact ⟨hj.next, hj.ring, hj.cursor, hj.gap, hj.settled, hj.epoch, hj.sending⟩

theorem Hub.enterHanding {e : Engine} {f : Feed} (h : Hub .live e f) (hs : e.step = none)
    : Hub .handing { e with fullSettle := true } f.endReplay := by
  have w := withdraw_fields Frame.isReplay { f with cursor := none, gap := none }
  have hw := withdraw_mem Frame.isReplay { f with cursor := none, gap := none }
  refine ⟨h.tailLen, endReplay_places f h.places, fun _ => hs, (by intro hh; cases hh), (by intro hh; cases hh), ?_, ?_, (by intro hh; cases hh),
    (by intro hh; cases hh), (by intro hh; cases hh), ?_, (by intro _ hh; cases hh), ?_, ?_, ?_⟩
  · intro _
    refine ⟨w.2.2.1, w.2.2.2.1, ?_⟩
    intro x hx
    rcases hw x hx with hx | hx
    · exact hx.2
    · exact (loose_handover hx).noReplay
  · intro _ x hx hr
    replace hx := w.2.2.2.2.2.2.symm.trans hx
    cases hsd : f.sending with
    | none => rw [hsd] at hx; cases hx
    | some y =>
      simp only [hsd, Option.map_some, Option.some.injEq] at hx
      subst hx
      split
      · rfl
      · rename_i hh; rw [if_neg hh] at hr; exact absurd hr hh
  · intro _ _
    exact (h.live rfl).feed (f := f) w.1 (fun u hu => endReplay_sound hu)
  · intro h1; rw [show ({ e with fullSettle := true } : Engine).step = e.step from rfl, hs] at h1; cases h1
  · intro h1; rw [show ({ e with fullSettle := true } : Engine).step = e.step from rfl, hs] at h1; cases h1
  · intro h1; rw [show ({ e with fullSettle := true } : Engine).step = e.step from rfl, hs] at h1; cases h1

theorem leave_mode (e : Engine) : e.leaveTenure.step.isSome = true → e.leaveTenure.mode = .live → False := by
  unfold Engine.leaveTenure
  intro h1 h2
  simp only at h1 h2
  rw [if_pos h1] at h2; cases h2

theorem leave_seqs (e : Engine) : ∀ r ∈ e.leaveTenure.tail, r.seq = none := by
  intro r hr
  simp only [Engine.leaveTenure, List.mem_map] at hr
  obtain ⟨x, _, rfl⟩ := hr
  rfl

theorem Hub.leave {st : FloorState} {e : Engine} {f : Feed} (h : Hub st e f)
    : Hub .standby e.leaveTenure f.closeTenure := by
  have w := withdraw_fields Frame.ofTenure { f with ring := [], held := none, cursor := none, gap := none }
  have hw := withdraw_mem Frame.ofTenure { f with ring := [], held := none, cursor := none, gap := none }
  refine ⟨by simpa [Engine.leaveTenure] using h.tailLen, closeTenure_places f h.places, h.full, fun _ => leave_seqs e, ?_, (by intro hh; cases hh), (by intro hh; cases hh), ?_,
    (by intro hh; cases hh), (by intro hh; cases hh), (by intro hh; cases hh), (by intro hh; cases hh), ?_, (by intro _ hh; cases hh), ?_⟩
  · intro _
    refine ⟨w.2.1, w.2.2.1, w.2.2.2.1, ?_⟩
    intro x hx ht
    rcases hw x hx with hx | hx
    · rw [hx.2] at ht; cases ht
    · exact hx
  · intro _ x hx ht _
    replace hx := w.2.2.2.2.2.2.symm.trans hx
    cases hsd : f.sending with
    | none => rw [hsd] at hx; cases hx
    | some y =>
      simp only [hsd, Option.map_some, Option.some.injEq] at hx
      subst hx
      split
      · rfl
      · rename_i hh; rw [if_neg hh] at ht; exact absurd ht hh
  · intro h1 h2; exact (leave_mode e h1 h2).elim
  · intro h1 h2; exact (leave_mode e h1 h2).elim

theorem Hub.enterMute {st : FloorState} {e : Engine} {f : Feed} (h : Hub st e f)
    : Hub .mute e.leaveTenure f.mute := by
  refine ⟨by simpa [Engine.leaveTenure] using h.tailLen, mute_places f, h.full, fun _ => leave_seqs e, ?_, (by intro hh; cases hh), (by intro hh; cases hh), ?_,
    fun _ => ⟨rfl, rfl, rfl⟩, (by intro hh; cases hh), (by intro hh; cases hh), (by intro hh; cases hh), ?_, (by intro _ hh; cases hh), ?_⟩
  · intro _; simp [Feed.mute]
  · intro _ x hx; cases hx
  · intro h1 h2; exact (leave_mode e h1 h2).elim
  · intro h1 h2; exact (leave_mode e h1 h2).elim

/-- The engine's other fields do not matter. -/
theorem Hub.engine {st : FloorState} {e e' : Engine} {f : Feed} (h : Hub st e f) (h1 : e'.tail = e.tail)
    (h2 : e'.step = e.step) (h3 : e'.mode = e.mode)
    (h4 : e'.settleOnEntry = e.settleOnEntry) (h5 : e'.fullSettle = e.fullSettle) : Hub st e' f := by
  have ho : OpenForm e' f ↔ OpenForm e f := by unfold OpenForm; rw [h1, h4]
  have hc : ClosedForm e' f ↔ ClosedForm e f := by unfold ClosedForm; rw [h1]
  exact ⟨by rw [h1]; exact h.tailLen, h.places, by rw [h5, h2]; exact h.full, by rw [h1]; exact h.shadowSeqs, h.outside, h.handing, h.handingSent, h.outsideSent, h.mute,
    fun x => ho.2 (h.live x), fun x y => ho.2 (h.handFull x (by rw [← h5]; exact y)), fun x y => hc.2 (h.hand x (by rw [← h5]; exact y)),
    by rw [h2, h3, h4]; exact h.shadowStep, by rw [h2, h3, h4]; exact h.liveStep, by rw [h2, h3]; exact h.room⟩

end Sys2Proof.Machine
end

