-- ==== Sys2Proof/Laws/Requests.lean ====
section
/-! SUPPORT. The joint form inside a step: the places a step may use (R41, R143), and what each request the engine makes
of the feed keeps (R144 to R148). -/

namespace Sys2Proof.Machine
set_option linter.all false

/-- The joint form of a state's floor, engine and feed. -/
def HubS (s : State) : Prop := Hub s.floor.state s.engine s.feed

theorem Hub.noStep {st : FloorState} {e : Engine} {f : Feed} (h : Hub st e f) : Hub st { e with step := none } f :=
  ⟨h.tailLen, h.places, fun _ => rfl, h.shadowSeqs, h.outside, h.handing, h.handingSent, h.outsideSent, h.mute, h.live, h.handFull, h.hand,
    (by intro hh; cases hh), (by intro hh; cases hh), (by intro hh; cases hh)⟩

/-- The joint form while a step runs, with at most `k` places of the queue taken. -/
structure Mid (s : State) (k : Nat) : Prop where
  hub : Hub s.floor.state { s.engine with step := none } s.feed
  full : s.engine.fullSettle = false
  live : s.engine.mode = .live → s.floor.state = .live ∧ s.engine.settleOnEntry = false ∧ s.feed.places ≤ k
  shadow : s.engine.mode = .shadow → s.floor.state = .live → s.engine.settleOnEntry = true

/-- tail changes outside LIVE mode -/
theorem Hub.quietTail {st : FloorState} {e : Engine} {f : Feed} (h : Hub st e f) (t : List Record)
    (ht : t.length ≤ 24) (hn : ∀ r ∈ t, r.seq = none)
    (hl : st = .live → e.settleOnEntry = true) (hf : e.fullSettle = false) (c : Context) : Hub st { e with tail := t, context := c } f :=
  ⟨ht, h.places, h.full, fun _ => hn, h.outside, h.handing, h.handingSent, h.outsideSent, h.mute,
    fun x => ⟨fun hh => (by rw [show e.settleOnEntry = true from hl x] at hh; cases hh), fun _ => ⟨hn, ((h.live x).2 (hl x)).2⟩⟩,
    fun _ hh => (by rw [show e.fullSettle = false from hf] at hh; cases hh), fun x hh => ⟨hn, (h.hand x hh).2⟩, h.shadowStep, h.liveStep, h.room⟩

/-- all sequence numbers unknown -/
theorem Hub.noSeqs {st : FloorState} {e : Engine} {f : Feed} (h : Hub st e f)
    (hl : st = .live → e.settleOnEntry = true) (hf : e.fullSettle = false) :
    ∀ r ∈ e.tail, r.seq = none := by
  cases st with
  | live => exact ((h.live rfl).2 (hl rfl)).1
  | handing => exact (h.hand rfl hf).1
  | standby => exact h.shadowSeqs rfl
  | claiming => exact h.shadowSeqs rfl
  | mute => exact h.shadowSeqs rfl

theorem Hub.liveChange {e e' : Engine} {f g : Feed} (h : Hub .live e f) (hp : FeedPlaces g)
    (ht : e'.tail.length ≤ 24) (hs : e'.step = none)
    (hse : e'.settleOnEntry = false) (hseq : e'.tail.map Record.seq = (seqRun g.nextSeq e'.tail.length).map some) (hfs : FeedSound g e'.tail.length) :
    Hub .live e' g :=
  ⟨ht, hp, fun _ => hs, (by intro hh; cases hh), (by intro hh; cases hh), (by intro hh; cases hh), (by intro hh; cases hh), (by intro hh; cases hh), (by intro hh; cases hh),
    fun _ => ⟨fun _ => ⟨hseq, hfs⟩, fun hh => (by rw [hse] at hh; cases hh)⟩, (by intro hh; cases hh), (by intro hh; cases hh),
    (by rw [hs]; intro hh; cases hh), (by rw [hs]; intro hh; cases hh), (by rw [hs]; intro hh; cases hh)⟩

/-! ## Places -/

theorem join_places_le (fr : Frame) (f : Feed) : (f.join fr).places ≤ f.places + 1 := by
  unfold Feed.join; split
  · simp [Feed.places]; omega
  · omega

theorem joinHeld_places_le (f : Feed) : f.joinHeld.places ≤ f.places + 1 := by
  unfold Feed.joinHeld; (repeat' split) <;> simp [Feed.places] <;> omega

theorem withdraw_places_le (p : Frame → Bool) (f : Feed) (h : f.held = none) : (f.withdraw p).places ≤ f.places := by
  rw [withdraw_noHeld_of_room p f h]
  have : (f.waiting.filter fun fr => !p fr).length ≤ f.waiting.length := List.length_filter_le _ _
  simp only [Feed.places, Option.isSome_map]; omega

theorem cut_places_le (q : Seq) (f : Feed) (h : f.held = none) : (f.cut q).places ≤ f.places + 1 := by
  have h1 := withdraw_places_le (Frame.cutBy q) f h
  unfold Feed.cut
  dsimp only
  split
  · have := join_places_le (.cut (Feed.epoch { f.withdraw (Frame.cutBy q) with
      ring := (f.withdraw (Frame.cutBy q)).ring.filter (fun e => seqOlder e.seq q), nextSeq := q }) q) { f.withdraw (Frame.cutBy q) with
      ring := (f.withdraw (Frame.cutBy q)).ring.filter (fun e => seqOlder e.seq q), nextSeq := q }
    simp only [Feed.places] at *
    omega
  · simp only [Feed.places] at *; omega

theorem append_places_le (c : List Byte) (d : Bool) (t : Clock) (f : Feed)
    : (f.append c d t).places ≤ f.places + 1 := by
  unfold Feed.append Feed.joinSegment
  have := join_places_le (.segment (Feed.epoch (f.push (.text c d) t)) none { seq := f.nextSeq, body := .text c d, time := t }) (f.push (.text c d) t)
  rw [push_places_eq] at this; exact this

theorem settle_places_le (b : Seq) (f : Feed) : (f.settle b).places ≤ f.places + 1 := by
  unfold Feed.settle
  dsimp only
  split
  · rename_i e b' hl
    have hne : f.waiting ≠ [] := by intro h; simp [h] at hl
    have := List.length_pos_of_ne_nil hne
    simp [Feed.places]; omega
  · exact join_places_le _ _

theorem append_next (c : List Byte) (d : Bool) (t : Clock) (f : Feed) : (f.append c d t).nextSeq = f.nextSeq + 1 := by
  unfold Feed.append Feed.joinSegment
  rw [(join_step _ _).next]; exact (push_queue _ _ _).2.2.2.1

theorem appendSettling_next (b : SegmentBody) (t : Clock) (f : Feed)
    : (f.appendSettling b t).nextSeq = f.nextSeq + 1 := by
  unfold Feed.appendSettling Feed.joinSegment
  dsimp only
  rw [(join_step _ _).next, (withdraw_fields _ _).1]; exact (push_queue _ _ _).2.2.2.1

theorem settle_next (b : Seq) (f : Feed) : (f.settle b).nextSeq = f.nextSeq := by
  unfold Feed.settle
  dsimp only
  split
  · rfl
  · rw [(join_step _ _).next]

theorem places_held {f : Feed} (h : FeedPlaces f) (hp : f.places ≤ 15) : f.held = none := noHeld_of_room h (by omega)

/-! ## Removal and cut -/

theorem take_run {t : List Record} {N : Seq} {k : Nat} (h : t.map Record.seq = (seqRun N t.length).map some)
    (hk : k ≤ t.length) :
    (t.take (t.length - k)).map Record.seq = (seqRun (N - BitVec.ofNat 16 k) (t.length - k)).map some := by
  rw [List.map_take, h, ← List.map_take, seqRun_take _ _ _ hk]

theorem newest_seq {t : List Record} {N : Seq} {k : Nat} (h : t.map Record.seq = (seqRun N t.length).map some)
    (hk : k ≤ t.length) (h1 : 1 ≤ k) :
    (tailNewest t k).head?.bind Record.seq = some (N - BitVec.ofNat 16 k) := by
  have e : (tailNewest t k).map Record.seq = (seqRun N k).map some := by
    rw [tailNewest, List.map_drop, h, ← List.map_drop, seqRun_map_range _ _ _ hk]
  obtain ⟨k', rfl⟩ : ∃ k', k = k' + 1 := ⟨k - 1, by omega⟩
  rw [seqRun_succ] at e
  cases hh : tailNewest t (k' + 1) with
  | nil => rw [hh] at e; simp at e
  | cons a r => rw [hh] at e; simp at e; simpa using e.1

theorem cutPoint_none {t : List Record} (h : ∀ r ∈ t, r.seq = none) (k : Nat)
    : (tailNewest t k).head?.bind Record.seq = none := by
  cases hh : tailNewest t k with
  | nil => rfl
  | cons a r =>
    have : a ∈ t := by
      have h1 : a ∈ tailNewest t k := by rw [hh]; exact List.mem_cons_self
      exact List.mem_of_mem_drop h1
    simpa using h a this

theorem tailKept_length (t : List Record) (k : Nat) : (tailKept t k).length = t.length - k := by simp [tailKept]

/-- Removing the newest `k` records and cutting there. -/
theorem Mid.cut {s : State} {n k : Nat} (h : Mid s n) (hn : n ≤ 15) (hk : k ≤ s.engine.tail.length) (e' : Engine)
    (h1 : e'.tail = tailKept s.engine.tail k) (h3 : e'.mode = s.engine.mode)
    (h4 : e'.settleOnEntry = s.engine.settleOnEntry) (h5 : e'.fullSettle = s.engine.fullSettle) :
    Mid (handCutAt (cutPoint k s) (s.setEngine e')) (n + 1) := by
  have hlen := h.hub.tailLen
  have hlen' : (tailKept s.engine.tail k).length ≤ 24 := by rw [tailKept_length]; simp at hlen; omega
  cases hm : s.engine.mode with
  | shadow =>
    have hns := h.hub.noSeqs (h.shadow hm) h.full
    have hcp : cutPoint k s = none := cutPoint_none hns k
    rw [hcp]
    refine ⟨?_, ?_, ?_, ?_⟩
    · have := h.hub.quietTail (tailKept s.engine.tail k) hlen' (fun r hr => hns r (List.mem_of_mem_take hr)) (h.shadow hm) h.full s.engine.context
      exact this.engine h1 rfl h3 h4 h5
    · simp [handCutAt]; rw [h5]; exact h.full
    · simp [handCutAt]; rw [h3, hm]; intro hh; cases hh
    · simp [handCutAt]; rw [h3, h4]; exact h.shadow
  | live =>
    obtain ⟨l1, l2, l3⟩ := h.live hm
    have hub := h.hub
    rw [l1] at hub
    obtain ⟨f1, f2⟩ := (hub.live rfl).1 l2
    simp only at f1 f2
    by_cases hk0 : k = 0
    · subst hk0
      have hcp : cutPoint 0 s = none := by simp [cutPoint, tailNewest]
      rw [hcp]
      have ht : e'.tail = s.engine.tail := by rw [h1]; simp [tailKept]
      refine ⟨?_, ?_, ?_, ?_⟩
      · exact h.hub.engine ht rfl h3 h4 h5
      · simp [handCutAt]; rw [h5]; exact h.full
      · simp [handCutAt]; rw [h3, h4]; exact fun _ => ⟨l1, l2, by omega⟩
      · simp [handCutAt]; rw [h3, hm]; intro hh; cases hh
    · have hcp : cutPoint k s = some (s.feed.nextSeq - BitVec.ofNat 16 k) := newest_seq f1 hk (by omega)
      have hp := hub.places
      have hheld := places_held hp (by omega : s.feed.places ≤ 15)
      obtain ⟨c1, c2⟩ := cut_sound f2 hk (by omega) hp (by omega : s.feed.places < 16)
      have hopen : feedOpen (s.setEngine e') = true := by simp [feedOpen, l1, FloorState.inTenure]
      have e1 : handCutAt (cutPoint k s) (s.setEngine e') = (s.setEngine e').setFeed (s.feed.cut (s.feed.nextSeq - BitVec.ofNat 16 k)) := by
        rw [hcp]
        simp [handCutAt, h3, hm, handCut, hopen]
      rw [e1]
      have ht : e'.tail.length = s.engine.tail.length - k := by rw [h1, tailKept_length]
      refine ⟨?_, ?_, ?_, ?_⟩
      · simp only [State.setFeed_floor, State.setEngine_floor, State.setFeed_engine, State.setEngine_engine, State.setFeed_feed, l1]
        refine hub.liveChange (cut_places _ _ hp) (by simp only [h1]; exact hlen') rfl (by simp only [h4]; exact l2) ?_ ?_
        · simp only [c2, h1, tailKept_length]; exact take_run f1 hk
        · simp only [ht]; exact c1
      · simp [h5, h.full]
      · simp [h3, h4, l1, l2]
        intro _
        have := cut_places_le (s.feed.nextSeq - BitVec.ofNat 16 k) s.feed hheld
        omega
      · simp [h3, hm]

/-- Mid of an engine with other fields. -/
theorem Mid.engine {s : State} {n : Nat} (h : Mid s n) (e' : Engine) (h1 : e'.tail = s.engine.tail)
    (h3 : e'.mode = s.engine.mode)
    (h4 : e'.settleOnEntry = s.engine.settleOnEntry) (h5 : e'.fullSettle = s.engine.fullSettle) : Mid (s.setEngine e') n :=
  ⟨h.hub.engine h1 rfl h3 h4 h5, by simp [h5, h.full], by simp [h3, h4]; exact h.live, by simp [h3, h4]; exact h.shadow⟩

theorem Mid.congr {s s' : State} {n : Nat} (h : Mid s n) (h1 : s'.engine = s.engine) (h2 : s'.feed = s.feed)
    (h3 : s'.floor.state = s.floor.state) : Mid s' n :=
  ⟨by rw [h1, h2, h3]; exact h.hub, by rw [h1]; exact h.full, by rw [h1, h2, h3]; exact h.live, by rw [h1, h3]; exact h.shadow⟩

theorem Mid.mono {s : State} {n m : Nat} (h : Mid s n) (hm : n ≤ m) : Mid s m :=
  ⟨h.hub, h.full, fun hh => ⟨(h.live hh).1, (h.live hh).2.1, by have := (h.live hh).2.2; omega⟩, h.shadow⟩

theorem Mid.refuse {s : State} {n : Nat} (h : Mid s n) : Mid (refuse s) n := by
  unfold Sys2Proof.Machine.refuse requestPulse
  refine (h.engine { s.engine with refusals := saturate 65535 s.engine.refusals } rfl rfl rfl rfl).congr ?_ ?_ ?_ <;> simp

/-- The whole tail settles and one settling segment follows. -/
theorem Mid.settling {s : State} {n : Nat} (h : Mid s n) (hn : n ≤ 15) (hm : s.engine.mode = .live)
    (b : SegmentBody) (t : Clock) (f : Feed)
    (hf : f = { s.feed with markCounter := f.markCounter }) :
    Mid ((settleLocal s).setFeed (f.appendSettling b t)) 16 := by
  obtain ⟨l1, l2, l3⟩ := h.live hm
  have hub := h.hub
  rw [l1] at hub
  have hlen := hub.tailLen
  obtain ⟨f1, f2⟩ := (hub.live rfl).1 l2
  simp only at f1 f2 hlen
  have hp := hub.places
  have hfp : FeedPlaces f := by rw [hf]; exact ⟨hp.places, hp.held⟩
  have hfs : FeedSound f s.engine.tail.length := by
    rw [hf]; exact ⟨f2.ring, f2.ringPlaces, f2.settled, f2.settledInRing, f2.queued, f2.wire, f2.copies, f2.copyFirst, f2.copyAlone, f2.sendingLive, f2.sendingCopy, f2.cursor, f2.gapTo, f2.gapCursor⟩
  have hpl : f.places < 16 := by rw [hf]; show s.feed.places < 16; omega
  have := appendSettling_sound hfs (by omega) hfp hpl b t
  refine ⟨?_, ?_, ?_, ?_⟩
  · simp only [State.setFeed_floor, State.setFeed_engine, State.setFeed_feed, settleLocal, State.setEngine_floor, State.setEngine_engine, l1]
    exact hub.liveChange (appendSettling_places _ _ _ hfp) (by simp) rfl l2 rfl this
  · simp [settleLocal, h.full]
  · simp [settleLocal, l1, l2, hm]
    exact (appendSettling_places _ _ _ hfp).places
  · simp [settleLocal, hm]

theorem Mid.reportGap {s : State} {n : Nat} (h : Mid s n) (hn : n ≤ 15) (gap : Nat) (t : Clock)
    : Mid (reportGap gap t s) 16 := by
  unfold Sys2Proof.Machine.reportGap
  split
  · exact h.mono (by omega)
  · split
    · rename_i hm
      have hm : s.engine.mode = .live := by simpa using hm
      have hopen : feedOpen (settleLocal s) = true := by simp [feedOpen, (h.live hm).1, FloorState.inTenure]
      unfold handLost Feed.lost
      rw [if_pos hopen]
      have hfe : (settleLocal s).feed = s.feed := by simp
      rw [hfe]
      exact h.settling hn hm _ _ s.feed rfl
    · exact h.mono (by omega)

theorem Mid.markItem {s : State} {n : Nat} (h : Mid s n) (hn : n ≤ 14) (t : Clock) : Mid (markItem t s) (n + 1) := by
  unfold Sys2Proof.Machine.markItem
  split
  · rename_i hm
    have hm : s.engine.mode = .live := by simpa using hm
    have hopen : feedOpen (settleLocal s) = true := by simp [feedOpen, (h.live hm).1, FloorState.inTenure]
    dsimp only
    rw [if_pos hopen]
    unfold handMark Feed.mark
    rw [if_pos hopen]
    have hfe : (settleLocal s).feed = s.feed := by simp
    rw [hfe]
    have hmid := h.settling (by omega) hm (.mark s.feed.markCounter) (toLineTime (settleLocal s) t) { s.feed with markCounter := s.feed.markCounter + 1 } rfl
    refine ⟨hmid.hub, hmid.full, fun hh => ⟨(hmid.live hh).1, (hmid.live hh).2.1, ?_⟩, hmid.shadow⟩
    have hl := (h.live hm).2.2
    have hheld := places_held h.hub.places (by omega)
    simp only [State.setFeed_feed]
    unfold Feed.appendSettling Feed.joinSegment
    dsimp only
    refine Nat.le_trans (join_places_le _ _) ?_
    have := withdraw_places_le Frame.isSettle { (Feed.push (.mark s.feed.markCounter) (toLineTime (settleLocal s) t) { s.feed with markCounter := s.feed.markCounter + 1 }) with
      settled := (Feed.push (.mark s.feed.markCounter) (toLineTime (settleLocal s) t) { s.feed with markCounter := s.feed.markCounter + 1 }).nextSeq } (by simp [hheld])
    have e := push_places_eq (.mark s.feed.markCounter) (toLineTime (settleLocal s) t) { s.feed with markCounter := s.feed.markCounter + 1 }
    simp only [Feed.places] at this e hl ⊢
    omega
  · exact (h.refuse).mono (by omega)

end Sys2Proof.Machine
end

