-- ==== Sys2Proof/Laws/StepEnd.lean ====
section
/-! SUPPORT. The end of a stroke's step: the record placed, a full tail settled, and the work done at a boundary
(R42, R44, R53, R54, R59). -/

namespace Sys2Proof.Machine
set_option linter.all false

theorem settling_mid {s : State} (hst : s.floor.state = .live) (hse : s.engine.settleOnEntry = false)
    (hfull : s.engine.fullSettle = false) (hmd : s.engine.mode = .live)
    {f : Feed} {u : Nat} (hf : FeedSound f u) (hu : u < 128) (hp : FeedPlaces f) (hpl : f.places < 16) (b : SegmentBody) (t : Clock) :
    Mid ((settleLocal s).setFeed (f.appendSettling b t)) 16 := by
  have h1 := appendSettling_sound hf hu hp hpl b t
  have h2 := appendSettling_places b t f hp
  refine ⟨?_, ?_, ?_, ?_⟩
  · simp only [State.setFeed_floor, State.setFeed_engine, State.setFeed_feed, settleLocal, State.setEngine_floor, State.setEngine_engine, hst]
    exact ⟨by simp, h2, fun _ => rfl, (by intro hh; cases hh), (by intro hh; cases hh), (by intro hh; cases hh), (by intro hh; cases hh), (by intro hh; cases hh),
      (by intro hh; cases hh), fun _ => ⟨fun _ => ⟨rfl, h1⟩, fun hh => (by rw [show s.engine.settleOnEntry = true from hh] at hse; cases hse)⟩, (by intro hh; cases hh), (by intro hh; cases hh),
      (by intro hh; cases hh), (by intro hh; cases hh), (by intro hh; cases hh)⟩
  · simp [settleLocal, hfull]
  · simp [settleLocal, hst, hse]; exact fun _ => h2.places
  · simp [settleLocal, hmd]

theorem reportGap_live {s : State} (hst : s.floor.state = .live) (hse : s.engine.settleOnEntry = false)
    (hfull : s.engine.fullSettle = false) (hmd : s.engine.mode = .live)
    {u : Nat} (hf : FeedSound s.feed u) (hu : u < 128) (hp : FeedPlaces s.feed) (hpl : s.feed.places < 16) (gap : Nat) (hg : gap ≠ 0) (t : Clock) :
    Mid (reportGap gap t s) 16 := by
  unfold reportGap
  rw [if_neg hg]
  have hopen : feedOpen (settleLocal s) = true := by simp [feedOpen, hst, FloorState.inTenure]
  simp only [hmd, beq_self_eq_true, if_true]
  unfold handLost Feed.lost
  rw [if_pos hopen]
  have hfe : (settleLocal s).feed = s.feed := by simp
  rw [hfe]
  exact settling_mid hst hse hfull hmd hf hu hp hpl _ _

theorem placeRecord_keep (r : Record) (lf : Bool) (s : State)
    (h : s.engine.tail = [] ∨ s.engine.tail.length < s.engine.depth) :
    placeRecord r lf s = s.setEngine { s.engine with tail := s.engine.tail ++ [r] } := by
  unfold placeRecord
  split
  · rename_i ht; rw [ht]; rfl
  · rename_i o rest ht
    rcases h with h | h
    · rw [ht] at h; cases h
    · rw [if_pos h]

theorem placeRecord_over (r : Record) (lf : Bool) (s : State) (o : Record) (rest : List Record)
    (ht : s.engine.tail = o :: rest) (h : ¬ s.engine.tail.length < s.engine.depth) :
    placeRecord r lf s = if s.engine.mode == .live && o.seq.isSome && !lf then
        handSettle ((((rest ++ [r]).head?.bind Record.seq)).getD s.feed.nextSeq) (s.setEngine { s.engine with tail := rest ++ [r] })
      else s.setEngine { s.engine with tail := rest ++ [r] } := by
  unfold placeRecord
  split
  · rename_i ht'; rw [ht] at ht'; cases ht'
  · rename_i o' rest' ht'
    rw [ht] at ht'
    cases ht'
    rw [if_neg h]
    rfl

theorem Mid.finish {s : State} (h : Mid s 14) (hd : s.engine.depth ≤ 24)
    (htd : s.engine.tail.length ≤ s.engine.depth) (kind : RecordKind) (strokes : List StrokeCode) (text : List Byte)
    (saved : Context) (deg : Bool) (t : Clock) (gap : Nat) :
    Mid (Sys2Proof.Machine.reportGap gap t (placeRecord (buildRecord kind strokes text saved (if s.engine.mode == .live then answeredSeq s else none) deg) (decide (gap ≠ 0))
      (if s.engine.mode == .live then handAppend text deg t s else s))) 16 := by
  cases hm : s.engine.mode with
  | shadow =>
    have hns := h.hub.noSeqs (h.shadow hm) h.full
    simp only at hns
    simp only [show (Mode.shadow == Mode.live) = false from rfl, Bool.false_eq_true, if_false]
    generalize hr : buildRecord kind strokes text saved none deg = r
    have hrn : r.seq = none := by rw [← hr]; rfl
    have hpl : Mid (placeRecord r (decide (gap ≠ 0)) s) 14 := by
      have key : ∀ t' : List Record, t'.length ≤ 24 → (∀ x ∈ t', x.seq = none) → Mid (s.setEngine { s.engine with tail := t' }) 14 := by
        intro t' h1 h2
        refine ⟨?_, h.full, ?_, h.shadow⟩
        · exact (h.hub.quietTail t' h1 h2 (h.shadow hm) h.full s.engine.context)
        · simp [hm]
      by_cases hl : s.engine.tail = [] ∨ s.engine.tail.length < s.engine.depth
      · rw [placeRecord_keep r _ s hl]
        refine key _ ?_ ?_
        · rcases hl with hl | hl
          · rw [hl]; simp
          · simp; omega
        · intro x hx
          rw [List.mem_append] at hx
          rcases hx with hx | hx
          · exact hns x hx
          · simp at hx; rw [hx]; exact hrn
      · obtain ⟨hl1, hl2⟩ := not_or.1 hl
        obtain ⟨oldest, rest, ht⟩ := List.exists_cons_of_ne_nil hl1
        rw [placeRecord_over r _ s oldest rest ht hl2, hm]
        simp only [show (Mode.shadow == Mode.live) = false from rfl, Bool.false_and, Bool.false_eq_true, if_false]
        rw [ht] at hns htd
        refine key (rest ++ [r]) (by simp at htd ⊢; omega) ?_
        intro x hx
        rw [List.mem_append] at hx
        rcases hx with hx | hx
        · exact hns x (List.mem_cons_of_mem _ hx)
        · simp at hx; rw [hx]; exact hrn
    exact hpl.reportGap (by omega) gap t
  | live =>
    obtain ⟨l1, l2, l3⟩ := h.live hm
    have hub := h.hub
    rw [l1] at hub
    have hlen := hub.tailLen
    obtain ⟨f1, f2⟩ := (hub.live rfl).1 l2
    simp only at f1 f2 hlen
    have hp := hub.places
    have hopen : feedOpen s = true := by simp [feedOpen, l1, FloorState.inTenure]
    simp only [beq_self_eq_true, if_true]
    have ha : answeredSeq s = some s.feed.nextSeq := by simp [answeredSeq, hopen]
    rw [ha]
    have hap : handAppend text deg t s = s.setFeed (s.feed.append text deg (toLineTime s t)) := by simp [handAppend, hopen]
    rw [hap]
    generalize hg : s.feed.append text deg (toLineTime s t) = g
    have g1 : FeedSound g (s.engine.tail.length + 1) := by rw [← hg]; exact append_sound f2 (by omega) (by omega) _ _ _
    have g2 : FeedPlaces g := by rw [← hg]; exact append_places _ _ _ _ hp
    have g3 : g.places ≤ 15 := by rw [← hg]; exact Nat.le_trans (append_places_le _ _ _ _) (by omega)
    have g4 : g.nextSeq = s.feed.nextSeq + 1 := by rw [← hg]; exact append_next _ _ _ _
    generalize hr : buildRecord kind strokes text saved (some s.feed.nextSeq) deg = r
    have hrn : r.seq = some s.feed.nextSeq := by rw [← hr]; rfl
    have hrun : (s.engine.tail ++ [r]).map Record.seq = (seqRun g.nextSeq (s.engine.tail ++ [r]).length).map some := by
      rw [List.map_append, f1, List.length_append, List.length_singleton, g4, seqRun_snoc, List.map_append]
      simp [hrn]
    have keep : s.engine.tail.length + 1 ≤ 24 → Mid ((s.setFeed g).setEngine { s.engine with tail := s.engine.tail ++ [r] }) 15 := by
      intro hl
      refine ⟨?_, h.full, ?_, ?_⟩
      · simp only [State.setEngine_floor, State.setFeed_floor, State.setEngine_engine, State.setEngine_feed, State.setFeed_feed, l1]
        exact hub.liveChange g2 (by simpa using hl) rfl l2 hrun (by simpa using g1)
      · simp [l1, l2]; exact fun _ => g3
      · simp [hm]
    by_cases hl : s.engine.tail = [] ∨ s.engine.tail.length < s.engine.depth
    · rw [placeRecord_keep r _ (s.setFeed g) hl]
      refine (keep ?_).reportGap (by omega) gap t
      rcases hl with hl | hl
      · rw [hl]; simp
      · omega
    · obtain ⟨hl1, hl2⟩ := not_or.1 hl
      obtain ⟨oldest, rest, ht⟩ := List.exists_cons_of_ne_nil hl1
      · rw [placeRecord_over r _ (s.setFeed g) oldest rest ht hl2]
        simp only [State.setFeed_engine, State.setFeed_feed]
        have hL : s.engine.tail.length = rest.length + 1 := by rw [ht]; rfl
        have ho : oldest.seq.isSome = true := by
          rw [ht] at f1
          simp only [List.map_cons, List.length_cons, seqRun_succ] at f1
          rw [(List.cons.inj f1).1]; rfl
        have hrun' : (rest ++ [r]).map Record.seq = (seqRun g.nextSeq (rest ++ [r]).length).map some := by
          rw [ht] at hrun
          simp only [List.cons_append, List.map_cons, List.length_cons, seqRun_succ] at hrun
          exact (List.cons.inj hrun).2
        have hhead : ((rest ++ [r]).head?.bind Record.seq) = some (g.nextSeq - BitVec.ofNat 16 (rest.length + 1)) := by
          have e : (rest ++ [r]).length = rest.length + 1 := by simp
          rw [e, seqRun_succ] at hrun'
          cases hh : rest ++ [r] with
          | nil => rw [hh] at hrun'; simp at hrun'
          | cons a b => rw [hh] at hrun'; simp at hrun'; simpa using hrun'.1
        by_cases hgap : gap = 0
        · subst hgap
          simp only [hm, ho, beq_self_eq_true, ne_eq, not_true_eq_false, decide_false, Bool.not_false, Bool.and_self, if_true]
          unfold Sys2Proof.Machine.reportGap
          rw [if_pos rfl]
          unfold handSettle
          have hopen' : feedOpen ((s.setFeed g).setEngine { s.engine with tail := rest ++ [r] }) = true := by simp [feedOpen, l1, FloorState.inTenure]
          simp only [hm] at hopen'
          rw [if_pos hopen']
          simp only [State.setEngine_feed, State.setFeed_feed, hhead, Option.getD_some]
          have hs := settle_sound g1 (by omega : rest.length + 1 ≤ s.engine.tail.length + 1)
          have hsp := settle_places (g.nextSeq - BitVec.ofNat 16 (rest.length + 1)) g g2
          refine ⟨?_, h.full, ?_, ?_⟩
          · simp only [State.setEngine_floor, State.setFeed_floor, State.setEngine_engine, State.setEngine_feed, State.setFeed_feed, State.setFeed_engine, l1]
            refine hub.liveChange hsp (by simp; omega) rfl l2 ?_ (by simpa using hs)
            simp only [settle_next]; exact hrun'
          · simp [l1, l2]; exact hsp.places
          · simp
        · have hd : decide (gap ≠ 0) = true := by simp [hgap]
          simp only [hm, ho, hd, Bool.not_true, Bool.and_false, Bool.false_eq_true, if_false]
          rw [← hm]
          exact reportGap_live (s := (s.setFeed g).setEngine { s.engine with tail := rest ++ [r] }) (u := s.engine.tail.length + 1) l1 l2 h.full hm g1 (by omega) g2 (by simp only [State.setEngine_feed, State.setFeed_feed]; omega) gap hgap t

/-! ## Boundary work -/

theorem Hub.settledLocal {st : FloorState} {e : Engine} {f : Feed} (h : Hub st e f) (hs : e.step = none)
    (hl : st = .live → e.settleOnEntry = true ∨ e.tail = [])
    (hf : st = .handing → e.fullSettle = false ∨ e.settleOnEntry = true ∨ e.tail = []) :
    Hub st { e with tail := [], settleOnEntry := false } f := by
  have hopen : OpenForm e f → (e.settleOnEntry = true ∨ e.tail = []) → OpenForm { e with tail := [], settleOnEntry := false } f := by
    intro ho hh
    refine ⟨fun _ => ⟨rfl, ?_⟩, fun hx => (by cases hx)⟩
    cases hse : e.settleOnEntry with
    | true => exact (ho.2 hse).2
    | false =>
      rcases hh with hh | hh
      · rw [hse] at hh; cases hh
      · have := (ho.1 hse).2; rw [hh] at this; exact this
  refine ⟨by simp, h.places, fun _ => hs, by simp, h.outside, h.handing, h.handingSent, h.outsideSent, h.mute, fun x => hopen (h.live x) (hl x), ?_, ?_,
    (by rw [show ({ e with tail := [], settleOnEntry := false } : Engine).step = e.step from rfl, hs]; intro hh; cases hh),
    (by rw [show ({ e with tail := [], settleOnEntry := false } : Engine).step = e.step from rfl, hs]; intro hh; cases hh),
    (by rw [show ({ e with tail := [], settleOnEntry := false } : Engine).step = e.step from rfl, hs]; intro hh; cases hh)⟩
  · intro x hx
    rcases hf x with hh | hh
    · rw [show e.fullSettle = true from hx] at hh; cases hh
    · exact hopen (h.handFull x hx) hh
  · intro x hx
    exact ⟨by simp, (h.hand x hx).2⟩

theorem settleOnEntry_eq (s : State)
    : settleOnEntry s = if s.engine.settleOnEntry then s.setEngine { s.engine with tail := [], settleOnEntry := false } else s := rfl

theorem settleOnEntry_hub {s : State} (h : HubS s) (hs : s.engine.step = none) : HubS (settleOnEntry s) ∧
    (settleOnEntry s).engine.settleOnEntry = false ∧
    (settleOnEntry s).engine.step = none ∧ (settleOnEntry s).engine.fullSettle = s.engine.fullSettle := by
  rw [settleOnEntry_eq]
  split
  · rename_i he
    exact ⟨h.settledLocal hs (fun _ => Or.inl he) (fun _ => Or.inr (Or.inl he)), rfl, hs, rfl⟩
  · rename_i he
    exact ⟨h, by simpa using he, hs, rfl⟩

theorem carries_run {t : List Record} {N : Seq} (h : t.map Record.seq = (seqRun N t.length).map some)
    : carriesSeq t = !t.isEmpty := by
  cases t with
  | nil => rfl
  | cons a r =>
    simp only [List.map_cons, List.length_cons, seqRun_succ] at h
    simp [carriesSeq, (List.cons.inj h).1]

theorem carries_none {t : List Record} (h : ∀ r ∈ t, r.seq = none) : carriesSeq t = false := by
  simp [carriesSeq]; exact h

theorem settle_queueStep (b : Seq) (f : Feed) : (f.settle b).ring = f.ring ∧ (f.settle b).cursor = f.cursor ∧
    (f.settle b).gap = f.gap ∧ (f.settle b).sending = f.sending ∧
    (f.settle b).tenureEpoch = f.tenureEpoch ∧ (f.settle b).wireNext = f.wireNext ∧ (∀ x ∈ (f.settle b).waiting, x ∈ f.waiting ∨ x.isSettle = true) := by
  unfold Feed.settle
  dsimp only
  split
  · refine ⟨rfl, rfl, rfl, rfl, rfl, rfl, ?_⟩
    intro x hx
    simp at hx
    rcases hx with hx | rfl
    · exact Or.inl (List.mem_of_mem_dropLast hx)
    · exact Or.inr rfl
  · have := join_step (.settle f.epoch b) { f with settled := b }
    refine ⟨this.ring, this.cursor, this.gap, this.sending, this.epoch, ?_, ?_⟩
    · unfold Feed.join; split <;> rfl
    · intro x hx
      rcases this.waiting x hx with hx | rfl
      · exact Or.inl hx
      · exact Or.inr rfl

/-- The whole tail settles, with its request. -/
theorem settleToEnd_hub {s : State} (h : HubS s) (hs : s.engine.step = none) (hse : s.engine.settleOnEntry = false) :
    Hub s.floor.state { s.engine with tail := [], fullSettle := false } (settleToEnd s).feed ∧
      (settleToEnd s).engine = { s.engine with tail := [] } ∧ (s.engine.fullSettle = false → HubS (settleToEnd s)) := by
  have heng : (settleToEnd s).engine = { s.engine with tail := [] } := by
    unfold settleToEnd; split <;> simp [settleLocal]
  have hfl : (settleToEnd s).floor = s.floor := by simp
  have main : Hub s.floor.state { s.engine with tail := [], fullSettle := false } (settleToEnd s).feed := by
    have quiet : carriesSeq s.engine.tail = false → (settleToEnd s).feed = s.feed := by
      intro hc; unfold settleToEnd; rw [hc]; simp
    have base : ∀ g : Feed, g = s.feed → (s.floor.state.inTenure = true → FeedSound g 0) → Hub s.floor.state { s.engine with tail := [], fullSettle := false } g := by
      intro g hg hfs
      subst hg
      refine ⟨by simp, h.places, fun _ => hs, by simp, h.outside, h.handing, h.handingSent, h.outsideSent, h.mute, ?_, (by intro _ hh; cases hh), ?_, ?_, ?_, ?_⟩
      · intro x; exact ⟨fun _ => ⟨rfl, hfs (by rw [x]; rfl)⟩, fun hh => (by rw [show s.engine.settleOnEntry = true from hh] at hse; cases hse)⟩
      · intro x _; exact ⟨by simp, hfs (by rw [x]; rfl)⟩
      · intro hh; rw [show ({ s.engine with tail := [], fullSettle := false } : Engine).step = s.engine.step from rfl, hs] at hh; cases hh
      · intro hh; rw [show ({ s.engine with tail := [], fullSettle := false } : Engine).step = s.engine.step from rfl, hs] at hh; cases hh
      · intro hh; rw [show ({ s.engine with tail := [], fullSettle := false } : Engine).step = s.engine.step from rfl, hs] at hh; cases hh
    have withReq : OpenForm s.engine s.feed → s.floor.state.inTenure = true → Hub s.floor.state { s.engine with tail := [], fullSettle := false } (settleToEnd s).feed := by
      intro ho hten
      obtain ⟨f1, f2⟩ := ho.1 hse
      cases htl : s.engine.tail.isEmpty with
      | true =>
        have ht : s.engine.tail = [] := by simpa using htl
        rw [ht] at f2
        have hc : carriesSeq s.engine.tail = false := by rw [ht]; rfl
        exact base _ (quiet hc) (fun _ => by rw [quiet hc]; exact f2)
      | false =>
        have hc : carriesSeq s.engine.tail = true := by rw [carries_run f1, htl]; rfl
        have hfeed : (settleToEnd s).feed = s.feed.settle s.feed.nextSeq := by
          unfold settleToEnd
          rw [if_pos hc]
          have : feedOpen (settleLocal s) = true := by simp [feedOpen, hten]
          unfold handSettle
          rw [if_pos this]
          simp
        rw [hfeed]
        have hfs := settle_sound f2 (Nat.zero_le _)
        simp only [show s.feed.nextSeq - BitVec.ofNat 16 0 = s.feed.nextSeq by simp] at hfs
        obtain ⟨q1, q2, q3, q4, q5, q6, q7⟩ := settle_queueStep s.feed.nextSeq s.feed
        refine ⟨by simp, settle_places _ _ h.places, fun _ => hs, by simp, ?_, ?_, ?_, ?_, ?_, ?_, (by intro _ hh; cases hh), ?_, ?_, ?_, ?_⟩
        · intro x; rw [hten] at x; cases x
        · intro x
          refine ⟨q2.trans (h.handing x).1, q3.trans (h.handing x).2.1, ?_⟩
          intro y hy
          rcases q7 y hy with hy | hy
          · exact (h.handing x).2.2 y hy
          · cases y <;> simp_all [Frame.isSettle, Frame.isReplay]
        · intro x y hy; rw [q4] at hy; exact h.handingSent x y hy
        · intro x; rw [hten] at x; cases x
        · intro x; rw [x] at hten; cases hten
        · intro x; exact ⟨fun _ => ⟨rfl, hfs⟩, fun hh => (by rw [show s.engine.settleOnEntry = true from hh] at hse; cases hse)⟩
        · intro x _; exact ⟨by simp, hfs⟩
        · intro hh; rw [show ({ s.engine with tail := [], fullSettle := false } : Engine).step = s.engine.step from rfl, hs] at hh; cases hh
        · intro hh; rw [show ({ s.engine with tail := [], fullSettle := false } : Engine).step = s.engine.step from rfl, hs] at hh; cases hh
        · intro hh; rw [show ({ s.engine with tail := [], fullSettle := false } : Engine).step = s.engine.step from rfl, hs] at hh; cases hh
    cases hst : s.floor.state with
    | live => rw [← hst]; exact withReq (h.live hst) (by rw [hst]; rfl)
    | handing =>
      cases hfu : s.engine.fullSettle with
      | true => rw [← hst]; exact withReq (h.handFull hst hfu) (by rw [hst]; rfl)
      | false =>
        have hc := h.hand hst hfu
        rw [← hst]
        exact base _ (quiet (carries_none hc.1)) (fun _ => by rw [quiet (carries_none hc.1)]; exact hc.2)
    | standby => rw [← hst]; exact base _ (quiet (carries_none (h.shadowSeqs (by rw [hst]; rfl)))) (fun hh => by rw [hst] at hh; cases hh)
    | claiming => rw [← hst]; exact base _ (quiet (carries_none (h.shadowSeqs (by rw [hst]; rfl)))) (fun hh => by rw [hst] at hh; cases hh)
    | mute => rw [← hst]; exact base _ (quiet (carries_none (h.shadowSeqs (by rw [hst]; rfl)))) (fun hh => by rw [hst] at hh; cases hh)
  refine ⟨main, heng, ?_⟩
  intro hfu
  unfold HubS
  rw [heng, hfl]
  exact main.engine rfl rfl rfl rfl hfu

theorem buildHandover_hub {s : State} (h : HubS s) (hst : s.floor.state = .handing) : HubS (buildHandover s) ∧
    (buildHandover s).floor.state = .handing := by
  unfold buildHandover
  split
  · exact ⟨h, hst⟩
  · unfold offerHandover offer
    have : (s.setFloor { s.floor with lastOffered := some (handoverFrame s).offered }).floor.state = .handing := hst
    rw [this]
    simp only [show (FloorState.handing == FloorState.mute) = false from rfl, Bool.false_eq_true, if_false]
    refine ⟨?_, hst⟩
    exact Hub.offerHandover (st := s.floor.state) h (by rw [hst]; simp) (by rw [hst]; simp) _

theorem fullSettle_hub {s : State} (h : HubS s) (hs : s.engine.step = none) (hse : s.engine.settleOnEntry = false) :
    HubS (fullSettle s) ∧ (fullSettle s).engine.settleOnEntry = false ∧ (fullSettle s).engine.step = none ∧ (fullSettle s).engine.fullSettle = false ∧ (fullSettle s).floor.state = s.floor.state := by
  unfold fullSettle
  split
  · rename_i hfu
    dsimp only
    generalize hs1 : s.setEngine { s.engine with fullSettle := false } = s1
    have hclr : s.floor.state ≠ .handing → HubS s1 := by
      intro hne
      rw [← hs1]
      exact ⟨h.tailLen, h.places, fun _ => hs, h.shadowSeqs, h.outside, h.handing, h.handingSent, h.outsideSent, h.mute, h.live, (by intro _ hh; cases hh),
        fun x => absurd x hne, h.shadowStep, h.liveStep, h.room⟩
    split
    · rename_i hst
      have hst : s.floor.state = .handing := by simpa using hst
      have m := settleToEnd_hub h hs hse
      have hfeed : (settleToEnd s1).feed = (settleToEnd s).feed := by
        rw [← hs1]
        unfold settleToEnd settleLocal
        simp only [State.setEngine_engine, State.setEngine_feed, State.setEngine_setEngine]
        by_cases hcs : carriesSeq s.engine.tail = true
        · simp only [hcs, if_true]
          unfold handSettle
          have e1 : feedOpen (s.setEngine { s.engine with tail := [], fullSettle := false }) = feedOpen s := rfl
          have e2 : feedOpen (s.setEngine { s.engine with tail := [] }) = feedOpen s := rfl
          rw [e1, e2]
          split <;> rfl
        · simp only [hcs]; rfl
      have heng : (settleToEnd s1).engine = { s.engine with tail := [], fullSettle := false } := by
        rw [← hs1]
        unfold settleToEnd; split <;> simp [settleLocal]
      have hfl : (settleToEnd s1).floor = s.floor := by rw [← hs1]; simp
      have hh : HubS (settleToEnd s1) := by
        unfold HubS
        rw [heng, hfl, hfeed]; exact m.1
      have b := buildHandover_hub hh (by rw [hfl]; exact hst)
      have be : (buildHandover (settleToEnd s1)).engine = (settleToEnd s1).engine := by simp
      refine ⟨b.1, ?_, ?_, ?_, ?_⟩
      · rw [be, heng]; exact hse
      · rw [be, heng]; exact hs
      · rw [be, heng]
      · rw [b.2, hst]
    · rename_i hst
      have hst : s.floor.state ≠ .handing := by simpa using hst
      refine ⟨hclr hst, ?_, ?_, ?_, ?_⟩ <;> rw [← hs1] <;> simp [hs, hse]
  · rename_i hfu
    exact ⟨h, hse, hs, by simpa using hfu, rfl⟩

theorem boundaryWork_hub {s : State} (h : HubS s) (hs : s.engine.step = none) :
    HubS (boundaryWork s) ∧ HubDone (boundaryWork s).floor.state (boundaryWork s).engine ∧ (boundaryWork s).floor.state = s.floor.state ∧ (boundaryWork s).engine.step = none := by
  unfold boundaryWork
  obtain ⟨a1, a2, a3, a4⟩ := settleOnEntry_hub h hs
  obtain ⟨b1, b2, b3, b4, b5⟩ := fullSettle_hub a1 a3 a2
  have hfl : (fullSettle (settleOnEntry s)).floor.state = s.floor.state := by rw [b5]; simp
  generalize fullSettle (settleOnEntry s) = t at *
  unfold settleMute
  split
  · rename_i hm
    have hm : t.floor.state = .mute := by simpa using hm
    have := Hub.settledLocal b1 b3 (fun x => by rw [hm] at x; cases x) (fun x => by rw [hm] at x; cases x)
    have e : settleLocal t = t.setEngine { t.engine with tail := [], settleOnEntry := false } := by
      unfold settleLocal
      congr 1
      cases ht : t.engine; simp_all
    rw [e]
    refine ⟨this, ⟨by simp, by simp [b4], by simp⟩, by simpa using hfl, by simp [b3]⟩
  · rename_i hm
    refine ⟨b1, ⟨fun hh => (by rw [b2] at hh; cases hh), b4, fun x => absurd (by simpa using x) hm⟩, hfl, b3⟩

end Sys2Proof.Machine
end

