-- ==== Sys2Proof/Laws/TextSound.lean ====
section
/-! SUPPORT. The text a segment carries is printable and short enough for its frame (R72 to R78). -/

namespace Sys2Proof.Machine
set_option linter.all false

/-- At most 32 printable bytes. -/
def BodySound (b : List Byte) : Prop := b.length ≤ 32 ∧ ∀ c ∈ b, printable c = true

theorem printable_text {b : Byte} (h : printable b = true) : textChar b = true := by simp [textChar, h]

theorem orQuestion_printable (b : Byte) : printable (orQuestion b) = true := by
  unfold orQuestion
  split
  · assumption
  · decide

theorem raiseLetter_printable {b : Byte} (h : printable b = true) : printable (raiseLetter b) = true := by
  unfold raiseLetter
  split
  · simp only [printable, decide_eq_true_eq] at *
    bv_omega
  · exact h

theorem keysFrom_length (code : StrokeCode) (lo hi : Nat)
    : (keysFrom code lo hi).length ≤ ((List.finRange 24).filter fun p => decide (lo ≤ p.val ∧ p.val ≤ hi)).length := by
  unfold keysFrom
  rw [show (fun p : Fin 24 => decide (lo ≤ p.val ∧ p.val ≤ hi) && KeySet.has code p) = (fun p => (KeySet.has code p) && decide (lo ≤ p.val ∧ p.val ≤ hi)) by funext p; rw [Bool.and_comm]]
  rw [← List.filter_filter]
  exact List.length_filter_le _ _

theorem keysFrom_mem {code : StrokeCode} {lo hi : Nat} {p : Fin 24} (h : p ∈ keysFrom code lo hi) : lo ≤ p.val ∧
    p.val ≤ hi := by
  simp [keysFrom] at h; exact h.1

theorem legend_printable (p : Fin 24) : printable (legend p) = true := by
  revert p; decide

theorem digit_printable (p : Fin 24) (h : 12 ≤ p.val ∧ p.val ≤ 21) : printable (digit p) = true := by
  revert p; decide

theorem numeralText_body (code : StrokeCode) : BodySound (numeralText code) := by
  refine ⟨?_, ?_⟩
  · have := keysFrom_length code 12 21
    have h : ((List.finRange 24).filter fun p => decide (12 ≤ p.val ∧ p.val ≤ 21)).length = 10 := by decide
    simp only [numeralText, List.length_map]; omega
  · intro c hc
    simp only [numeralText, List.mem_map] at hc
    obtain ⟨p, hp, rfl⟩ := hc
    exact digit_printable p (keysFrom_mem hp)

theorem rawText_body (code : StrokeCode) : BodySound (rawText code) := by
  have h1 := keysFrom_length code 0 7
  have h2 := keysFrom_length code 8 11
  have h3 := keysFrom_length code 12 21
  have e1 : ((List.finRange 24).filter fun p => decide (0 ≤ p.val ∧ p.val ≤ 7)).length = 8 := by decide
  have e2 : ((List.finRange 24).filter fun p => decide (8 ≤ p.val ∧ p.val ≤ 11)).length = 4 := by decide
  have e3 : ((List.finRange 24).filter fun p => decide (12 ≤ p.val ∧ p.val ≤ 21)).length = 10 := by decide
  refine ⟨?_, ?_⟩
  · unfold rawText
    simp only [List.length_append, List.length_map]
    have l1 : (if KeySet.has code 23 = true then [0x23#8] else ([] : List Byte)).length ≤ 1 := by split <;> simp
    have l2 : (if KeySet.has code 22 = true then [0x2A#8] else ([] : List Byte)).length ≤ 1 := by split <;> simp
    have l3 : (if (!(keysFrom code 8 11).isEmpty) = true then (keysFrom code 8 11).map legend
        else if (!(keysFrom code 12 21).isEmpty || KeySet.has code 22) = true then [0x2D#8] else []).length ≤ 4 := by
      split
      · rw [List.length_map]; omega
      · split <;> simp
    omega
  · intro c hc
    unfold rawText at hc
    simp only [List.mem_append, List.mem_map] at hc
    rcases hc with (((hc | hc) | hc) | hc) | hc
    · split at hc
      · simp at hc; rw [hc]; decide
      · cases hc
    · obtain ⟨p, _, rfl⟩ := hc; exact legend_printable p
    · split at hc
      · simp only [List.mem_map] at hc
        obtain ⟨p, _, rfl⟩ := hc; exact legend_printable p
      · split at hc
        · simp at hc; rw [hc]; decide
        · cases hc
    · obtain ⟨p, _, rfl⟩ := hc; exact legend_printable p
    · split at hc
      · simp at hc; rw [hc]; decide
      · cases hc

theorem entryBody_body (e : Entry) : BodySound (entryBody e) := by
  refine ⟨by simp [entryBody], ?_⟩
  intro c hc
  simp only [entryBody, List.mem_map] at hc
  obtain ⟨b, _, rfl⟩ := hc
  exact orQuestion_printable b

theorem capitalStage_length (d : Descriptor) (c : Context) : (capitalStage d c).length = d.body.length := by
  unfold capitalStage; split <;> simp [*]

theorem capitalStage_chars (d : Descriptor) (c : Context) (h : ∀ x ∈ d.body, printable x = true)
    : ∀ x ∈ capitalStage d c, printable x = true := by
  unfold capitalStage
  split
  · simp
  · rename_i b rest hb
    rw [hb] at h
    intro x hx
    simp only [List.mem_cons] at hx
    rcases hx with rfl | hx
    · split
      · exact raiseLetter_printable (h b List.mem_cons_self)
      · exact h b List.mem_cons_self
    · exact h x (List.mem_cons_of_mem _ hx)

theorem labelText_sound (labels : Vector (List Byte) 16) (h : ∀ k : Fin 16, LabelSound labels[k])
    (o : Option (Fin 16)) : LabelSound (labelText labels o) := by
  unfold labelText
  split
  · exact ⟨by simp, by simp⟩
  · exact h _

theorem formSegment_sound (labels : Vector (List Byte) 16) (h : ∀ k : Fin 16, LabelSound labels[k]) (d : Descriptor)
    (c : Context) (hd : BodySound d.body) :
    (formSegment labels d c).1.length ≤ 51 ∧ ∀ x ∈ (formSegment labels d c).1, textChar x = true := by
  unfold formSegment
  split
  · unfold paragraphStage
    have hl := labelText_sound labels h (if d.speaker.isSome then d.speaker else c.speaker)
    dsimp only
    have hb1 : (if c.atParaStart = true then ([] : List Byte) else [0x0A#8, 0x0A#8]).length ≤ 2 := by split <;> simp
    have hb2 : ∀ x ∈ (if c.atParaStart = true then ([] : List Byte) else [0x0A#8, 0x0A#8]), textChar x = true := by
      split
      · simp
      · intro x hx; simp at hx; rw [hx]; decide
    generalize (if c.atParaStart = true then ([] : List Byte) else [0x0A#8, 0x0A#8]) = br at *
    generalize labelText labels (if d.speaker.isSome = true then d.speaker else c.speaker) = lab at *
    split
    · dsimp only
      refine ⟨by rw [List.length_append, capitalStage_length]; have := hd.1; omega, ?_⟩
      intro x hx
      rw [List.mem_append] at hx
      rcases hx with hx | hx
      · exact hb2 x hx
      · exact printable_text (capitalStage_chars _ _ hd.2 x hx)
    · dsimp only
      refine ⟨by simp only [List.length_append, capitalStage_length, List.length_cons, List.length_nil]; have := hd.1; have := hl.1; omega, ?_⟩
      intro x hx
      simp only [List.mem_append] at hx
      rcases hx with ((hx | hx) | hx) | hx
      · exact hb2 x hx
      · exact printable_text (hl.2 x hx)
      · simp at hx; rcases hx with rfl | rfl <;> decide
      · exact printable_text (capitalStage_chars _ _ hd.2 x hx)
  · have hs : (separatorStage d c).length ≤ 1 := by unfold separatorStage; split <;> simp
    have hs2 : ∀ x ∈ separatorStage d c, textChar x = true := by
      unfold separatorStage; split
      · simp
      · intro x hx; simp at hx; rw [hx]; decide
    dsimp only
    refine ⟨by rw [List.length_append, capitalStage_length]; have := hd.1; omega, ?_⟩
    intro x hx
    rw [List.mem_append] at hx
    rcases hx with hx | hx
    · exact hs2 x hx
    · exact printable_text (capitalStage_chars _ _ hd.2 x hx)

end Sys2Proof.Machine
end

