-- ==== Sys2Proof/Laws/StepSound.lean ====
section
/-! SUPPORT. The engine and the port inside and between steps: what a lookup's probes, its end and the placing of
a record keep (R22 to R35, R46 to R53). -/

namespace Sys2Proof.Machine
set_option linter.all false

/-- The form of the engine's tail, replay list and refusal count. -/
structure EngBase (e : Engine) : Prop where
  depth : e.tail.length ≤ e.depth
  records : ∀ r ∈ e.tail, RecordSound r
  replay : e.replay.length ≤ 7
  replayCodes : ∀ c ∈ e.replay, StrokeSound c
  refusals : e.refusals ≤ 65535

/-- A step works on a legal stroke code and a gap count of one byte. -/
def WorkSound (w : Work) : Prop := StrokeSound w.code ∧ w.gap ≤ 255

/-- the port with no slot read -/
structure PortIdle (p : Port) : Prop where
  faultCount : p.faults.length ≤ 8
  faultOnce : p.faults.Nodup
  faultRange : ∀ i ∈ p.faults, i < 2 ^ p.bits
  timeouts : p.timeouts ≤ 4
  fourDown : p.timeouts = 4 → p.up = false
  recovery : p.recoveryTimer.isSome = !p.up
  recoveryDown : p.read = .recovery → p.up = false
  lookup : p.lookup = none
  watchdog : p.watchdogTimer = none
  read : ∀ i, p.read ≠ .slot i

/-- The form of a state while a step's work is done. -/
structure InRun (s : State) : Prop where
  mid : Mid s 13
  base : EngBase s.engine
  port : PortIdle s.port
  timer : s.engine.settleTimer = none
  set : SettingsSound s

/-- The form of engine, feed and port between commands. -/
structure AtRest (s : State) : Prop where
  hub : HubS s
  done : HubDone s.floor.state s.engine
  base : EngBase s.engine
  work : ∀ w, s.engine.step = some w → WorkSound w
  port : PortSound s
  timer : s.engine.settleTimer.isSome = s.engine.step.isNone

theorem SettingsSound.congr {s s' : State} (h : SettingsSound s) (he : settings s' = settings s)
    : SettingsSound s' := by
  simp only [settings, Prod.mk.injEq] at he
  obtain ⟨e1, ⟨e2, e3, e4, e5⟩, e6, e7, ⟨e8, e9⟩, e10, e11, ⟨e12, e13, e14⟩, ⟨e15, e16, e17⟩, e18, e19⟩ := he
  exact ⟨by rw [e3]; exact h.bits, by rw [e2]; exact h.base, by rw [e4]; exact h.probeLimit, by rw [e5]; exact h.watchdog, by rw [e7]; exact h.labels,
    by rw [e8]; exact h.depth, by rw [e9]; exact h.settleIdle, by rw [e12]; exact h.presencePeriod, by rw [e12, e13]; exact h.absenceTimeout, by rw [e14]; exact h.claimWindow,
    by rw [e15]; exact h.debounceTime, by rw [e16]; exact h.releaseWindow, by rw [e17]; exact h.maxDuration⟩

theorem PortSound.idle {s : State} (h : PortSound s) (hs : s.engine.step = none) : PortIdle s.port :=
  ⟨h.faultCount, h.faultOnce, h.faultRange, h.timeouts, h.fourDown, h.recovery, h.recoveryDown, by
    have := h.waiting; rw [hs] at this; simpa using this, by have := h.watchdog; rw [hs] at this; simpa using this, h.between hs⟩

theorem PortIdle.sound {s : State} (h : PortIdle s.port) (hs : s.engine.step = none) : PortSound s :=
  ⟨h.faultCount, h.faultOnce, h.faultRange, h.timeouts, h.fourDown, h.recovery, h.recoveryDown, by rw [h.lookup, hs]; rfl, by rw [h.watchdog, hs]; rfl,
    fun _ => h.read, (by rw [hs]; intro hh; cases hh), (by rw [hs]; intro _ _ _ hh; cases hh)⟩

theorem EngBase.congr {e e' : Engine} (h : EngBase e) (h1 : e'.tail = e.tail) (h2 : e'.depth = e.depth)
    (h3 : e'.replay = e.replay) (h4 : e'.refusals = e.refusals) : EngBase e' :=
  ⟨by rw [h1, h2]; exact h.depth, by rw [h1]; exact h.records, by rw [h3]; exact h.replay, by rw [h3]; exact h.replayCodes, by rw [h4]; exact h.refusals⟩

theorem EngBase.tail {e e' : Engine} (h : EngBase e) (t : List Record) (hl : t.length ≤ e.depth)
    (hr : ∀ r ∈ t, RecordSound r) (h1 : e'.tail = t) (h2 : e'.depth = e.depth) (h3 : e'.replay = e.replay)
    (h4 : e'.refusals = e.refusals) : EngBase e' :=
  ⟨by rw [h1, h2]; exact hl, by rw [h1]; exact hr, by rw [h3]; exact h.replay, by rw [h3]; exact h.replayCodes, by rw [h4]; exact h.refusals⟩

/-- what the boundary work keeps of the engine -/
structure EngKeep (e e' : Engine) : Prop where
  step : e'.step = e.step
  replay : e'.replay = e.replay
  depth : e'.depth = e.depth
  settleTimer : e'.settleTimer = e.settleTimer
  refusals : e'.refusals = e.refusals
  tail : e'.tail.map (fun r => { r with seq := none }) = e.tail.map (fun r => { r with seq := none }) ∨ (e.step = none ∧ e'.tail = [])

theorem EngKeep.refl (e : Engine) : EngKeep e e := ⟨rfl, rfl, rfl, rfl, rfl, Or.inl rfl⟩

theorem EngKeep.trans {a b c : Engine} (h : EngKeep a b) (k : EngKeep b c) : EngKeep a c :=
  ⟨k.step.trans h.step, k.replay.trans h.replay, k.depth.trans h.depth, k.settleTimer.trans h.settleTimer, k.refusals.trans h.refusals, by
    rcases k.tail with hk | hk
    · rcases h.tail with hh | hh
      · exact Or.inl (hk.trans hh)
      · right; refine ⟨hh.1, ?_⟩
        rw [hh.2] at hk; simpa using hk
    · right; exact ⟨h.step ▸ hk.1, hk.2⟩⟩

theorem EngKeep.of_eq {e e' : Engine} (h : e' = e) : EngKeep e e' := h ▸ EngKeep.refl e

theorem keep_leave (e : Engine)
    : EngKeep e e.leaveTenure := ⟨rfl, rfl, rfl, rfl, rfl, Or.inl (by simp [Engine.leaveTenure])⟩
theorem keep_enter (e : Engine) : EngKeep e e.enterLive := ⟨rfl, rfl, rfl, rfl, rfl, Or.inl rfl⟩
theorem keep_full (e : Engine) (b : Bool)
    : EngKeep e { e with fullSettle := b } := ⟨rfl, rfl, rfl, rfl, rfl, Or.inl rfl⟩

theorem EngKeep.records {e e' : Engine} (h : EngKeep e e') (hr : ∀ r ∈ e.tail, RecordSound r)
    : ∀ r ∈ e'.tail, RecordSound r := by
  rcases h.tail with ht | ht
  · intro r hr'
    have : ({ r with seq := none } : Record) ∈ e'.tail.map (fun r => { r with seq := none }) := List.mem_map_of_mem hr'
    rw [ht] at this
    simp only [List.mem_map] at this
    obtain ⟨x, hx, hxe⟩ := this
    have hs := hr x hx
    simp only [Record.mk.injEq] at hxe
    obtain ⟨e1, e2, e3, e4, _, e5⟩ := hxe
    exact ⟨by rw [← e1]; exact hs.strokes, by rw [← e1]; exact hs.codes, by rw [← e3]; exact hs.text, by rw [← e3]; exact hs.chars⟩
  · rw [ht.2]; simp

theorem EngKeep.length {e e' : Engine} (h : EngKeep e e') : e'.tail.length ≤ e.tail.length := by
  rcases h.tail with ht | ht
  · have := congrArg List.length ht; simp at this; omega
  · rw [ht.2]; simp

theorem EngKeep.base {e e' : Engine} (h : EngKeep e e') (hb : EngBase e) : EngBase e' :=
  ⟨by rw [h.depth]; exact Nat.le_trans h.length hb.depth, h.records hb.records, by rw [h.replay]; exact hb.replay, by rw [h.replay]; exact hb.replayCodes, by rw [h.refusals]; exact hb.refusals⟩

theorem EngKeep.strokes {e e' : Engine} (h : EngKeep e e') (hs : e.step.isSome = true)
    : e'.tail.map Record.strokes = e.tail.map Record.strokes := by
  rcases h.tail with ht | ht
  · have := congrArg (List.map Record.strokes) ht
    simpa [List.map_map, Function.comp_def] using this
  · rw [ht.1] at hs; cases hs

theorem eligible_congr (b : Nat) (l l' : List Record) (h : l'.map Record.strokes = l.map Record.strokes)
    : eligible b l' = eligible b l := by
  induction l generalizing b l' with
  | nil => have : l' = [] := by simpa using h
           rw [this]
  | cons a r ih =>
    cases l' with
    | nil => simp at h
    | cons a' r' =>
      simp only [List.map_cons, List.cons.injEq] at h
      unfold eligible
      rw [h.1]
      split
      · rw [ih _ _ h.2]
      · rfl

theorem candidateKey_congr (t t' : List Record) (h : t'.map Record.strokes = t.map Record.strokes) (k : Nat)
    (c : StrokeCode) : candidateKey t' k c = candidateKey t k c := by
  have hl : t'.length = t.length := by have := congrArg List.length h; simpa using this
  unfold candidateKey tailNewest
  rw [List.flatMap_def, List.flatMap_def, List.map_drop, List.map_drop, h, hl]

theorem PortSound.congr {s s' : State} (h : PortSound s) (h1 : s'.port = s.port) (h2 : s'.engine.step = s.engine.step)
    (h3 : s.engine.step.isSome = true → s'.engine.tail.map Record.strokes = s.engine.tail.map Record.strokes) : PortSound s' := by
  refine ⟨by rw [h1]; exact h.faultCount, by rw [h1]; exact h.faultOnce, by rw [h1]; exact h.faultRange, by rw [h1]; exact h.timeouts, by rw [h1]; exact h.fourDown,
    by rw [h1]; exact h.recovery, by rw [h1]; exact h.recoveryDown, by rw [h1, h2]; exact h.waiting, by rw [h1, h2]; exact h.watchdog, by rw [h1, h2]; exact h.between,
    by rw [h1, h2]; exact h.stepUp, ?_⟩
  intro l w hl hw
  rw [h1] at hl
  rw [h2] at hw
  obtain ⟨a, b, c, d, e⟩ := h.serving l w hl hw
  have ht := h3 (by rw [hw]; rfl)
  refine ⟨by rw [h1]; exact a, by rw [h1]; exact b, by rw [h1]; exact c, ?_, ?_⟩
  · rw [candidateKey_congr _ _ ht]; exact d
  · rw [eligible_congr 7 s.engine.tail.reverse]
    · exact e
    · rw [List.map_reverse, ht, List.map_reverse]

theorem keep_boundaryWork (s : State) (hs : s.engine.step = none) : EngKeep s.engine (boundaryWork s).engine := by
  have h1 : EngKeep s.engine (settleOnEntry s).engine := by
    rw [settleOnEntry_eq]; split
    · exact ⟨rfl, rfl, rfl, rfl, rfl, Or.inr ⟨hs, rfl⟩⟩
    · exact EngKeep.refl _
  have h2 : ∀ t : State, t.engine.step = none → EngKeep t.engine (fullSettle t).engine := by
    intro t ht
    unfold fullSettle
    split
    · dsimp only
      split
      · rw [show (buildHandover (settleToEnd (t.setEngine { t.engine with fullSettle := false }))).engine = (settleToEnd (t.setEngine { t.engine with fullSettle := false })).engine by simp]
        have : (settleToEnd (t.setEngine { t.engine with fullSettle := false })).engine = { t.engine with fullSettle := false, tail := [] } := by
          unfold settleToEnd; split <;> simp [settleLocal]
        rw [this]
        exact ⟨rfl, rfl, rfl, rfl, rfl, Or.inr ⟨ht, rfl⟩⟩
      · exact keep_full _ _
    · exact EngKeep.refl _
  have h3 : ∀ t : State, t.engine.step = none → EngKeep t.engine (settleMute t).engine := by
    intro t ht
    unfold settleMute
    split
    · exact ⟨rfl, rfl, rfl, rfl, rfl, Or.inr ⟨ht, rfl⟩⟩
    · exact EngKeep.refl _
  unfold boundaryWork
  have a2 := h2 (settleOnEntry s) (by rw [h1.step]; exact hs)
  have h12 := h1.trans a2
  exact h12.trans (h3 _ (by rw [h12.step]; exact hs))

/-- A step ends. -/
theorem endStep_rest {s : State}
    (hm : Hub s.floor.state { s.engine with step := none } s.feed) (hb : EngBase s.engine) (hp : PortIdle s.port) : AtRest (endStep s) := by
  unfold endStep
  generalize hs1 : s.setEngine { s.engine with step := none, settleTimer := some s.engine.settleIdle } = s1
  have h1 : HubS s1 := by rw [← hs1]; exact hm.engine rfl rfl rfl rfl rfl
  have h2 : s1.engine.step = none := by rw [← hs1]; rfl
  have hk := keep_boundaryWork s1 h2
  obtain ⟨b1, b2, b3, b4⟩ := boundaryWork_hub h1 h2
  have hb1 : EngBase s1.engine := by rw [← hs1]; exact hb.congr rfl rfl rfl rfl
  refine ⟨b1, b2, hk.base hb1, (by rw [b4]; intro w hw; cases hw), ?_, ?_⟩
  · apply PortIdle.sound _ b4
    have : (boundaryWork s1).port = s.port := by rw [← hs1]; simp
    rw [this]; exact hp
  · rw [b4, hk.settleTimer, ← hs1]; rfl

theorem refuse_base {s : State} (h : EngBase s.engine) : EngBase (refuse s).engine := by
  unfold refuse
  simp only [requestPulse_frame, State.setEngine_engine]
  exact ⟨h.depth, h.records, h.replay, h.replayCodes, by simp [saturate]⟩

theorem reportGap_base {s : State} (h : EngBase s.engine) (gap : Nat) (t : Clock)
    : EngBase (reportGap gap t s).engine := by
  unfold reportGap
  (repeat' split)
  · exact h
  · simp [settleLocal]; exact h.tail [] (by simp) (by simp) rfl rfl rfl rfl
  · exact h

theorem tailKept_sub (t : List Record) (k : Nat) : ∀ r ∈ tailKept t k, r ∈ t := fun r hr => List.mem_of_mem_take hr

theorem placeRecord_base {s : State} (h : EngBase s.engine) (hd : 1 ≤ s.engine.depth) (r : Record)
    (hr : RecordSound r) (lf : Bool) : EngBase (placeRecord r lf s).engine := by
  by_cases hl : s.engine.tail = [] ∨ s.engine.tail.length < s.engine.depth
  · rw [placeRecord_keep r _ s hl]
    refine h.tail (s.engine.tail ++ [r]) ?_ ?_ rfl rfl rfl rfl
    · rcases hl with hl | hl
      · rw [hl]; simpa using hd
      · simp; omega
    · intro x hx; rw [List.mem_append] at hx; rcases hx with hx | hx
      · exact h.records x hx
      · simp at hx; rw [hx]; exact hr
  · obtain ⟨hl1, hl2⟩ := not_or.1 hl
    obtain ⟨oldest, rest, ht⟩ := List.exists_cons_of_ne_nil hl1
    rw [placeRecord_over r _ s oldest rest ht hl2]
    have hdp := h.depth
    have : EngBase (s.setEngine { s.engine with tail := rest ++ [r] }).engine := by
      refine h.tail (rest ++ [r]) ?_ ?_ rfl rfl rfl rfl
      · rw [ht] at hdp; simp at hdp ⊢; omega
      · intro x hx; rw [List.mem_append] at hx; rcases hx with hx | hx
        · exact h.records x (by rw [ht]; exact List.mem_cons_of_mem _ hx)
        · simp at hx; rw [hx]; exact hr
    split
    · rw [show ∀ q t, (handSettle q t).engine = t.engine by intro q t; simp]; exact this
    · exact this

/-! ## Candidates -/

theorem eligible_le (b : Nat) (l : List Record) : eligible b l ≤ l.length := by
  induction l generalizing b with
  | nil => simp [eligible]
  | cons a r ih => unfold eligible; split
                   · have := ih (b - a.strokes.length); simp; omega
                   · simp

theorem eligible_sum (b : Nat) (l : List Record) (k : Nat) (hk : k ≤ eligible b l)
    : ((l.take k).map fun r => r.strokes.length).sum ≤ b := by
  induction l generalizing b k with
  | nil => simp
  | cons a r ih =>
    cases k with
    | zero => simp
    | succ k =>
      unfold eligible at hk
      split at hk
      · have := ih (b - a.strokes.length) k (by omega)
        rw [List.take_succ_cons, List.map_cons, List.sum_cons]; omega
      · omega

theorem candidateKey_length (t : List Record) (k : Nat) (c : StrokeCode) (hk : k ≤ eligible 7 t.reverse)
    : 1 ≤ (candidateKey t k c).length ∧ (candidateKey t k c).length ≤ 8 := by
  have h1 := eligible_sum 7 t.reverse k hk
  have h2 := eligible_le 7 t.reverse
  have e : tailNewest t k = (t.reverse.take k).reverse := by
    rw [List.take_reverse, List.reverse_reverse]; rfl
  unfold candidateKey
  rw [List.length_append, List.length_flatMap, e, List.map_reverse, List.sum_reverse]
  simp at h1 ⊢
  omega

theorem candidateKey_codes (t : List Record) (h : ∀ r ∈ t, RecordSound r) (k : Nat) (c : StrokeCode)
    (hc : StrokeSound c) : ∀ x ∈ candidateKey t k c, StrokeSound x := by
  intro x hx
  unfold candidateKey at hx
  rw [List.mem_append, List.mem_flatMap] at hx
  rcases hx with ⟨r, hr, hx⟩ | hx
  · exact (h r (List.mem_of_mem_drop hr)).codes x hx
  · simp at hx; rw [hx]; exact hc

/-- A stroke step ends. -/
theorem finishStroke_rest {s : State} (h : InRun s) (k : Nat) (hk : k ≤ eligible 7 s.engine.tail.reverse)
    (kind : RecordKind) (d : Descriptor) (hd : BodySound d.body) (w : Work) (hw : WorkSound w) :
    AtRest (finishStroke k kind d w s) := by
  have hkl : k ≤ s.engine.tail.length := by have := eligible_le 7 s.engine.tail.reverse; simp at this; omega
  unfold finishStroke
  dsimp only
  -- s2
  have e1 : removeNewest k s = s.setEngine { s.engine with tail := tailKept s.engine.tail k, context := ((tailNewest s.engine.tail k).head?.map Record.saved).getD s.engine.context } := rfl
  generalize hsv : (removeNewest k s).engine.context = saved
  have hport : (removeNewest k s).port = s.port := by simp
  rw [hport]
  have hform := formSegment_sound s.port.labels h.set.labels d saved hd
  generalize hfm : formSegment s.port.labels d saved = formed at *
  generalize hs2 : handCutAt (cutPoint k s) ((removeNewest k s).setEngine { (removeNewest k s).engine with context := formed.2 }) = s2
  have h2 : Mid s2 14 := by
    rw [← hs2, e1]
    exact h.mid.cut (by omega) hkl _ rfl rfl rfl rfl
  have h2e : s2.engine = { s.engine with tail := tailKept s.engine.tail k, context := formed.2 } := by
    rw [← hs2, show ∀ p t, (handCutAt p t).engine = t.engine by intro p t; simp, e1]; rfl
  have h2p : s2.port = s.port := by rw [← hs2]; simp
  have h2b : EngBase s2.engine := by
    rw [h2e]
    refine h.base.tail (tailKept s.engine.tail k) ?_ (fun r hr => h.base.records r (tailKept_sub _ _ r hr)) rfl rfl rfl rfl
    rw [tailKept_length]; have := h.base.depth; omega
  have hdep : s2.engine.depth = s.engine.depth := by rw [h2e]
  have hset := h.set.depth
  have hrec : ∀ q, RecordSound (buildRecord kind (candidateKey s.engine.tail k w.code) formed.1 saved q w.faulted) := fun q =>
    ⟨candidateKey_length _ _ _ hk, candidateKey_codes _ h.base.records _ _ hw.1, hform.1, hform.2⟩
  have hmid := h2.finish (by rw [hdep]; exact hset.2) h2b.depth kind (candidateKey s.engine.tail k w.code) formed.1 saved w.faulted w.time w.gap
  refine endStep_rest hmid.hub ?_ ?_
  · apply reportGap_base
    have e3 : (if s2.engine.mode == .live then handAppend formed.1 w.faulted w.time s2 else s2).engine = s2.engine := by split <;> simp
    apply placeRecord_base (by rw [e3]; exact h2b) (by rw [e3, hdep]; omega) _ (hrec _)
  · have e3 : ∀ t, (if s2.engine.mode == .live then handAppend formed.1 w.faulted t s2 else s2).port = s2.port := by intro t; split <;> simp
    simp only [reportGap_frame, placeRecord_frame, e3, h2p]
    exact h.port

theorem slotIndex_lt (p : Port) (k : List StrokeCode) (j : Nat)
    : slotIndex p k j < 2 ^ p.bits := Nat.mod_lt _ (by positivity)

/-- A slot read starts. -/
theorem startRead_rest {s : State} (h : InRun s) (key : List StrokeCode) (j : Nat) (w : Work) (hw : WorkSound w)
    (hup : s.port.up = true) (hf : slotIndex s.port key j ∉ s.port.faults)
    (hj : j < s.port.probeLimit) (hkey : key = candidateKey s.engine.tail w.candidate w.code) (hc : w.candidate ≤ eligible 7 s.engine.tail.reverse) : AtRest (startRead key j w s) := by
  have hm := h.mid
  have hsh : s.engine.mode = .live → s.floor.state = .live ∧ s.engine.settleOnEntry = false := fun hh => ⟨(hm.live hh).1, (hm.live hh).2.1⟩
  refine ⟨?_, ?_, ?_, ?_, ?_, ?_⟩
  · have hu := hm.hub
    refine ⟨hu.tailLen, hu.places, ?_, hu.shadowSeqs, hu.outside, hu.handing, hu.handingSent, hu.outsideSent, hu.mute, hu.live, hu.handFull, hu.hand, ?_, ?_, ?_⟩
    · intro hh; have := hm.full; rw [show s.engine.fullSettle = true from hh] at this; cases this
    · intro _ hh; exact hsh hh
    · intro _ hst hse
      cases hmd : s.engine.mode with
      | live => exact hmd
      | shadow => have := hm.shadow hmd hst; rw [show s.engine.settleOnEntry = false from hse] at this; cases this
    · intro _ hh
      have := (hm.live hh).2.2
      show 3 ≤ s.feed.free
      simp only [Feed.free, Config.queuePlaces]; omega
  · exact ⟨fun _ => rfl, hm.full, fun _ hh => by cases hh⟩
  · exact h.base.congr rfl rfl rfl rfl
  · intro w' hw'
    cases hw'
    exact hw
  · have hp := h.port
    refine ⟨hp.faultCount, hp.faultOnce, hp.faultRange, hp.timeouts, hp.fourDown, hp.recovery, ?_, rfl, rfl, ?_, fun _ => hup, ?_⟩
    · intro hh; cases hh
    · intro hh; cases hh
    · intro l w' hl hw'
      cases hl
      cases hw'
      exact ⟨rfl, hf, hj, hkey, hc⟩
  · show s.engine.settleTimer.isSome = false
    rw [h.timer]; rfl

theorem lookupFrom_rest {s : State} (h : InRun s) (n : Nat) (w : Work) (hw : WorkSound w)
    (hn : n ≤ eligible 7 s.engine.tail.reverse + 1) : AtRest (lookupFrom n w s) := by
  induction n generalizing w with
  | zero =>
    unfold lookupFrom fallback
    split
    · exact finishStroke_rest h 0 (Nat.zero_le _) _ _ (numeralText_body _) w hw
    · exact finishStroke_rest h 0 (Nat.zero_le _) _ _ (rawText_body _) w hw
  | succ k ih =>
    unfold lookupFrom
    dsimp only
    split
    · rename_i hc
      simp only [Bool.and_eq_true, Bool.not_eq_true', List.contains_eq_mem, decide_eq_false_iff_not] at hc
      exact startRead_rest h _ 0 _ hw hc.1 hc.2 (by have := h.set.probeLimit; omega) rfl (by simp only; omega)
    · exact ih { w with faulted := true } hw (by omega)

theorem probeOn_rest {s : State} (h : InRun s) (key : List StrokeCode) (j : Nat) (w : Work) (hw : WorkSound w)
    (hup : s.port.up = true)
    (hkey : key = candidateKey s.engine.tail w.candidate w.code) (hc : w.candidate ≤ eligible 7 s.engine.tail.reverse) : AtRest (probeOn key j w s) := by
  unfold probeOn
  split
  · exact lookupFrom_rest h _ w hw (by omega)
  · split
    · exact lookupFrom_rest h _ { w with faulted := true } hw (by omega)
    · rename_i h1 h2
      exact startRead_rest h key (j + 1) w hw hup (by simpa using h2) (by omega) hkey hc

end Sys2Proof.Machine
end

