-- ==== Sys2Proof/Laws/FloorView.lean ====
section
/-! SUPPORT. The floor state machine and the station's view of the floor: what entering and leaving each state and
taking each frame keeps (R158 to R176). -/

namespace Sys2Proof.Machine
set_option linter.all false

/-- The part of the floor's form that its own operations depend on. -/
structure Viewed (s : State) : Prop where
  claimant : s.floor.claimant.isSome = true → s.floor.state.inTenure = true
  keptBack : s.floor.keptBack.isSome = true → s.floor.state = .handing
  origin : s.floor.origin.isSome = true ↔ s.floor.state = .claiming
  claimWindow : s.floor.claimTimer.isSome = true → s.floor.state = .claiming ∧ s.line.integrated = true
  absence : s.floor.absenceTimer.isSome = true ↔
    s.floor.state ≠ .mute ∧ s.floor.view.live ≠ none ∧ s.floor.view.live ≠ some s.station
  presence : s.floor.state ≠ .mute → s.line.integrated = true → s.floor.presenceTimer.isSome = true
  presenceMute : s.floor.state = .mute → s.floor.presenceTimer = none
  tenure : s.floor.state.inTenure = true → s.floor.view.live = some s.station →
    s.floor.view.epoch = s.feed.tenureEpoch ∧ s.feed.tenureEpoch.isSome = true
  armed : s.floor.autoClaim = false → s.floor.armed = false

theorem FloorSound.viewed {s : State} (h : FloorSound s) : Viewed s :=
  ⟨h.claimant, h.keptBack, h.origin, fun hh => ⟨(h.claimWindow.1 hh).1, (h.claimWindow.1 hh).2.2⟩, h.absence, h.presence, h.presenceMute,
    fun hh _ => (h.tenure hh).2, h.armed⟩

theorem Viewed.standby {s : State} (h : Viewed s) (hst : s.floor.state = .standby) : FloorSound s :=
  ⟨h.claimant, h.keptBack, h.origin, ⟨fun hh => (by have := (h.claimWindow hh).1; rw [hst] at this; cases this), fun hh => (by rw [hst] at hh; cases hh.1)⟩, h.absence, h.presence, h.presenceMute,
    fun hh => (by rw [hst] at hh; cases hh), h.armed⟩

theorem FloorSound.congr {s s' : State} (h : FloorSound s) (h1 : s'.floor = s.floor) (h2 : s'.station = s.station)
    (h3 : s'.line.integrated = s.line.integrated) (h4 : s'.feed.tenureEpoch = s.feed.tenureEpoch) : FloorSound s' :=
  ⟨by rw [h1]; exact h.claimant, by rw [h1]; exact h.keptBack, by rw [h1]; exact h.origin, by rw [h1, h3]; exact h.claimWindow, by rw [h1, h2]; exact h.absence,
    by rw [h1, h3]; exact h.presence, by rw [h1]; exact h.presenceMute, by rw [h1, h2, h4]; exact h.tenure, by rw [h1]; exact h.armed⟩

theorem Viewed.congr {s s' : State} (h : Viewed s) (h1 : s'.floor = s.floor) (h2 : s'.station = s.station)
    (h3 : s'.line.integrated = s.line.integrated) (h4 : s'.feed.tenureEpoch = s.feed.tenureEpoch) : Viewed s' :=
  ⟨by rw [h1]; exact h.claimant, by rw [h1]; exact h.keptBack, by rw [h1]; exact h.origin, by rw [h1, h3]; exact h.claimWindow, by rw [h1, h2]; exact h.absence,
    by rw [h1, h3]; exact h.presence, by rw [h1]; exact h.presenceMute, by rw [h1, h2, h4]; exact h.tenure, by rw [h1]; exact h.armed⟩

theorem HubS.congr {s s' : State} (h : HubS s) (h1 : s'.floor.state = s.floor.state) (h2 : s'.engine = s.engine)
    (h3 : s'.feed = s.feed) : HubS s' := by
  unfold HubS; rw [h1, h2, h3]; exact h

/-! ## Offers -/

theorem offer_tenureEpoch (place : Feed → Feed) (s : State) (h : ∀ f, (place f).tenureEpoch = f.tenureEpoch)
    : (offer place s).feed.tenureEpoch = s.feed.tenureEpoch := by
  unfold offer; split
  · rfl
  · exact h _

@[simp] theorem offerPresence_epoch (s : State) : (offerPresence s).feed.tenureEpoch = s.feed.tenureEpoch :=
  offer_tenureEpoch _ s fun f => (offerPresence_step f).epoch
@[simp] theorem offerClaim_epoch (w : Bool) (s : State) : (offerClaim w s).feed.tenureEpoch = s.feed.tenureEpoch :=
  offer_tenureEpoch _ s fun f => (offerClaim_step _ f).epoch
@[simp] theorem offerHandover_epoch (h : Handover) (s : State)
    : (offerHandover h s).feed.tenureEpoch = s.feed.tenureEpoch :=
  offer_tenureEpoch _ _ fun f => (offerHandover_step _ f).epoch

theorem offer_hub {place : Feed → Feed} {s : State} (h : HubS s)
    (hp : s.floor.state ≠ .mute → Hub s.floor.state s.engine (place s.feed)) : HubS (offer place s) := by
  unfold offer; split
  · exact h
  · rename_i hm
    exact hp (by simpa using hm)

theorem offerPresence_hub {s : State} (h : HubS s)
    : HubS (offerPresence s) := offer_hub h fun hm => Hub.offerPresence h hm
theorem offerClaim_hub {s : State} (h : HubS s) (hl : s.floor.state ≠ .live) (w : Bool)
    : HubS (offerClaim w s) := offer_hub h fun hm => Hub.offerClaim h hm hl _ _
theorem offerHandover_hub {s : State} (h : HubS s) (hl : s.floor.state ≠ .live) (ho : Handover)
    : HubS (offerHandover ho s) := by
  unfold offerHandover
  exact offer_hub (s := s.setFloor { s.floor with lastOffered := some ho.offered }) h fun hm => Hub.offerHandover h hm hl _

theorem offerPresence_floor {s : State} (h : FloorSound s)
    : FloorSound (offerPresence s) := h.congr (by simp) (by simp) (by simp) (by simp)
theorem offerClaim_floor {s : State} (h : FloorSound s) (w : Bool)
    : FloorSound (offerClaim w s) := h.congr (by simp) (by simp) (by simp) (by simp)

@[simp] theorem offerHandover_floorEq (ho : Handover) (s : State)
    : (offerHandover ho s).floor = { s.floor with lastOffered := some ho.offered } := by
  unfold offerHandover offer; split <;> rfl

theorem offerHandover_floor {s : State} (h : FloorSound s) (ho : Handover) : FloorSound (offerHandover ho s) := by
  have hs : FloorSound (s.setFloor { s.floor with lastOffered := some ho.offered }) :=
    ⟨h.claimant, h.keptBack, h.origin, h.claimWindow, h.absence, h.presence, h.presenceMute, h.tenure, h.armed⟩
  exact hs.congr (by simp) (by simp) (by simp) (by simp)

/-! ## Timers -/

theorem presenceLoad_isSome (f : Floor) : f.presenceLoad.isSome = (f.state != .mute) := by
  unfold Floor.presenceLoad; cases f.state <;> rfl

theorem loadPresence_floor {s : State} (h : FloorSound s) : FloorSound (loadPresence s) := by
  have hp := presenceLoad_isSome s.floor
  refine ⟨h.claimant, h.keptBack, h.origin, h.claimWindow, h.absence, ?_, ?_, h.tenure, h.armed⟩
  · intro hm _
    simp only [loadPresence, State.setFloor_floor] at hm ⊢
    rw [hp]; simpa using hm
  · intro hm
    simp only [loadPresence, State.setFloor_floor] at hm ⊢
    unfold Floor.presenceLoad; rw [hm]

/-- The presence timer is loaded where it did not run before. -/
theorem loadPresence_hub {s : State} (h : HubS s) : HubS (loadPresence s) := h
@[simp] theorem loadPresence_state (s : State) : (loadPresence s).floor.state = s.floor.state := rfl

theorem loadClaimWindow_hub {s : State} (h : HubS s) : HubS (loadClaimWindow s) := by
  unfold loadClaimWindow; split
  · exact h
  · exact h

/-- In CLAIMING the window runs as it must. -/
theorem loadClaimWindow_floor {s : State} (h : Viewed s) (hst : s.floor.state = .claiming)
    (hc : s.floor.claimTimer.isSome = true → s.floor.view.live = none) : FloorSound (loadClaimWindow s) := by
  unfold loadClaimWindow
  split
  · rename_i hh
    simp only [Bool.and_eq_true, beq_iff_eq, Option.isNone_iff_eq_none] at hh
    refine ⟨h.claimant, h.keptBack, h.origin, ?_, h.absence, h.presence, h.presenceMute, ?_, h.armed⟩
    · simp [hst, hh.1.1.2, hh.1.2]
    · simp [hst, FloorState.inTenure]
  · rename_i hh
    refine ⟨h.claimant, h.keptBack, h.origin, ?_, h.absence, h.presence, h.presenceMute, ?_, h.armed⟩
    · constructor
      · intro h1; exact ⟨hst, hc h1, (h.claimWindow h1).2⟩
      · intro h1
        by_contra hn
        apply hh
        simp [h1.1, h1.2.1, h1.2.2]
        simpa using hn
    · simp [hst, FloorState.inTenure]

theorem enterClaiming_floor {s : State} (h : FloorSound s) (hst : s.floor.state = .standby) (o : Origin)
    : FloorSound (enterClaiming o s) := by
  have hct : s.floor.claimTimer = none := by
    have := h.claimWindow
    rw [hst] at this
    simpa using this
  have hkb : s.floor.keptBack = none := by
    have := h.keptBack; rw [hst] at this; simpa using this
  have hcl : s.floor.claimant = none := by
    have := h.claimant; rw [hst] at this; simpa [FloorState.inTenure] using this
  unfold enterClaiming
  apply loadClaimWindow_floor
  · refine Viewed.congr (s := loadPresence (s.setFloor { s.floor with state := .claiming, origin := some o })) ?_ (by simp) (by simp) (by simp) (by simp)
    refine ⟨by simp [loadPresence, hcl], by simp [loadPresence, hkb], by simp [loadPresence], by simp [loadPresence, hct], ?_, ?_, by simp [loadPresence], by simp [loadPresence, FloorState.inTenure], h.armed⟩
    · have := h.absence
      simp only [hst] at this
      simp [loadPresence]
      simpa using this
    · simp [loadPresence, Floor.presenceLoad]
  · simp [loadPresence]
  · simp [loadPresence, hct]

theorem enterClaiming_hub {s : State} (h : HubS s) (hst : s.floor.state.inTenure = false) (o : Origin)
    : HubS (enterClaiming o s) := by
  unfold enterClaiming
  apply loadClaimWindow_hub
  apply offerClaim_hub
  · exact Hub.retitle (st' := .claiming) h hst rfl (by simp)
  · simp [loadPresence]

theorem leaveClaiming_floor {s : State} (h : Viewed s) (hst : s.floor.state = .claiming)
    : FloorSound (leaveClaiming s) := by
  have hkb : s.floor.keptBack = none := by
    have := h.keptBack; rw [hst] at this; simpa using this
  have hcl : s.floor.claimant = none := by
    have := h.claimant; rw [hst] at this; simpa [FloorState.inTenure] using this
  unfold leaveClaiming
  apply offerClaim_floor
  refine ⟨by simp [loadPresence, hcl], by simp [loadPresence, hkb], by simp [loadPresence], by simp [loadPresence], ?_, ?_, by simp [loadPresence], by simp [loadPresence, FloorState.inTenure], h.armed⟩
  · have := h.absence
    simp only [hst] at this
    simp [loadPresence]
    simpa using this
  · simp [loadPresence, Floor.presenceLoad]

theorem leaveClaiming_hub {s : State} (h : HubS s) (hst : s.floor.state.inTenure = false)
    : HubS (leaveClaiming s) := by
  unfold leaveClaiming
  apply offerClaim_hub
  · exact Hub.retitle (st' := .standby) h hst rfl (by simp)
  · simp [loadPresence]

theorem enterLive_floor {s : State} (h : Viewed s) (hst : s.floor.state ≠ .handing) (e : Epoch) (n : Seq)
    : FloorSound (enterLive e n s) := by
  have hkb : s.floor.keptBack = none := by
    have := h.keptBack
    by_contra hn
    exact hst (this (by cases hk : s.floor.keptBack; exact absurd hk hn; rfl))
  unfold enterLive
  refine ⟨by simp [loadPresence], by simp [loadPresence, hkb], by simp [loadPresence], by simp [loadPresence], ?_, ?_, by simp [loadPresence], ?_, h.armed⟩
  · simp [loadPresence]
  · simp [loadPresence, Floor.presenceLoad]
  · simp [loadPresence, Feed.openTenure]

theorem enterLive_hub {s : State} (h : HubS s) (hst : s.floor.state.inTenure = false) (e : Epoch) (n : Seq)
    : HubS (enterLive e n s) := by
  unfold enterLive
  apply loadPresence_hub
  exact Hub.enterLive h hst e n

theorem leaveTenure_floor {s : State} (h : Viewed s) (hst : s.floor.state.inTenure = true)
    : FloorSound (leaveTenure s) := by
  have hor : s.floor.origin = none := by
    have := h.origin
    cases ho : s.floor.origin with
    | none => rfl
    | some o => rw [ho] at this; have := this.1 rfl; rw [this] at hst; cases hst
  have hct : s.floor.claimTimer = none := by
    have := h.claimWindow
    cases ho : s.floor.claimTimer with
    | none => rfl
    | some o => rw [ho] at this; have := (this rfl).1; rw [this] at hst; cases hst
  have hm : s.floor.state ≠ .mute := by intro hh; rw [hh] at hst; cases hst
  unfold leaveTenure
  refine ⟨by simp [loadPresence], by simp [loadPresence], by simp [loadPresence, hor], by simp [loadPresence, hct], ?_, ?_, by simp [loadPresence], by simp [loadPresence, FloorState.inTenure], h.armed⟩
  · have := h.absence
    simp [loadPresence]
    simpa [hm] using this
  · simp [loadPresence, Floor.presenceLoad]

theorem leaveTenure_hub {s : State} (h : HubS s) : HubS (leaveTenure s) := by
  unfold leaveTenure
  apply loadPresence_hub
  exact Hub.leave h

@[simp] theorem leaveTenure_state (s : State) : (leaveTenure s).floor.state = .standby := rfl

theorem enterMute_floor {s : State} (h : FloorSound s) : FloorSound (enterMute s) := by
  unfold enterMute
  split
  · exact h
  · refine ⟨by simp, by simp, by simp, by simp, by simp, by simp, by simp, by simp [FloorState.inTenure], h.armed⟩

theorem enterMute_hub {s : State} (h : HubS s) : HubS (enterMute s) := by
  unfold enterMute
  split
  · exact h
  · exact Hub.enterMute h

theorem enterHanding_floor {s : State} (h : FloorSound s) (hst : s.floor.state = .live)
    : FloorSound (enterHanding s) := by
  have hor : s.floor.origin = none := by
    have := h.origin; rw [hst] at this
    simpa using this
  have hct : s.floor.claimTimer = none := by
    have := h.claimWindow; rw [hst] at this; simpa using this
  have hte : (s.feed.endReplay).tenureEpoch = s.feed.tenureEpoch := (withdraw_fields _ _).2.2.2.2.2.1
  unfold enterHanding
  refine ⟨by simp [FloorState.inTenure], by simp, by simp [hor], by simp [hct], ?_, ?_, by simp, ?_, h.armed⟩
  · have := h.absence
    simp
    simpa [hst] using this
  · have := h.presence (by rw [hst]; simp)
    simpa using this
  · have := h.tenure (by rw [hst]; rfl)
    simpa [FloorState.inTenure, hte] using this

theorem enterHanding_hub {s : State} (h : HubS s) (hst : s.floor.state = .live) (hs : s.engine.step = none)
    : HubS (enterHanding s) := by
  unfold enterHanding
  have h' : Hub .live s.engine s.feed := by unfold HubS at h; rw [hst] at h; exact h
  exact Hub.enterHanding h' hs

/-! ## The view -/

theorem moveView_viewed {s : State} (h : FloorSound s) (hm : s.floor.state ≠ .mute) (v : View)
    (ht : s.floor.state.inTenure = true → v.live = some s.station → v.epoch = s.feed.tenureEpoch) : Viewed (moveView v s) := by
  unfold moveView
  refine ⟨h.claimant, h.keptBack, h.origin, fun hh => ⟨(h.claimWindow.1 hh).1, (h.claimWindow.1 hh).2.2⟩, ?_, h.presence, h.presenceMute, ?_, ?_⟩
  · simp only [State.setFloor_floor, State.setFloor_station]
    unfold absenceLoad
    cases hv : v.live with
    | none => simp
    | some x =>
      by_cases hx : x = s.station
      · simp [hx]
      · simp [hx, hm]
  · intro h1 h2
    exact ⟨ht h1 h2, (h.tenure h1).2.2⟩
  · intro ha
    simp only [State.setFloor_floor] at ha ⊢
    split
    · exact ha
    · exact h.armed ha

theorem takeLineTime_floor {s : State} (h : FloorSound s) (f : Frame) : FloorSound (takeLineTime f s) := by
  unfold takeLineTime
  split
  · split
    · exact ⟨h.claimant, h.keptBack, h.origin, h.claimWindow, h.absence, h.presence, h.presenceMute, h.tenure, h.armed⟩
    · exact h
  · exact h

theorem takeLineTime_view (f : Frame) (s : State) : (takeLineTime f s).floor.view = s.floor.view ∧
    (takeLineTime f s).floor.state = s.floor.state := by
  unfold takeLineTime
  (repeat' split) <;> simp

theorem decline_floor {s : State} (h : FloorSound s) (ho : Handover) : FloorSound (decline ho s) := by
  unfold decline
  apply offerHandover_floor
  exact ⟨h.claimant, h.keptBack, h.origin, h.claimWindow, h.absence, h.presence, h.presenceMute, h.tenure, fun _ => rfl⟩

theorem reactStandby_rest {s : State} (h : FloorSound s) (hh : HubS s) (hst : s.floor.state = .standby) (f : Frame) :
    FloorSound (reactStandby f s) ∧ HubS (reactStandby f s) ∧ (reactStandby f s).engine = s.engine := by
  refine ⟨?_, ?_, by simp⟩
  · unfold reactStandby
    (repeat' split)
    · exact decline_floor h _
    · exact enterClaiming_floor h hst _
    · exact h
    · exact h
  · unfold reactStandby
    (repeat' split)
    · unfold decline
      exact offerHandover_hub (s := s.setFloor { s.floor with armed := false }) hh (by simp [hst]) _
    · exact enterClaiming_hub hh (by rw [hst]; rfl) _
    · exact hh
    · exact hh

theorem Viewed.pulse {s : State} (h : Viewed s)
    : Viewed (requestPulse s) := h.congr (by simp) (by simp) (by simp) (by simp)

theorem reactClaiming_rest {s : State} (h : Viewed s) (hh : HubS s) (hst : s.floor.state = .claiming) (v : Verdict)
    (f : Frame) :
    FloorSound (reactClaiming v f s) ∧ HubS (reactClaiming v f s) := by
  unfold reactClaiming
  split
  · rename_i hv
    exact ⟨loadClaimWindow_floor h hst (fun _ => hv), loadClaimWindow_hub hh⟩
  · rename_i x hv
    split
    · split
      · exact ⟨leaveClaiming_floor h.pulse (by simpa using hst), leaveClaiming_hub (hh.congr (by simp) (by simp) (by simp)) (by simp [hst, FloorState.inTenure])⟩
      · refine ⟨⟨h.claimant, h.keptBack, h.origin, ?_, h.absence, h.presence, h.presenceMute, ?_, h.armed⟩, hh⟩
        · simp [hv]
        · simp [hst, FloorState.inTenure]
    · exact ⟨leaveClaiming_floor h hst, leaveClaiming_hub hh (by rw [hst]; rfl)⟩

theorem reactToView_rest {s : State} (h : Viewed s) (hh : HubS s) (hm : s.floor.state ≠ .mute) (v : Verdict)
    (f : Frame) :
    FloorSound (reactToView v f s) ∧ HubS (reactToView v f s) ∧ EngKeep s.engine (reactToView v f s).engine := by
  have inTen : s.floor.state.inTenure = true → FloorSound (if s.floor.view.live = some s.station then s else if v == .adopted then reactStandby f (leaveTenure s) else leaveTenure s) ∧
      HubS (if s.floor.view.live = some s.station then s else if v == .adopted then reactStandby f (leaveTenure s) else leaveTenure s) ∧
      EngKeep s.engine (if s.floor.view.live = some s.station then s else if v == .adopted then reactStandby f (leaveTenure s) else leaveTenure s).engine := by
    intro hten
    split
    · rename_i hv
      refine ⟨⟨h.claimant, h.keptBack, h.origin, ?_, h.absence, h.presence, h.presenceMute, fun x => ⟨hv, h.tenure x hv⟩, h.armed⟩, hh, EngKeep.refl _⟩
      constructor
      · intro x; have := (h.claimWindow x).1; rw [this] at hten; cases hten
      · intro x; rw [x.1] at hten; cases hten
    · have l1 := leaveTenure_floor h hten
      have l2 := leaveTenure_hub hh
      have l3 : EngKeep s.engine (leaveTenure s).engine := keep_leave s.engine
      split
      · obtain ⟨r1, r2, r3⟩ := reactStandby_rest l1 l2 rfl f
        exact ⟨r1, r2, by rw [r3]; exact l3⟩
      · exact ⟨l1, l2, l3⟩
  unfold reactToView
  split
  · rename_i hst
    split
    · obtain ⟨r1, r2, r3⟩ := reactStandby_rest (h.standby hst) hh hst f
      exact ⟨r1, r2, EngKeep.of_eq r3⟩
    · exact ⟨h.standby hst, hh, EngKeep.refl _⟩
  · rename_i hst
    obtain ⟨r1, r2⟩ := reactClaiming_rest h hh hst v f
    exact ⟨r1, r2, EngKeep.of_eq (by simp)⟩
  · rename_i hst; exact inTen (by rw [hst]; rfl)
  · rename_i hst; exact inTen (by rw [hst]; rfl)
  · rename_i hst; exact absurd hst hm

theorem follow_live (w : View) (v : Verdict) (e : Option Epoch) (l : Option Station) (f : Frame)
    : (w.follow v e l f).live = l := rfl
theorem follow_epoch (w : View) (v : Verdict) (e : Option Epoch) (l : Option Station) (f : Frame) (h : v ≠ .adopted)
    : (w.follow v e l f).epoch = w.epoch := by
  unfold View.follow; simp [h]

theorem newLive_me (me : Station) (c : Option Station) : newLive me .adopted false c ≠ some me := by
  unfold newLive
  by_cases h : c = some me
  · simp [h]
  · simp [h]

theorem moved_viewed {s : State} (h : FloorSound s) (hm : s.floor.state ≠ .mute) (v : Verdict) (b : Bool)
    (hb : s.floor.state.inTenure = true → b = false) (e : Option Epoch) (c : Option Station) (f : Frame) (w : View)
    (hw : w = s.floor.view) :
    Viewed (moveView (w.follow v e (newLive s.station v b c) f) s) := by
  subst hw
  apply moveView_viewed h hm
  intro h1 h2
  rw [follow_live, hb h1] at h2
  have hv : v ≠ .adopted := by intro hh; rw [hh] at h2; exact newLive_me _ _ h2
  rw [follow_epoch _ _ _ _ _ hv]
  exact (h.tenure h1).2.1

/-- The floor's and the joint form of `t`, whose engine keeps what `e` had. -/
def Rest3 (e : Engine) (t : State) : Prop := FloorSound t ∧ HubS t ∧ EngKeep e t.engine

/-- The last part of taking a tenure frame: become live, or react to the verdict. -/
def becomeOrReact (b : Bool) (v : Verdict) (f : Frame) (t : State) : State :=
  match b, f with
  | true, .handover h => enterLive h.epoch h.nextSeq t
  | _, _ => reactToView v f t

theorem viewed_rest {t : State} (b : Bool) (v : Verdict) (f : Frame) (hb : b = true → t.floor.state = .claiming)
    (kv : Viewed t) (ht : HubS t) (hm : t.floor.state ≠ .mute) :
    Rest3 t.engine (becomeOrReact b v f t) := by
  unfold becomeOrReact
  split
  · have hcl := hb rfl
    exact ⟨enterLive_floor kv (by simp [hcl]) _ _, enterLive_hub ht (by simp [hcl, FloorState.inTenure]) _ _, keep_enter _⟩
  · exact reactToView_rest kv ht hm v f

theorem takeTenureFrame_rest {s : State} (h : FloorSound s) (hh : HubS s) (hm : s.floor.state ≠ .mute)
    (sender : Station) (e : Option Epoch) (f : Frame) :
    FloorSound (takeTenureFrame sender e f s) ∧ HubS (takeTenureFrame sender e f s) ∧ EngKeep s.engine (takeTenureFrame sender e f s).engine := by
  have hl := takeLineTime_view f s
  have l1 := takeLineTime_floor h f
  have l2 : HubS (takeLineTime f s) := hh.congr hl.2 (by simp) (by simp)
  have hb : ∀ v, makesLive s v f = true → s.floor.state = .claiming := by intro v hx; simp [makesLive] at hx; exact hx.1.1.1
  have key : ∀ v, Viewed (moveView ((takeLineTime f s).floor.view.follow v e (newLive s.station v (makesLive s v f) (f.candidate sender)) f) (takeLineTime f s)) := by
    intro v
    have := moved_viewed l1 (by rw [hl.2]; exact hm) v (makesLive s v f) (by rw [hl.2]; intro hx; by_contra hn; rw [hb v (by simpa using hn)] at hx; cases hx) e (f.candidate sender) f _ rfl
    simpa using this
  have fin : ∀ v, Rest3 s.engine (becomeOrReact (makesLive s v f) v f
      (moveView ((takeLineTime f s).floor.view.follow v e (newLive s.station v (makesLive s v f) (f.candidate sender)) f) (takeLineTime f s))) := by
    intro v
    have r := viewed_rest (makesLive s v f) v f
      (fun hx => by simp [moveView, hl.2]; exact hb _ hx) (key v) (l2.congr (by simp [moveView]) (by simp) (by simp)) (by simp [moveView, hl.2]; exact hm)
    exact ⟨r.1, r.2.1, (EngKeep.of_eq (by simp)).trans r.2.2⟩
  unfold takeTenureFrame
  dsimp only
  split
  · exact ⟨h, hh, EngKeep.refl _⟩
  · split
    · exact ⟨offerPresence_floor h, offerPresence_hub hh, EngKeep.of_eq (by simp)⟩
    · exact ⟨h, hh, EngKeep.refl _⟩
  · exact fin _
  · exact fin _

theorem applyOwnHandover_rest {s : State} (h : FloorSound s) (hh : HubS s) (hm : s.floor.state ≠ .mute)
    (ho : Handover) :
    FloorSound (applyOwnHandover ho s) ∧ HubS (applyOwnHandover ho s) ∧ EngKeep s.engine (applyOwnHandover ho s).engine := by
  have key : ∀ v, Viewed (moveView (s.floor.view.follow v (some ho.epoch) (newLive s.station v false ho.successor) (.handover ho)) s) := fun v =>
    moved_viewed h hm v false (fun _ => rfl) _ _ _ _ rfl
  have fin : ∀ v, let t := moveView (s.floor.view.follow v (some ho.epoch) (newLive s.station v false ho.successor) (.handover ho)) s
      FloorSound (reactToView v (.handover ho) t) ∧ HubS (reactToView v (.handover ho) t) ∧ EngKeep s.engine (reactToView v (.handover ho) t).engine := by
    intro v
    have ht : EngKeep s.engine (moveView (s.floor.view.follow v (some ho.epoch) (newLive s.station v false ho.successor) (.handover ho)) s).engine := EngKeep.of_eq (by simp)
    obtain ⟨r1, r2, r3⟩ := reactToView_rest (key v) (hh.congr (by simp [moveView]) (by simp) (by simp)) (by simp [moveView]; exact hm) v (.handover ho)
    exact ⟨r1, r2, ht.trans r3⟩
  unfold applyOwnHandover
  dsimp only
  split
  · exact ⟨h, hh, EngKeep.refl _⟩
  · exact ⟨h, hh, EngKeep.refl _⟩
  · exact fin _
  · exact fin _

theorem unnameClaimant_rest {s : State} (h : FloorSound s) (hh : HubS s) (hst : s.floor.state = .handing)
    : FloorSound (unnameClaimant s) ∧ HubS (unnameClaimant s) := by
  unfold unnameClaimant
  dsimp only
  split
  · exact ⟨⟨by simp, fun _ => hst, h.origin, h.claimWindow, h.absence, h.presence, h.presenceMute, h.tenure, h.armed⟩, hh⟩
  · split
    · refine ⟨⟨by simp, h.keptBack, h.origin, h.claimWindow, h.absence, h.presence, h.presenceMute, h.tenure, h.armed⟩, ?_⟩
      have h' : Hub s.floor.state s.engine s.feed := hh
      exact Hub.unname h' (by rw [hst]; simp) (by rw [hst]; simp)
    · exact ⟨⟨by simp, h.keptBack, h.origin, h.claimWindow, h.absence, h.presence, h.presenceMute, h.tenure, h.armed⟩, hh⟩

theorem takeClaim_rest {s : State} (h : FloorSound s) (hh : HubS s) (sender : Station) (w : Bool) :
    FloorSound (takeClaim sender w s) ∧ HubS (takeClaim sender w s) ∧ EngKeep s.engine (takeClaim sender w s).engine := by
  refine ⟨?_, ?_, EngKeep.of_eq (by simp)⟩
  · unfold takeClaim
    split
    · rename_i hst
      have base : ∀ c, FloorSound (s.setFloor { s.floor with claimant := c }) := fun c =>
        ⟨fun _ => by simp [hst, FloorState.inTenure], h.keptBack, h.origin, h.claimWindow, h.absence, h.presence, h.presenceMute, h.tenure, h.armed⟩
      (repeat' split)
      · exact base _
      · exact h
      · exact base _
      · exact h
    · rename_i hst
      split
      · exact (unnameClaimant_rest h hh hst).1
      · exact h
    · rename_i hst
      split
      · apply leaveClaiming_floor
        · split
          · exact h.viewed.pulse
          · exact h.viewed
        · split <;> simp [hst]
      · exact h
    · exact h
    · exact h
  · unfold takeClaim
    split
    · (repeat' split) <;> exact hh
    · rename_i hst
      split
      · exact (unnameClaimant_rest h hh hst).2
      · exact hh
    · rename_i hst
      split
      · apply leaveClaiming_hub
        · split
          · exact hh.congr (by simp) (by simp) (by simp)
          · exact hh
        · split <;> simp [hst, FloorState.inTenure]
      · exact hh
    · exact hh
    · exact hh

theorem floorTakes_rest {s : State} (h : FloorSound s) (hh : HubS s) (sender : Station) (f : Frame) :
    FloorSound (floorTakes sender f s) ∧ HubS (floorTakes sender f s) ∧ EngKeep s.engine (floorTakes sender f s).engine := by
  unfold floorTakes
  split
  · exact ⟨h, hh, EngKeep.refl _⟩
  · rename_i hm
    have hm : s.floor.state ≠ .mute := by simpa using hm
    split
    · exact takeClaim_rest h hh _ _
    · split
      · exact takeTenureFrame_rest h hh hm _ _ _
      · exact ⟨h, hh, EngKeep.refl _⟩

end Sys2Proof.Machine
end

