-- ==== Sys2Proof/Laws/SendingFrame.lean ====
section
/-! SUPPORT. Which operations leave the frame being sent on the line as it is. -/

namespace Sys2Proof.Machine
set_option linter.all false

/-- The frame being sent, without its withdrawal mark. -/
def Feed.sentFrame (f : Feed) : Option Frame := f.sending.map Sending.frame

@[simp] theorem join_sent (fr : Frame) (f : Feed)
    : (f.join fr).sentFrame = f.sentFrame := by unfold Feed.sentFrame; rw [(join_step _ _).sending]
@[simp] theorem joinHeld_sent (f : Feed)
    : f.joinHeld.sentFrame = f.sentFrame := by unfold Feed.sentFrame; rw [(joinHeld_step _).sending]
@[simp] theorem withdraw_sent (p : Frame → Bool) (f : Feed) : (f.withdraw p).sentFrame = f.sentFrame := by
  unfold Feed.sentFrame; rw [(withdraw_fields _ _).2.2.2.2.2.2, Option.map_map]
  congr 1; funext x; simp only [Function.comp]; split <;> rfl
@[simp] theorem offerPresence_fsent (f : Feed)
    : f.offerPresence.sentFrame = f.sentFrame := by unfold Feed.sentFrame; rw [(offerPresence_step _).sending]
@[simp] theorem offerClaim_fsent (fr : Frame) (f : Feed)
    : (f.offerClaim fr).sentFrame = f.sentFrame := by unfold Feed.sentFrame; rw [(offerClaim_step _ _).sending]
@[simp] theorem offerHandover_fsent (h : Handover) (f : Feed)
    : (f.offerHandover h).sentFrame = f.sentFrame := by unfold Feed.sentFrame; rw [(offerHandover_step _ _).sending]
@[simp] theorem unname_fsent (f : Feed) : f.unnameHandover.sentFrame = f.sentFrame := rfl
@[simp] theorem push_sent (b : SegmentBody) (t : Clock) (f : Feed)
    : (f.push b t).sentFrame = f.sentFrame := by unfold Feed.sentFrame; rw [(push_queue _ _ _).2.1]
@[simp] theorem append_sent (c : List Byte) (d : Bool) (t : Clock) (f : Feed)
    : (f.append c d t).sentFrame = f.sentFrame := by unfold Feed.append Feed.joinSegment; simp
@[simp] theorem appendSettling_sent (b : SegmentBody) (t : Clock) (f : Feed)
    : (f.appendSettling b t).sentFrame = f.sentFrame := by
  unfold Feed.appendSettling Feed.joinSegment; simp only [join_sent, withdraw_sent]; exact push_sent b t f
@[simp] theorem settle_sent (b : Seq) (f : Feed)
    : (f.settle b).sentFrame = f.sentFrame := by unfold Feed.sentFrame; rw [(settle_queueStep _ _).2.2.2.1]
@[simp] theorem cut_sent (q : Seq) (f : Feed) : (f.cut q).sentFrame = f.sentFrame := by
  have h := withdraw_sent (Frame.cutBy q) f
  unfold Feed.cut
  dsimp only
  split
  · show Feed.sentFrame (Feed.join _ _) = _
    rw [join_sent]; exact h
  · exact h
@[simp] theorem openTenure_sent (e : Epoch) (n : Seq) (f : Feed) : (f.openTenure e n).sentFrame = f.sentFrame := rfl
@[simp] theorem endReplay_sent (f : Feed) : f.endReplay.sentFrame = f.sentFrame := by unfold Feed.endReplay; simp; rfl
@[simp] theorem closeTenure_sent (f : Feed)
    : f.closeTenure.sentFrame = f.sentFrame := by unfold Feed.closeTenure; simp; rfl
@[simp] theorem rewind_sent (q : Seq) (f : Feed)
    : (f.rewind q).sentFrame = f.sentFrame := by unfold Feed.sentFrame; rw [(rewind_frame _ _).2.1]
@[simp] theorem generate_sent (f : Feed)
    : f.generate.sentFrame = f.sentFrame := by unfold Feed.sentFrame; rw [(generate_frame _).2.1]
@[simp] theorem mark_sent (t : Clock) (f : Feed)
    : (f.mark t).sentFrame = f.sentFrame := by unfold Feed.mark; simp; rfl
@[simp] theorem lost_sent (c : Byte) (t : Clock) (f : Feed)
    : (f.lost c t).sentFrame = f.sentFrame := by unfold Feed.lost; simp

/-- The frame the station is sending. -/
def sentFrame (s : State) : Option Frame := s.feed.sentFrame

variable (s : State)
@[simp] theorem sent_feed : s.feed.sentFrame = sentFrame s := rfl
@[simp] theorem sent_setFeed (f : Feed) : sentFrame (s.setFeed f) = f.sentFrame := rfl
@[simp] theorem sent_setEngine (e : Engine) : sentFrame (s.setEngine e) = sentFrame s := rfl
@[simp] theorem sent_setFloor (e : Floor) : sentFrame (s.setFloor e) = sentFrame s := rfl
@[simp] theorem sent_setPort (e : Port) : sentFrame (s.setPort e) = sentFrame s := rfl
@[simp] theorem sent_setIntake (e : Intake) : sentFrame (s.setIntake e) = sentFrame s := rfl
@[simp] theorem sent_setLine (e : LineInterface) : sentFrame (s.setLine e) = sentFrame s := rfl
@[simp] theorem sent_pulse : sentFrame (requestPulse s) = sentFrame s := rfl

@[simp] theorem handCut_sentF (q : Seq) : sentFrame (handCut q s) = sentFrame s := by
  unfold handCut
  try dsimp only
  (repeat' split) <;> simp

@[simp] theorem handSettle_sentF (q : Seq) : sentFrame (handSettle q s) = sentFrame s := by
  unfold handSettle
  try dsimp only
  (repeat' split) <;> simp

@[simp] theorem handAppend_sentF (c : List Byte) (d : Bool) (t : Clock)
    : sentFrame (handAppend c d t s) = sentFrame s := by
  unfold handAppend
  try dsimp only
  (repeat' split) <;> simp

@[simp] theorem handMark_sentF (t : Clock) : sentFrame (handMark t s) = sentFrame s := by
  unfold handMark
  try dsimp only
  (repeat' split) <;> simp

@[simp] theorem handLost_sentF (n : Nat) (t : Clock) : sentFrame (handLost n t s) = sentFrame s := by
  unfold handLost
  try dsimp only
  (repeat' split) <;> simp

@[simp] theorem refuse_sentF  : sentFrame (refuse s) = sentFrame s := by
  unfold refuse
  try dsimp only
  (repeat' split) <;> simp

@[simp] theorem settleLocal_sentF  : sentFrame (settleLocal s) = sentFrame s := by
  unfold settleLocal
  try dsimp only
  (repeat' split) <;> simp

@[simp] theorem settleToEnd_sentF  : sentFrame (settleToEnd s) = sentFrame s := by
  unfold settleToEnd
  try dsimp only
  (repeat' split) <;> simp

@[simp] theorem placeRecord_sentF (r : Record) (l : Bool) : sentFrame (placeRecord r l s) = sentFrame s := by
  unfold placeRecord
  try dsimp only
  (repeat' split) <;> simp

@[simp] theorem removeNewest_sentF (k : Nat) : sentFrame (removeNewest k s) = sentFrame s := by
  unfold removeNewest
  try dsimp only
  (repeat' split) <;> simp

@[simp] theorem handCutAt_sentF (p : Option Seq) : sentFrame (handCutAt p s) = sentFrame s := by
  unfold handCutAt
  try dsimp only
  (repeat' split) <;> simp

@[simp] theorem reportGap_sentF (g : Nat) (t : Clock) : sentFrame (reportGap g t s) = sentFrame s := by
  unfold reportGap
  try dsimp only
  (repeat' split) <;> simp

@[simp] theorem offerPresence_sentF  : sentFrame (offerPresence s) = sentFrame s := by
  unfold offerPresence offer
  try dsimp only
  (repeat' split) <;> simp

@[simp] theorem offerClaim_sentF (w : Bool) : sentFrame (offerClaim w s) = sentFrame s := by
  unfold offerClaim offer
  try dsimp only
  (repeat' split) <;> simp

@[simp] theorem offerHandover_sentF (h : Handover) : sentFrame (offerHandover h s) = sentFrame s := by
  unfold offerHandover offer
  try dsimp only
  (repeat' split) <;> simp

@[simp] theorem loadPresence_sentF  : sentFrame (loadPresence s) = sentFrame s := by
  unfold loadPresence
  try dsimp only
  (repeat' split) <;> simp

@[simp] theorem loadClaimWindow_sentF  : sentFrame (loadClaimWindow s) = sentFrame s := by
  unfold loadClaimWindow
  try dsimp only
  (repeat' split) <;> simp

@[simp] theorem enterClaiming_sentF (o : Origin) : sentFrame (enterClaiming o s) = sentFrame s := by
  unfold enterClaiming
  try dsimp only
  (repeat' split) <;> simp

@[simp] theorem leaveClaiming_sentF  : sentFrame (leaveClaiming s) = sentFrame s := by
  unfold leaveClaiming
  try dsimp only
  (repeat' split) <;> simp

@[simp] theorem enterLive_sentF (e : Epoch) (n : Seq) : sentFrame (enterLive e n s) = sentFrame s := by
  unfold enterLive
  try dsimp only
  (repeat' split) <;> simp

@[simp] theorem enterHanding_sentF  : sentFrame (enterHanding s) = sentFrame s := by
  unfold enterHanding
  try dsimp only
  (repeat' split) <;> simp

@[simp] theorem leaveTenure_sentF  : sentFrame (leaveTenure s) = sentFrame s := by
  unfold leaveTenure
  try dsimp only
  (repeat' split) <;> simp

@[simp] theorem buildHandover_sentF  : sentFrame (buildHandover s) = sentFrame s := by
  unfold buildHandover
  try dsimp only
  (repeat' split) <;> simp

@[simp] theorem settleOnEntry_sentF  : sentFrame (settleOnEntry s) = sentFrame s := by
  unfold settleOnEntry
  try dsimp only
  (repeat' split) <;> simp

@[simp] theorem fullSettle_sentF  : sentFrame (fullSettle s) = sentFrame s := by
  unfold fullSettle
  try dsimp only
  (repeat' split) <;> simp

@[simp] theorem settleMute_sentF  : sentFrame (settleMute s) = sentFrame s := by
  unfold settleMute
  try dsimp only
  (repeat' split) <;> simp

@[simp] theorem boundaryWork_sentF  : sentFrame (boundaryWork s) = sentFrame s := by
  unfold boundaryWork
  try dsimp only
  (repeat' split) <;> simp

@[simp] theorem boundaryIfBetween_sentF  : sentFrame (boundaryIfBetween s) = sentFrame s := by
  unfold boundaryIfBetween
  try dsimp only
  (repeat' split) <;> simp

@[simp] theorem takeLineTime_sentF (f : Frame) : sentFrame (takeLineTime f s) = sentFrame s := by
  unfold takeLineTime
  try dsimp only
  (repeat' split) <;> simp

@[simp] theorem moveView_sentF (v : View) : sentFrame (moveView v s) = sentFrame s := by
  unfold moveView
  try dsimp only
  (repeat' split) <;> simp

@[simp] theorem decline_sentF (h : Handover) : sentFrame (decline h s) = sentFrame s := by
  unfold decline
  try dsimp only
  (repeat' split) <;> simp

@[simp] theorem reactStandby_sentF (f : Frame) : sentFrame (reactStandby f s) = sentFrame s := by
  unfold reactStandby
  try dsimp only
  (repeat' split) <;> simp

@[simp] theorem reactClaiming_sentF (v : Verdict) (f : Frame) : sentFrame (reactClaiming v f s) = sentFrame s := by
  unfold reactClaiming
  try dsimp only
  (repeat' split) <;> simp

@[simp] theorem reactToView_sentF (v : Verdict) (f : Frame) : sentFrame (reactToView v f s) = sentFrame s := by
  unfold reactToView
  try dsimp only
  (repeat' split) <;> simp

@[simp] theorem takeTenureFrame_sentF (a : Station) (e : Option Epoch) (f : Frame)
    : sentFrame (takeTenureFrame a e f s) = sentFrame s := by
  unfold takeTenureFrame
  try dsimp only
  (repeat' split) <;> simp

@[simp] theorem applyOwnHandover_sentF (h : Handover) : sentFrame (applyOwnHandover h s) = sentFrame s := by
  unfold applyOwnHandover
  try dsimp only
  (repeat' split) <;> simp

@[simp] theorem unnameClaimant_sentF  : sentFrame (unnameClaimant s) = sentFrame s := by
  unfold unnameClaimant
  try dsimp only
  (repeat' split) <;> simp

@[simp] theorem takeClaim_sentF (a : Station) (w : Bool) : sentFrame (takeClaim a w s) = sentFrame s := by
  unfold takeClaim
  try dsimp only
  (repeat' split) <;> simp

@[simp] theorem floorTakes_sentF (a : Station) (f : Frame) : sentFrame (floorTakes a f s) = sentFrame s := by
  unfold floorTakes
  try dsimp only
  (repeat' split) <;> simp

@[simp] theorem floorItem_sentF  : sentFrame (floorItem s) = sentFrame s := by
  unfold floorItem
  try dsimp only
  (repeat' split) <;> simp

@[simp] theorem pauseReport_sentF  : sentFrame (pauseReport s) = sentFrame s := by
  unfold pauseReport
  try dsimp only
  (repeat' split) <;> simp

@[simp] theorem endStep_sentF  : sentFrame (endStep s) = sentFrame s := by
  unfold endStep
  try dsimp only
  (repeat' split) <;> simp

@[simp] theorem finishStroke_sentF (k : Nat) (kd : RecordKind) (d : Descriptor) (w : Work)
    : sentFrame (finishStroke k kd d w s) = sentFrame s := by
  unfold finishStroke
  try dsimp only
  (repeat' split) <;> simp

@[simp] theorem fallback_sentF (w : Work) : sentFrame (fallback w s) = sentFrame s := by
  unfold fallback
  try dsimp only
  (repeat' split) <;> simp

@[simp] theorem startRead_sentF (k : List StrokeCode) (j : Nat) (w : Work)
    : sentFrame (startRead k j w s) = sentFrame s := by
  unfold startRead
  try dsimp only
  (repeat' split) <;> simp

@[simp] theorem lookupFrom_sentF (n : Nat) (w : Work) : sentFrame (lookupFrom n w s) = sentFrame s := by
  induction n generalizing w with
  | zero => unfold lookupFrom; simp
  | succ n ih => unfold lookupFrom; dsimp only; split <;> simp [ih]

@[simp] theorem probeOn_sentF (k : List StrokeCode) (j : Nat) (w : Work)
    : sentFrame (probeOn k j w s) = sentFrame s := by
  unfold probeOn
  try dsimp only
  (repeat' split) <;> simp

@[simp] theorem retractStroke_sentF (t : Clock) : sentFrame (retractStroke t s) = sentFrame s := by
  unfold retractStroke
  try dsimp only
  (repeat' split) <;> simp

@[simp] theorem wordRetract_sentF (n : Nat) : sentFrame (wordRetract n s) = sentFrame s := by
  unfold wordRetract
  try dsimp only
  (repeat' split) <;> simp

@[simp] theorem strokeStep_sentF (c : StrokeCode) (t : Clock) (g : Nat)
    : sentFrame (strokeStep c t g s) = sentFrame s := by
  unfold strokeStep
  try dsimp only
  (repeat' split) <;> simp

@[simp] theorem takeStroke_sentF (c : StrokeCode) (t : Clock) (g : Nat)
    : sentFrame (takeStroke c t g s) = sentFrame s := by
  unfold takeStroke
  try dsimp only
  (repeat' split) <;> simp

@[simp] theorem markItem_sentF (t : Clock) : sentFrame (markItem t s) = sentFrame s := by
  unfold markItem
  try dsimp only
  (repeat' split) <;> simp

@[simp] theorem takeItem_sentF (i : Item) : sentFrame (takeItem i s) = sentFrame s := by
  unfold takeItem
  try dsimp only
  (repeat' split) <;> simp

@[simp] theorem openStep_sentF  : sentFrame (openStep s) = sentFrame s := by
  unfold openStep
  try dsimp only
  (repeat' split) <;> simp

@[simp] theorem beginStep_sentF  : sentFrame (beginStep s) = sentFrame s := by
  unfold beginStep
  try dsimp only
  (repeat' split) <;> simp

@[simp] theorem judgeRead_sentF (i : Nat) (l : Lookup) (w : Work) (b : List Byte)
    : sentFrame (judgeRead i l w b s) = sentFrame s := by
  unfold judgeRead
  try dsimp only
  (repeat' split) <;> simp

@[simp] theorem completeSlotRead_sentF (o : ReadOwner) (b : List Byte)
    : sentFrame (completeSlotRead o b s) = sentFrame s := by
  unfold completeSlotRead
  try dsimp only
  (repeat' split) <;> simp

@[simp] theorem expireWatchdog_sentF  : sentFrame (expireWatchdog s) = sentFrame s := by
  unfold expireWatchdog
  try dsimp only
  (repeat' split) <;> simp

@[simp] theorem expireSettleIdle_sentF  : sentFrame (expireSettleIdle s) = sentFrame s := by
  unfold expireSettleIdle
  try dsimp only
  (repeat' split) <;> simp

@[simp] theorem feedTakes_sentF (f : Frame) : sentFrame (feedTakes f s) = sentFrame s := by
  unfold feedTakes
  try dsimp only
  (repeat' split) <;> simp

@[simp] theorem integrationReported_sentF  : sentFrame (integrationReported s) = sentFrame s := by
  unfold integrationReported
  try dsimp only
  (repeat' split) <;> simp

@[simp] theorem endIntegration_sentF  : sentFrame (endIntegration s) = sentFrame s := by
  unfold endIntegration
  try dsimp only
  (repeat' split) <;> simp

@[simp] theorem leaveHanding_sentF (h : Handover) : sentFrame (leaveHanding h s) = sentFrame s := by
  unfold leaveHanding
  try dsimp only
  (repeat' split) <;> simp

@[simp] theorem releaseKeptBack_sentF (h : Handover) : sentFrame (releaseKeptBack h s) = sentFrame s := by
  unfold releaseKeptBack
  try dsimp only
  (repeat' split) <;> simp

@[simp] theorem handoverSent_sentF (h : Handover) : sentFrame (handoverSent h s) = sentFrame s := by
  unfold handoverSent
  try dsimp only
  (repeat' split) <;> simp

@[simp] theorem frameSent_sentF (f : Frame) : sentFrame (frameSent f s) = sentFrame s := by
  unfold frameSent
  try dsimp only
  (repeat' split) <;> simp

@[simp] theorem generateReplay_sentF  : sentFrame (generateReplay s) = sentFrame s := by
  unfold generateReplay
  try dsimp only
  (repeat' split) <;> simp

@[simp] theorem reactToVacancy_sentF  : sentFrame (reactToVacancy s) = sentFrame s := by
  unfold reactToVacancy
  try dsimp only
  (repeat' split) <;> simp

@[simp] theorem expireAbsence_sentF  : sentFrame (expireAbsence s) = sentFrame s := by
  unfold expireAbsence
  try dsimp only
  (repeat' split) <;> simp

@[simp] theorem takeFloor_sentF  : sentFrame (takeFloor s) = sentFrame s := by
  unfold takeFloor
  try dsimp only
  (repeat' split) <;> simp

@[simp] theorem expireClaimWindow_sentF  : sentFrame (expireClaimWindow s) = sentFrame s := by
  unfold expireClaimWindow
  try dsimp only
  (repeat' split) <;> simp

@[simp] theorem expirePresence_sentF  : sentFrame (expirePresence s) = sentFrame s := by
  unfold expirePresence
  try dsimp only
  (repeat' split) <;> simp

end Sys2Proof.Machine
end

