-- ==== Sys2Proof/Laws/PortSound.lean ====
section
/-! SUPPORT. The form of a station whose start-up has ended, part by part, and the commands of the dictionary
port that keep it (R20 to R35). -/

namespace Sys2Proof.Machine
set_option linter.all false

/-- The form of a station whose start-up has ended, part by part. -/
structure Up (s : State) : Prop where
  ended : s.startup.ended = true
  startup : StartupSound s
  settings : SettingsSound s
  scanner : ScannerSound s.scanner
  intake : IntakeSound s.intake
  balance : StrokeBalance s
  rest : AtRest s
  line : LineSound s
  floor : FloorSound s

theorem StartupSound.keep {s s' : State} (h : StartupSound s) (he : s.startup.ended = true)
    (e : s'.startup = s.startup) : StartupSound s' :=
  ⟨by rw [e]; exact h.reading, by rw [e]; exact h.limit, by rw [e]; exact h.judged, (by rw [e, he]; intro hh; cases hh), (by rw [e, he]; intro hh; cases hh), (by rw [e, he]; intro hh; cases hh), (by rw [e, he]; intro hh; cases hh),
    (by rw [e, he]; intro hh; cases hh), (by rw [e, he]; intro hh; cases hh), (by rw [e, he]; intro hh; cases hh)⟩

theorem sendingLevels_eq (s : State)
    : sendingLevels s = match sentFrame s with | some f => f.levels s.station | none => [] := by
  unfold sendingLevels sentFrame Feed.sentFrame
  cases s.feed.sending <;> rfl

theorem LineSound.keep {s s' : State} (h : LineSound s) (e1 : s'.line = s.line) (e2 : sentFrame s' = sentFrame s)
    (e3 : s'.station = s.station) (e4 : s'.startup.ended = s.startup.ended) : LineSound s' := by
  have hl : sendingLevels s' = sendingLevels s := by rw [sendingLevels_eq, sendingLevels_eq, e2, e3]
  have hs : s'.feed.sending.isSome = s.feed.sending.isSome := by
    have := congrArg Option.isSome e2
    simpa [sentFrame, Feed.sentFrame] using this
  refine ⟨by rw [e1]; exact h.idle, by rw [e1]; exact h.driven, by rw [e1]; exact h.oneRun, by rw [e1]; exact h.collisions, by rw [e1]; exact h.errors, by rw [e1]; exact h.charBits,
    by rw [e1]; exact h.receiving, by rw [e1, hs]; exact h.transmitting, by rw [e1]; exact h.quiet, by rw [e1, hl]; exact h.readBack, by rw [e1, hl]; exact h.unread, by rw [e1, e4]; exact h.integrated, ?_⟩
  intro x hx
  have h2 : sentFrame s' = some x.frame := by simp [sentFrame, Feed.sentFrame, hx]
  rw [e2] at h2
  simp only [sentFrame, Feed.sentFrame, Option.map_eq_some_iff] at h2
  obtain ⟨y, hy, hyx⟩ := h2
  rw [← hyx]
  exact h.sendingFilled y hy

theorem Up.of {s s' : State} (h : Up s) (e1 : s'.startup = s.startup)
    (e2 : Sys2Proof.Machine.settings s' = Sys2Proof.Machine.settings s) (e3 : s'.scanner = s.scanner)
    (e4 : s'.intake = s.intake)
    (r : AtRest s') (l : LineSound s') (f : FloorSound s') : Up s' :=
  ⟨by rw [e1]; exact h.ended, h.startup.keep h.ended e1, h.settings.congr e2, by rw [e3]; exact h.scanner, by rw [e4]; exact h.intake,
    by unfold StrokeBalance; rw [e3, e4]; exact h.balance, r, l, f⟩

/-- AtRest from the hub parts, the engine kept -/
theorem AtRest.keep {s s' : State} (h : AtRest s) (hh : HubS s') (hd : HubDone s'.floor.state s'.engine)
    (hk : EngKeep s.engine s'.engine) (hp : s'.port = s.port) : AtRest s' :=
  ⟨hh, hd, hk.base h.base, by rw [hk.step]; exact h.work, h.port.congr hp hk.step hk.strokes, by rw [hk.settleTimer, hk.step]; exact h.timer⟩

theorem HubDone.congr {st : FloorState} {e : Engine} (h : HubDone st e) {st' : FloorState}
    (hm : st' = .mute → st = .mute) : HubDone st' e :=
  ⟨h.entry, h.full, fun x => h.muteTail (hm x)⟩

theorem AtRest.same {s s' : State} (h : AtRest s) (h1 : s'.floor.state = s.floor.state) (h2 : s'.engine = s.engine)
    (h3 : s'.feed = s.feed) (h4 : s'.port = s.port) : AtRest s' :=
  h.keep (h.hub.congr h1 h2 h3) (by rw [h1, h2]; exact h.done) (EngKeep.of_eq h2) h4

/-- change of engine tail by boundary -/
theorem boundaryIfBetween_rest {s t : State} (h : AtRest s) (hh : HubS t) (hf : FloorSound t)
    (hk : EngKeep s.engine t.engine) (hp : t.port = s.port)
    (hfull : t.engine.fullSettle = true → t.engine.step = none)
    (hff : t.engine.step.isSome = true → t.engine.fullSettle = false) :
    AtRest (boundaryIfBetween t) := by
  unfold boundaryIfBetween
  split
  · rename_i hs
    have hs : t.engine.step = none := by simpa using hs
    obtain ⟨b1, b2, b3, b4⟩ := boundaryWork_hub hh hs
    exact h.keep b1 b2 (hk.trans (keep_boundaryWork t hs)) (by simp [hp])
  · rename_i hs
    have hs : t.engine.step.isSome = true := by cases ht : t.engine.step <;> simp_all
    refine h.keep hh ⟨fun _ => hs, hff hs, fun _ hn => by rw [hn] at hs; cases hs⟩ hk hp

theorem HubS.fullStep {t : State} (h : HubS t) : t.engine.step.isSome = true → t.engine.fullSettle = false := by
  intro hs
  by_contra hn
  have := h.full (by simpa using hn)
  rw [this] at hs; cases hs

theorem settleToEnd_floor {s : State} (h : FloorSound s) : FloorSound (settleToEnd s) := by
  refine h.congr (by simp) (by simp) (by simp) ?_
  unfold settleToEnd
  split
  · unfold handSettle
    split
    · simp [(settle_queueStep _ _).2.2.2.2.1]
    · simp
  · simp

theorem buildHandover_floor {s : State} (h : FloorSound s) (hst : s.floor.state = .handing)
    : FloorSound (buildHandover s) := by
  unfold buildHandover
  split
  · exact ⟨h.claimant, fun _ => hst, h.origin, h.claimWindow, h.absence, h.presence, h.presenceMute, h.tenure, h.armed⟩
  · exact offerHandover_floor h _

theorem boundaryWork_floor {s : State} (h : FloorSound s) : FloorSound (boundaryWork s) := by
  have h1 : FloorSound (settleOnEntry s) := h.congr (by simp) (by simp) (by simp) (by simp)
  have h2 : ∀ t, FloorSound t → FloorSound (fullSettle t) := by
    intro t ht
    unfold fullSettle
    split
    · dsimp only
      have h0 : FloorSound (t.setEngine { t.engine with fullSettle := false }) := ht.congr rfl rfl rfl rfl
      split
      · rename_i hst
        exact buildHandover_floor (settleToEnd_floor h0) (by simpa using hst)
      · exact h0
    · exact ht
  have h3 : ∀ t, FloorSound t → FloorSound (settleMute t) := by
    intro t ht
    unfold settleMute
    split
    · exact ht.congr (by simp) (by simp) (by simp) (by simp)
    · exact ht
  exact h3 _ (h2 _ h1)

theorem boundaryIfBetween_floor {s : State} (h : FloorSound s) : FloorSound (boundaryIfBetween s) := by
  unfold boundaryIfBetween; split
  · exact boundaryWork_floor h
  · exact h

/-! ## engine commands -/

theorem slotRead_eq {s : State} {i : Nat} {l : Lookup} {w : Work} (h : slotRead s = some (i, l, w))
    : s.port.read = .slot i ∧ s.port.lookup = some l ∧ s.engine.step = some w := by
  unfold slotRead at h
  split at h
  · rename_i a b c h1 h2 h3
    simp only [Option.some.injEq, Prod.mk.injEq] at h
    obtain ⟨rfl, rfl, rfl⟩ := h
    exact ⟨h1, h2, h3⟩
  · cases h

theorem AtRest.mid {s : State} (h : AtRest s) (hs : s.engine.step.isSome = true) : Mid s 13 := by
  refine ⟨h.hub.noStep, h.done.full, ?_, ?_⟩
  · intro hm
    obtain ⟨a, b⟩ := h.hub.shadowStep hs hm
    refine ⟨a, b, ?_⟩
    have := h.hub.room hs hm
    simp only [Feed.free, Config.queuePlaces] at this; omega
  · intro hm hst
    by_contra hn
    have := h.hub.liveStep hs hst (by simpa using hn)
    rw [hm] at this; cases this

theorem recordFault_ok {p : Port} {i : Nat} (h1 : p.faults.length ≤ 8) (h2 : p.faults.Nodup)
    (h3 : ∀ j ∈ p.faults, j < 2 ^ p.bits) (hi : i < 2 ^ p.bits) :
    (p.recordFault i).faults.length ≤ 8 ∧ (p.recordFault i).faults.Nodup ∧ (∀ j ∈ (p.recordFault i).faults, j < 2 ^ p.bits) := by
  unfold Port.recordFault
  split
  · exact ⟨h1, h2, h3⟩
  · rename_i hc
    split
    · rename_i hl
      simp only [Config.faultEntries] at hl
      refine ⟨by simp; omega, ?_, ?_⟩
      · rw [List.nodup_append]
        refine ⟨h2, by simp, ?_⟩
        intro a ha b hb
        simp at hb; subst hb
        intro hh; subst hh
        exact hc (by simpa using ha)
      · intro j hj
        simp at hj
        rcases hj with hj | rfl
        · exact h3 j hj
        · exact hi
    · exact ⟨h1, h2, h3⟩

theorem recordFault_frame (p : Port) (i : Nat) : (p.recordFault i).timeouts = p.timeouts ∧
    (p.recordFault i).up = p.up ∧ (p.recordFault i).recoveryTimer = p.recoveryTimer ∧
    (p.recordFault i).read = p.read ∧ (p.recordFault i).lookup = p.lookup ∧ (p.recordFault i).watchdogTimer = p.watchdogTimer ∧ (p.recordFault i).bits = p.bits := by
  unfold Port.recordFault; (repeat' split) <;> simp

/-- the slot read has ended -/
theorem ended_port {s : State} (h : PortSound s) (hs : s.engine.step.isSome = true) (n : Nat) (hn : n ≤ 3) :
    PortIdle { s.port.endRead with timeouts := n } := by
  have hup := h.stepUp hs
  exact ⟨h.faultCount, h.faultOnce, h.faultRange, by show n ≤ 4; omega, fun x => (by have : n = 4 := x; omega), h.recovery, fun x => (by cases x), rfl, rfl, fun i x => (by cases x)⟩

theorem PortIdle.record {p : Port} (h : PortIdle p) {i : Nat} (hi : i < 2 ^ p.bits) : PortIdle (p.recordFault i) := by
  obtain ⟨a, b, c⟩ := recordFault_ok h.faultCount h.faultOnce h.faultRange hi
  obtain ⟨f1, f2, f3, f4, f5, f6, f7⟩ := recordFault_frame p i
  exact ⟨a, b, by rw [f7]; exact c, by rw [f1]; exact h.timeouts, by rw [f1, f2]; exact h.fourDown, by rw [f2, f3]; exact h.recovery, by rw [f4, f2]; exact h.recoveryDown,
    by rw [f5]; exact h.lookup, by rw [f6]; exact h.watchdog, by rw [f4]; exact h.read⟩

theorem InRun.setIdlePort {s : State} (hr : AtRest s) (hset : SettingsSound s) (hs : s.engine.step.isSome = true)
    (p : Port) (hp : PortIdle p)
    (e : p.bits = s.port.bits ∧ p.base = s.port.base ∧ p.probeLimit = s.port.probeLimit ∧ p.watchdog = s.port.watchdog ∧ p.acceptedCrc = s.port.acceptedCrc ∧ p.labels = s.port.labels) : InRun (s.setPort p) := by
  refine ⟨(hr.mid hs).congr rfl rfl rfl, hr.base, hp, ?_, hset.congr (settings_setPort s p e.2.1 e.1 e.2.2.1 e.2.2.2.1 e.2.2.2.2.1 e.2.2.2.2.2)⟩
  have := hr.timer
  cases hst : s.engine.step with
  | none => rw [hst] at hs; cases hs
  | some w => rw [hst] at this; simpa using this

theorem completeSlotRead_rest {s : State} (h : AtRest s) (hset : SettingsSound s) (o : ReadOwner) (b : List Byte)
    : AtRest (completeSlotRead o b s) := by
  unfold completeSlotRead
  split
  · rename_i i l w hr
    obtain ⟨h1, h2, h3⟩ := slotRead_eq hr
    have hs : s.engine.step.isSome = true := by rw [h3]; rfl
    obtain ⟨s1, s2, s3, s4, s5⟩ := h.port.serving l w h2 h3
    have hup := h.port.stepUp hs
    have hi : i < 2 ^ s.port.bits := by rw [h1] at s1; simp only [Read.slot.injEq] at s1; rw [s1]; exact slotIndex_lt _ _ _
    have hw := h.work w h3
    split
    · have hidle := ended_port h.port hs 0 (by omega)
      have hrun := InRun.setIdlePort h hset hs { s.port.endRead with timeouts := 0 } hidle ⟨rfl, rfl, rfl, rfl, rfl, rfl⟩
      unfold judgeRead
      split
      · have hrun2 : InRun ((s.setPort { s.port.endRead with timeouts := 0 }).setPort (({ s.port.endRead with timeouts := 0 } : Port).recordFault i)) := by
          have := InRun.setIdlePort h hset hs (({ s.port.endRead with timeouts := 0 } : Port).recordFault i) (hidle.record hi) (by
            have := recordFault_settings i ({ s.port.endRead with timeouts := 0 } : Port)
            exact ⟨this.2.1, this.1, this.2.2.1, this.2.2.2.1, this.2.2.2.2.1, this.2.2.2.2.2⟩)
          exact this
        exact lookupFrom_rest hrun2 _ { w with faulted := true } hw (by simp only [State.setPort_engine]; omega)
      · exact lookupFrom_rest hrun _ w hw (by simp only [State.setPort_engine]; omega)
      · exact finishStroke_rest hrun _ s5 _ _ (entryBody_body _) w hw
      · exact probeOn_rest hrun _ _ w hw hup s4 s5
    · exact h
  · exact h

theorem PortIdle.timeout {p : Port} (h : PortIdle p) (hup : p.up = true) (hr : p.read = .none)
    : PortIdle p.timeout := by
  unfold Port.timeout saturate
  dsimp only
  have h3 : p.timeouts ≠ 4 := fun x => by have := h.fourDown x; rw [hup] at this; cases this
  have h4 := h.timeouts
  split
  · rename_i hh
    exact ⟨h.faultCount, h.faultOnce, h.faultRange, by simp [Config.timeoutsToDown], fun _ => rfl, rfl, fun _ => rfl, h.lookup, h.watchdog, h.read⟩
  · rename_i hh
    simp only [Config.timeoutsToDown] at hh
    exact ⟨h.faultCount, h.faultOnce, h.faultRange, by simp [Config.timeoutsToDown], fun x => by simp [Config.timeoutsToDown] at x; omega, h.recovery, h.recoveryDown, h.lookup, h.watchdog, h.read⟩

theorem expireWatchdog_rest {s : State} (h : AtRest s) (hset : SettingsSound s) : AtRest (expireWatchdog s) := by
  unfold expireWatchdog
  split
  · rename_i i l w hr
    obtain ⟨h1, h2, h3⟩ := slotRead_eq hr
    have hs : s.engine.step.isSome = true := by rw [h3]; rfl
    obtain ⟨s1, s2, s3, s4, s5⟩ := h.port.serving l w h2 h3
    have hup := h.port.stepUp hs
    have hi : i < 2 ^ s.port.bits := by rw [h1] at s1; simp only [Read.slot.injEq] at s1; rw [s1]; exact slotIndex_lt _ _ _
    have hw := h.work w h3
    split
    · have hidle : PortIdle s.port.endRead := by
        have h3' : s.port.timeouts ≤ 3 := by
          have := h.port.timeouts
          by_contra hn
          have := h.port.fourDown (by omega)
          rw [hup] at this; cases this
        exact ended_port h.port hs s.port.timeouts h3'
      have hrec : PortIdle (s.port.endRead.recordFault i) := hidle.record hi
      obtain ⟨f1, f2, f3, f4, f5, f6, f7⟩ := recordFault_frame s.port.endRead i
      have hto := hrec.timeout (by rw [f2]; exact hup) (by rw [f4]; rfl)
      have e1 := recordFault_settings i s.port.endRead
      have e2 := timeout_settings (s.port.endRead.recordFault i)
      have hrun := InRun.setIdlePort h hset hs _ hto ⟨e2.2.1.trans e1.2.1, e2.1.trans e1.1, e2.2.2.1.trans e1.2.2.1, e2.2.2.2.1.trans e1.2.2.2.1, e2.2.2.2.2.1.trans e1.2.2.2.2.1, e2.2.2.2.2.2.trans e1.2.2.2.2.2⟩
      exact lookupFrom_rest hrun _ { w with faulted := true } hw (by simp only [State.setPort_engine]; omega)
    · exact h
  · exact h

theorem expireRecovery_rest {s : State} (h : AtRest s) : AtRest (expireRecovery s) := by
  unfold expireRecovery
  split
  · rename_i hc
    have hup : s.port.up = false := by simp at hc; exact hc.1
    have hs : s.engine.step = none := by
      by_contra hn
      have := h.port.stepUp (by cases hst : s.engine.step; exact absurd hst hn; rfl)
      rw [hup] at this; cases this
    have hp := h.port
    have hi := hp.idle hs
    exact ⟨h.hub.congr rfl rfl rfl, h.done, h.base, h.work, PortIdle.sound (s := s.setPort _) ⟨hi.faultCount, hi.faultOnce, hi.faultRange, hi.timeouts, hi.fourDown, by simp [hup], fun _ => hup, hi.lookup, hi.watchdog, fun i x => (by cases x)⟩ hs, h.timer⟩
  · exact h

theorem completeRecovery_rest {s : State} (h : AtRest s) (o : ReadOwner) (b : List Byte)
    : AtRest (completeRecovery o b s) := by
  unfold completeRecovery
  split
  · rename_i hc
    have hrd : s.port.read = .recovery := by simp at hc; exact hc.1.1
    have hup := h.port.recoveryDown hrd
    have hs : s.engine.step = none := by
      by_contra hn
      have := h.port.stepUp (by cases hst : s.engine.step; exact absurd hst hn; rfl)
      rw [hup] at this; cases this
    have hp := h.port
    have hi := hp.idle hs
    split
    · exact ⟨h.hub.congr rfl rfl rfl, h.done, h.base, h.work, PortIdle.sound (s := s.setPort _) ⟨hi.faultCount, hi.faultOnce, hi.faultRange, by simp, fun x => (by simp at x), by simp, fun x => (by simp at x), hi.lookup, hi.watchdog, fun i x => (by simp at x)⟩ hs, h.timer⟩
    · exact ⟨h.hub.congr rfl rfl rfl, h.done, h.base, h.work, PortIdle.sound (s := s.setPort _) ⟨hi.faultCount, hi.faultOnce, hi.faultRange, by simp, fun x => (by simp at x), hi.recovery, fun x => (by simp at x), hi.lookup, hi.watchdog, fun i x => (by simp at x)⟩ hs, h.timer⟩
  · exact h

end Sys2Proof.Machine
end

