-- ==== Sys2Proof/Laws/StepBegin.lean ====
section
/-! SUPPORT. A step that begins, and the settling of an idle tail, keep the station's form (R41 to R45, R54 to R60, R84 to R92). -/

namespace Sys2Proof.Machine
set_option linter.all false

/-! ## STEP_BEGIN -/

theorem AtRest.timerNone {s : State} (h : AtRest s) (hs : s.engine.step = none) : s.engine.settleOnEntry = false ∧
    s.engine.fullSettle = false := by
  refine ⟨?_, h.done.full⟩
  by_contra hn
  have := h.done.entry (by simpa using hn)
  rw [hs] at this; cases this

theorem Hub.remode {st : FloorState} {e e' : Engine} {f : Feed} (h : Hub st e f) (h1 : e'.tail = e.tail)
    (h2 : e'.step = none)
    (h4 : e'.settleOnEntry = e.settleOnEntry) (h5 : e'.fullSettle = e.fullSettle) : Hub st e' f := by
  have ho : OpenForm e' f ↔ OpenForm e f := by unfold OpenForm; rw [h1, h4]
  have hc : ClosedForm e' f ↔ ClosedForm e f := by unfold ClosedForm; rw [h1]
  exact ⟨by rw [h1]; exact h.tailLen, h.places, fun _ => h2, by rw [h1]; exact h.shadowSeqs, h.outside, h.handing, h.handingSent, h.outsideSent, h.mute,
    fun x => ho.2 (h.live x), fun x y => ho.2 (h.handFull x (by rw [← h5]; exact y)), fun x y => hc.2 (h.hand x (by rw [← h5]; exact y)),
    (by rw [h2]; intro hh; cases hh), (by rw [h2]; intro hh; cases hh), (by rw [h2]; intro hh; cases hh)⟩

/-- the state a step starts in -/
theorem openStep_mid {s : State} (h : AtRest s) (hs : s.engine.step = none)
    (hf : s.floor.state.inTenure = false ∨ 3 ≤ s.feed.free) : Mid (openStep s) 13 := by
  obtain ⟨h1, h2⟩ := h.timerNone hs
  refine ⟨?_, h2, ?_, ?_⟩
  · exact Hub.remode h.hub rfl rfl rfl rfl
  · intro hm
    have hst : s.floor.state = .live := by
      by_contra hn
      simp [openStep, hn] at hm
    refine ⟨hst, h1, ?_⟩
    rcases hf with hf | hf
    · rw [hst] at hf; cases hf
    · show s.feed.places ≤ 13
      simp only [Feed.free, Config.queuePlaces] at hf; omega
  · intro hm hst
    have hst : s.floor.state = .live := hst
    simp [openStep, hst] at hm

theorem getLast_newest {t : List Record} {r : Record} (h : t.getLast? = some r) : tailNewest t 1 = [r] ∧ r ∈ t ∧
    1 ≤ t.length := by
  have hne : t ≠ [] := by intro hn; rw [hn] at h; cases h
  have hl := List.length_pos_of_ne_nil hne
  rw [List.getLast?_eq_some_getLast hne] at h
  simp only [Option.some.injEq] at h
  refine ⟨?_, ?_, hl⟩
  · unfold tailNewest
    rw [List.drop_length_sub_one hne, h]
  · rw [← h]; exact List.getLast_mem hne

theorem retractStroke_mid {s : State} (h : Mid s 13) (hb : EngBase s.engine) (t : Clock) : Mid (retractStroke t s) 14 ∧
    EngBase (retractStroke t s).engine := by
  unfold retractStroke
  split
  · exact ⟨h.refuse.mono (by omega), refuse_base hb⟩
  · rename_i r hr
    obtain ⟨g1, g2, g3⟩ := getLast_newest hr
    have hcp : r.seq = cutPoint 1 s := by unfold cutPoint; rw [g1]; rfl
    have hrs := hb.records r g2
    dsimp only
    rw [hcp]
    have key : ∀ e' : Engine, e'.tail = tailKept s.engine.tail 1 → e'.mode = s.engine.mode → e'.settleOnEntry = s.engine.settleOnEntry → e'.fullSettle = s.engine.fullSettle →
        Mid (handCutAt (cutPoint 1 s) (s.setEngine e')) 14 := fun e' a b c d => h.cut (by omega) g3 e' a b c d
    have ht : (tailKept s.engine.tail 1).length ≤ s.engine.depth := by rw [tailKept_length]; have := hb.depth; omega
    have hr' : ∀ x ∈ tailKept s.engine.tail 1, RecordSound x := fun x hx => hb.records x (tailKept_sub _ _ x hx)
    split
    · refine ⟨key _ rfl rfl rfl rfl, ?_⟩
      simp only [handCutAt_frame, State.setEngine_engine]
      refine ⟨ht, hr', ?_, ?_, hb.refusals⟩
      · simp; have := hrs.strokes.2; omega
      · intro c hc; exact hrs.codes c (List.mem_of_mem_dropLast hc)
    · refine ⟨key _ rfl rfl rfl rfl, ?_⟩
      simp only [handCutAt_frame]
      exact hb.tail _ ht hr' rfl rfl rfl rfl

theorem wordRetract_mid {s : State} (h : Mid s 13) (hb : EngBase s.engine) (n : Nat) : Mid (wordRetract n s) 14 ∧
    EngBase (wordRetract n s).engine := by
  unfold wordRetract
  dsimp only
  have hk : min n s.engine.tail.length ≤ s.engine.tail.length := Nat.min_le_right _ _
  have m : Mid (handCutAt (cutPoint (min n s.engine.tail.length) s) (removeNewest (min n s.engine.tail.length) s)) 14 :=
    h.cut (by omega) hk _ rfl rfl rfl rfl
  have b : EngBase (handCutAt (cutPoint (min n s.engine.tail.length) s) (removeNewest (min n s.engine.tail.length) s)).engine := by
    simp only [handCutAt_frame]
    refine hb.tail (tailKept s.engine.tail (min n s.engine.tail.length)) ?_ (fun x hx => hb.records x (tailKept_sub _ _ x hx)) rfl rfl rfl rfl
    rw [tailKept_length]; have := hb.depth; omega
  split
  · exact ⟨m.refuse, refuse_base b⟩
  · exact ⟨m, b⟩

theorem endGap_rest {s : State} {n : Nat} (h : Mid s n) (hn : n ≤ 15) (hb : EngBase s.engine) (hp : PortIdle s.port)
    (g : Nat) (t : Clock) : AtRest (endStep (reportGap g t s)) :=
  endStep_rest (h.reportGap hn g t).hub (reportGap_base hb g t) (by simpa using hp)

theorem takeStroke_rest {s : State} (h : InRun s) (code : StrokeCode) (t : Clock) (g : Nat) (hc : code ≠ 0)
    (hg : g ≤ 255) : AtRest (takeStroke code t g s) := by
  unfold takeStroke
  split
  · obtain ⟨a, b⟩ := retractStroke_mid h.mid h.base t
    exact endGap_rest a (by omega) b (by simpa using h.port) g t
  · rename_i n _
    obtain ⟨a, b⟩ := wordRetract_mid h.mid h.base n
    exact endGap_rest a (by omega) b (by simpa using h.port) g t
  · rename_i hsh
    unfold strokeStep
    exact lookupFrom_rest h _ _ ⟨⟨hc, hsh⟩, hg⟩ (Nat.le_refl _)

/-- A lost segment in HANDING, before the full settle. -/
theorem reportGap_handing {s : State}
    (h : Hub s.floor.state { s.engine with step := none } s.feed) (hst : s.floor.state = .handing) (hf : s.engine.fullSettle = true) (hse : s.engine.settleOnEntry = false)
    (hp : s.feed.places ≤ 15) (g : Nat) (t : Clock) : Hub (reportGap g t s).floor.state { (reportGap g t s).engine with step := none } (reportGap g t s).feed := by
  unfold reportGap
  split
  · exact h
  · split
    · have hopen : feedOpen (settleLocal s) = true := by simp [feedOpen, hst, FloorState.inTenure]
      unfold handLost Feed.lost
      rw [if_pos hopen]
      have hfe : (settleLocal s).feed = s.feed := by simp
      rw [hfe]
      have hlen := h.tailLen
      obtain ⟨f1, f2⟩ := (h.handFull hst hf).1 hse
      simp only at f1 f2 hlen
      generalize toLineTime (settleLocal s) t = tt
      generalize BitVec.ofNat 8 g = gg
      have hs := appendSettling_sound f2 (by omega) h.places (by omega : s.feed.places < 16) (.lost gg) tt
      obtain ⟨c1, c2, c3⟩ := h.handing hst
      have hheld := places_held h.places hp
      -- fields of the push
      have hpush : (s.feed.push (.lost gg) tt).cursor = none ∧ (s.feed.push (.lost gg) tt).gap = none := by
        unfold Feed.push
        dsimp only
        split
        · simp [c1, c2]
        · split
          · simp [c1, c2]
          · rw [c1]; simp [c1, c2]
      have hfields : (s.feed.appendSettling (.lost gg) tt).cursor = none ∧ (s.feed.appendSettling (.lost gg) tt).gap = none := by
        unfold Feed.appendSettling Feed.joinSegment
        dsimp only
        rw [(join_step _ _).cursor, (join_step _ _).gap, (withdraw_fields _ _).2.2.1, (withdraw_fields _ _).2.2.2.1]
        exact hpush
      have hwait : ∀ x ∈ (s.feed.appendSettling (.lost gg) tt).waiting, x.isReplay = false := by
        intro x hx
        unfold Feed.appendSettling Feed.joinSegment at hx
        dsimp only at hx
        rcases (join_step _ _).waiting x hx with hx | rfl
        · rcases withdraw_mem _ _ x hx with hx | hx
          · refine c3 x ?_
            have := hx.1
            simpa using this
          · exact (loose_handover hx).noReplay
        · rfl
      have hsend : ∀ x, (s.feed.appendSettling (.lost gg) tt).sending = some x → ∃ y, s.feed.sending = some y ∧ y.frame = x.frame ∧ (y.withdrawn = true → x.withdrawn = true) := by
        intro x hx
        unfold Feed.appendSettling Feed.joinSegment at hx
        dsimp only at hx
        rw [(join_step _ _).sending, (withdraw_fields _ _).2.2.2.2.2.2] at hx
        simp only [push_queue] at hx
        cases hsd : s.feed.sending with
        | none => rw [hsd] at hx; cases hx
        | some y =>
          rw [hsd] at hx
          simp only [Option.map_some, Option.some.injEq] at hx
          refine ⟨y, rfl, ?_, ?_⟩
          · rw [← hx]; split <;> rfl
          · rw [← hx]; intro hy; split
            · rfl
            · exact hy
      refine ⟨by simp [settleLocal], appendSettling_places _ _ _ h.places, fun _ => rfl, ?_, ?_, ?_, ?_, ?_, ?_, ?_, ?_, ?_, ?_, ?_, ?_⟩
      · intro x; simp [hst, FloorState.inTenure] at x
      · intro x; simp [hst, FloorState.inTenure] at x
      · intro _; exact ⟨hfields.1, hfields.2, hwait⟩
      · intro _ x hx hr
        obtain ⟨y, hy, hyf, hyw⟩ := hsend x hx
        exact hyw (h.handingSent hst y hy (by rw [hyf]; exact hr))
      · intro x; simp [hst, FloorState.inTenure] at x
      · intro x; simp [hst] at x
      · intro x; simp [hst] at x
      · intro _ _
        refine ⟨fun _ => ⟨rfl, hs⟩, fun hh => ?_⟩
        simp [settleLocal, hse] at hh
      · intro _ hh; simp [settleLocal, hf] at hh
      · intro hh; cases hh
      · intro hh; cases hh
      · intro hh; cases hh
    · exact h

theorem withdraw_places_le_fifteen (p : Frame → Bool) (f : Feed) (h : FeedPlaces f) (hp : f.places ≤ 15)
    : (f.withdraw p).places ≤ f.places :=
  withdraw_places_le p f (places_held h hp)

theorem floorItem_floor {s : State} (h : FloorSound s) : FloorSound (floorItem s) := by
  unfold floorItem
  split
  · rename_i hst; exact enterClaiming_floor h hst _
  · rename_i hst
    refine leaveClaiming_floor ?_ (by simpa using hst)
    exact (⟨h.claimant, h.keptBack, h.origin, h.claimWindow, h.absence, h.presence, h.presenceMute, h.tenure, fun _ => rfl⟩ : FloorSound (s.setFloor { s.floor with armed := false })).viewed
  · rename_i hst; exact enterHanding_floor h hst
  · exact h.congr (by simp) (by simp) (by simp) (by simp)
  · exact h

theorem reportGap_shadow {s : State} (h : s.engine.mode = .shadow) (g : Nat) (t : Clock) : reportGap g t s = s := by
  unfold reportGap
  split
  · rfl
  · rw [h]; simp

theorem floorStep_rest {s : State} (h : InRun s) (hs : s.engine.step = none) (hse : s.engine.settleOnEntry = false)
    (hmode : s.engine.mode = if s.floor.state == .live then .live else .shadow) (g : Nat) (t : Clock) :
    AtRest (endStep (reportGap g t (floorItem s))) := by
  have hub := h.mid.hub
  have hubS : HubS s := by
    unfold HubS
    exact hub.engine rfl (by rw [hs]) rfl rfl rfl
  cases hst : s.floor.state with
  | live =>
    have hm : s.engine.mode = .live := by rw [hmode, hst]; rfl
    have e1 : floorItem s = enterHanding s := by unfold floorItem; rw [hst]
    rw [e1]
    have hh := enterHanding_hub hubS hst hs
    have hpl : s.feed.places ≤ 13 := (h.mid.live hm).2.2
    have hpl2 : (enterHanding s).feed.places ≤ 15 := by
      have := withdraw_places_le_fifteen Frame.isReplay { s.feed with cursor := none, gap := none } ⟨hub.places.places, hub.places.held⟩ (by show s.feed.places ≤ 15; omega)
      have e : (enterHanding s).feed = Feed.withdraw Frame.isReplay { s.feed with cursor := none, gap := none } := rfl
      rw [e]
      refine Nat.le_trans this ?_
      show s.feed.places ≤ 15; omega
    have hg := reportGap_handing (s := enterHanding s) hh.noStep rfl rfl hse hpl2 g t
    refine endStep_rest hg (reportGap_base ?_ g t) (by simpa using h.port)
    exact h.base.congr rfl rfl rfl rfl
  | _ =>
    have hne : s.engine.mode = .shadow := by rw [hmode, hst]; rfl
    have he : (floorItem s).engine = s.engine := by
      unfold floorItem; rw [hst]; try simp
    rw [reportGap_shadow (by rw [he]; exact hne)]
    have hb : HubS (floorItem s) := by
      unfold floorItem
      rw [hst]
      first
        | exact enterClaiming_hub hubS (by rw [hst]; rfl) _
        | exact leaveClaiming_hub (s := s.setFloor { s.floor with armed := false }) hubS (by show s.floor.state.inTenure = false; rw [hst]; rfl)
        | exact hubS.congr (by simp) (by simp) (by simp)
        | exact hubS
    refine endStep_rest hb.noStep (by rw [he]; exact h.base) (by simpa using h.port)

theorem takeItem_rest {s : State} (h : InRun s) (hs : s.engine.step = none) (hse : s.engine.settleOnEntry = false)
    (hmode : s.engine.mode = if s.floor.state == .live then .live else .shadow)
    (i : Item) (hg : i.gap ≤ 255) (hc : ∀ code, i.kind = .stroke code → code ≠ 0) : AtRest (takeItem i s) := by
  unfold takeItem
  split
  · rename_i code hk
    exact takeStroke_rest h code _ _ (hc code hk) hg
  · have m := h.mid.markItem (by omega) i.time
    refine endGap_rest m (by omega) ?_ (by simpa using h.port) _ _
    unfold markItem
    split
    · dsimp only
      split
      · simp; exact h.base.tail [] (by simp) (by simp) rfl rfl rfl rfl
      · exact refuse_base (by exact h.base.tail [] (by simp) (by simp) rfl rfl rfl rfl)
    · exact refuse_base h.base
  · exact floorStep_rest h hs hse hmode _ _

theorem beginStep_rest {s : State} (h : AtRest s) (hset : SettingsSound s) (hi : IntakeSound s.intake)
    : AtRest (beginStep s) := by
  unfold beginStep
  split
  · rename_i hr
    simp only [stepReady, Bool.and_eq_true, Option.isNone_iff_eq_none, Bool.or_eq_true, Bool.not_eq_true', decide_eq_true_eq, Config.stepPlaces] at hr
    obtain ⟨⟨⟨hs, _⟩, _⟩, hf⟩ := hr
    obtain ⟨t1, t2⟩ := h.timerNone hs
    have hm := openStep_mid h hs (hf.imp id fun x => of_decide_eq_true x)
    have hrun : ∀ e' : Engine, e'.tail = s.engine.tail → e'.mode = (openStep s).engine.mode → e'.settleOnEntry = s.engine.settleOnEntry → e'.fullSettle = s.engine.fullSettle → e'.settleTimer = none →
        e'.depth = s.engine.depth → e'.settleIdle = s.engine.settleIdle → EngBase e' → ∀ q : Intake, InRun (((openStep s).setEngine e').setIntake q) := by
      intro e' a b c d e f g hb q
      refine ⟨(hm.engine e' a b c d).congr rfl rfl rfl, hb, h.port.idle hs, e, ?_⟩
      exact hset.congr (by simp [openStep, settings, f, g])
    have hmode : (openStep s).engine.mode = if s.floor.state == .live then .live else .shadow := rfl
    dsimp only
    split
    · rename_i code rest hrep
      have hcode := h.base.replayCodes code (by rw [hrep]; exact List.mem_cons_self)
      have hb : EngBase { (openStep s).engine with replay := rest } := by
        have h1 := h.base.replay
        have h2 := h.base.replayCodes
        rw [hrep] at h1 h2
        exact ⟨h.base.depth, h.base.records, by show rest.length ≤ 7; simp at h1; omega, fun c hc => h2 c (List.mem_cons_of_mem _ hc), h.base.refusals⟩
      have := hrun { (openStep s).engine with replay := rest } rfl rfl rfl rfl rfl rfl rfl hb s.intake
      exact takeStroke_rest this code _ 0 hcode.1 (by omega)
    · split
      · rename_i i rest hit
        have hb : EngBase (openStep s).engine := h.base.congr rfl rfl rfl rfl
        have := hrun (openStep s).engine rfl rfl rfl rfl rfl rfl rfl hb (s.intake.take i rest)
        have hmem : i ∈ s.intake.items := by rw [hit]; exact List.mem_cons_self
        exact takeItem_rest (s := (openStep s).setIntake (s.intake.take i rest)) this hs t1 hmode i (hi.gaps i hmem) (hi.codes i hmem)
      · exact h
  · exact h

/-! ## SETTLE_IDLE -/

theorem pauseReport_hub {s : State} (h : HubS s) (hs : s.engine.step = none) : HubS (pauseReport s) := by
  unfold pauseReport
  split
  · rename_i hh
    simp at hh
    exact enterHanding_hub h hh.1 hs
  · exact h

theorem pauseReport_floor {s : State} (h : FloorSound s) : FloorSound (pauseReport s) := by
  unfold pauseReport
  split
  · rename_i hh
    simp at hh
    exact enterHanding_floor h hh.1
  · exact h

theorem expireSettleIdle_rest {s : State} (h : AtRest s) : AtRest (expireSettleIdle s) := by
  unfold expireSettleIdle
  split
  · rename_i hh
    have hs : s.engine.step = none := by simp at hh; exact hh.2
    obtain ⟨t1, t2⟩ := h.timerNone hs
    obtain ⟨m1, m2, m3⟩ := settleToEnd_hub h.hub hs t1
    have hs2 : (settleToEnd s).engine.step = none := by rw [m2]; exact hs
    have hp := pauseReport_hub (m3 t2) hs2
    have hk2 : EngKeep s.engine (settleToEnd s).engine := by rw [m2]; exact ⟨rfl, rfl, rfl, rfl, rfl, Or.inr ⟨hs, rfl⟩⟩
    have hk3 : EngKeep (settleToEnd s).engine (pauseReport (settleToEnd s)).engine := by
      unfold pauseReport; split
      · exact keep_full _ _
      · exact EngKeep.refl _
    have hs3 : (pauseReport (settleToEnd s)).engine.step = none := by rw [hk3.step]; exact hs2
    obtain ⟨b1, b2, b3, b4⟩ := boundaryWork_hub hp hs3
    have hk := hk2.trans (hk3.trans (keep_boundaryWork _ hs3))
    have r := h.keep b1 b2 hk (by simp)
    refine ⟨r.hub.congr rfl rfl rfl |> fun x => ?_, ⟨b2.entry, b2.full, b2.muteTail⟩, r.base.congr rfl rfl rfl rfl, r.work, r.port.congr rfl rfl (fun _ => rfl), ?_⟩
    · exact Hub.engine b1 rfl rfl rfl rfl rfl
    · show true = (boundaryWork (pauseReport (settleToEnd s))).engine.step.isNone
      rw [b4]; rfl
  · exact h

theorem expireSettleIdle_floor {s : State} (h : FloorSound s) : FloorSound (expireSettleIdle s) := by
  unfold expireSettleIdle
  split
  · exact (boundaryWork_floor (pauseReport_floor (settleToEnd_floor h))).congr rfl rfl rfl rfl
  · exact h

end Sys2Proof.Machine
end

