-- ==== Sys2Proof/Laws/StepFloor.lean ====
section
/-! SUPPORT. No operation of the engine disturbs the station's view of the floor. -/

namespace Sys2Proof.Machine
set_option linter.all false

@[simp] theorem appendE (c : List Byte) (d : Bool) (t : Clock) (f : Feed)
    : (f.append c d t).tenureEpoch = f.tenureEpoch := by
  unfold Feed.append Feed.joinSegment; rw [(join_step _ _).epoch]; exact (push_queue _ _ _).2.2.2.2.2.2.1
@[simp] theorem appendSettlingE (b : SegmentBody) (t : Clock) (f : Feed)
    : (f.appendSettling b t).tenureEpoch = f.tenureEpoch := by
  unfold Feed.appendSettling Feed.joinSegment; dsimp only; rw [(join_step _ _).epoch, (withdraw_fields _ _).2.2.2.2.2.1]; exact (push_queue _ _ _).2.2.2.2.2.2.1
@[simp] theorem cutE (q : Seq) (f : Feed) : (f.cut q).tenureEpoch = f.tenureEpoch := by
  have h := (withdraw_fields (Frame.cutBy q) f).2.2.2.2.2.1
  unfold Feed.cut
  dsimp only
  split
  · show (Feed.join _ _).tenureEpoch = _
    rw [(join_step _ _).epoch]; exact h
  · exact h

variable {s : State}
theorem handCut_fl (h : FloorSound s) (q : Seq) : FloorSound (handCut q s) := by
  refine h.congr (by simp) (by simp) (by simp) ?_; unfold handCut; split <;> simp
theorem handSettle_fl (h : FloorSound s) (q : Seq) : FloorSound (handSettle q s) := by
  refine h.congr (by simp) (by simp) (by simp) ?_; unfold handSettle; split <;> simp [(settle_queueStep _ _).2.2.2.2.1]
theorem handAppend_fl (h : FloorSound s) (c : List Byte) (d : Bool) (t : Clock)
    : FloorSound (handAppend c d t s) := by
  refine h.congr (by simp) (by simp) (by simp) ?_; unfold handAppend; split <;> simp
theorem handMark_fl (h : FloorSound s) (t : Clock) : FloorSound (handMark t s) := by
  refine h.congr (by simp) (by simp) (by simp) ?_; unfold handMark Feed.mark; split <;> simp
theorem handLost_fl (h : FloorSound s) (n : Nat) (t : Clock) : FloorSound (handLost n t s) := by
  refine h.congr (by simp) (by simp) (by simp) ?_; unfold handLost Feed.lost; split <;> simp
theorem refuse_fl (h : FloorSound s) : FloorSound (refuse s) := h.congr (by simp) (by simp) (by simp) (by simp)
theorem settleLocal_fl (h : FloorSound s)
    : FloorSound (settleLocal s) := h.congr (by simp) (by simp) (by simp) (by simp)
theorem removeNewest_fl (h : FloorSound s) (k : Nat)
    : FloorSound (removeNewest k s) := h.congr (by simp) (by simp) (by simp) (by simp)
theorem setEngine_fl (h : FloorSound s) (e : Engine)
    : FloorSound (s.setEngine e) := h.congr (by simp) (by simp) (by simp) (by simp)
theorem setPort_fl (h : FloorSound s) (e : Port)
    : FloorSound (s.setPort e) := h.congr (by simp) (by simp) (by simp) (by simp)
theorem setIntake_fl (h : FloorSound s) (e : Intake)
    : FloorSound (s.setIntake e) := h.congr (by simp) (by simp) (by simp) (by simp)
theorem placeRecord_fl (h : FloorSound s) (r : Record) (l : Bool) : FloorSound (placeRecord r l s) := by
  unfold placeRecord; dsimp only
  (repeat' split)
  · exact setEngine_fl h _
  · exact setEngine_fl h _
  · exact handSettle_fl (setEngine_fl h _) _
  · exact setEngine_fl h _
theorem handCutAt_fl (h : FloorSound s) (p : Option Seq) : FloorSound (handCutAt p s) := by
  unfold handCutAt
  (repeat' split)
  · exact handCut_fl h _
  · exact h
  · exact h
theorem reportGap_fl (h : FloorSound s) (g : Nat) (t : Clock) : FloorSound (reportGap g t s) := by
  unfold reportGap
  (repeat' split)
  · exact h
  · exact handLost_fl (settleLocal_fl h) _ _
  · exact h
theorem endStep_fl (h : FloorSound s) : FloorSound (endStep s) := boundaryWork_floor (setEngine_fl h _)
theorem finishStroke_fl (h : FloorSound s) (k : Nat) (kd : RecordKind) (d : Descriptor) (w : Work)
    : FloorSound (finishStroke k kd d w s) := by
  unfold finishStroke; dsimp only
  apply endStep_fl; apply reportGap_fl; apply placeRecord_fl
  have h2 : FloorSound (handCutAt (cutPoint k s) ((removeNewest k s).setEngine { (removeNewest k s).engine with context := (formSegment (removeNewest k s).port.labels d (removeNewest k s).engine.context).2 })) :=
    handCutAt_fl (setEngine_fl (removeNewest_fl h _) _) _
  split
  · exact handAppend_fl h2 _ _ _
  · exact h2
theorem fallback_fl (h : FloorSound s) (w : Work) : FloorSound (fallback w s) := by
  unfold fallback; split <;> exact finishStroke_fl h _ _ _ _
theorem startRead_fl (h : FloorSound s) (k : List StrokeCode) (j : Nat) (w : Work)
    : FloorSound (startRead k j w s) := setEngine_fl (setPort_fl h _) _
theorem lookupFrom_fl (h : FloorSound s) (n : Nat) (w : Work) : FloorSound (lookupFrom n w s) := by
  induction n generalizing w with
  | zero => exact fallback_fl h w
  | succ n ih => unfold lookupFrom; dsimp only; split
                 · exact startRead_fl h _ _ _
                 · exact ih _
theorem probeOn_fl (h : FloorSound s) (k : List StrokeCode) (j : Nat) (w : Work) : FloorSound (probeOn k j w s) := by
  unfold probeOn
  (repeat' split)
  · exact lookupFrom_fl h _ _
  · exact lookupFrom_fl h _ _
  · exact startRead_fl h _ _ _
theorem retractStroke_fl (h : FloorSound s) (t : Clock) : FloorSound (retractStroke t s) := by
  unfold retractStroke; dsimp only
  split
  · exact refuse_fl h
  · apply handCutAt_fl
    split
    · exact setEngine_fl (removeNewest_fl h _) _
    · exact removeNewest_fl h _
theorem wordRetract_fl (h : FloorSound s) (n : Nat) : FloorSound (wordRetract n s) := by
  unfold wordRetract; dsimp only
  split
  · exact refuse_fl (handCutAt_fl (removeNewest_fl h _) _)
  · exact handCutAt_fl (removeNewest_fl h _) _
theorem takeStroke_fl (h : FloorSound s) (c : StrokeCode) (t : Clock) (g : Nat)
    : FloorSound (takeStroke c t g s) := by
  unfold takeStroke
  split
  · exact endStep_fl (reportGap_fl (retractStroke_fl h _) _ _)
  · exact endStep_fl (reportGap_fl (wordRetract_fl h _) _ _)
  · exact lookupFrom_fl h _ _
theorem markItem_fl (h : FloorSound s) (t : Clock) : FloorSound (markItem t s) := by
  unfold markItem; dsimp only
  (repeat' split)
  · exact handMark_fl (settleLocal_fl h) _
  · exact refuse_fl (settleLocal_fl h)
  · exact refuse_fl h
theorem takeItem_fl (h : FloorSound s) (i : Item) : FloorSound (takeItem i s) := by
  unfold takeItem
  split
  · exact takeStroke_fl h _ _ _
  · exact endStep_fl (reportGap_fl (markItem_fl h _) _ _)
  · exact endStep_fl (reportGap_fl (floorItem_floor h) _ _)
theorem beginStep_fl (h : FloorSound s) : FloorSound (beginStep s) := by
  unfold beginStep; dsimp only
  split
  · split
    · exact takeStroke_fl (setEngine_fl (setEngine_fl h _) _) _ _ _
    · split
      · exact takeItem_fl (setIntake_fl (setEngine_fl h _) _) _
      · exact h
  · exact h
theorem completeSlotRead_fl (h : FloorSound s) (o : ReadOwner) (b : List Byte)
    : FloorSound (completeSlotRead o b s) := by
  unfold completeSlotRead
  split
  · split
    · unfold judgeRead
      split
      · exact lookupFrom_fl (setPort_fl (setPort_fl h _) _) _ _
      · exact lookupFrom_fl (setPort_fl h _) _ _
      · exact finishStroke_fl (setPort_fl h _) _ _ _ _
      · exact probeOn_fl (setPort_fl h _) _ _ _
    · exact h
  · exact h
theorem expireWatchdog_fl (h : FloorSound s) : FloorSound (expireWatchdog s) := by
  unfold expireWatchdog
  split
  · split
    · exact lookupFrom_fl (setPort_fl h _) _ _
    · exact h
  · exact h
theorem expireRecovery_fl (h : FloorSound s) : FloorSound (expireRecovery s) := by
  unfold expireRecovery; split
  · exact setPort_fl h _
  · exact h
theorem completeRecovery_fl (h : FloorSound s) (o : ReadOwner) (b : List Byte)
    : FloorSound (completeRecovery o b s) := by
  unfold completeRecovery; (repeat' split)
  · exact setPort_fl h _
  · exact setPort_fl h _
  · exact h

end Sys2Proof.Machine
end

