-- ==== Sys2Proof/Laws/LineSound.lean ====
section
/-! SUPPORT. The line interface keeps its form under each of its events (R100 to R119). -/

namespace Sys2Proof.Machine
set_option linter.all false

/-- the counts and bits of a line -/
structure LineOk (l : LineInterface) : Prop where
  idle : l.idle ≤ 33
  driven : l.driven ≤ 23
  oneRun : l.idle = 0 ∨ l.driven = 0
  collisions : l.collisions ≤ 3
  errors : l.errors ≤ 65535
  charBits : l.charBits.length ≤ 11
  receiving : l.state ≠ .receiving → l.received = [] ∧ l.charBits = []
  quiet : l.state ≠ .transmitting → l.readBack = 0 ∧ l.mismatch = false

theorem LineSound.ok {s : State} (h : LineSound s) : LineOk s.line :=
  ⟨h.idle, h.driven, h.oneRun, h.collisions, h.errors, h.charBits, h.receiving, h.quiet⟩

/-- a line that transmits nothing -/
theorem LineOk.silent {s : State} (h : LineOk s.line) (h1 : s.line.state ≠ .transmitting)
    (h2 : s.feed.sending = none) (h3 : s.line.integrated = true → s.startup.ended = true) : LineSound s := by
  obtain ⟨q1, q2⟩ := h.quiet h1
  exact ⟨h.idle, h.driven, h.oneRun, h.collisions, h.errors, h.charBits, h.receiving, by simp [h1, h2], h.quiet, by rw [q1]; exact Nat.zero_le _, (by rw [q2]; intro x; cases x), h3,
    (by intro x hx; rw [h2] at hx; cases hx)⟩

theorem LineSound.notSending {s : State} (h : LineSound s) (h1 : s.line.state ≠ .transmitting)
    : s.feed.sending = none := by
  by_contra hn
  apply h1
  rw [h.transmitting]
  cases hs : s.feed.sending
  · exact absurd hs hn
  · rfl

theorem sentFrame_none {s : State} : sentFrame s = none ↔ s.feed.sending = none := by simp [sentFrame, Feed.sentFrame]

theorem count_ok {l : LineInterface} (h : LineOk l) (lv : Level) : LineOk (l.count lv) := by
  cases lv with
  | released => exact ⟨by simp [LineInterface.count, saturate], by simp [LineInterface.count], Or.inr rfl, h.collisions, h.errors, h.charBits, h.receiving, h.quiet⟩
  | driven => exact ⟨by simp [LineInterface.count], by simp [LineInterface.count, saturate], Or.inl rfl, h.collisions, h.errors, h.charBits, h.receiving, h.quiet⟩

theorem count_fields (l : LineInterface) (lv : Level) : (l.count lv).state = l.state ∧
    (l.count lv).received = l.received ∧ (l.count lv).charBits = l.charBits ∧ (l.count lv).readBack = l.readBack ∧
    (l.count lv).mismatch = l.mismatch ∧ (l.count lv).integrated = l.integrated ∧ (l.count lv).hunting = l.hunting := by
  cases lv <;> exact ⟨rfl, rfl, rfl, rfl, rfl, rfl, rfl⟩

theorem readLine_line {s : State} (h : LineSound s) (lv : Level) : LineSound (readLine lv s) := by
  unfold readLine
  split
  · rename_i he
    have hc := count_ok h.ok lv
    obtain ⟨c1, c2, c3, c4, c5, c6, c7⟩ := count_fields s.line lv
    have quietCase : s.line.state ≠ .transmitting → LineSound (s.setLine (s.line.count lv)) := fun hn =>
      LineOk.silent (s := s.setLine (s.line.count lv)) hc (by rw [State.setLine_line, c1]; exact hn) (h.notSending hn) (by intro _; exact he)
    split
    · rename_i hst; exact quietCase (by rw [hst]; simp)
    · rename_i hst; exact quietCase (by rw [hst]; simp)
    · rename_i hst
      split
      · refine LineOk.silent (s := s.setLine _) ⟨hc.idle, hc.driven, hc.oneRun, hc.collisions, hc.errors, by simp, by simp, ?_⟩ (by simp) (h.notSending (by rw [hst]; simp)) (fun _ => he)
        intro _; simp only [c4, c5]; exact h.quiet (by rw [hst]; simp)
      · exact quietCase (by rw [hst]; simp)
    · rename_i hst
      have hq := h.quiet (by rw [hst]; simp)
      have hns := h.notSending (by rw [hst]; simp)
      unfold LineInterface.receive
      dsimp only
      have mk : ∀ bits : List Level, bits.length ≤ 11 → LineSound (s.setLine { s.line.count lv with charBits := bits }) := by
        intro bits hb
        refine LineOk.silent (s := s.setLine _) ⟨hc.idle, hc.driven, hc.oneRun, hc.collisions, hc.errors, hb, by simp [c1, hst], ?_⟩ (by simp [c1, hst]) hns (fun _ => he)
        intro _; simp only [c4, c5]; exact hq
      (repeat' split)
      · exact mk [lv] (by simp)
      · exact quietCase (by rw [hst]; simp)
      · exact mk _ (by simp; omega)
      · exact quietCase (by rw [hst]; simp)
    · rename_i hst
      unfold LineInterface.compare
      dsimp only
      have hls : ∀ l', sendingLevels (s.setLine l') = sendingLevels s := fun _ => rfl
      have base : ∀ (r : Nat) (m : Bool), r ≤ (sendingLevels s).length → (m = true → r < (sendingLevels s).length) → LineSound (s.setLine { s.line.count lv with readBack := r, mismatch := m }) := by
        intro r m h1 h2
        exact ⟨hc.idle, hc.driven, hc.oneRun, hc.collisions, hc.errors, hc.charBits, hc.receiving, by simp only [State.setLine_line, c1, State.setLine_feed]; exact h.transmitting,
          by simp [c1, hst], by rw [hls]; exact h1, by rw [hls]; exact h2, fun _ => he, h.sendingFilled⟩
      split
      · have := base s.line.readBack s.line.mismatch h.readBack h.unread
        have e : s.line.count lv = { s.line.count lv with readBack := s.line.readBack, mismatch := s.line.mismatch } := by
          cases lv <;> rfl
        rw [e]; exact this
      · rename_i hh
        simp only [Bool.or_eq_true, decide_eq_true_eq, not_or, not_le] at hh
        have hmf : s.line.mismatch = false := by simpa using hh.1
        split
        · have := base (s.line.readBack + 1) false (by omega) (by intro x; cases x)
          have e : ({ s.line.count lv with readBack := s.line.readBack + 1 } : LineInterface) = { s.line.count lv with readBack := s.line.readBack + 1, mismatch := false } := by
            cases lv <;> simp [LineInterface.count, hmf]
          rw [e]; exact this
        · have := base s.line.readBack true h.readBack (fun _ => hh.2)
          have e : ({ s.line.count lv with mismatch := true } : LineInterface) = { s.line.count lv with readBack := s.line.readBack, mismatch := true } := by
            cases lv <;> rfl
          rw [e]; exact this
  · exact h

theorem countError_errors (l : LineInterface)
    : l.countError.errors ≤ 65535 := by simp [LineInterface.countError, saturate]

theorem takeChar_ok {l : LineInterface} (h : LineOk l) (hst : l.state = .receiving) : LineOk l.takeChar ∧
    l.takeChar.state ≠ .transmitting ∧ l.takeChar.integrated = l.integrated := by
  have hq := h.quiet (by rw [hst]; simp)
  have he := countError_errors l
  unfold LineInterface.takeChar
  split
  · exact ⟨⟨h.idle, h.driven, h.oneRun, h.collisions, he, by simp [LineInterface.framingError], by simp [LineInterface.framingError], fun _ => hq⟩, by simp [LineInterface.framingError], rfl⟩
  · split
    · unfold LineInterface.beginFrame
      dsimp only
      split
      · exact ⟨⟨h.idle, h.driven, h.oneRun, h.collisions, h.errors, by simp, by simp [hst], fun _ => hq⟩, by simp [hst], rfl⟩
      · exact ⟨⟨h.idle, h.driven, h.oneRun, h.collisions, he, by simp, by simp [LineInterface.countError, hst], fun _ => hq⟩, by simp [LineInterface.countError, hst], rfl⟩
    · split
      · rename_i hr
        have hr : l.received = [] := by simpa using hr
        unfold LineInterface.discardChar
        dsimp only
        split
        · exact ⟨⟨h.idle, h.driven, h.oneRun, h.collisions, h.errors, by simp, by simp [hr], fun _ => hq⟩, by simp, rfl⟩
        · exact ⟨⟨h.idle, h.driven, h.oneRun, h.collisions, he, by simp, by simp [LineInterface.countError, hr], fun _ => hq⟩, by simp, rfl⟩
      · unfold LineInterface.extendFrame
        split
        · exact ⟨⟨h.idle, h.driven, h.oneRun, h.collisions, he, by simp, by simp, fun _ => hq⟩, by simp, rfl⟩
        · exact ⟨⟨h.idle, h.driven, h.oneRun, h.collisions, h.errors, by simp, by simp [hst], fun _ => hq⟩, by simp [hst], rfl⟩

theorem takeCharacter_line {s : State} (h : LineSound s) : LineSound (takeCharacter s) := by
  unfold takeCharacter
  split
  · rename_i hh
    simp at hh
    obtain ⟨a, b, c⟩ := takeChar_ok h.ok hh.1
    exact LineOk.silent (s := s.setLine _) a b (h.notSending (by rw [hh.1]; simp)) (by simp only [State.setLine_line, c]; exact h.integrated)
  · exact h

theorem clearHunting_line {s : State} (h : LineSound s) : LineSound (clearHunting s) := by
  unfold clearHunting
  split
  · exact ⟨h.idle, h.driven, h.oneRun, h.collisions, h.errors, h.charBits, h.receiving, h.transmitting, h.quiet, h.readBack, h.unread, h.integrated, h.sendingFilled⟩
  · exact h

theorem breakOff_line {s : State} (h : LineSound s) : LineSound (breakOff s) := by
  unfold breakOff
  split
  · rename_i hh
    simp only [brokenOff, Bool.and_eq_true, beq_iff_eq] at hh
    have hst := hh.1.1.1.1
    have hcb : s.line.charBits = [] := by simpa using hh.1.2
    have hq := h.quiet (by rw [hst]; simp)
    exact LineOk.silent (s := s.setLine _) ⟨h.idle, h.driven, h.oneRun, h.collisions, countError_errors _, h.charBits, fun _ => ⟨rfl, hcb⟩, fun _ => hq⟩ (by simp) (h.notSending (by rw [hst]; simp)) h.integrated
  · exact h

theorem findLineFault_line {s : State} (h : LineSound s) : LineSound (findLineFault s) := by
  unfold findLineFault
  split
  · rename_i hh
    simp at hh
    have hq := h.quiet (by rw [hh.1]; simp)
    have hr := h.receiving (by rw [hh.1]; simp)
    exact LineOk.silent (s := s.setLine _) ⟨h.idle, h.driven, h.oneRun, h.collisions, h.errors, h.charBits, fun _ => hr, fun _ => hq⟩ (by simp) (h.notSending (by rw [hh.1]; simp)) h.integrated
  · exact h

theorem enterMute_line {s : State} (h : LineSound s) : LineSound (enterMute s) := by
  unfold enterMute
  split
  · exact h
  · dsimp only
    refine LineOk.silent ?_ ?_ rfl ?_
    · simp only [State.setEngine_line, State.setFeed_line, State.setLine_line, State.setFloor_line]
      exact ⟨h.idle, h.driven, h.oneRun, h.collisions, h.errors, Nat.zero_le _, fun _ => ⟨rfl, rfl⟩, fun _ => ⟨rfl, rfl⟩⟩
    · simp [LineInterface.abandon]
    · simp [LineInterface.abandon]; exact h.integrated

theorem handedBack_sending (f : Feed) : f.handedBack.sending = none := by
  unfold Feed.handedBack
  split
  · assumption
  · split
    · rw [(joinHeld_step _).sending]
    · rfl

theorem turn_line {s : State} (h : LineSound s) (hst : s.line.state = .transmitting) (n : Nat) (hn : n ≤ 3) :
    LineSound ((s.setFeed s.feed.handedBack).setLine { turnToReceiving s with collisions := n }) := by
  refine LineOk.silent ?_ ?_ ?_ ?_
  · refine ⟨h.idle, h.driven, h.oneRun, hn, h.errors, ?_, ?_, fun _ => ⟨rfl, rfl⟩⟩
    · simp [turnToReceiving]; omega
    · simp [turnToReceiving]
  · simp [turnToReceiving]
  · simp [handedBack_sending]
  · simp [turnToReceiving]; exact h.integrated

end Sys2Proof.Machine
end

