-- ==== Sys2Proof/Laws/CommandSound.lean ====
section
/-! SUPPORT. Every command given after start-up keeps the station's form, one lemma for each command. -/

namespace Sys2Proof.Machine
set_option linter.all false

variable {s : State}

theorem Up.keepLine (h : Up s) {s' : State} (e1 : s'.startup = s.startup)
    (e2 : Sys2Proof.Machine.settings s' = Sys2Proof.Machine.settings s) (e3 : s'.scanner = s.scanner)
    (e4 : s'.intake = s.intake)
    (e5 : s'.station = s.station) (e6 : s'.line = s.line) (e7 : sentFrame s' = sentFrame s) (r : AtRest s') (f : FloorSound s') : Up s' :=
  h.of e1 e2 e3 e4 r (h.line.keep e6 e7 e5 (by rw [e1])) f

theorem Up.slotRead (h : Up s) (o : ReadOwner) (b : List Byte) : Up (completeSlotRead o b s) :=
  h.keepLine (by simp) (by simp) (by simp) (by simp) (by simp) (by simp) (by simp) (completeSlotRead_rest h.rest h.settings o b) (completeSlotRead_fl h.floor o b)
theorem Up.watchdog (h : Up s) : Up (expireWatchdog s) :=
  h.keepLine (by simp) (by simp) (by simp) (by simp) (by simp) (by simp) (by simp) (expireWatchdog_rest h.rest h.settings) (expireWatchdog_fl h.floor)
theorem Up.recovery (h : Up s) : Up (expireRecovery s) :=
  h.keepLine (by simp) (by simp) (by simp) (by simp) (by simp) (by simp) (by unfold expireRecovery; split <;> simp) (expireRecovery_rest h.rest) (expireRecovery_fl h.floor)
theorem Up.recoveryRead (h : Up s) (o : ReadOwner) (b : List Byte) : Up (completeRecovery o b s) :=
  h.keepLine (by simp) (by simp) (by simp) (by simp) (by simp) (by simp) (by unfold completeRecovery; (repeat' split) <;> simp) (completeRecovery_rest h.rest o b) (completeRecovery_fl h.floor o b)
theorem Up.settleIdle (h : Up s) : Up (expireSettleIdle s) :=
  h.keepLine (by simp) (by simp) (by simp) (by simp) (by simp) (by simp) (by simp) (expireSettleIdle_rest h.rest) (expireSettleIdle_floor h.floor)

theorem beginStep_intake (s : State) : (beginStep s).intake = s.intake ∨ ∃ i rest, s.intake.items = i :: rest ∧
    (beginStep s).intake = s.intake.take i rest := by
  unfold beginStep
  split
  · dsimp only
    split
    · left; simp
    · split
      · rename_i i rest hi
        right; exact ⟨i, rest, hi, by simp⟩
      · left; rfl
  · left; rfl

theorem Up.begin (h : Up s) : Up (beginStep s) := by
  have hi : IntakeSound (beginStep s).intake ∧ (beginStep s).intake.taken + BitVec.ofNat 32 (beginStep s).intake.strokes + (beginStep s).intake.lost = s.intake.taken + BitVec.ofNat 32 s.intake.strokes + s.intake.lost := by
    rcases beginStep_intake s with e | ⟨i, rest, e1, e2⟩
    · rw [e]; exact ⟨h.intake, rfl⟩
    · rw [e2]; exact ⟨take_sound _ _ _ h.intake e1, take_balance _ _ _ e1⟩
  refine ⟨by simp [h.ended], h.startup.keep h.ended (by simp), h.settings.congr (by simp), by simp [h.scanner], hi.1, ?_, beginStep_rest h.rest h.settings h.intake, h.line.keep (by simp) (by simp) (by simp) (by simp), beginStep_fl h.floor⟩
  unfold StrokeBalance
  rw [hi.2, show (beginStep s).scanner = s.scanner by simp]; exact h.balance

/-! ## The keyboard -/

theorem Up.pulse (h : Up s) : Up (requestPulse s) :=
  h.keepLine (by simp) (by simp [requestPulse]) (by simp) (by simp) (by simp) (by simp) (by simp) (h.rest.same (by simp) (by simp) (by simp) (by simp)) (h.floor.congr (by simp) (by simp) (by simp) (by simp))

/-- other scanner and intake -/
theorem Up.keys (h : Up s) {s' : State} (k : ScannerSound s'.scanner) (q : IntakeSound s'.intake)
    (b : StrokeBalance s') (e1 : s'.startup = s.startup)
    (e2 : Sys2Proof.Machine.settings s' = Sys2Proof.Machine.settings s)
    (e5 : s'.station = s.station) (e6 : s'.line = s.line) (e7 : s'.feed = s.feed) (e8 : s'.engine = s.engine) (e9 : s'.port = s.port) (e10 : s'.floor = s.floor) : Up s' :=
  ⟨by rw [e1]; exact h.ended, h.startup.keep h.ended e1, h.settings.congr e2, k, q, b, h.rest.same (by rw [e10]) e8 e7 e9, h.line.keep e6 (by unfold sentFrame; rw [e7]) e5 (by rw [e1]),
    h.floor.congr e10 e5 (by rw [e6]) (by rw [e7])⟩

theorem changeContact_completed (c : Contact) (b : Bool) (s : State)
    : (changeContact c b s).scanner.completed = s.scanner.completed := by
  unfold changeContact; dsimp only; cases c <;> rfl

theorem Up.contact (h : Up s) (c : Contact) (b : Bool) : Up (changeContact c b s) :=
  h.keys (changeContact_sound c b s h.scanner) (by simp; exact h.intake) (by unfold StrokeBalance; rw [changeContact_completed]; simp; exact h.balance) (by simp) (by simp) (by simp) (by simp) (by simp) (by simp) (by simp) (by simp)

theorem setLine_completed (k : Scanner) (c : Contact) (l : Line)
    : (k.setLine c l).completed = k.completed := by cases c <;> rfl

theorem expireDebounce_completed (c : Contact) (s : State)
    : (expireDebounce c s).scanner.completed = s.scanner.completed := by
  have hd : ∀ t : State, (acceptDown c t).scanner.completed = t.scanner.completed := by
    intro t; unfold acceptDown
    split
    · unfold Scanner.keyDown; (repeat' split) <;> simp
    · unfold arriveButton; split <;> simp
    · unfold arriveButton; split <;> simp
  have hu : ∀ t : State, (acceptUp c t).scanner.completed = t.scanner.completed := by
    intro t; unfold acceptUp
    split
    · unfold Scanner.keyUp; dsimp only; (repeat' split) <;> simp
    · rfl
    · rfl
  unfold expireDebounce
  split
  · rw [hd]; simp [setDebounce, setLine_completed]
  · rw [hu]; simp [setDebounce, setLine_completed]
  · rfl

theorem strokes_button (q : Intake) (kind : ItemKind) (t : Clock) (hk : ∀ c, kind ≠ .stroke c)
    : ({ q with items := q.items ++ [{ kind := kind, time := t, gap := 0 }] } : Intake).strokes = q.strokes := by
  unfold Intake.strokes
  simp only [List.countP_append, List.countP_cons, List.countP_nil]
  cases kind with
  | stroke c => exact absurd rfl (hk c)
  | floor => rfl
  | mark => rfl

theorem expireDebounce_intake (c : Contact) (s : State) (h : IntakeSound s.intake)
    : IntakeSound (expireDebounce c s).intake ∧ (expireDebounce c s).intake.strokes = s.intake.strokes ∧
    (expireDebounce c s).intake.taken = s.intake.taken ∧ (expireDebounce c s).intake.lost = s.intake.lost := by
  have hb : ∀ kind : ItemKind, (∀ x, kind ≠ .stroke x) → ∀ t : State, t.intake = s.intake → IntakeSound (arriveButton kind t).intake ∧ (arriveButton kind t).intake.strokes = s.intake.strokes ∧
      (arriveButton kind t).intake.taken = s.intake.taken ∧ (arriveButton kind t).intake.lost = s.intake.lost := by
    intro kind hk t ht
    refine ⟨arriveButton_sound kind t (by rw [ht]; exact h) hk, ?_⟩
    unfold arriveButton
    split
    · rw [State.setIntake_intake, strokes_button _ _ _ hk, ht]; exact ⟨rfl, rfl, rfl⟩
    · simp [ht]
  unfold expireDebounce
  split
  · unfold acceptDown
    split
    · simp [setDebounce]; exact h
    · exact hb .floor (by simp) _ (by simp)
    · exact hb .mark (by simp) _ (by simp)
  · unfold acceptUp
    split <;> (simp; exact h)
  · exact ⟨h, rfl, rfl, rfl⟩

theorem Up.debounce (h : Up s) (c : Contact) : Up (expireDebounce c s) := by
  obtain ⟨a, b, d, e⟩ := expireDebounce_intake c s h.intake
  refine h.keys (expireDebounce_sound c s h.scanner) a ?_ (by simp) (by simp) (by simp) (by simp) (by simp) (by simp) (by simp) (by simp)
  unfold StrokeBalance; rw [expireDebounce_completed, b, d, e]; exact h.balance

theorem Up.release (h : Up s) : Up (expireReleaseWindow s) := by
  refine h.keys (expireReleaseWindow_sound s h.scanner) ?_ ?_ (by simp) (by simp) (by simp) (by simp) (by simp) (by simp) (by simp) (by simp)
  · unfold expireReleaseWindow
    split
    · rename_i hh
      apply completeStroke_intake s h.intake
      intro hu
      have := h.scanner.idleUnion.2 hu
      simp [this] at hh
    · exact h.intake
  · unfold expireReleaseWindow
    split
    · exact completeStroke_balance s h.balance h.intake
    · exact h.balance

theorem stickKeys_fields (k : Scanner) : k.stickKeys.union = k.union ∧ k.stickKeys.completed = k.completed := by
  unfold Scanner.stickKeys; split <;> exact ⟨rfl, rfl⟩

theorem Up.maxDuration (h : Up s) : Up (expireDuration s) := by
  refine h.keys (expireDuration_sound s h.scanner) ?_ ?_ (by simp) (by simp) (by simp) (by simp) (by simp) (by simp) (by simp) (by simp)
  · unfold expireDuration
    split
    · rename_i hh
      apply completeStroke_intake (s.setScanner s.scanner.stickKeys) h.intake
      rw [State.setScanner_scanner, (stickKeys_fields _).1]
      intro hu
      have := h.scanner.idleUnion.2 hu
      simp [this] at hh
    · exact h.intake
  · unfold expireDuration
    split
    · refine completeStroke_balance _ ?_ h.intake
      unfold StrokeBalance
      rw [State.setScanner_scanner, (stickKeys_fields _).2]; exact h.balance
    · exact h.balance

/-! ## The line -/

theorem Up.lineOnly (h : Up s) {s' : State} (l : LineSound s') (e1 : s'.startup = s.startup)
    (e2 : Sys2Proof.Machine.settings s' = Sys2Proof.Machine.settings s) (e3 : s'.scanner = s.scanner)
    (e4 : s'.intake = s.intake)
    (e5 : s'.station = s.station) (e6 : s'.line.integrated = s.line.integrated) (e7 : s'.feed = s.feed) (e8 : s'.engine = s.engine) (e9 : s'.port = s.port) (e10 : s'.floor = s.floor) : Up s' :=
  h.of e1 e2 e3 e4 (h.rest.same (by rw [e10]) e8 e7 e9) l (h.floor.congr e10 e5 e6 (by rw [e7]))

theorem readLine_integrated (lv : Level) (s : State) : (readLine lv s).line.integrated = s.line.integrated := by
  have hc := (count_fields s.line lv).2.2.2.2.2.1
  unfold readLine LineInterface.receive LineInterface.compare
  dsimp only
  (repeat' split) <;> simp [hc]

theorem Up.reading (h : Up s) (lv : Level) : Up (readLine lv s) :=
  h.lineOnly (readLine_line h.line lv) (by simp) (by simp) (by simp) (by simp) (by simp) (readLine_integrated lv s) (by simp) (by simp) (by simp) (by simp)

theorem takeChar_integrated (l : LineInterface) : l.takeChar.integrated = l.integrated := by
  unfold LineInterface.takeChar LineInterface.framingError LineInterface.beginFrame LineInterface.discardChar LineInterface.extendFrame LineInterface.countError
  dsimp only
  (repeat' split) <;> rfl

theorem Up.character (h : Up s) : Up (takeCharacter s) :=
  h.lineOnly (takeCharacter_line h.line) (by simp) (by simp) (by simp) (by simp) (by simp) (by unfold takeCharacter; split <;> simp [takeChar_integrated]) (by simp) (by simp) (by simp) (by simp)
theorem Up.hunting (h : Up s) : Up (clearHunting s) :=
  h.lineOnly (clearHunting_line h.line) (by simp) (by simp) (by simp) (by simp) (by simp) (by unfold clearHunting; split <;> simp) (by simp) (by simp) (by simp) (by simp)
theorem Up.breakOff (h : Up s) : Up (breakOff s) :=
  h.lineOnly (breakOff_line h.line) (by simp) (by simp) (by simp) (by simp) (by simp) (by unfold Sys2Proof.Machine.breakOff; split <;> simp [LineInterface.countError]) (by simp) (by simp) (by simp) (by simp)
theorem Up.fault (h : Up s) : Up (findLineFault s) :=
  h.lineOnly (findLineFault_line h.line) (by simp) (by simp) (by simp) (by simp) (by simp) (by unfold findLineFault; split <;> simp) (by simp) (by simp) (by simp) (by simp)

/-! ## Frames -/

theorem feedTakes_rest (hh : HubS s) (hf : FloorSound s) (f : Frame) : HubS (feedTakes f s) ∧
    FloorSound (feedTakes f s) ∧ (feedTakes f s).engine = s.engine := by
  unfold feedTakes
  split
  · split
    · rename_i hst
      have hst : s.floor.state = .live := by simpa using hst
      refine ⟨?_, hf.congr (by simp) (by simp) (by simp) (by simp [(rewind_frame _ _).2.2.2.2.2.2.2.1]), by simp⟩
      have h' : Hub .live s.engine s.feed := by unfold HubS at hh; rw [hst] at hh; exact hh
      unfold HubS
      simp only [State.setFeed_floor, State.setFeed_engine, State.setFeed_feed, hst]
      exact h'.rewind _
    · exact ⟨hh, hf, rfl⟩
  · exact ⟨hh, hf, rfl⟩

theorem keep_mute (s : State) : EngKeep s.engine (enterMute s).engine := by
  unfold enterMute
  split
  · exact EngKeep.refl _
  · exact keep_leave s.engine

theorem handOn_rest (hh : HubS s) (hf : FloorSound s) (l : Byte) (r : List Byte) : HubS (handOn l r s) ∧
    FloorSound (handOn l r s) ∧ EngKeep s.engine (handOn l r s).engine := by
  unfold handOn
  split
  · exact ⟨enterMute_hub hh, enterMute_floor hf, keep_mute s⟩
  · split
    · obtain ⟨a, b, c⟩ := floorTakes_rest hf hh (leadStation l) ‹Frame›
      obtain ⟨x, y, z⟩ := feedTakes_rest b a ‹Frame›
      exact ⟨x, y, by rw [z]; exact c⟩
    · exact ⟨hh, hf, EngKeep.refl _⟩

theorem handOn_line (h : LineSound s) (l : Byte) (r : List Byte) : LineSound (handOn l r s) := by
  unfold handOn
  split
  · exact enterMute_line h
  · split
    · exact h.keep (by simp) (by simp) (by simp) (by simp)
    · exact h

theorem Up.frame (h : Up s) : Up (completeFrame s) := by
  unfold completeFrame
  split
  · rename_i hh
    simp only [Bool.and_eq_true, beq_iff_eq] at hh
    have hst := hh.1.1
    have hcb : s.line.charBits = [] := by simpa using hh.1.2
    have hq := h.line.quiet (by rw [hst]; simp)
    have hns := h.line.notSending (by rw [hst]; simp)
    split
    · exact h
    · rename_i lead rest hr
      have hidle : LineSound (s.setLine { s.line with state := .idle, received := [] }) :=
        LineOk.silent (s := s.setLine _) ⟨h.line.idle, h.line.driven, h.line.oneRun, h.line.collisions, h.line.errors, h.line.charBits, fun _ => ⟨rfl, hcb⟩, fun _ => hq⟩ (by simp) hns h.line.integrated
      dsimp only
      split
      · generalize hs1 : s.setLine { s.line with state := .idle, received := [] } = s1 at *
        have e1 : s1.engine = s.engine ∧ s1.feed = s.feed ∧ s1.floor = s.floor ∧ s1.port = s.port ∧ s1.station = s.station ∧ s1.startup = s.startup ∧ s1.scanner = s.scanner ∧ s1.intake = s.intake ∧ s1.line.integrated = s.line.integrated := by
          rw [← hs1]; exact ⟨rfl, rfl, rfl, rfl, rfl, rfl, rfl, rfl, rfl⟩
        obtain ⟨a1, a2, a3, a4, a5, a6, a7, a8, a9⟩ := e1
        have hh1 : HubS s1 := h.rest.hub.congr (by rw [a3]) a1 a2
        have hf1 : FloorSound s1 := h.floor.congr a3 a5 a9 (by rw [a2])
        obtain ⟨b1, b2, b3⟩ := handOn_rest hh1 hf1 lead rest
        have hl := handOn_line hidle lead rest
        have hset : Sys2Proof.Machine.settings s1 = Sys2Proof.Machine.settings s := by rw [← hs1]; simp
        refine h.of (by simp [a6]) (by simp [hset]) (by simp [a7]) (by simp [a8]) ?_ (hl.keep (by simp) (by simp) (by simp) (by simp)) (boundaryIfBetween_floor b2)
        exact boundaryIfBetween_rest h.rest b1 b2 (by rw [← a1]; exact b3) (by simp [a4]) b1.full b1.fullStep
      · refine h.lineOnly ?_ rfl (by simp [LineInterface.countError]) rfl rfl rfl rfl rfl rfl rfl rfl
        exact LineOk.silent (s := s.setLine _) ⟨h.line.idle, h.line.driven, h.line.oneRun, h.line.collisions, countError_errors _, h.line.charBits, fun _ => ⟨rfl, hcb⟩, fun _ => hq⟩ (by simp [LineInterface.countError]) hns h.line.integrated
  · exact h

/-! ## Sending -/

theorem FloorSound.notMute (h : FloorSound s) (hh : s.floor.presenceTimer.isSome = true) : s.floor.state ≠ .mute := by
  intro hm; have := h.presenceMute hm; rw [this] at hh; cases hh

theorem Up.transmit (h : Up s) : Up (beginTransmission s) := by
  unfold beginTransmission
  split
  · rename_i hh
    simp only [transmitReady, Bool.and_eq_true, beq_iff_eq, bne_iff_ne, ne_eq] at hh
    obtain ⟨⟨⟨hst, _⟩, hw⟩, hm⟩ := hh
    have hns := h.line.notSending (by rw [hst]; simp)
    have hb := begun_frame (presenceFields s) s.feed
    have hne : s.feed.waiting ≠ [] := by intro hn; rw [hn] at hw; simp at hw
    have hsend : ∃ x, (s.feed.begun (presenceFields s)).sending = some x ∧ x.frame ≠ .presence none := by
      unfold Feed.begun
      split
      · rename_i hn; exact absurd hn hne
      · rename_i head rest _
        refine ⟨_, rfl, ?_⟩
        cases head <;> simp
    obtain ⟨x, hx, hxf⟩ := hsend
    have hrec := h.line.receiving (by rw [hst]; simp)
    refine h.of rfl rfl rfl rfl ?_ ?_ (h.floor.congr rfl rfl rfl hb.2.2.2.2.2.1)
    · refine h.rest.keep (Hub.begun h.rest.hub _ hns hm) h.rest.done (EngKeep.refl _) rfl
    · refine ⟨h.line.idle, h.line.driven, h.line.oneRun, h.line.collisions, h.line.errors, h.line.charBits, fun _ => hrec, by simp [hx], by simp, by simp, by simp, h.line.integrated, ?_⟩
      intro y hy
      simp only [State.setLine_feed, State.setFeed_feed] at hy
      rw [hx] at hy; cases hy; exact hxf
  · exact h

theorem releaseKeptBack_rest (hf : FloorSound s) (hh : HubS s) (ho : Handover) : FloorSound (releaseKeptBack ho s) ∧
    HubS (releaseKeptBack ho s) := by
  unfold releaseKeptBack
  split
  · rename_i kept hk
    split
    · have hst := hf.keptBack (by rw [hk]; rfl)
      refine ⟨offerHandover_floor ?_ _, offerHandover_hub (s := s.setFloor { s.floor with keptBack := none }) hh (by simp [hst]) _⟩
      exact ⟨hf.claimant, by simp, hf.origin, hf.claimWindow, hf.absence, hf.presence, hf.presenceMute, hf.tenure, hf.armed⟩
    · exact ⟨hf, hh⟩
  · exact ⟨hf, hh⟩

theorem handoverSent_rest (hf : FloorSound s) (hh : HubS s) (hm : s.floor.state ≠ .mute) (ho : Handover) :
    FloorSound (handoverSent ho s) ∧ HubS (handoverSent ho s) ∧ EngKeep s.engine (handoverSent ho s).engine := by
  unfold handoverSent
  split
  · rename_i hi
    simp only [isHandOver, Bool.and_eq_true, beq_iff_eq] at hi
    unfold leaveHanding
    dsimp only
    have l1 := leaveTenure_floor hf.viewed (by rw [hi.1]; rfl)
    have l2 := leaveTenure_hub hh
    have l3 : EngKeep s.engine (leaveTenure s).engine := keep_leave s.engine
    generalize hs1 : leaveTenure s = s1 at *
    have e : ∀ t, t = (if ho.successor.isNone then s1.setFloor { s1.floor with armed := false } else s1) → FloorSound t ∧ HubS t ∧ t.floor.state ≠ .mute ∧ t.engine = s1.engine := by
      intro t ht
      have hs1s : s1.floor.state = .standby := by rw [← hs1]; rfl
      rw [ht]
      split
      · exact ⟨⟨l1.claimant, l1.keptBack, l1.origin, l1.claimWindow, l1.absence, l1.presence, l1.presenceMute, l1.tenure, fun _ => rfl⟩, l2, by simp [hs1s], rfl⟩
      · exact ⟨l1, l2, by simp [hs1s], rfl⟩
    obtain ⟨t1, t2, t3, t4⟩ := e _ rfl
    obtain ⟨a, b, c⟩ := applyOwnHandover_rest t1 t2 t3 ho
    exact ⟨a, b, l3.trans (by rw [← t4]; exact c)⟩
  · obtain ⟨a, b, c⟩ := applyOwnHandover_rest hf hh hm ho
    obtain ⟨x, y⟩ := releaseKeptBack_rest a b ho
    exact ⟨x, y, c.trans (EngKeep.of_eq (by simp))⟩

theorem Up.sent (h : Up s) : Up (sendWhole s) := by
  unfold sendWhole
  split
  · rename_i x hx
    split
    · rename_i hh
      simp only [sentWholeFound, Bool.and_eq_true, beq_iff_eq, Bool.not_eq_true'] at hh
      obtain ⟨⟨hst, _⟩, _⟩ := hh
      have hm : s.floor.state ≠ .mute := by
        intro hm; have := (h.rest.hub.mute hm).2.1; rw [hx] at this; cases this
      have hrec := h.line.receiving (by rw [hst]; simp)
      dsimp only
      generalize hs2 : (s.setLine { s.line with state := .idle, readBack := 0, collisions := 0 }).setFeed (s.setLine { s.line with state := .idle, readBack := 0, collisions := 0 }).feed.sentWhole = s2
      have hmis : s.line.mismatch = false := by assumption
      have hsend : s2.feed.sending = none := by rw [← hs2]; simp [Feed.sentWhole, (joinHeld_step _).sending]
      have hl2 : LineSound s2 := by
        rw [← hs2]
        refine LineOk.silent ?_ ?_ ?_ h.line.integrated
        · exact ⟨h.line.idle, h.line.driven, h.line.oneRun, by simp, h.line.errors, h.line.charBits, fun _ => hrec, fun _ => ⟨rfl, hmis⟩⟩
        · simp
        · simp [Feed.sentWhole, (joinHeld_step _).sending]
      have hh2 : HubS s2 := by rw [← hs2]; exact Hub.sentWhole h.rest.hub
      have hep : s2.feed.tenureEpoch = s.feed.tenureEpoch := by rw [← hs2]; simp [Feed.sentWhole, (joinHeld_step _).epoch]
      have e : s2.engine = s.engine ∧ s2.floor = s.floor ∧ s2.port = s.port ∧ s2.station = s.station ∧ s2.startup = s.startup ∧ s2.scanner = s.scanner ∧ s2.intake = s.intake ∧ s2.line.integrated = s.line.integrated ∧ Sys2Proof.Machine.settings s2 = Sys2Proof.Machine.settings s := by
        rw [← hs2]; refine ⟨rfl, rfl, rfl, rfl, rfl, rfl, rfl, rfl, ?_⟩; simp
      obtain ⟨a1, a3, a4, a5, a6, a7, a8, a9, a10⟩ := e
      have hf2 : FloorSound s2 := h.floor.congr a3 a5 a9 hep
      have fin : FloorSound (frameSent x.frame s2) ∧ HubS (frameSent x.frame s2) ∧ EngKeep s2.engine (frameSent x.frame s2).engine := by
        unfold frameSent
        split
        · exact handoverSent_rest hf2 hh2 (by rw [a3]; exact hm) _
        · exact ⟨hf2, hh2, EngKeep.refl _⟩
      obtain ⟨b1, b2, b3⟩ := fin
      refine h.of (by simp [a6]) (by simp [a10]) (by simp [a7]) (by simp [a8]) ?_ (hl2.keep (by simp) (by simp) (by simp) (by simp)) (boundaryIfBetween_floor (loadPresence_floor b1))
      have b2' : HubS (loadPresence (frameSent x.frame s2)) := loadPresence_hub b2
      refine boundaryIfBetween_rest h.rest b2' (loadPresence_floor b1) ?_ (by simp [a4]) b2'.full b2'.fullStep
      rw [← a1]; simpa using b3
    · exact h
  · exact h

theorem handedBack_epoch (f : Feed) : f.handedBack.tenureEpoch = f.tenureEpoch := by
  unfold Feed.handedBack
  (repeat' split)
  · rfl
  · rw [(joinHeld_step _).epoch]
  · rfl

theorem turn_rest (h : Up s) (hst : s.line.state = .transmitting) (n : Nat) (hn : n ≤ 3)
    : Up ((s.setFeed s.feed.handedBack).setLine { turnToReceiving s with collisions := n }) := by
  refine h.of rfl rfl rfl rfl (h.rest.keep (Hub.handedBack h.rest.hub) h.rest.done (EngKeep.refl _) rfl) (turn_line h.line hst n hn) (h.floor.congr rfl rfl rfl (handedBack_epoch _))

theorem Up.loss (h : Up s) : Up (loseArbitration s) := by
  unfold loseArbitration
  split
  · rename_i hh
    simp only [lossFound, Bool.and_eq_true, beq_iff_eq] at hh
    have := turn_rest h hh.1.1.1 s.line.collisions h.line.collisions
    exact this
  · exact h

theorem Up.mute (h : Up s) : Up (boundaryIfBetween (enterMute s)) := by
  have a := enterMute_hub h.rest.hub
  have b := enterMute_floor h.floor
  refine h.of (by simp) ?_ (by simp) (by simp) (boundaryIfBetween_rest h.rest a b (keep_mute s) (by simp) a.full a.fullStep) ((enterMute_line h.line).keep (by simp) (by simp) (by simp) (by simp)) (boundaryIfBetween_floor b)
  simp

theorem Up.collision (h : Up s) : Up (collide s) := by
  unfold collide
  split
  · rename_i hh
    simp only [collisionFound, Bool.and_eq_true, beq_iff_eq] at hh
    dsimp only
    have := turn_rest h hh.1.1 (saturate 3 s.line.collisions) (by simp [saturate])
    split
    · exact this.mute
    · exact this
  · exact h

/-! ## Floor events -/

theorem Up.replay (h : Up s) : Up (generateReplay s) := by
  unfold generateReplay
  split
  · rename_i hh
    simp only [replayReady, Bool.and_eq_true, beq_iff_eq] at hh
    have h' : Hub .live s.engine s.feed := by have := h.rest.hub; unfold HubS at this; rw [hh.1.1] at this; exact this
    refine h.keepLine rfl (by simp) rfl rfl rfl rfl (by simp) (h.rest.keep ?_ h.rest.done (EngKeep.refl _) rfl) (h.floor.congr rfl rfl rfl (generate_frame _).2.2.1)
    unfold HubS
    simp only [State.setFeed_floor, State.setFeed_engine, State.setFeed_feed, hh.1.1]
    exact h'.generate hh.1.2
  · exact h

theorem AtRest.floorChange (h : AtRest s) {s' : State} (hh : HubS s') (hf : FloorSound s')
    (e1 : s'.engine = s.engine) (e2 : s'.port = s.port) (e3 : s'.floor.state = .mute → s.floor.state = .mute)
    : AtRest s' :=
  h.keep hh (by rw [e1]; exact h.done.congr e3) (EngKeep.of_eq e1) e2

theorem enterClaiming_state (o : Origin) (s : State) : (enterClaiming o s).floor.state = .claiming := by
  unfold enterClaiming loadClaimWindow
  dsimp only
  split <;> simp [loadPresence]

theorem loadClaimWindow_state (s : State) : (loadClaimWindow s).floor.state = s.floor.state := by
  unfold loadClaimWindow; split <;> rfl

theorem Up.integration (h : Up s) : Up (endIntegration s) := by
  unfold endIntegration
  split
  · split
    · rename_i hst
      have hns := h.line.notSending (by rw [hst]; simp)
      have hq := h.line.quiet (by rw [hst]; simp)
      have hr := h.line.receiving (by rw [hst]; simp)
      generalize hs1 : s.setLine { s.line with state := .idle, hunting := false, integrated := true } = s1
      have hl1 : LineSound s1 := by
        rw [← hs1]
        exact LineOk.silent (s := s.setLine _) ⟨h.line.idle, h.line.driven, h.line.oneRun, h.line.collisions, h.line.errors, h.line.charBits, fun _ => hr, fun _ => hq⟩ (by simp) hns (fun _ => h.ended)
      have e : s1.engine = s.engine ∧ s1.feed = s.feed ∧ s1.floor = s.floor ∧ s1.port = s.port ∧ s1.station = s.station ∧ s1.startup = s.startup ∧ s1.scanner = s.scanner ∧ s1.intake = s.intake ∧ s1.line.integrated = true ∧ Sys2Proof.Machine.settings s1 = Sys2Proof.Machine.settings s := by
        rw [← hs1]; refine ⟨rfl, rfl, rfl, rfl, rfl, rfl, rfl, rfl, rfl, by simp⟩
      obtain ⟨a1, a2, a3, a4, a5, a6, a7, a8, a9, a10⟩ := e
      have hf := h.floor
      -- after the presence timer
      have hv : Viewed (loadPresence s1) := by
        refine ⟨?_, ?_, ?_, ?_, ?_, ?_, ?_, ?_, ?_⟩ <;> simp only [loadPresence, State.setFloor_floor, State.setFloor_line, State.setFloor_feed, State.setFloor_station, a3, a2, a5, a9]
        · exact hf.claimant
        · exact hf.keptBack
        · exact hf.origin
        · intro x; exact ⟨(hf.claimWindow.1 x).1, trivial⟩
        · exact hf.absence
        · intro x _; rw [presenceLoad_isSome]; simpa using x
        · intro x; unfold Floor.presenceLoad; rw [x]
        · intro x _; exact (hf.tenure x).2
        · exact hf.armed
      have hh1 : HubS (loadPresence s1) := h.rest.hub.congr (by simp [a3]) a1 a2
      have fin : FloorSound (loadClaimWindow (loadPresence s1)) := by
        cases hc : s1.floor.state with
        | claiming =>
          refine loadClaimWindow_floor hv (by simp [hc]) ?_
          intro x
          simp only [loadPresence, State.setFloor_floor, a3] at x ⊢
          exact (hf.claimWindow.1 x).2.1
        | _ =>
          have e : loadClaimWindow (loadPresence s1) = loadPresence s1 := by
            unfold loadClaimWindow
            simp [hc]
          rw [e]
          refine ⟨hv.claimant, hv.keptBack, hv.origin, ?_, hv.absence, hv.presence, hv.presenceMute, fun x => ?_, hv.armed⟩
          · constructor
            · intro x; have := (hv.claimWindow x).1; simp [hc] at this
            · intro x; simp [hc] at x
          · have hten := hf.tenure (by rw [← a3]; simpa using x)
            simp only [loadPresence, State.setFloor_floor, State.setFloor_feed, State.setFloor_station, a3, a2, a5]
            exact hten
      unfold integrationReported
      dsimp only
      have hh2 : HubS (loadClaimWindow (loadPresence s1)) := loadClaimWindow_hub hh1
      split
      · rename_i hcond
        simp only [Bool.and_eq_true, beq_iff_eq] at hcond
        have hst2 := hcond.1.1
        refine h.of (by simp [a6]) (by simp [a10]) (by simp [a7]) (by simp [a8]) ?_ (hl1.keep (by simp) (by simp) (by simp) (by simp)) (enterClaiming_floor fin hst2 _)
        refine h.rest.floorChange (enterClaiming_hub hh2 (by rw [hst2]; rfl) _) (enterClaiming_floor fin hst2 _) (by simp [a1]) (by simp [a4]) ?_
        rw [enterClaiming_state]; intro x; cases x
      · refine h.of (by simp [a6]) (by simp [a10]) (by simp [a7]) (by simp [a8]) ?_ (hl1.keep (by simp) (by simp) (by simp) (by simp)) fin
        refine h.rest.floorChange hh2 fin (by simp [a1]) (by simp [a4]) ?_
        rw [loadClaimWindow_state]; simp [a3]
    · rename_i hst
      have hns := h.line.notSending (by rw [hst]; simp)
      have hq := h.line.quiet (by rw [hst]; simp)
      have hr := h.line.receiving (by rw [hst]; simp)
      refine h.lineOnly ?_ rfl (by simp) rfl rfl rfl rfl rfl rfl rfl rfl
      exact LineOk.silent (s := s.setLine _) ⟨h.line.idle, h.line.driven, h.line.oneRun, h.line.collisions, h.line.errors, h.line.charBits, fun _ => hr, fun _ => hq⟩ (by simp) hns h.line.integrated
    · exact h
    · exact h
    · exact h
  · exact h

theorem Up.absence (h : Up s) : Up (expireAbsence s) := by
  unfold expireAbsence
  split
  · rename_i hdue
    have hsome : s.floor.absenceTimer.isSome = true := by
      simp only [Timer.due, beq_iff_eq] at hdue; rw [hdue]; rfl
    obtain ⟨hm, hl1, hl2⟩ := h.floor.absence.1 hsome
    have hf := h.floor
    generalize hs1 : s.setFloor { s.floor with view := { s.floor.view with live := none }, absenceTimer := none } = s1
    have hnt : s.floor.state.inTenure = false := by
      by_contra hn
      exact hl2 (hf.tenure (by simpa using hn)).1
    have hv : Viewed s1 := by
      rw [← hs1]
      exact ⟨hf.claimant, hf.keptBack, hf.origin, fun x => ⟨(hf.claimWindow.1 x).1, (hf.claimWindow.1 x).2.2⟩, by simp, hf.presence, hf.presenceMute, fun x => by simp [hnt] at x, hf.armed⟩
    have hh1 : HubS s1 := by rw [← hs1]; exact h.rest.hub.congr rfl rfl rfl
    have hstate : s1.floor.state = s.floor.state := by rw [← hs1]; rfl
    have hfl : FloorSound (reactToVacancy s1) ∧ HubS (reactToVacancy s1) ∧ ((reactToVacancy s1).floor.state = .mute → s.floor.state = .mute) := by
      unfold reactToVacancy
      split
      · rename_i hst
        split
        · exact ⟨enterClaiming_floor (hv.standby hst) hst _, enterClaiming_hub hh1 (by rw [hst]; rfl) _, by rw [enterClaiming_state]; intro x; cases x⟩
        · exact ⟨hv.standby hst, hh1, by rw [hstate]; exact id⟩
      · rename_i hst
        exact ⟨loadClaimWindow_floor hv hst (fun _ => by rw [← hs1]; rfl), loadClaimWindow_hub hh1, by rw [loadClaimWindow_state, hstate]; exact id⟩
      · rename_i hst; rw [hstate] at hst; rw [hst] at hnt; cases hnt
      · rename_i hst; rw [hstate] at hst; rw [hst] at hnt; cases hnt
      · rename_i hst; rw [hstate] at hst; exact absurd hst hm
    have e : s1.engine = s.engine ∧ s1.feed = s.feed ∧ s1.port = s.port ∧ s1.station = s.station ∧ s1.startup = s.startup ∧ s1.scanner = s.scanner ∧ s1.intake = s.intake ∧ s1.line = s.line ∧ Sys2Proof.Machine.settings s1 = Sys2Proof.Machine.settings s := by
      rw [← hs1]; refine ⟨rfl, rfl, rfl, rfl, rfl, rfl, rfl, rfl, by simp⟩
    obtain ⟨a1, a2, a4, a5, a6, a7, a8, a9, a10⟩ := e
    have hs : sentFrame s1 = sentFrame s := by unfold sentFrame; rw [a2]
    exact h.keepLine (by simp [a6]) (by simp [a10]) (by simp [a7]) (by simp [a8]) (by simp [a5]) (by simp [a9]) (by simp [hs]) (h.rest.floorChange hfl.2.1 hfl.1 (by simp [a1]) (by simp [a4]) hfl.2.2) hfl.1
  · exact h

theorem Up.claimWindow (h : Up s) : Up (expireClaimWindow s) := by
  unfold expireClaimWindow
  split
  · rename_i hh
    simp only [Bool.and_eq_true, beq_iff_eq] at hh
    have hst := hh.2
    unfold takeFloor
    dsimp only
    generalize takeoverFrame s = ho
    have o1 := offerHandover_floor h.floor ho
    have o2 := offerHandover_hub h.rest.hub (by rw [hst]; simp) ho
    have ost : (offerHandover ho s).floor.state = .claiming := by simp [hst]
    generalize hs1 : offerHandover ho s = s1 at *
    have hv := moveView_viewed o1 (by rw [ost]; simp) { live := some s.station, epoch := some ho.epoch, nextSeq := some ho.nextSeq, boundary := some ho.nextSeq } (by rw [ost]; intro x; cases x)
    have hh2 : HubS (moveView { live := some s.station, epoch := some ho.epoch, nextSeq := some ho.nextSeq, boundary := some ho.nextSeq } s1) := o2.congr (by simp [moveView]) (by simp) (by simp)
    have f1 := enterLive_floor hv (by simp [moveView, ost]) ho.epoch ho.nextSeq
    have f2 := enterLive_hub hh2 (by simp [moveView, ost, FloorState.inTenure]) ho.epoch ho.nextSeq
    have e : s1.engine = s.engine ∧ s1.port = s.port ∧ s1.station = s.station ∧ s1.startup = s.startup ∧ s1.scanner = s.scanner ∧ s1.intake = s.intake ∧ s1.line = s.line ∧ Sys2Proof.Machine.settings s1 = Sys2Proof.Machine.settings s ∧ sentFrame s1 = sentFrame s := by
      rw [← hs1]; simp
    obtain ⟨a1, a4, a5, a6, a7, a8, a9, a10, a11⟩ := e
    refine h.keepLine (by simp [a6]) (by simp [a10]) (by simp [a7]) (by simp [a8]) (by simp [a5]) (by simp [a9]) (by simp [a11]) ?_ (boundaryIfBetween_floor f1)
    refine boundaryIfBetween_rest h.rest f2 f1 ?_ (by simp [a4]) f2.full f2.fullStep
    have : (enterLive ho.epoch ho.nextSeq (moveView { live := some s.station, epoch := some ho.epoch, nextSeq := some ho.nextSeq, boundary := some ho.nextSeq } s1)).engine = s.engine.enterLive := by
      rw [← a1]; rfl
    rw [this]; exact keep_enter _
  · exact h

theorem Up.presence (h : Up s) : Up (expirePresence s) := by
  unfold expirePresence
  split
  · have l1 := loadPresence_floor h.floor
    have l2 := loadPresence_hub h.rest.hub
    dsimp only
    split
    · rename_i hst
      have hst : s.floor.state = .claiming := by simpa using hst
      exact h.keepLine (by simp) (by simp) (by simp) (by simp) (by simp) (by simp) (by simp) (h.rest.floorChange (offerClaim_hub l2 (by simp [hst]) _) (offerClaim_floor l1 _) (by simp) (by simp) (by simp)) (offerClaim_floor l1 _)
    · exact h.keepLine (by simp) (by simp) (by simp) (by simp) (by simp) (by simp) (by simp) (h.rest.floorChange (offerPresence_hub l2) (offerPresence_floor l1) (by simp) (by simp) (by simp)) (offerPresence_floor l1)
  · exact h

theorem Up.attn (h : Up s) : Up (expireAttnPulse s) := by
  refine h.keepLine (by simp) (by simp) (by simp) (by simp) (by simp) (by simp) (by unfold expireAttnPulse; split <;> rfl) (h.rest.same (by simp) (by simp) (by simp) (by simp)) (h.floor.congr (by simp) (by simp) (by simp) (by simp))

end Sys2Proof.Machine
end

