-- ==== Sys2Proof/Laws/StartupSound.lean ====
section
/-! SUPPORT. The whole invariant `Sound` against its parts, the clock, the header that ends start-up, and what the
commands do before then (R3, R178 to R181). -/

namespace Sys2Proof.Machine
set_option linter.all false

variable {s : State}

theorem Sound.up (h : Sound s) (he : s.startup.ended = true) : Up s := by
  have e := h.engine
  have q := h.queue
  have t := h.tenure
  refine ⟨he, h.startup, h.settings, h.scanner, h.intake, h.balance, ?_, h.line, h.floor⟩
  refine ⟨?_, ⟨e.settleOnEntry, e.fullSettle, e.muteTail⟩, ⟨e.depth, e.records, e.replay, e.replayCodes, e.refusals⟩, e.work, h.port, by rw [e.settleTimer, he]; rfl⟩
  have hd := h.settings.depth.2
  refine ⟨Nat.le_trans e.depth hd, ⟨q.places, q.held⟩, (by rw [e.fullSettle]; intro x; cases x), e.shadowSeqs, q.outside, q.handing, q.handingSent, q.outsideSent, q.mute, ?_, (by rw [e.fullSettle]; intro _ x; cases x), ?_, e.shadowStep, e.liveStep, t.room⟩
  · intro x; exact ⟨fun y => t.live x y, fun y => t.entry x y⟩
  · intro x _; exact t.handing x

theorem Up.sound (h : Up s) : Sound s := by
  have r := h.rest
  have b := r.hub
  refine ⟨h.settings, h.startup, h.scanner, h.intake, h.balance, r.port, ?_, h.line, ?_, ?_, h.floor⟩
  · exact ⟨r.base.depth, r.base.records, r.base.replay, r.base.replayCodes, r.work, by rw [r.timer, h.ended]; rfl, r.base.refusals, r.done.full, r.done.entry, b.shadowSeqs, b.shadowStep, b.liveStep, r.done.muteTail⟩
  · exact ⟨b.places.places, b.places.held, b.outside, b.handing, b.handingSent, b.outsideSent, b.mute⟩
  · exact ⟨fun x y => (b.live x).1 y, fun x y => (b.live x).2 y, fun x => b.hand x r.done.full, b.room⟩

theorem tick_sound (h : Sound s) : Sound (tick s) := by
  have tk := Timer.tick_isSome
  have hline : ∀ c, (tick s).scanner.line c = ((s.scanner.line c)).tick := by
    intro c; cases c with
    | key p => simp [tick, Scanner.tick, Scanner.line, Line.tick]
    | floor => rfl
    | mark => rfl
  have st := h.startup
  have p := h.port
  have e := h.engine
  have l := h.line
  have f := h.floor
  refine ⟨h.settings.congr (by simp), ?_, tick_scanner_sound s h.scanner, h.intake, h.balance, ?_, ?_, ?_, ⟨h.queue.places, h.queue.held, h.queue.outside, h.queue.handing, h.queue.handingSent, h.queue.outsideSent, h.queue.mute⟩, ⟨h.tenure.live, h.tenure.entry, h.tenure.handing, h.tenure.room⟩, ?_⟩
  · refine ⟨st.reading, ?_, st.judged, st.unjudged, ?_, st.keysIdle, st.engineIdle, st.portIdle, st.lineIdle, ?_⟩
    · rw [show (tick s).startup.limitTimer = s.startup.limitTimer.tick from rfl, tk]; exact st.limit
    · intro x c; rw [hline]; have := st.linesUp x c; simp [Line.tick, this, Debounce.tick]
    · intro x; obtain ⟨a, b, c⟩ := st.floorIdle x
      exact ⟨a, b, by rw [show (tick s).floor.presenceTimer = s.floor.presenceTimer.tick from rfl, c]; rfl⟩
  · exact ⟨p.faultCount, p.faultOnce, p.faultRange, p.timeouts, p.fourDown, by rw [show (tick s).port.recoveryTimer = s.port.recoveryTimer.tick from rfl, tk]; exact p.recovery, p.recoveryDown, p.waiting,
      by rw [show (tick s).port.watchdogTimer = s.port.watchdogTimer.tick from rfl, tk]; exact p.watchdog, p.between, p.stepUp, p.serving⟩
  · exact ⟨e.depth, e.records, e.replay, e.replayCodes, e.work, by rw [show (tick s).engine.settleTimer = s.engine.settleTimer.tick from rfl, tk]; exact e.settleTimer, e.refusals, e.fullSettle, e.settleOnEntry, e.shadowSeqs, e.shadowStep, e.liveStep, e.muteTail⟩
  · exact l.keep rfl rfl rfl rfl
  · refine ⟨f.claimant, f.keptBack, f.origin, ?_, ?_, ?_, ?_, f.tenure, f.armed⟩
    · rw [show (tick s).floor.claimTimer = s.floor.claimTimer.tick from rfl, tk]; exact f.claimWindow
    · rw [show (tick s).floor.absenceTimer = s.floor.absenceTimer.tick from rfl, tk]; exact f.absence
    · rw [show (tick s).floor.presenceTimer = s.floor.presenceTimer.tick from rfl, tk]; exact f.presence
    · intro x; rw [show (tick s).floor.presenceTimer = s.floor.presenceTimer.tick from rfl, f.presenceMute x]; rfl

/-! ## reset -/

theorem labels_default : ∀ k : Fin 16, LabelSound (Vector.replicate 16 ([] : List Byte))[k] := by
  intro k; simp [LabelSound]

/-! ## the header -/

/-- The parameters a header yields are in their ranges (R180). -/
structure ParamsSound (p : Params) : Prop where
  bits : 10 ≤ p.bits ∧ p.bits ≤ 16
  base : p.base % 4096 = 0 ∧ 4096 ≤ p.base
  probeLimit : 1 ≤ p.probeLimit ∧ p.probeLimit ≤ 16
  watchdog : 1 ≤ p.watchdog ∧ p.watchdog ≤ 15
  labels : ∀ k : Fin 16, LabelSound p.labels[k]
  depth : 4 ≤ p.depth ∧ p.depth ≤ 24
  settleIdle : 500 ≤ p.settleIdle ∧ p.settleIdle ≤ 10000 ∧ p.settleIdle % 100 = 0
  presencePeriod : 200 ≤ p.presencePeriod ∧ p.presencePeriod ≤ 2000
  absenceTimeout : 1000 ≤ p.absenceTimeout ∧ p.absenceTimeout ≤ 10000 ∧ 3 * p.presencePeriod ≤ p.absenceTimeout
  claimWindow : 100 ≤ p.claimWindow ∧ p.claimWindow ≤ 1000
  debounceTime : 1 ≤ p.debounceTime ∧ p.debounceTime ≤ 8
  releaseWindow : 5 ≤ p.releaseWindow ∧ p.releaseWindow ≤ 40
  maxDuration : 500 ≤ p.maxDuration ∧ p.maxDuration ≤ 4000

theorem clamp_range (lo hi x : Nat) (h : lo ≤ hi) : lo ≤ clamp lo hi x ∧ clamp lo hi x ≤ hi := by
  unfold clamp; omega

theorem defaultParams_sound : ParamsSound defaultParams :=
  ⟨by decide, by decide, by decide, by decide, labels_default, by decide, by decide, by decide, by decide, by decide, by decide, by decide, by decide⟩

theorem fitBits_range (base flash : Nat) (b r : Nat) (h : fitBits base flash b = some r) : 10 ≤ r ∧ r ≤ b := by
  induction b with
  | zero => cases h
  | succ b ih =>
    unfold fitBits at h
    split at h
    · cases h
    · split at h
      · cases h; omega
      · have := ih h; omega

theorem labelOf_sound (bytes : List Byte) (k : Nat) : LabelSound (labelOf bytes k) := by
  refine ⟨by simp [labelOf], ?_⟩
  intro b hb
  simp only [labelOf, List.mem_map] at hb
  obtain ⟨x, _, rfl⟩ := hb
  exact orQuestion_printable x

theorem acceptHeader_sound {bytes : List Byte} {p : Params} (h : acceptHeader bytes = some p) : ParamsSound p := by
  unfold acceptHeader at h
  dsimp only at h
  split at h
  · rename_i hc
    simp only [Bool.and_eq_true, beq_iff_eq, bne_iff_ne, ne_eq] at hc
    obtain ⟨⟨_, h1⟩, h2⟩ := hc
    rw [Option.map_eq_some_iff] at h
    obtain ⟨b, hb, rfl⟩ := h
    obtain ⟨hb1, hb2⟩ := fitBits_range _ _ _ _ hb
    have hb3 := clamp_range 10 16 (numberAt bytes 5 1) (by omega)
    have hp := clamp_range 200 2000 (numberAt bytes 18 2) (by omega)
    have hs := clamp_range 500 10000 (numberAt bytes 16 2) (by omega)
    have ha := clamp_range 1000 10000 (numberAt bytes 20 2) (by omega)
    refine ⟨⟨hb1, by simp only [headerParams]; omega⟩, ⟨h1, by simp only [headerParams]; omega⟩, clamp_range _ _ _ (by omega), clamp_range _ _ _ (by omega), ?_, clamp_range _ _ _ (by omega), ?_, hp, ?_,
      clamp_range _ _ _ (by omega), clamp_range _ _ _ (by omega), clamp_range _ _ _ (by omega), clamp_range _ _ _ (by omega)⟩
    · intro k
      simp only [headerParams, Fin.getElem_fin, Vector.getElem_ofFn]
      exact labelOf_sound _ _
    · simp only [headerParams, settleIdleOf]; omega
    · simp only [headerParams, absenceOf]; omega
  · cases h

theorem endStartup_sound (h : Sound s) (he : s.startup.ended = false) (p : Params) (hp : ParamsSound p) (v : Bool)
    : Sound (endStartup p v s) := by
  have st := h.startup
  obtain ⟨k1, k2⟩ := st.keysIdle he
  obtain ⟨e1, e2, e3⟩ := st.engineIdle he
  obtain ⟨p1, p2, p3⟩ := st.portIdle he
  obtain ⟨l1, l2, l3⟩ := st.lineIdle he
  obtain ⟨f1, f2, f3⟩ := st.floorIdle he
  have po := h.port
  have en := h.engine
  have ln := h.line
  have fl := h.floor
  have ctn : s.floor.claimTimer = none := by
    have := fl.claimWindow; rw [f1] at this; simpa using this
  refine ⟨⟨hp.bits, hp.base, hp.probeLimit, hp.watchdog, hp.labels, hp.depth, hp.settleIdle, hp.presencePeriod, hp.absenceTimeout, hp.claimWindow, hp.debounceTime, hp.releaseWindow, hp.maxDuration⟩, ?_,
    beginWatching_sound p s.scanner h.scanner k1, h.intake, h.balance, ?_, ?_, ?_, ⟨h.queue.places, h.queue.held, h.queue.outside, h.queue.handing, h.queue.handingSent, h.queue.outsideSent, h.queue.mute⟩, ?_, ?_⟩
  · exact ⟨rfl, rfl, (fun _ => by cases v <;> rfl), (fun x => by cases x), (fun x => by cases x), (fun x => by cases x), (fun x => by cases x), (fun x => by cases x), (fun x => by cases x), (fun x => by cases x)⟩
  · have wt : s.port.lookup = none := by have := po.waiting; rw [e1] at this; simpa using this
    have wd : s.port.watchdogTimer = none := by have := po.watchdog; rw [e1] at this; simpa using this
    refine PortIdle.sound (s := endStartup p v s) ⟨po.faultCount, po.faultOnce, ?_, po.timeouts, ?_, ?_, ?_, wt, wd, ?_⟩ e1
    · intro i hi; rw [show (endStartup p v s).port.faults = s.port.faults from rfl, p3] at hi; cases hi
    · intro x
      have := po.fourDown x
      rw [p2] at this; cases this
    · cases v <;> rfl
    · intro x; rw [show (endStartup p v s).port.read = s.port.read from rfl, p1] at x; cases x
    · intro i x; rw [show (endStartup p v s).port.read = s.port.read from rfl, p1] at x; cases x
  · refine ⟨?_, ?_, ?_, ?_, ?_, ?_, en.refusals, en.fullSettle, en.settleOnEntry, ?_, ?_, ?_, ?_⟩
    · rw [show (endStartup p v s).engine.tail = s.engine.tail from rfl, e2]; exact Nat.zero_le _
    · exact en.records
    · exact en.replay
    · exact en.replayCodes
    · exact en.work
    · rw [show (endStartup p v s).engine.step = s.engine.step from rfl, e1]; rfl
    · exact en.shadowSeqs
    · exact en.shadowStep
    · exact en.liveStep
    · exact en.muteTail
  · have hns := ln.notSending (by rw [l1]; simp)
    have hq := ln.quiet (by rw [l1]; simp)
    have hr := ln.receiving (by rw [l1]; simp)
    refine LineOk.silent (s := endStartup p v s) ⟨ln.idle, ln.driven, ln.oneRun, ln.collisions, ln.errors, ln.charBits, fun _ => hr, fun _ => hq⟩ (by simp [endStartup]) hns (fun _ => rfl)
  · exact ⟨h.tenure.live, h.tenure.entry, h.tenure.handing, h.tenure.room⟩
  · refine ⟨fl.claimant, fl.keptBack, fl.origin, fl.claimWindow, fl.absence, fl.presence, fl.presenceMute, fl.tenure, ?_⟩
    intro x; exact x

theorem header_sound (h : Sound s) (o : ReadOwner) (b : List Byte) : Sound (completeHeaderRead o b s) := by
  unfold completeHeaderRead
  split
  · rename_i hc
    simp only [Bool.and_eq_true, beq_iff_eq] at hc
    have he : s.startup.ended = false := by have := h.startup.reading; rw [hc.1.1] at this; simpa using this.symm
    split
    · rename_i p hp
      exact endStartup_sound h he p (acceptHeader_sound hp) true
    · exact endStartup_sound h he _ defaultParams_sound false
  · exact h

theorem limit_sound (h : Sound s) : Sound (expireStartupLimit s) := by
  unfold expireStartupLimit
  split
  · rename_i hc
    simp only [Bool.and_eq_true] at hc
    have he : s.startup.ended = false := by have := h.startup.reading; rw [hc.1] at this; simpa using this.symm
    exact endStartup_sound h he _ defaultParams_sound false
  · exact h

/-! ## before the end of start-up -/

theorem contact_down (h : Sound s) (he : s.startup.ended = false) (c : Contact) (b : Bool)
    : Sound (changeContact c b s) := by
  have st := h.startup
  have e : ∀ x, ((changeContact c b s).scanner.line x).state = (s.scanner.line x).state := by
    intro x
    unfold changeContact
    simp only [he, Bool.false_eq_true, if_false, State.setScanner_scanner]
    cases c with
    | key p =>
      cases x with
      | key q =>
        simp only [Scanner.setLine, Scanner.line]
        by_cases hpq : p = q
        · subst hpq; simp
        · have : p.val ≠ q.val := fun hh => hpq (Fin.ext hh)
          simp [Vector.getElem_set, this]
      | floor => rfl
      | mark => rfl
    | floor => cases x <;> rfl
    | mark => cases x <;> rfl
  have hch : (changeContact c b s).scanner.chord = s.scanner.chord := by unfold changeContact; cases c <;> rfl
  refine ⟨h.settings.congr (by simp), ?_, changeContact_sound c b s h.scanner, by simp [h.intake], ?_, h.port.congr (by simp) (by simp) (by simp), ?_, h.line.keep (by simp) (by unfold sentFrame; simp) (by simp) (by simp), ?_, ?_, h.floor.congr (by simp) (by simp) (by simp) (by simp)⟩
  · refine ⟨by simp [st.reading], by simp [st.limit], by simpa using st.judged, by simpa using st.unjudged, ?_, ?_, by simpa using st.engineIdle, by simpa using st.portIdle, by simpa using st.lineIdle, by simpa using st.floorIdle⟩
    · intro _ x; rw [e]; exact st.linesUp he x
    · intro _; rw [hch]; simp; exact st.keysIdle he
  · unfold StrokeBalance; rw [changeContact_completed]; simp; exact h.balance
  · have en := h.engine
    exact ⟨by simp [en.depth], by simpa using en.records, by simp [en.replay], by simpa using en.replayCodes, by simpa using en.work, by simp [en.settleTimer], by simp [en.refusals], by simp [en.fullSettle], by simpa using en.settleOnEntry, by simpa using en.shadowSeqs, by simpa using en.shadowStep, by simpa using en.liveStep, by simpa using en.muteTail⟩
  · have q := h.queue
    exact ⟨by simp [q.places], by simpa using q.held, by simpa using q.outside, by simpa using q.handing, by simpa using q.handingSent, by simpa using q.outsideSent, by simpa using q.mute⟩
  · have t := h.tenure
    exact ⟨by simpa using t.live, by simpa using t.entry, by simpa using t.handing, by simpa using t.room⟩

theorem attn_sound (h : Sound s) : Sound (expireAttnPulse s) := by
  have e : expireAttnPulse s = s.setAttnTimer (expireAttnPulse s).attnTimer := by unfold expireAttnPulse; split <;> rfl
  rw [e]
  have st := h.startup
  exact ⟨⟨h.settings.bits, h.settings.base, h.settings.probeLimit, h.settings.watchdog, h.settings.labels, h.settings.depth, h.settings.settleIdle, h.settings.presencePeriod, h.settings.absenceTimeout, h.settings.claimWindow, h.settings.debounceTime, h.settings.releaseWindow, h.settings.maxDuration⟩,
    ⟨st.reading, st.limit, st.judged, st.unjudged, st.linesUp, st.keysIdle, st.engineIdle, st.portIdle, st.lineIdle, st.floorIdle⟩, h.scanner, h.intake, h.balance, h.port.congr rfl rfl (fun _ => rfl),
    ⟨h.engine.depth, h.engine.records, h.engine.replay, h.engine.replayCodes, h.engine.work, h.engine.settleTimer, h.engine.refusals, h.engine.fullSettle, h.engine.settleOnEntry, h.engine.shadowSeqs, h.engine.shadowStep, h.engine.liveStep, h.engine.muteTail⟩,
    h.line.keep rfl rfl rfl rfl, ⟨h.queue.places, h.queue.held, h.queue.outside, h.queue.handing, h.queue.handingSent, h.queue.outsideSent, h.queue.mute⟩, ⟨h.tenure.live, h.tenure.entry, h.tenure.handing, h.tenure.room⟩, h.floor.congr rfl rfl rfl rfl⟩

/-- the commands that change nothing before start-up has ended -/
theorem idle_before (h : Sound s) (he : s.startup.ended = false) :
    (∀ c, expireDebounce c s = s) ∧ expireReleaseWindow s = s ∧ expireDuration s = s ∧ beginStep s = s ∧ (∀ o b, completeSlotRead o b s = s) ∧ expireWatchdog s = s ∧ expireRecovery s = s ∧ (∀ o b, completeRecovery o b s = s) ∧
    expireSettleIdle s = s ∧ clearHunting s = s ∧ completeFrame s = s ∧ breakOff s = s ∧ findLineFault s = s ∧ endIntegration s = s ∧ beginTransmission s = s ∧ sendWhole s = s ∧ loseArbitration s = s ∧ collide s = s ∧
    generateReplay s = s ∧ expireAbsence s = s ∧ expireClaimWindow s = s ∧ expirePresence s = s ∧ (∀ l, readLine l s = s) ∧ takeCharacter s = s := by
  have st := h.startup
  obtain ⟨k1, k2⟩ := st.keysIdle he
  obtain ⟨e1, e2, e3⟩ := st.engineIdle he
  obtain ⟨p1, p2, p3⟩ := st.portIdle he
  obtain ⟨l1, l2, l3⟩ := st.lineIdle he
  obtain ⟨f1, f2, f3⟩ := st.floorIdle he
  have hsr : slotRead s = none := by unfold slotRead; rw [p1]
  have htm : s.engine.settleTimer = none := by have := h.engine.settleTimer; rw [he] at this; simpa using this
  have hab : s.floor.absenceTimer = none := by have := h.floor.absence; rw [f2] at this; simpa using this
  refine ⟨?_, ?_, ?_, ?_, ?_, ?_, ?_, ?_, ?_, ?_, ?_, ?_, ?_, ?_, ?_, ?_, ?_, ?_, ?_, ?_, ?_, ?_, ?_, ?_⟩
  · intro c; unfold expireDebounce; rw [st.linesUp he c]
  · unfold expireReleaseWindow; simp [k1]
  · unfold expireDuration; simp [k1]
  · unfold beginStep stepReady; simp [he]
  · intro o b; unfold completeSlotRead; rw [hsr]
  · unfold expireWatchdog; rw [hsr]
  · unfold expireRecovery; simp [p2]
  · intro o b; unfold completeRecovery; simp [p1]
  · unfold expireSettleIdle; simp [htm, Timer.due]
  · unfold clearHunting; simp [l3]
  · unfold completeFrame; simp [l1]
  · unfold breakOff brokenOff; simp [l1]
  · unfold findLineFault; simp [l1]
  · unfold endIntegration; simp [he]
  · unfold beginTransmission transmitReady; simp [l1]
  · unfold sendWhole sentWholeFound; simp [l1]; split <;> rfl
  · unfold loseArbitration lossFound; simp [l1]
  · unfold collide collisionFound; simp [l1]
  · unfold generateReplay replayReady; simp [f1]
  · unfold expireAbsence; simp [hab, Timer.due]
  · unfold expireClaimWindow; simp [f1]
  · unfold expirePresence; simp [f3, Timer.due]
  · intro l; unfold readLine; simp [he]
  · unfold takeCharacter; simp [l1]

end Sys2Proof.Machine
end

