-- ==== Sys2Proof/Laws/Operations.lean ====
section
/-! SUPPORT. What the shared operations answer in the plain case: a quiet step boundary, a step that takes an intake item, room in the tail, the ring and the queue, and a withdrawal with nothing held. -/

namespace Sys2Proof.Machine

set_option linter.all false


/-- With no entry to settle, no full settle asked for and outside MUTE, a step boundary does nothing (R44). -/
theorem boundaryWork_quiet {s : State} (h1 : s.engine.settleOnEntry = false) (h2 : s.engine.fullSettle = false) (h3 : s.floor.state ≠ .mute) : boundaryWork s = s := by
  unfold boundaryWork settleMute fullSettle settleOnEntry; simp [h1, h2, h3]

/-- The same at a change taken between steps. -/
theorem boundaryIfBetween_quiet {s : State} (h1 : s.engine.settleOnEntry = false) (h2 : s.engine.fullSettle = false) (h3 : s.floor.state ≠ .mute) : boundaryIfBetween s = s := by
  unfold boundaryIfBetween; split
  · exact boundaryWork_quiet h1 h2 h3
  · rfl

/-- In MUTE with nothing else to do, a step boundary settles the tail locally (R66). -/
theorem boundaryWork_mute {s : State} (h2 : s.engine.fullSettle = false) (h3 : s.floor.state = .mute) (h1 : s.engine.settleOnEntry = false) : boundaryWork s = settleLocal s := by
  unfold boundaryWork settleMute fullSettle settleOnEntry; simp [h1, h2, h3]

/-- The four conditions of R41. -/
theorem stepReady_of {s : State} (h1 : s.startup.ended = true) (h2 : s.engine.step = none) (h3 : s.engine.replay ≠ [] ∨ s.intake.items ≠ []) (h4 : s.floor.state.inTenure = true → 3 ≤ s.feed.free) : stepReady s = true := by
  unfold stepReady
  simp only [h1, h2, Option.isNone_none, Bool.true_and, Bool.and_eq_true, Bool.or_eq_true, Bool.not_eq_true', decide_eq_true_eq, Config.stepPlaces]
  refine ⟨?_, ?_⟩
  · rcases h3 with h | h
    · left; cases hx : s.engine.replay <;> simp_all
    · right; cases hx : s.intake.items <;> simp_all
  · cases hx : s.floor.state.inTenure <;> simp_all

/-- A step with an empty replay list takes the oldest intake item (R41). -/
theorem beginStep_item {s : State} {i : Item} {rest : List Item} (h1 : s.startup.ended = true) (h2 : s.engine.step = none) (h3 : s.engine.replay = []) (h4 : s.intake.items = i :: rest) (h5 : s.floor.state.inTenure = true → 3 ≤ s.feed.free) :
    beginStep s = takeItem i ((openStep s).setIntake (s.intake.take i rest)) := by
  unfold beginStep
  rw [if_pos (stepReady_of h1 h2 (Or.inr (by simp [h4])) h5)]
  rw [h3, h4]; rfl

/-- A ring with room takes its entry at the back; an empty ring under a pending GAP sets the cursor there (R139, R151). -/
theorem push_room (b : SegmentBody) (t : Clock) (f : Feed) (h : f.ring.length < 128) : f.push b t = { f with ring := f.ring ++ [{ seq := f.nextSeq, body := b, time := t }], nextSeq := f.nextSeq + 1, cursor := if f.ring = [] ∧ f.gap.isSome = true then some f.nextSeq else f.cursor } := by
  unfold Feed.push
  rcases hr : f.ring with _ | ⟨d, r⟩
  · simp
  · rw [hr] at h
    simp only [Config.ringPlaces, h, if_true]
    simp

/-- A tail with room takes its record at the back (R39). -/
theorem placeRecord_room (r : Record) (b : Bool) {s : State} (h : s.engine.tail.length < s.engine.depth) :
    placeRecord r b s = s.setEngine { s.engine with tail := s.engine.tail ++ [r] } := by
  unfold placeRecord
  split
  · rename_i h1; rw [h1]; rfl
  · rename_i h1; rw [if_pos h]

/-- A gap count of 0 does nothing. -/
theorem reportGap_zero (t : Clock) (s : State) : reportGap 0 t s = s := by simp [reportGap]

/-- A withdrawal with nothing held (R140). -/
theorem withdraw_free (p : Frame → Bool) {f : Feed} (h : f.held = none) : f.withdraw p = { f with waiting := f.waiting.filter fun fr => !p fr, sending := f.sending.map fun x => if p x.frame then { x with withdrawn := true } else x } := by
  unfold Feed.withdraw Feed.joinHeld; simp [h]

/-- A withdrawal with nothing held takes no place. -/
theorem withdraw_le (p : Frame → Bool) {f : Feed} (h : f.held = none) : (f.withdraw p).places ≤ f.places := by
  rw [withdraw_free p h]; unfold Feed.places
  have := List.length_filter_le (fun fr => !p fr) f.waiting
  simp; omega

/-- A frame joins the back of a queue with a free place (R140). -/
theorem join_room (fr : Frame) {f : Feed} (h : f.places < 16) : f.join fr = { f with waiting := f.waiting ++ [fr] } := by
  unfold Feed.join; rw [if_pos (by simpa [Config.queuePlaces] using h)]

end Sys2Proof.Machine
end

