-- ==== Sys2Proof/WellFormed.lean ====
section
/-! DEFINITION. Which commands are well formed: a completed read delivers exactly the bytes of its block. -/

namespace Sys2Proof

/-- R26 and R132: a slot read fetches the 64 bytes of one slot. R134, R179 and R35: a header read fetches bytes 0 to 289.
Every other operand's type admits only legal values. -/
def Instr.wellFormed : Instr → Bool
  | .reset _ => true
  | .headerReadComplete _ bytes => bytes.length == Config.headerBytes
  | .startupLimitExpiry => true
  | .contactChange _ _ => true
  | .debounceExpiry _ => true
  | .releaseWindowExpiry => true
  | .maximumStrokeDurationExpiry => true
  | .stepBegin => true
  | .slotReadComplete _ bytes => bytes.length == Config.slotBytes
  | .lookupWatchdogExpiry => true
  | .recoveryTimerExpiry => true
  | .recoveryReadComplete _ bytes => bytes.length == Config.headerBytes
  | .settleIdleExpiry => true
  | .huntingFlagClear => true
  | .frameComplete => true
  | .frameBreakOff => true
  | .lineFault => true
  | .integrationEnd => true
  | .transmitBegin => true
  | .frameSentWhole => true
  | .lossOfArbitration => true
  | .bodyCollision => true
  | .replayGeneration => true
  | .absenceTimerExpiry => true
  | .claimWindowExpiry => true
  | .presenceTimerExpiry => true
  | .attnPulseExpiry => true
  | .lineReading _ => true
  | .characterTakenIn => true
  | .stationClockTick => true

end Sys2Proof
end

