-- ==== Sys2Proof/Laws/PerInstr.lean ====
section
/-! SUPPORT. One lemma per command about its operands: a command is well formed exactly when the bytes it brings, if it brings any, are the whole block its read fetches. -/

namespace Sys2Proof.Laws.BlockBytes

/-- The bytes a command brings, and how many its read fetches (R26, R134, R35). -/
def brought : Instr → Option (List Byte × Nat)
  | .headerReadComplete _ bytes => some (bytes, 290)
  | .slotReadComplete _ bytes => some (bytes, 64)
  | .recoveryReadComplete _ bytes => some (bytes, 290)
  | _ => none

/-- Well formed exactly when every byte of the block is there and no other. -/
def Statement (c : Instr) : Prop :=
  c.wellFormed = true ↔ ∀ bytes count, brought c = some (bytes, count) → bytes.length = count

theorem reset (straps : BitVec 4) : Statement (.reset straps) := by
  simp [Statement, brought, Instr.wellFormed]
theorem headerReadComplete (owner : ReadOwner) (bytes : List Byte) : Statement (.headerReadComplete owner bytes) := by
  simp [Statement, brought, Instr.wellFormed, Config.headerBytes]
theorem startupLimitExpiry : Statement .startupLimitExpiry := by
  simp [Statement, brought, Instr.wellFormed]
theorem contactChange (contact : Contact) (closed : Bool) : Statement (.contactChange contact closed) := by
  simp [Statement, brought, Instr.wellFormed]
theorem debounceExpiry (contact : Contact) : Statement (.debounceExpiry contact) := by
  simp [Statement, brought, Instr.wellFormed]
theorem releaseWindowExpiry : Statement .releaseWindowExpiry := by
  simp [Statement, brought, Instr.wellFormed]
theorem maximumStrokeDurationExpiry : Statement .maximumStrokeDurationExpiry := by
  simp [Statement, brought, Instr.wellFormed]
theorem stepBegin : Statement .stepBegin := by
  simp [Statement, brought, Instr.wellFormed]
theorem slotReadComplete (owner : ReadOwner) (bytes : List Byte) : Statement (.slotReadComplete owner bytes) := by
  simp [Statement, brought, Instr.wellFormed, Config.slotBytes]
theorem lookupWatchdogExpiry : Statement .lookupWatchdogExpiry := by
  simp [Statement, brought, Instr.wellFormed]
theorem recoveryTimerExpiry : Statement .recoveryTimerExpiry := by
  simp [Statement, brought, Instr.wellFormed]
theorem recoveryReadComplete (owner : ReadOwner) (bytes : List Byte) : Statement (.recoveryReadComplete owner bytes) := by
  simp [Statement, brought, Instr.wellFormed, Config.headerBytes]
theorem settleIdleExpiry : Statement .settleIdleExpiry := by
  simp [Statement, brought, Instr.wellFormed]
theorem huntingFlagClear : Statement .huntingFlagClear := by
  simp [Statement, brought, Instr.wellFormed]
theorem frameComplete : Statement .frameComplete := by
  simp [Statement, brought, Instr.wellFormed]
theorem frameBreakOff : Statement .frameBreakOff := by
  simp [Statement, brought, Instr.wellFormed]
theorem lineFault : Statement .lineFault := by
  simp [Statement, brought, Instr.wellFormed]
theorem integrationEnd : Statement .integrationEnd := by
  simp [Statement, brought, Instr.wellFormed]
theorem transmitBegin : Statement .transmitBegin := by
  simp [Statement, brought, Instr.wellFormed]
theorem frameSentWhole : Statement .frameSentWhole := by
  simp [Statement, brought, Instr.wellFormed]
theorem lossOfArbitration : Statement .lossOfArbitration := by
  simp [Statement, brought, Instr.wellFormed]
theorem bodyCollision : Statement .bodyCollision := by
  simp [Statement, brought, Instr.wellFormed]
theorem replayGeneration : Statement .replayGeneration := by
  simp [Statement, brought, Instr.wellFormed]
theorem absenceTimerExpiry : Statement .absenceTimerExpiry := by
  simp [Statement, brought, Instr.wellFormed]
theorem claimWindowExpiry : Statement .claimWindowExpiry := by
  simp [Statement, brought, Instr.wellFormed]
theorem presenceTimerExpiry : Statement .presenceTimerExpiry := by
  simp [Statement, brought, Instr.wellFormed]
theorem attnPulseExpiry : Statement .attnPulseExpiry := by
  simp [Statement, brought, Instr.wellFormed]
theorem lineReading (level : Level) : Statement (.lineReading level) := by
  simp [Statement, brought, Instr.wellFormed]
theorem characterTakenIn : Statement .characterTakenIn := by
  simp [Statement, brought, Instr.wellFormed]
theorem stationClockTick : Statement .stationClockTick := by
  simp [Statement, brought, Instr.wellFormed]

end Sys2Proof.Laws.BlockBytes
end

