-- ==== Sys2Proof/Tests/Slice0.lean ====
section
/-! SUPPORT. Tests of the model: ill-formed commands, one small step per command, and for every obligation with hypotheses a concrete state and operands that meet them together. -/

namespace Sys2Proof.Tests

set_option Elab.async false

open Sys2Proof.Machine

/-! ## Small states -/

/-- Every key open. -/
def openKeys : Vector Line 24 :=
  Vector.replicate 24 (Line.initial false)

/-- Station 5 right after reset, the closing of a key to come. -/
def fresh : State :=
  State.afterReset 5 openKeys (Line.initial false) (Line.initial false) [.contactChange (.key 3) true]

/-- Station 5 at the end of start-up, its port UP. -/
def ready : State :=
  endStartup defaultParams true fresh

/-- The same in another floor state. -/
def inFloor (f : FloorState) : State :=
  ready.setFloor { ready.floor with state := f }

/-- Station 5 LIVE in epoch 7 from seq 100. -/
def live : State :=
  boundaryWork (enterLive 7 100 ready)

/-- A record of one stroke. -/
def oneRecord (seq : Option Seq) : Record :=
  { strokes := [3], kind := .entry, text := [0x61#8], saved := Context.initial, seq := seq, degraded := false }

/-- An intake item without a gap count. -/
def item (kind : ItemKind) : Item :=
  { kind := kind, time := 9, gap := 0 }

/-- The state with one item waiting. -/
def holding (i : Item) (s : State) : State :=
  s.setIntake { s.intake with items := [i] }

/-- The state with these records in the tail. -/
def withTail (tail : List Record) (s : State) : State :=
  s.setEngine { s.engine with tail := tail }

/-- The state with these frames waiting. -/
def queueing (frames : List Frame) (s : State) : State :=
  s.setFeed { s.feed with waiting := frames }

/-- The state with this frame in transmission. -/
def transmitting (f : Frame) (s : State) : State :=
  (s.setFeed { s.feed with sending := some { frame := f, withdrawn := false } }).setLine
    { s.line with state := .transmitting }

/-- The state with these characters as a whole frame in reception. -/
def receiving (chars : List Byte) (s : State) : State :=
  s.setLine { s.line with state := .receiving, received := chars }

/-- The state with one character being received. -/
def receivingChar (received : List Byte) (bits : List Level) (s : State) : State :=
  s.setLine { s.line with state := .receiving, received := received, charBits := bits }

/-- A step for stroke 5 in flight, on the read of its bucket's slot. -/
def lookingUp (s : State) : State :=
  (s.setPort { s.port with read := .slot 38, lookup := some { key := [5], probe := 0 }, watchdogTimer := some 0 }).setEngine
    { s.engine with step := some { code := 5, time := 9, gap := 0, candidate := 0, faulted := false }, settleTimer := none }

/-- A block followed by its CRC. -/
def sealed (body : List Byte) : List Byte :=
  body ++ be16 (crc body)

/-- The 62 checked bytes of a slot of `n` stroke codes, the first of them 5, with the text "hi". -/
def slotBody (n : Byte) : List Byte :=
  [n, 0, 255, 2, 0, 0, 5] ++ List.replicate 21 0 ++ [0x68#8, 0x69#8] ++ List.replicate 32 0

/-- The 288 checked bytes of a header: bucket bits 14, flash size, base 4096, and the line rate code. -/
def headerBody (flash : List Byte) (rate : Byte) : List Byte :=
  [0x5A#8, 0x46#8, 0x44#8, 0x48#8, 1#8, 14#8] ++ flash ++ [0, 0, 16, 0, 8, 12] ++ List.replicate 9 0
    ++ [rate, 1] ++ List.replicate 261 0

/-- The state a command leads to. -/
def after (c : Instr) (s : State) : State :=
  match exec c s with
  | .next t => t
  | .fault _ => s
  | .refused _ => s

/-! ## The header's CRC, without running it -/

theorem sealed_number (body : List Byte) (n : Nat) (h : body.length = n) :
    numberAt (sealed body) n 2 = (crc body).toNat := by
  subst h
  unfold numberAt sealed be16
  rw [List.drop_left]
  simp [BitVec.extractLsb'_toNat, Nat.shiftRight_eq_div_pow]
  have := (crc body).isLt
  omega

theorem sealed_header (body : List Byte) (h : body.length = 288) :
    headerSound (sealed body) = (body.take 5 == [0x5A#8, 0x46#8, 0x44#8, 0x48#8, 1#8]) := by
  unfold headerSound
  rw [sealed_number body 288 h]
  unfold sealed
  rw [← h, List.take_left, List.take_append_of_le_length (by omega)]
  simp

theorem sealed_length (body : List Byte) : (sealed body).length = body.length + 2 := by
  simp [sealed, be16]

/-! ## Ill-formed commands -/

theorem test_short_header_is_ill_formed :
    Instr.wellFormed (.headerReadComplete .inFlight (List.replicate 289 0)) = false := by decide +kernel

theorem test_long_slot_is_ill_formed :
    Instr.wellFormed (.slotReadComplete .inFlight (List.replicate 65 0)) = false := by decide +kernel

theorem test_short_recovery_is_ill_formed :
    Instr.wellFormed (.recoveryReadComplete .abandoned (List.replicate 64 0)) = false := by decide +kernel

theorem test_ill_formed_changes_nothing :
    after (.slotReadComplete .inFlight [0]) (lookingUp ready) = lookingUp ready
      ∧ after (.headerReadComplete .inFlight [0]) fresh = fresh := by decide +kernel

/-! ## One step per command -/

theorem test_reset_reads_straps :
    (after (.reset 0b1011) live).station = 11 ∧ (after (.reset 0b1011) live).floor = Floor.initial := by decide +kernel

theorem test_header_short_magic_is_defaulted :
    (after (.headerReadComplete .inFlight (List.replicate 290 0)) fresh).startup.defaulted = true := by decide +kernel

theorem test_startup_limit :
    (after .startupLimitExpiry { fresh with startup := { fresh.startup with limitTimer := some 0 } }).port.up = false := by
  decide +kernel

theorem test_contact_closes :
    ((after (.contactChange (.key 3) true) ready).scanner.line (.key 3)).state = .closing 3 := by decide +kernel

/-- Key `k` with this debounce state and contact. -/
def keyAt (k : Fin 24) (d : Debounce) (s : State) : State :=
  s.setScanner (s.scanner.setLine (.key k) { closed := d.acceptedDown, state := d })

theorem test_debounce_starts_stroke :
    let t := after (.debounceExpiry (.key 3)) (keyAt 3 (.closing 0) ready)
    t.scanner.chord = .chording ∧ t.scanner.union = 8 ∧ t.scanner.durationTimer = some 1500 := by decide +kernel

/-- A chord of keys 0 and 3 with the release window over. -/
def released : State :=
  ready.setScanner
    { ready.scanner with chord := .releasing, union := 9, strokeTime := 77, releaseTimer := some 0, durationTimer := some 40 }

theorem test_release_window_completes_stroke :
    (after .releaseWindowExpiry released).intake.items = [{ kind := .stroke 9, time := 77, gap := 0 }] := by decide +kernel

theorem test_duration_sticks_keys :
    (after .maximumStrokeDurationExpiry (keyAt 3 .down (ready.setScanner
      { ready.scanner with chord := .chording, union := 9, durationTimer := some 0 }))).scanner.stuck = 8 := by decide +kernel

theorem test_step_reads_slot :
    (after .stepBegin (holding (item (.stroke 5)) ready)).port.read = .slot 38 := by decide +kernel

theorem test_slot_hit_writes_text :
    ((after (.slotReadComplete .inFlight (sealed (slotBody 1))) (lookingUp ready)).engine.tail.map Record.text) =
      [[0x48#8, 0x69#8]] := by decide +kernel

theorem test_watchdog_falls_back_to_raw :
    let t := after .lookupWatchdogExpiry (lookingUp ready)
    t.port.faults = [38] ∧ t.engine.tail.map Record.kind = [.raw] ∧ t.engine.tail.map Record.degraded = [true] := by
  decide +kernel

/-- The port is DOWN and its recovery timer is due. -/
def down : State :=
  ready.setPort { ready.port with up := false, recoveryTimer := some 0 }

theorem test_recovery_timer : (after .recoveryTimerExpiry down).port.read = .recovery := by decide +kernel

theorem test_recovery_read_of_bad_header_stays_down :
    let t := after (.recoveryReadComplete .inFlight (List.replicate 290 0)) (after .recoveryTimerExpiry down)
    t.port.up = false ∧ t.port.read = .none := by decide +kernel

/-- The settle idle timer is due. -/
def paused (s : State) : State :=
  s.setEngine { s.engine with settleTimer := some 0 }

theorem test_settle_idle_settles_tail :
    (after .settleIdleExpiry (paused (withTail [oneRecord none] ready))).engine.tail = [] := by decide +kernel

theorem test_hunting_clears :
    (after .huntingFlagClear (ready.setLine { ready.line with hunting := true, idle := 14 })).line.hunting = false := by
  decide +kernel

theorem test_claim_of_another_station :
    (after .frameComplete (receiving ((Frame.claim none false).chars 2) live)).floor.claimant = some 2 := by decide +kernel

theorem test_break_off :
    (after .frameBreakOff ((receiving [0x40#8] ready).setLine { (receiving [0x40#8] ready).line with idle := 23 })).line.errors =
      1 := by decide +kernel

theorem test_line_fault :
    (after .lineFault (ready.setLine { ready.line with state := .idle, driven := 23 })).line.state = .fault := by
  decide +kernel

theorem test_integration_end :
    let t := after .integrationEnd (ready.setLine { ready.line with idle := 33 })
    t.line.state = .idle ∧ t.line.integrated = true ∧ t.floor.presenceTimer = some 2000 := by decide +kernel

/-- The line is quiet and `frames` wait. -/
def quiet (frames : List Frame) (s : State) : State :=
  queueing frames (s.setLine { s.line with state := .idle, idle := 14 })

theorem test_transmit_begins :
    let t := after .transmitBegin (quiet [.rewind 4] ready)
    t.line.state = .transmitting ∧ t.feed.waiting = [] := by decide +kernel

/-- The frame in transmission has been read back to its end. -/
def readBack (f : Frame) (s : State) : State :=
  (transmitting f s).setLine { (transmitting f s).line with readBack := (f.levels s.station).length }

theorem test_sent_whole : (after .frameSentWhole (readBack (.rewind 4) ready)).line.state = .idle := by decide +kernel

/-- A mismatch at bit `n` of the frame in transmission. -/
def mismatchAt (n : Nat) (f : Frame) (s : State) : State :=
  (transmitting f s).setLine { (transmitting f s).line with readBack := n, mismatch := true }

theorem test_loss_hands_back :
    let t := after .lossOfArbitration (mismatchAt 1 (.rewind 4) ready)
    t.feed.waiting = [.rewind 4] ∧ t.line.state = .receiving ∧ t.line.charBits = [.driven, .driven] := by decide +kernel

theorem test_body_collision_counts :
    let t := after .bodyCollision (mismatchAt 11 (.rewind 4) ready)
    t.feed.waiting = [.rewind 4] ∧ t.line.collisions = 1 ∧ t.line.received = [0x85#8] := by decide +kernel

/-- R119: the third collision and a duplicate both leave the line IDLE and hunting. -/
theorem test_mute_line_hunts :
    let third := (mismatchAt 11 (.rewind 4) ready).setLine { (mismatchAt 11 (.rewind 4) ready).line with collisions := 2 }
    let t := after .bodyCollision third
    let u := after .frameComplete (receiving ((Frame.claim none false).chars 5) ready)
    t.floor.state = .mute ∧ t.line.state = .idle ∧ t.line.hunting = true ∧ t.line.received = [] ∧ t.line.charBits = []
      ∧ t.line.errors = 0 ∧ u.floor.state = .mute ∧ u.line.state = .idle ∧ u.line.hunting = true := by decide +kernel

/-- LIVE with `n` ring entries from seq 100 on. -/
def liveRing (n : Nat) : State :=
  live.setFeed (Nat.repeat (fun f => f.push (.mark 1) 0) n live.feed)

/-- A replay cursor at seq 100. -/
def replaying : State :=
  (liveRing 2).setFeed { (liveRing 2).feed with cursor := some 100 }

theorem test_replay_copy :
    (after .replayGeneration replaying).feed.waiting =
      [.segment 7 (some false) { seq := 100, body := .mark 1, time := 0 }] := by decide +kernel

/-- Another station is live in the view, and the absence timer is due. -/
def hearing (f : FloorState) : State :=
  ready.setFloor
    { ready.floor with
      state := f
      view := { live := some 2, epoch := some 7, nextSeq := some 50, boundary := some 40 }
      absenceTimer := some 0 }

theorem test_absence_empties_view : (after .absenceTimerExpiry (hearing .standby)).floor.view.live = none := by decide +kernel

/-- The claim window is over. -/
def windowOver : State :=
  ready.setFloor { ready.floor with state := .claiming, origin := some .reporter, claimTimer := some 0 }

theorem test_claim_window_takes_floor :
    let t := after .claimWindowExpiry windowOver
    t.floor.state = .live ∧ t.feed.waiting.length = 1 := by decide +kernel

/-- The presence timer is due. -/
def presenceDue (f : FloorState) : State :=
  (inFloor f).setFloor { (inFloor f).floor with presenceTimer := some 0 }

theorem test_presence_offered : (after .presenceTimerExpiry (presenceDue .standby)).feed.waiting = [.presence none] := by
  decide +kernel

theorem test_attn_pulse_ends : (after .attnPulseExpiry (ready.setAttnTimer (some 0))).attnTimer = none := by decide +kernel

theorem test_line_reading_counts :
    (after (.lineReading .released) ready).line.idle = 1 ∧ (after (.lineReading .driven) ready).line.driven = 1 := by
  decide +kernel

theorem test_character_begins_frame :
    (after .characterTakenIn (receivingChar [] (charLevels 0x42#8 true) ready)).line.received = [0x42#8] := by decide +kernel

theorem test_tick_counts : (after .stationClockTick { ready with clock := 4294967295 }).clock = 0 := by decide +kernel

/-! ## The invariant of a concrete station, for the statements over it -/

theorem fresh_sound : Sound fresh := by
  have lines : ∀ k, (fresh.scanner.line k).state = .up := by
    intro k
    cases k with
    | key p => revert p; decide +kernel
    | floor => rfl
    | mark => rfl
  have settings : SettingsSound fresh := by
    constructor <;> first | exact labels_default | decide +kernel
  have startup : StartupSound fresh := by
    constructor
    case linesUp => exact fun _ => lines
    all_goals decide +kernel
  have scanner : ScannerSound fresh.scanner := initial_sound _ _ _
  have intake : IntakeSound fresh.intake := by
    constructor
    case gaps => intro i h; cases h
    case codes => intro i h; cases h
    all_goals decide +kernel
  have port : PortSound fresh := by
    constructor
    case between => intro _ i h; cases h
    case serving => intro l w h; cases h
    case faultRange => intro i h; cases h
    all_goals decide +kernel
  have engine : EngineSound fresh := by
    constructor
    case records => intro r h; cases h
    case replayCodes => intro c h; cases h
    case work => intro w h; cases h
    case shadowSeqs => intro _ r h; cases h
    all_goals decide +kernel
  have line : LineSound fresh := by
    constructor
    case sendingFilled => intro x h; cases h
    all_goals decide +kernel
  have queue : QueueSound fresh := by
    constructor
    case outside => intro _; exact ⟨rfl, rfl, rfl, fun f h => by cases h⟩
    case handing => intro h; cases h
    case handingSent => intro h; cases h
    case outsideSent => intro _ x h; cases h
    all_goals decide +kernel
  have tenure : TenureSound fresh := by
    constructor <;> intro h <;> cases h
  have floor : FloorSound fresh := by
    constructor <;> decide +kernel
  exact ⟨settings, startup, scanner, intake, rfl, port, engine, line, queue, tenure, floor⟩

theorem ready_sound : Sound ready :=
  endStartup_sound fresh_sound rfl defaultParams defaultParams_sound true

/-! ## The hypotheses of the statements are met -/

/-- Every disjunct that makes a command out of turn holds right after reset, or for bytes of an abandoned read. -/
theorem test_meets_CommandOutOfTurnChangesNothing :
    fresh.startup.limitTimer ≠ some 0 ∧ (fresh.scanner.line .floor).state ≠ .closing 0
      ∧ (fresh.scanner.line .floor).state ≠ .opening 0 ∧ fresh.scanner.releaseTimer ≠ some 0 ∧ fresh.scanner.chord = .idle
      ∧ fresh.startup.ended = false ∧ fresh.port.lookup = none ∧ fresh.port.watchdogTimer ≠ some 0 ∧ fresh.port.up = true
      ∧ fresh.port.read ≠ .recovery ∧ fresh.engine.settleTimer ≠ some 0 ∧ fresh.line.hunting = false
      ∧ fresh.line.state ≠ .receiving ∧ fresh.line.state ≠ .idle ∧ fresh.line.idle < 33 ∧ fresh.line.state ≠ .transmitting
      ∧ fresh.floor.state ≠ .live ∧ fresh.floor.absenceTimer ≠ some 0 ∧ fresh.floor.claimTimer ≠ some 0
      ∧ fresh.floor.presenceTimer ≠ some 0 ∧ fresh.attnTimer ≠ some 0 := by decide +kernel

/-- The disjuncts at their bounds: blocks one byte short, a frame one character short and one complete, a frame one bit short of its end, and mismatches of each kind at the last bit of the lead and the first after it. -/
theorem test_meets_CommandOutOfTurnChangesNothing_at_bounds :
    let sent := transmitting (.rewind 4) ready
    let short := sent.setLine { sent.line with readBack := ((Frame.rewind 4).levels sent.station).length - 1 }
    (List.replicate 289 (0 : Byte)).length ≠ 290 ∧ (List.replicate 63 (0 : Byte)).length ≠ 64
      ∧ (receiving [0x12, 1, 3, 4] ready).line.received = 0x12 :: 1 :: [3, 4] ∧ [3, 4].length ≠ (1 : Byte).toNat + 2
      ∧ (receiving [0x12, 0, 3, 4] ready).line.received = 0x12 :: 0 :: [3, 4] ∧ [3, 4].length = (0 : Byte).toNat + 2
      ∧ short.line.state = .transmitting ∧ short.feed.sending.isSome = true
      ∧ short.line.readBack ≠ ((Frame.rewind 4).levels short.station).length
      ∧ (mismatchAt 10 (.rewind 4) ready).line.readBack < 11 ∧ bitSent (mismatchAt 10 (.rewind 4) ready) = .released
      ∧ 11 ≤ (mismatchAt 11 (.rewind 4) ready).line.readBack ∧ bitSent (mismatchAt 0 (.rewind 4) ready) = .driven := by
  decide +kernel

theorem test_meets_StepRunsFrontCommand :
    fresh.pending = .contactChange (.key 3) true :: [] ∧ State.reset.pending = [] := by decide +kernel

theorem test_meets_EveryStepKeepsSound : Sound ready ∧ ∃ t, step ready = .next t ∧ t ≠ ready :=
  ⟨ready_sound, _, rfl, by decide +kernel⟩

theorem test_meets_EveryStepKeepsStrokeBalance : StrokeBalance ready ∧ ∃ t, step ready = .next t :=
  ⟨ready_sound.balance, _, rfl⟩

/-- A newer SETTLE moves the epoch of the view. -/
theorem test_meets_ViewEpochOnlyMovesToNewer :
    let s := receiving ((Frame.settle 9 60).chars 2) (hearing .standby)
    s.floor.view.epoch = some 7 ∧ (after .frameComplete s).floor.view.epoch = some 9 := by decide +kernel

theorem test_meets_MuteLeftOnlyByReset :
    let s := inFloor .mute
    s.floor.state = .mute ∧ s.feed.waiting = [] ∧ s.feed.sending = none ∧ s.feed.held = none
      ∧ ∃ t, exec .stationClockTick s = .next t :=
  ⟨rfl, rfl, rfl, rfl, _, rfl⟩

theorem test_meets_SettingsFixedUntilReset : ready.startup.reading = false ∧ ∃ t, exec .integrationEnd ready = .next t :=
  ⟨rfl, _, rfl⟩

theorem headerBody_length (flash : List Byte) (rate : Byte) : (headerBody flash rate).length = flash.length + 284 := by
  simp only [headerBody, List.length_append, List.length_cons, List.length_nil, List.length_replicate]
  omega

/-- A sound header that asks for 14 bucket bits is accepted with the most that fit. -/
theorem accepted_header (flash : List Byte) (rate : Byte) (h4 : flash.length = 4) (b : Nat)
    (hb : fitBits 4096 (numberAt (sealed (headerBody flash rate)) 6 4) 14 = some b) :
    acceptHeader (sealed (headerBody flash rate)) =
      some (headerParams (sealed (headerBody flash rate)) 4096 b) := by
  obtain ⟨a, b', c, d, rfl⟩ : ∃ a b c d, flash = [a, b, c, d] := by
    match flash, h4 with
    | [a, b, c, d], _ => exact ⟨a, b, c, d, rfl⟩
  have hbase : numberAt (sealed (headerBody [a, b', c, d] rate)) 10 4 = 4096 := rfl
  have hbits : clamp 10 16 (numberAt (sealed (headerBody [a, b', c, d] rate)) 5 1) = 14 := rfl
  have hs : headerSound (sealed (headerBody [a, b', c, d] rate)) = true := by
    rw [sealed_header _ (headerBody_length _ _)]
    rfl
  unfold acceptHeader
  rw [hbase, hbits, hs]
  dsimp only
  rw [hb]
  rfl

/-- A header with room for the 14 bucket bits it asks for, at each line rate, and one whose flash holds 11. -/
theorem test_meets_HeaderJudgedAndBroughtIntoRange :
    ((acceptHeader (sealed (headerBody [0, 16, 16, 0] 0))).map Params.bits = some 14
        ∧ numberAt (sealed (headerBody [0, 16, 16, 0] 0)) 25 1 = 0)
      ∧ ((acceptHeader (sealed (headerBody [0, 16, 16, 0] 2))).map Params.bits = some 14
        ∧ numberAt (sealed (headerBody [0, 16, 16, 0] 2)) 25 1 = 2)
      ∧ ((acceptHeader (sealed (headerBody [0, 2, 16, 0] 3))).map Params.bits = some 11
        ∧ numberAt (sealed (headerBody [0, 2, 16, 0] 3)) 25 1 = 3) := by
  refine ⟨⟨?_, by decide +kernel⟩, ⟨?_, by decide +kernel⟩, ?_, by decide +kernel⟩
  · rw [accepted_header [0, 16, 16, 0] 0 rfl 14 (by decide +kernel)]
    simp only [Option.map_some, headerParams]
  · rw [accepted_header [0, 16, 16, 0] 2 rfl 14 (by decide +kernel)]
    simp only [Option.map_some, headerParams]
  · rw [accepted_header [0, 2, 16, 0] 3 rfl 11 (by decide +kernel)]
    simp only [Option.map_some, headerParams]

theorem test_meets_HeaderAcceptedEndsStartup :
    fresh.startup.reading = true ∧ (sealed (headerBody [0, 16, 16, 0] 1)).length = 290
      ∧ ∃ p, acceptHeader (sealed (headerBody [0, 16, 16, 0] 1)) = some p :=
  ⟨rfl, by rw [sealed_length, headerBody_length]; rfl, _, accepted_header [0, 16, 16, 0] 1 rfl 14 (by decide +kernel)⟩

theorem test_meets_DefaultedStart :
    let s := { fresh with startup := { fresh.startup with limitTimer := some 0 } }
    s.startup.reading = true ∧ s.startup.limitTimer = some 0
      ∧ (List.replicate 290 (0 : Byte)).length = 290 ∧ acceptHeader (List.replicate 290 0) = none := by decide +kernel

theorem test_meets_NothingRunsBeforeStartupEnds : Sound fresh ∧ fresh.startup.ended = false :=
  ⟨fresh_sound, rfl⟩

theorem test_meets_ClockCountsMilliseconds : Instr.stepBegin ≠ .stationClockTick ∧ ∃ t, exec .stepBegin ready = .next t :=
  ⟨by decide, _, rfl⟩

/-- Key 3 closing in each chord state, and opening with another key up and with another key down. -/
theorem test_meets_AcceptedKeyMovesChord :
    (keyAt 3 (.closing 0) ready).scanner.keys[(3 : Fin 24)].state = .closing 0
      ∧ (let s := keyAt 3 (.opening 0) (ready.setScanner { ready.scanner with chord := .chording, union := 8 })
        s.scanner.keys[(3 : Fin 24)].state = .opening 0 ∧ s.scanner.chord = .chording
          ∧ ∀ j : Fin 24, (s.scanner.setLine (.key 3) { s.scanner.keys[(3 : Fin 24)] with state := .up }).keys[j].state.acceptedDown =
            false)
      ∧ (let s := keyAt 3 (.opening 0) (keyAt 4 .down ready)
        s.scanner.keys[(3 : Fin 24)].state = .opening 0 ∧ s.scanner.keys[(4 : Fin 24)].state.acceptedDown = true
          ∧ KeySet.has s.scanner.stuck 4 = false) := by decide +kernel

/-- A button accepted with 31 items, with 32, and released. -/
theorem test_meets_ButtonAccepted :
    let s (n : Nat) (d : Debounce) : State :=
      (ready.setScanner (ready.scanner.setLine .mark { closed := true, state := d })).setIntake
        { ready.intake with items := List.replicate n (item .floor) }
    ((s 31 (.closing 0)).scanner.line .mark).state = .closing 0 ∧ (s 31 (.closing 0)).intake.items.length < 32
      ∧ 32 ≤ (s 32 (.closing 0)).intake.items.length ∧ ((s 0 (.opening 0)).scanner.line .mark).state = .opening 0 := by
  decide +kernel

/-- The release window over with 29 strokes, with 30, and with 32 items; the duration over in both chord states. -/
theorem test_meets_ExpiryCompletesStroke :
    let s (strokes floors : Nat) : State :=
      released.setIntake
        { ready.intake with items := List.replicate strokes (item (.stroke 1)) ++ List.replicate floors (item .floor) }
    let overIn (c : ChordState) : State := released.setScanner { released.scanner with chord := c, durationTimer := some 0 }
    (s 29 2).scanner.releaseTimer = some 0 ∧ (s 29 2).scanner.chord = .releasing
      ∧ (s 29 2).intake.strokes < 30 ∧ (s 29 2).intake.items.length < 32
      ∧ 30 ≤ (s 30 0).intake.strokes ∧ (s 30 0).intake.items = List.replicate 29 (item (.stroke 1)) ++ [item (.stroke 1)]
      ∧ 32 ≤ (s 29 3).intake.items.length
      ∧ (s 29 3).intake.items = (List.replicate 29 (item (.stroke 1)) ++ List.replicate 2 (item .floor)) ++ [item .floor]
      ∧ (overIn .chording).scanner.durationTimer = some 0 ∧ (overIn .chording).scanner.chord ≠ .idle
      ∧ (overIn .releasing).scanner.durationTimer = some 0 ∧ (overIn .releasing).scanner.chord ≠ .idle := by decide +kernel

theorem test_meets_StrokeCodeIsSumOfPositions : ∃ p : Fin 24, KeySet.has 0x800000#24 p = true :=
  ⟨23, by decide⟩

/-- The accumulator over a key of one stroke. -/
theorem test_meets_BucketFollowsTheHash :
    let key : List StrokeCode := [5]
    let a (i : Nat) : Nat := if i = 0 then 1 else 38
    a 0 = key.length ∧ ∀ i (h : i < key.length), a (i + 1) = (a i * 33 + key[i].toNat) % 2 ^ 24 := by
  refine ⟨rfl, fun i h => ?_⟩
  have : i = 0 := by simpa using h
  subst this
  rfl

/-- A slot with a wrong check word, with key lengths 9, 0, 1 and 8, the last two hit, and one that differs. -/
theorem test_meets_SlotJudgedByCheckAndKey :
    (let b := List.replicate 64 (0 : Byte); numberAt b 62 2 ≠ (crc (b.take 62)).toNat)
      ∧ (∀ n ∈ [9#8, 0#8, 1#8, 8#8], let b := sealed (slotBody n)
          numberAt b 62 2 = (crc (b.take 62)).toNat ∧ byteAt b 0 = n)
      ∧ slotStrokes (sealed (slotBody 1)) 1 = [5] ∧ slotStrokes (sealed (slotBody 1)) 1 ≠ [6]
      ∧ slotStrokes (sealed (slotBody 8)) 8 = [5, 0, 0, 0, 0, 0, 0, 0] := by decide +kernel

/-- A slot read of another key, with the next slot free, listed, and past the probe limit; an empty slot; a failed check. -/
theorem test_meets_SlotReadDecidesProbeStep :
    let s := lookingUp ready
    let listed := s.setPort { s.port with faults := [39] }
    let last := s.setPort { s.port with probeLimit := 1 }
    s.port.read = .slot 38 ∧ s.port.lookup = some { key := [5], probe := 0 } ∧ s.engine.step.isSome = true
      ∧ (sealed (slotBody 2)).length = 64 ∧ judgeSlot [5] (sealed (slotBody 2)) = .differ
      ∧ 0 + 1 < s.port.probeLimit ∧ (bucket 14 [5] + (0 + 1)) % 2 ^ 14 = 39
      ∧ 39 ∉ s.port.faults ∧ 39 ∈ listed.port.faults ∧ last.port.probeLimit ≤ 0 + 1
      ∧ judgeSlot [5] (sealed (slotBody 0)) = .empty ∧ judgeSlot [5] (sealed (slotBody 9)) = .check := by decide +kernel

/-- After a miss: a next candidate of one record whose first slot is free, and listed; steps in each mode, with gap counts of 0, 1 and 255, and a tail with room and a full one. -/
theorem test_meets_SlotReadDecidesProbeStep_after_a_miss :
    let s := withTail [oneRecord none] (lookingUp ready)
    let slot := bucket 14 [3, 5] % 2 ^ 14
    let listed := s.setPort { s.port with faults := [slot] }
    let l (n : Nat) : State := (withTail (List.replicate n (oneRecord (some 100))) live).setEngine
      { (withTail (List.replicate n (oneRecord (some 100))) live).engine with mode := .live }
    s.port.up = true ∧ s.port.bits = 14 ∧ slot ∉ s.port.faults ∧ slot ∈ listed.port.faults
      ∧ (s.engine.tail.drop (s.engine.tail.length - 1)).flatMap Record.strokes ++ [5] = [3, 5]
      ∧ (lookingUp down).port.up = false ∧ s.engine.mode = .shadow ∧ s.floor.state = .standby
      ∧ s.engine.settleOnEntry = false ∧ s.engine.fullSettle = false ∧ s.engine.tail.length < s.engine.depth
      ∧ (l 0).engine.mode = .live ∧ (l 0).floor.state = .live ∧ (l 0).engine.settleOnEntry = false
      ∧ (l 0).engine.fullSettle = false ∧ (l 12).engine.depth ≤ (l 12).engine.tail.length
      ∧ (oneRecord (some 100)).seq.isSome = true := by decide +kernel

/-- The entry "hi". -/
def hi : Entry :=
  { flags := 0, speaker := 255, textLength := 2, text := [0x68#8, 0x69#8] ++ List.replicate 30 0 }

theorem test_meets_ShadowHitBuildsRecord :
    let s := lookingUp ready
    s.port.read = .slot 38 ∧ s.port.lookup.isSome = true ∧ s.engine.step.isSome = true
      ∧ (sealed (slotBody 1)).length = 64 ∧ judgeSlot [5] (sealed (slotBody 1)) = .hit hi ∧ s.engine.mode = .shadow
      ∧ s.engine.settleOnEntry = false ∧ s.engine.fullSettle = false ∧ s.floor.state = .standby := by decide +kernel

/-- A SHADOW step in flight in HANDING, in MUTE, and with a settle on entry due. -/
theorem test_meets_shadow_steps_in_every_floor_state :
    let s (f : FloorState) : State := (lookingUp (inFloor f)).setEngine
      { (lookingUp (inFloor f)).engine with settleOnEntry := decide (f = .live) }
    ∀ f ∈ [FloorState.handing, .mute, .live], (s f).floor.state = f ∧ (s f).engine.mode = .shadow
      ∧ (s f).engine.fullSettle = false ∧ (s f).port.read = .slot 38 ∧ (s f).port.lookup.isSome = true
      ∧ (s f).engine.step.isSome = true ∧ (s f).engine.settleOnEntry = decide (f = .live) := by decide +kernel

/-- R64, R66: a SHADOW step that ends in MUTE, or with a settle on entry due, leaves an empty tail. -/
theorem test_shadow_step_settles_at_its_end :
    let due := (lookingUp (inFloor .live)).setEngine { (lookingUp (inFloor .live)).engine with settleOnEntry := true }
    (after .lookupWatchdogExpiry (lookingUp (inFloor .mute))).engine.tail = []
      ∧ (after .lookupWatchdogExpiry due).engine.tail = [] ∧ (after .lookupWatchdogExpiry due).engine.settleOnEntry = false
      ∧ (after .lookupWatchdogExpiry (lookingUp (inFloor .handing))).engine.tail.length = 1 := by decide +kernel

/-- Speaker values at the end of 0..15 and just past it, and a text length above 32 with an unprintable character. -/
theorem test_entry_descriptor_at_its_bounds :
    (entryDescriptor { hi with speaker := 15 }).speaker = some 15 ∧ (entryDescriptor { hi with speaker := 16 }).speaker = none
      ∧ (entryDescriptor { hi with speaker := 16, flags := 0xEF }).isParagraph = false
      ∧ (entryDescriptor { hi with textLength := 33, text := List.replicate 32 0x0A#8 }).body = List.replicate 32 0x3F#8 := by
  decide +kernel

/-- A LIVE step, with a gap count and without one, with room and with a full tail. -/
theorem test_meets_LiveHitAppendsSegment :
    let s (gap : Nat) (tail : List Record) : State :=
      (withTail tail live).setEngine
        { (withTail tail live).engine with
          mode := .live, step := some { code := 5, time := 9, gap := gap, candidate := 0, faulted := false } }
    let read (x : State) : State := x.setPort { x.port with read := .slot 38, lookup := some { key := [5], probe := 0 } }
    let room := read (s 0 [])
    let full := read (s 0 (List.replicate 12 (oneRecord (some 100))))
    room.port.read = .slot 38 ∧ room.engine.mode = .live ∧ room.floor.state = .live ∧ room.engine.settleOnEntry = false
      ∧ room.engine.fullSettle = false ∧ room.engine.tail.length < room.engine.depth ∧ room.feed.places < 16
      ∧ room.feed.ring.length < 128 ∧ full.engine.depth ≤ full.engine.tail.length ∧ full.floor.state = .live
      ∧ (read (s 255 [])).floor.state = .live ∧ (read (s 255 [])).engine.settleOnEntry = false
      ∧ (queueing (List.replicate 15 (.cut 7 3)) live).feed.places < 16 := by decide +kernel

/-- A watchdog due after two timeouts and after three. -/
theorem test_meets_WatchdogRecordsFault :
    let s (n : Nat) : State := (lookingUp ready).setPort { (lookingUp ready).port with timeouts := n }
    (s 2).port.read = .slot 38 ∧ (s 2).port.lookup.isSome = true ∧ (s 2).engine.step.isSome = true
      ∧ (s 2).port.watchdogTimer = some 0 ∧ (s 2).port.timeouts < 3 ∧ 3 ≤ (s 3).port.timeouts
      ∧ (s 3).port.watchdogTimer = some 0 := by decide +kernel

/-- DOWN with the recovery timer due, and a recovery read whose header is the accepted one, and one whose is not. -/
theorem test_meets_RecoveryReadsReturnToUp :
    (down.port.up = false ∧ down.port.recoveryTimer = some 0)
      ∧ (let b := sealed (headerBody [0, 16, 16, 0] 1)
        let s := down.setPort { down.port with read := .recovery, acceptedCrc := some (headerCrc b) }
        s.port.read = .recovery ∧ b.length = 290 ∧ b.take 5 = [0x5A#8, 0x46#8, 0x44#8, 0x48#8, 1#8]
          ∧ numberAt b 288 2 = (crc (b.take 288)).toNat
          ∧ s.port.acceptedCrc = some (BitVec.ofNat 16 (numberAt b 288 2)))
      ∧ (List.replicate 290 (0 : Byte)).length = 290
      ∧ (List.replicate 290 (0 : Byte)).take 5 ≠ [0x5A#8, 0x46#8, 0x44#8, 0x48#8, 1#8] := by
  refine ⟨by decide +kernel, ?_, by decide +kernel, by decide +kernel⟩
  refine ⟨rfl, by rw [sealed_length, headerBody_length]; rfl, by rfl, ?_, rfl⟩
  have h : (headerBody [0, 16, 16, 0] 1).length = 288 := headerBody_length _ _
  rw [sealed_number _ 288 h]
  unfold sealed
  rw [← h, List.take_left]

/-- Seven strokes in a tail of eight records of one: seven are eligible. -/
theorem test_meets_EligibleRecordsAreTheMost :
    let tail := List.replicate 8 (oneRecord none)
    7 ≤ tail.length ∧ ((tail.drop (tail.length - 7)).map fun r => r.strokes.length).sum ≤ 7
      ∧ (∀ r ∈ tail, 1 ≤ r.strokes.length) := by decide +kernel

/-- A stroke of the replay list, and one of the intake queue. -/
theorem test_meets_StepBeginsWithLongestCandidate :
    let replaying := ready.setEngine { ready.engine with replay := [5] }
    let s := holding (item (.stroke 5)) ready
    ready.startup.ended = true ∧ ready.engine.step = none ∧ strokeShape 5 = .ordinary ∧ ready.port.up = true
      ∧ ready.floor.state.inTenure = false ∧ bucket 14 [5] % 2 ^ 14 ∉ ready.port.faults
      ∧ replaying.engine.replay = 5 :: [] ∧ s.engine.replay = [] ∧ s.intake.items = item (.stroke 5) :: []
      ∧ live.floor.state.inTenure = true ∧ 3 ≤ live.feed.free := by decide +kernel

/-- A numeral and another stroke with the port DOWN. -/
theorem test_meets_StepInDownFallsBack :
    let s (c : StrokeCode) : State := holding (item (.stroke c)) down
    strokeShape 0x801000 = .ordinary ∧ strokeShape 5 = .ordinary
      ∧ (s 5).intake.items = item (.stroke 5) :: [] ∧ (s 5).engine.step = none ∧ (s 5).engine.replay = []
      ∧ (s 5).startup.ended = true ∧ (s 5).port.up = false ∧ (s 5).engine.settleOnEntry = false
      ∧ (s 5).engine.fullSettle = false ∧ (s 5).floor.state = .standby
      ∧ (s 5).engine.tail.length < (s 5).engine.depth := by decide +kernel

theorem test_meets_StepInDownFallsBack_keys :
    KeySet.has 0x801000#24 23 = true ∧ KeySet.has 0x801000#24 12 = true ∧ KeySet.has 5#24 23 = false := by decide

/-- The examples of R49 and R50: "#-LZ" gives "10", and "B-T", "KaS", "H-*", "#" and "#BD" stand as written. -/
theorem test_fallback_texts :
    numeralText 0xA01000 = [0x31#8, 0x30#8] ∧ rawText 0x040001 = [0x42#8, 0x2D#8, 0x54#8]
      ∧ rawText 0x020180 = [0x4B#8, 0x61#8, 0x53#8] ∧ rawText 0x400020 = [0x48#8, 0x2D#8, 0x2A#8]
      ∧ rawText 0x800000 = [0x23#8] ∧ rawText 0x800005 = [0x23#8, 0x42#8, 0x44#8] := by decide +kernel

/-- A retract stroke on an empty tail and on a record, and word retracts of 1 and of 9. -/
theorem test_meets_RetractionsRemoveRecords :
    let s (c : StrokeCode) (tail : List Record) : State := holding (item (.stroke c)) (withTail tail live)
    (s 4194304 []).intake.items = item (.stroke 4194304#24) :: [] ∧ (s 4194304 []).engine.tail = []
      ∧ (s 4194304 [oneRecord (some 100)]).engine.tail = [] ++ [oneRecord (some 100)]
      ∧ (s 4194304 []).floor.state ≠ .mute ∧ (s 4194304 []).engine.step = none ∧ (s 4194304 []).engine.replay = []
      ∧ (s 4194304 []).engine.settleOnEntry = false ∧ (s 4194304 []).engine.fullSettle = false ∧ 3 ≤ live.feed.free
      ∧ (s 12587008 []).intake.items = item (.stroke (BitVec.ofNat 24 (12582912 + 2 ^ 12))) :: []
      ∧ (s 13631488 []).intake.items = item (.stroke (BitVec.ofNat 24 (12582912 + 2 ^ 20))) :: []
      ∧ (s 13631488 []).startup.ended = true ∧ (item .floor).gap = 0 := by decide +kernel

/-- R96: a retract stroke with a gap count in LIVE cuts, settles what is left and reports the loss; standing by it drops the count. -/
theorem test_retract_with_gap_count :
    let i : Item := { kind := .stroke 4194304, time := 9, gap := 2 }
    let pushed := (liveRing 2).setFeed { (liveRing 2).feed with wireNext := 102 }
    let t := after .stepBegin (holding i (withTail [oneRecord (some 100), oneRecord (some 101)] pushed))
    let u := after .stepBegin (holding i (withTail [oneRecord none, oneRecord none] ready))
    t.feed.waiting = [.cut 7 101, .segment 7 none { seq := 101, body := .lost 2, time := 9 }] ∧ t.engine.tail = []
      ∧ u.engine.tail = [oneRecord none] ∧ u.feed.waiting = [] := by decide +kernel

/-- A MARK item in LIVE, off the floor and in MUTE, and with gap counts of 1 and 255. -/
theorem test_meets_MarkItemAndGapCount :
    let s (f : State) (gap : Nat) : State := holding { kind := .mark, time := 9, gap := gap } f
    (s live 0).floor.state = .live ∧ 3 ≤ (s live 0).feed.free ∧ (s live 0).feed.held = none
      ∧ (s live 0).feed.ring.length < 128 ∧ (s live 0).engine.step = none ∧ (s live 0).engine.replay = []
      ∧ (s live 0).engine.settleOnEntry = false ∧ (s live 0).engine.fullSettle = false ∧ (s live 0).startup.ended = true
      ∧ (s ready 0).floor.state ≠ .live ∧ (s (inFloor .mute) 0).engine.tail = [] ∧ 3 ≤ (s (inFloor .handing) 0).feed.free
      ∧ (s live 1).floor.state = .live ∧ (s live 255).floor.state = .live ∧ (s ready 255).floor.state = .standby
      ∧ (s (inFloor .claiming) 1).floor.state = .claiming := by decide +kernel

/-- A queue with its last place free and no SETTLE, and a ring with its last place free. -/
theorem test_meets_MarkItemAndGapCount_segment :
    let f := (queueing (List.replicate 15 (.cut 7 3)) live).feed
    f.held = none ∧ f.places < 16 ∧ (liveRing 127).feed.ring.length < 128 := by decide +kernel

/-- A FLOOR item in every floor state. -/
theorem test_meets_FloorItemByFloorState :
    (∀ f ∈ [FloorState.standby, .claiming, .handing, .mute], let s := holding (item .floor) (inFloor f)
        s.floor.state = f ∧ s.startup.ended = true ∧ s.engine.step = none ∧ s.engine.replay = []
          ∧ s.intake.items = item .floor :: [] ∧ s.engine.settleOnEntry = false ∧ s.engine.fullSettle = false
          ∧ 3 ≤ s.feed.free)
      ∧ (let s := holding (item .floor) live
        s.floor.state = .live ∧ s.feed.held = none ∧ s.feed.waiting = [] ∧ s.feed.sending = none ∧ s.engine.step = none
          ∧ s.engine.settleOnEntry = false ∧ 3 ≤ s.feed.free) := by decide +kernel

/-- R165, R166: a FLOOR press on a vacant view starts the claim window once integration is done, and not before. -/
theorem test_floor_item_starts_window :
    let done := ready.setLine { ready.line with integrated := true }
    ready.floor.view.live = none ∧ (after .stepBegin (holding (item .floor) done)).floor.claimTimer = some 300
      ∧ (after .stepBegin (holding (item .floor) ready)).floor.claimTimer = none := by decide +kernel

/-- A takeover of station 5 in epoch 7. -/
def takeover : Handover :=
  { epoch := 7, successor := some 5, nextSeq := 100, lineTime := 9 }

/-- R153, R171, R173: a waiting copy is withdrawn and the hand-over joins; behind a takeover not yet sent it is kept back. -/
theorem test_floor_item_hands_over :
    let copy := Frame.segment 7 (some false) { seq := 100, body := .mark 1, time := 0 }
    let t := after .stepBegin (holding (item .floor) (queueing [copy] live))
    let u := after .stepBegin (holding (item .floor) (queueing [.handover takeover] live))
    t.feed.waiting = [.handover { epoch := 8, successor := none, nextSeq := 100, lineTime := 0 }] ∧ t.floor.keptBack = none
      ∧ u.feed.waiting = [.handover takeover] ∧ u.floor.state = .handing
      ∧ u.floor.keptBack = some { epoch := 8, successor := none, nextSeq := 100, lineTime := 0 } := by decide +kernel

theorem test_meets_SettleIdleSettlesTail :
    let claimed := paused (live.setFloor { live.floor with claimant := some 2 })
    (paused ready).engine.settleTimer = some 0 ∧ (paused ready).engine.step = none
      ∧ (paused ready).engine.settleOnEntry = false ∧ (paused ready).engine.fullSettle = false
      ∧ (paused ready).floor.state.inTenure = false ∧ (paused live).floor.state = .live
      ∧ (paused live).floor.claimant = none ∧ (paused live).engine.settleTimer = some 0
      ∧ (paused live).engine.settleOnEntry = false ∧ claimed.floor.state = .live ∧ claimed.floor.claimant.isSome = true
      ∧ claimed.engine.settleOnEntry = false ∧ claimed.feed.held = none ∧ claimed.feed.waiting = []
      ∧ (∃ x ∈ (queueing [.handover takeover] claimed).feed.waiting, x = .handover takeover)
      ∧ takeover.successor = some claimed.station := by decide +kernel

/-- A SETTLE at the back of the queue; none there with 15 places taken and with 16. -/
theorem test_meets_SettleIdleSettlesTail_request :
    (queueing [.cut 7 3, .settle 7 4] live).feed.waiting = [.cut 7 3] ++ [.settle 7 4]
      ∧ (queueing [.settle 7 4, .cut 7 3] live).feed.waiting.getLast? = some (.cut 7 3)
      ∧ (queueing (List.replicate 15 (.cut 7 3)) live).feed.places < 16
      ∧ ¬(queueing (List.replicate 16 (.cut 7 3)) live).feed.places < 16 := by decide +kernel

/-- A running entry with a body and one without. -/
theorem test_meets_SeparatorOfRunningEntry :
    (entryDescriptor hi).isParagraph = false ∧ (entryDescriptor { hi with textLength := 0 }).isParagraph = false
      ∧ (entryDescriptor { hi with textLength := 0 }).body = [] := by decide +kernel

/-- A paragraph entry with a speaker, and bodies whose first letters stand at both ends of a..z and just outside. -/
theorem test_meets_ParagraphLabelAndCapital :
    (entryDescriptor { hi with speaker := 15 }).isParagraph = true
      ∧ (entryDescriptor { hi with flags := 0x10 }).isParagraph = true
      ∧ (∀ b ∈ [0x61#8, 0x7A#8], (entryDescriptor { hi with text := [b], textLength := 1 }).body = b :: []
          ∧ 0x61 ≤ b.toNat ∧ b.toNat ≤ 0x7A)
      ∧ (∀ b ∈ [0x60#8, 0x7B#8], (entryDescriptor { hi with text := [b], textLength := 1 }).body = b :: []
          ∧ (b.toNat < 0x61 ∨ 0x7A < b.toNat))
      ∧ (rawDescriptor 5).raw = true ∧ (rawDescriptor 5).body ≠ [] ∧ (entryDescriptor hi).raw = false
      ∧ Context.initial.capNext = true := by decide +kernel

theorem test_meets_CutWithdrawsSegments : (liveRing 2).feed.held = none ∧ (liveRing 2).feed.places < 16 := by decide +kernel

/-- A full ring with the cursor at its oldest and without a cursor; a rewind into the ring with each kind of cursor. -/
theorem test_meets_ReplayCursorFollowsRingAndRewind :
    (∃ oldest rest, (liveRing 128).feed.ring = { seq := 100, body := .mark 1, time := 0 } :: oldest :: rest)
      ∧ (liveRing 128).feed.ring.length = 128 ∧ (liveRing 128).feed.cursor ≠ some 100
      ∧ (liveRing 2).feed.oldest = some 100 ∧ seqOlder 101 (liveRing 2).feed.nextSeq = true ∧ seqOlder 101 100 = false
      ∧ seqNewer 100 101 = false ∧ (liveRing 2).feed.cursor = none ∧ replaying.feed.cursor = some 100
      ∧ seqOlder 100 (liveRing 2).feed.nextSeq = true ∧ seqNewer 101 100 = true :=
  ⟨⟨{ seq := 101, body := .mark 1, time := 0 }, (liveRing 128).feed.ring.drop 2, by decide +kernel⟩, by decide +kernel⟩

/-- A REWIND from N, from below the ring's oldest seq with and without an older GAP pending, and on an empty ring; a REWIND frame in LIVE, off the floor and in MUTE. -/
theorem test_meets_ReplayCursorFollowsRingAndRewind_gap :
    let f := (liveRing 2).feed
    let pending (q : Sys2Proof.Seq) : Feed := { f with gap := some { fromSeq := q, toSeq := 100 } }
    let s (x : State) : State := receiving ((Frame.rewind 99).chars 5) x
    f.nextSeq = 102 ∧ seqOlder 102 102 = false ∧ seqOlder 99 f.nextSeq = true ∧ f.oldest = some 100
      ∧ seqOlder 99 100 = true ∧ f.gap = none ∧ seqOlder 98 99 = true ∧ (pending 98).gap.isSome = true
      ∧ live.feed.ring = [] ∧ seqOlder 99 live.feed.nextSeq = true
      ∧ (∀ x ∈ [live, ready, inFloor .mute], (s x).line.state = .receiving ∧ (s x).line.charBits = []
        ∧ (s x).engine.settleOnEntry = false ∧ (s x).engine.fullSettle = false ∧ (s x).engine.tail = [])
      ∧ (s live).floor.state = .live ∧ (s ready).floor.state ≠ .live := by decide +kernel

/-- Replay generation with a pending GAP, and with a cursor at a ring entry. -/
theorem test_meets_ReplayGeneratesOneFrame :
    let gap := live.setFeed { live.feed with gap := some { fromSeq := 90, toSeq := 100 } }
    gap.floor.state = .live ∧ gap.feed.waiting = [] ∧ gap.feed.sending = none ∧ gap.feed.gap.isSome = true
      ∧ replaying.floor.state = .live ∧ replaying.feed.waiting = [] ∧ replaying.feed.sending = none
      ∧ replaying.feed.gap = none ∧ replaying.feed.cursor = some 100
      ∧ replaying.feed.ring.find? (fun x => x.seq == 100) = some { seq := 100, body := .mark 1, time := 0 } := by decide +kernel

/-- Readings before start-up ends, in IDLE after released, inside a character of 1 and of 10 bits, and of the last bit sent. -/
theorem test_meets_LineReadingCountsRuns :
    let s := transmitting (.rewind 4) ready
    fresh.startup.ended = false ∧ ready.startup.ended = true
      ∧ (let i := ready.setLine { ready.line with state := .idle, idle := 1 }
        i.line.state = .idle ∧ 0 < i.line.idle)
      ∧ (∀ n ∈ [1, 22], let b := (receiving [0x12, 1, 3, 4] ready).setLine { (receiving [0x12, 1, 3, 4] ready).line with idle := n }
        b.line.state = .receiving ∧ b.line.charBits = [] ∧ 0 < b.line.idle ∧ b.line.idle ≤ 22
          ∧ b.line.received = 0x12 :: 1 :: [3, 4] ∧ [3, 4].length ≠ (1 : Byte).toNat + 2)
      ∧ (∀ n ∈ [1, 10], let c := receivingChar [] (List.replicate n .driven) ready
        c.line.state = .receiving ∧ c.line.charBits ≠ [] ∧ c.line.charBits.length < 11)
      ∧ s.line.state = .transmitting ∧ s.line.mismatch = false ∧ s.line.readBack < (sendingLevels s).length
      ∧ (let e := s.setLine { s.line with readBack := 65 }
        e.line.readBack < (sendingLevels e).length ∧ bitSent e = .released) := by decide +kernel

/-- A bad stop bit; a lead mark; no frame in reception; a length of 61 and of 60; a longer frame. -/
theorem test_meets_CharacterTakenIntoFrame :
    let bad := List.replicate 11 Level.driven
    (receivingChar [] bad ready).line.state = .receiving ∧ charStopGood bad = false
      ∧ charStopGood (charLevels 0x42 true) = true ∧ charMark (charLevels 0x42 true) = true
      ∧ charMark (charLevels 61 false) = false ∧ charStopGood (charLevels 61 false) = true
      ∧ 60 < (charValue (charLevels 61 false)).toNat ∧ ¬60 < (charValue (charLevels 60 false)).toNat
      ∧ (receivingChar [0x42] (charLevels 61 false) ready).line.received.length = 1
      ∧ (receivingChar [0x42, 8] (charLevels 61 false) ready).line.received.length ≠ 1
      ∧ (receivingChar [] (charLevels 61 false) ready).line.received = []
      ∧ (receivingChar [0x42] (charLevels 61 false) ready).line.charBits.length = 11 := by decide +kernel

theorem test_meets_RunCountsEndFramesAndFindFaults :
    (let s := ready.setLine { ready.line with hunting := true, idle := 14 };
      s.line.hunting = true ∧ 14 ≤ s.line.idle)
      ∧ (let s := (receiving [0x40#8] ready).setLine { (receiving [0x40#8] ready).line with idle := 23 };
        s.line.state = .receiving ∧ s.line.received ≠ [] ∧ frameDone s.line.received = false ∧ s.line.charBits = []
          ∧ 22 < s.line.idle)
      ∧ (let s := ready.setLine { ready.line with state := .idle, driven := 23 };
        s.line.state = .idle ∧ 22 < s.line.driven) := by decide +kernel

/-- Integration over after a fault, and at start-up in each case of the floor. -/
theorem test_meets_IntegrationEnds :
    let s (l : LineState) (f : FloorState) (armed : Bool) : State :=
      ((inFloor f).setLine { ready.line with state := l, idle := 33 }).setFloor { (inFloor f).floor with armed := armed }
    (s .fault .standby false).startup.ended = true ∧ 33 ≤ (s .fault .standby false).line.idle
      ∧ (s .fault .standby false).line.state = .fault ∧ (s .integrating .standby false).line.state = .integrating
      ∧ (s .integrating .standby false).floor.armed = false ∧ (s .integrating .standby true).floor.armed = true
      ∧ (s .integrating .standby true).floor.view.live = none ∧ (s .integrating .standby true).floor.claimTimer = none
      ∧ (s .integrating .claiming false).floor.state = .claiming := by decide +kernel

/-- A frame with a wrong check, of kind 10, and of an unsuited length; a frame of this station's number. -/
theorem test_meets_CompleteFrameDroppedOrDuplicate :
    (let s := receiving [0x82, 2, 0, 4, 0, 0] ready;
      s.line.state = .receiving ∧ s.line.charBits = [] ∧ s.line.received = 0x82 :: 2 :: ([0, 4] ++ [0, 0])
        ∧ ([0, 0] : List Byte) ≠ be16 (crc (2 :: [0, 4])))
      ∧ 10 ≤ (0xA2#8).toNat / 16 ∧ bodyLengthSuits ((0x82#8).toNat / 16) 3 = false
      ∧ (let s := receiving ((Frame.claim none false).chars 5) ready;
        s.line.received = 0x15 :: ((Frame.claim none false).chars 5).tail ∧ frameDone s.line.received = true
          ∧ frameValid 0x15 ((Frame.claim none false).chars 5).tail = true ∧ (0x15#8).toNat / 16 ≠ 8
          ∧ (0x15#8).toNat % 16 = s.station.val ∧ s.floor.state ≠ .mute) := by decide +kernel

/-- A duplicate and another frame heard in MUTE. -/
theorem test_meets_CompleteFrameDroppedOrDuplicate_mute :
    ∀ lead ∈ [0x15#8, 0x12#8], let s := receiving (lead :: ((Frame.claim none false).chars 5).tail) (inFloor .mute)
      s.floor.state = .mute ∧ s.line.state = .receiving ∧ s.line.charBits = [] ∧ frameDone s.line.received = true
        ∧ frameValid lead ((Frame.claim none false).chars 5).tail = true ∧ s.engine.tail = []
        ∧ s.engine.settleOnEntry = false ∧ s.engine.fullSettle = false := by decide +kernel

/-- A frame of each kind with its fields at the ends of what its layout allows. -/
theorem test_meets_FrameRoundTrip :
    FrameSound (.handover { epoch := 255, successor := some 15, nextSeq := 65535, lineTime := 4294967295 })
      ∧ FrameSound (.claim none true) ∧ FrameSound (.cut 255 65535) ∧ FrameSound (.settle 0 0)
      ∧ FrameSound (.segment 7 (some true) { seq := 3, body := .text (List.replicate 51 0x61) true, time := 9 })
      ∧ FrameSound (.segment 7 none { seq := 3, body := .text [] false, time := 9 })
      ∧ FrameSound (.segment 7 none { seq := 3, body := .mark 65535, time := 9 })
      ∧ FrameSound (.segment 7 none { seq := 3, body := .lost 1, time := 9 })
      ∧ FrameSound (.presence (some { presenceFields ready with faultEntries := 8 }))
      ∧ FrameSound (.rewind 65535) ∧ FrameSound (.gap 7 65535 0) := by
  simp only [FrameSound]
  decide +kernel

/-- A CLAIM heard in every floor state, from the pending claimant and from another; a better bid and none while the window runs; the hand-over kept back and waiting. -/
theorem test_meets_ClaimBecomesPendingClaimant :
    let s (withdraw : Bool) (sender : Station) (x : State) : State := receiving ((Frame.claim none withdraw).chars sender) x
    let claimed := live.setFloor { live.floor with claimant := some 2 }
    let handing := claimed.setFloor { claimed.floor with state := .handing }
    let h : Handover := { epoch := 8, successor := some 2, nextSeq := 100, lineTime := 9 }
    (∀ x ∈ [live, claimed, ready, windowOver, handing], (s true 2 x).line.state = .receiving ∧ (s true 2 x).line.charBits = []
        ∧ (2 : Station) ≠ x.station ∧ (9 : Station) ≠ x.station ∧ (s true 2 x).engine.settleOnEntry = false
        ∧ (s true 2 x).engine.fullSettle = false)
      ∧ claimed.floor.state = .live ∧ ready.floor.state = .standby ∧ windowOver.floor.state = .claiming
      ∧ windowOver.floor.claimTimer.isSome = true ∧ (4 : Station) < windowOver.station ∧ windowOver.station < (6 : Station)
      ∧ (inFloor .claiming).floor.claimTimer = none ∧ handing.floor.state = .handing ∧ handing.floor.claimant = some 2
      ∧ handing.floor.keptBack = none ∧ handing.feed.held = none ∧ h.epoch = handing.feed.epoch + 1
      ∧ (queueing [.presence none, .handover h] handing).feed.waiting = [.presence none] ++ .handover h :: []
      ∧ (handing.setFloor { handing.floor with keptBack := some h }).floor.keptBack = some h := by decide +kernel

/-- A frame of each row of R159 with fields its layout allows. -/
theorem test_meets_TextMovesTheView_frames :
    FrameSound (.segment 7 none { seq := 65535, body := .text (List.replicate 51 0x61) true, time := 9 })
      ∧ FrameSound (.segment 7 none { seq := 65535, body := .mark 1, time := 9 })
      ∧ FrameSound (.segment 7 none { seq := 3, body := .lost 255, time := 9 }) ∧ FrameSound (.cut 7 65535)
      ∧ FrameSound (.settle 7 0) ∧ FrameSound (.gap 7 65535 0)
      ∧ FrameSound (.segment 7 (some true) { seq := 3, body := .mark 1, time := 9 })
      ∧ FrameSound (.presence (some { presenceFields live with faultEntries := 8 }))
      ∧ (presenceFields live).role = .live ∧ (presenceFields live).reach = some { epoch := 7, nextSeq := 100, boundary := 100 } := by
  simp only [FrameSound]
  decide +kernel

/-- A frame of the view's epoch, from the live station, a lower and a higher one, and on a vacant view; one of a newer and of an older epoch, at both ends of what is newer, and with the view's epoch unknown. -/
theorem test_meets_TextMovesTheView :
    let s (e : Epoch) (sender : Station) : State := receiving ((Frame.cut e 50).chars sender) (hearing .standby)
    let vacant := (hearing .standby).setFloor { (hearing .standby).floor with view := { ready.floor.view with epoch := some 7 } }
    (∀ e ∈ [7#8, 8#8, 6#8], ∀ y ∈ [(1 : Station), 2, 3], (s e y).floor.state = .standby ∧ y ≠ (s e y).station
        ∧ (s e y).line.state = .receiving ∧ (s e y).line.charBits = [] ∧ (s e y).floor.view.epoch = some 7
        ∧ (s e y).floor.view.live = some 2 ∧ (s e y).engine.settleOnEntry = false ∧ (s e y).engine.fullSettle = false)
      ∧ vacant.floor.state = .standby ∧ vacant.floor.view.epoch = some 7 ∧ vacant.floor.view.live = none
      ∧ ready.floor.state = .standby ∧ ready.floor.view.epoch = none
      ∧ epochNewer 8 7 = true ∧ epochNewer 134 7 = true ∧ epochNewer 135 7 = false ∧ epochNewer 6 7 = false := by
  decide +kernel

/-- The hand-over to station 5. -/
def toFive : Handover :=
  { epoch := 8, successor := some 5, nextSeq := 60, lineTime := 1000 }

theorem test_meets_HandoverMakesClaimantLive :
    let s := receiving ((Frame.handover toFive).chars 2) (hearing .claiming)
    s.floor.state = .claiming ∧ (2 : Station) ≠ s.station ∧ s.line.state = .receiving ∧ s.line.charBits = []
      ∧ toFive.successor = some s.station ∧ s.floor.view.epoch = some 7 ∧ epochNewer toFive.epoch 7 = true
      ∧ s.engine.fullSettle = false ∧ s.engine.step = none := by decide +kernel

/-- A claim of each origin that hears a newer HANDOVER of another station or of NONE, and a segment of a newer epoch, of the same from a lower station, and on a vacant view. -/
theorem test_meets_HandoverMakesClaimantLive_other_rows :
    let s (o : Origin) : State := (hearing .claiming).setFloor { (hearing .claiming).floor with origin := some o }
    let vacant := (inFloor .claiming).setFloor { (inFloor .claiming).floor with view := { ready.floor.view with epoch := some 7 } }
    ({ toFive with successor := some 2 } : Handover).successor = some 2 ∧ (2 : Station) ≠ ready.station
      ∧ (∀ o ∈ [Origin.reporter, .auto], (s o).floor.state = .claiming ∧ (s o).floor.origin = some o
        ∧ (s o).engine.settleOnEntry = false ∧ (s o).engine.fullSettle = false ∧ (s o).floor.view.epoch = some 7
        ∧ (s o).floor.view.live = some 2 ∧ (s o).line.charBits = [])
      ∧ epochNewer 8 7 = true ∧ (1 : Station) < 2 ∧ vacant.floor.view.epoch = some 7 ∧ vacant.floor.view.live = none
      ∧ vacant.floor.state = .claiming := by decide +kernel

theorem test_meets_HandoverMakesClaimantLive_segment :
    FrameSound (.segment 8 none { seq := 50, body := .text [0x61#8] false, time := 9 }) := by
  simp only [FrameSound]
  decide +kernel

theorem test_meets_StandbyDeclinesHandover :
    let s := receiving ((Frame.handover toFive).chars 2) (hearing .standby)
    s.floor.state = .standby ∧ s.line.state = .receiving ∧ s.line.charBits = [] ∧ toFive.successor = some s.station
      ∧ s.floor.view.epoch = some 7 ∧ epochNewer toFive.epoch 7 = true ∧ s.engine.settleOnEntry = false
      ∧ s.engine.fullSettle = false ∧ s.floor.view.live ≠ some s.station ∧ epochNewer 6 7 = false := by decide +kernel

/-- A HANDOVER to a third station, to NONE and of the same epoch, standing by with another station live, on a vacant view, and armed. -/
theorem test_meets_StandbyDeclinesHandover_other_names :
    let s (y : Option Station) : State := receiving ((Frame.handover { toFive with successor := y }).chars 2) (hearing .standby)
    let vacant := ready.setFloor { ready.floor with view := { ready.floor.view with epoch := some 8 }, armed := true }
    (∀ y ∈ [none, some (1 : Station), some 2, some 3], (s y).floor.state = .standby ∧ (s y).line.state = .receiving
        ∧ (s y).line.charBits = [] ∧ y ≠ some (s y).station ∧ (s y).floor.view.epoch = some 7 ∧ (s y).floor.view.live = some 2
        ∧ (s y).floor.armed = false ∧ (s y).engine.settleOnEntry = false ∧ (s y).engine.fullSettle = false)
      ∧ epochNewer toFive.epoch 7 = true ∧ vacant.floor.view.epoch = some toFive.epoch ∧ vacant.floor.view.live = none
      ∧ vacant.floor.armed = true ∧ vacant.floor.state = .standby := by decide +kernel

/-- R164, log entry 19: an armed station standing by claims on a HANDOVER to NONE. -/
theorem test_handover_to_none_starts_claim :
    let t := after .frameComplete (receiving ((Frame.handover { toFive with successor := none }).chars 2)
      ((hearing .standby).setFloor { (hearing .standby).floor with armed := true }))
    t.floor.state = .claiming ∧ t.floor.origin = some .auto ∧ t.feed.waiting = [.claim (some 8) false] := by decide +kernel

/-- A HANDOVER offered while one is held, while two wait, and with 15 and 16 places taken. -/
theorem test_meets_StandbyDeclinesHandover_offer :
    let f := (queueing [.handover toFive, .presence none, .handover toFive, .rewind 4] ready).feed
    f.held = none ∧ f.waiting = [.handover toFive, .presence none] ++ .handover toFive :: [.rewind 4]
      ∧ (∀ x ∈ [Frame.rewind 4], x.isHandover = false) ∧ ({ f with held := some toFive } : Feed).held.isSome = true
      ∧ (queueing (List.replicate 15 (.rewind 4)) ready).feed.places < 16
      ∧ 16 ≤ (queueing (List.replicate 16 (.rewind 4)) ready).feed.places
      ∧ (∀ x ∈ List.replicate 16 (Frame.rewind 4), x.isHandover = false) := by decide +kernel

/-- A frame heard in LIVE and in HANDING: of a newer epoch, of the own one from a lower and a higher station, and of an older one. -/
theorem test_meets_NewerTenureDemotesLiveStation :
    (∀ x ∈ [live, live.setFloor { live.floor with state := .handing }], let s := receiving ((Frame.cut 8 50).chars 2) x
        (s.floor.state = .live ∨ s.floor.state = .handing) ∧ s.line.state = .receiving ∧ s.line.charBits = []
          ∧ s.floor.view.epoch = some 7 ∧ s.floor.view.live = some s.station ∧ s.engine.settleOnEntry = false
          ∧ s.engine.fullSettle = false ∧ (4 : Station) < s.station ∧ s.station < (6 : Station))
      ∧ epochNewer 8 7 = true ∧ epochNewer 6 7 = false := by decide +kernel

theorem test_meets_NewerTenureDemotesLiveStation_frames :
    FrameSound (.segment 8 none { seq := 50, body := .mark 1, time := 9 })
      ∧ FrameSound (.segment 8 (some true) { seq := 50, body := .lost 1, time := 9 }) ∧ FrameSound (.cut 8 50)
      ∧ FrameSound (.settle 8 50) ∧ FrameSound (.gap 8 65535 0)
      ∧ FrameSound (.presence (some { presenceFields live with faultEntries := 8 })) := by
  simp only [FrameSound]
  decide +kernel

/-- A HANDOVER heard in LIVE and in HANDING that names a lower and a higher station, this one, and NONE; armed or not. -/
theorem test_meets_NewerTenureDemotesLiveStation_handover :
    let handing := live.setFloor { live.floor with state := .handing, armed := true }
    let s (x : State) (y : Option Station) : State := receiving ((Frame.handover { toFive with successor := y }).chars 2) x
    (∀ x ∈ [live, handing], ∀ y ∈ [none, some (4 : Station), some 5, some 6],
        ((s x y).floor.state = .live ∨ (s x y).floor.state = .handing) ∧ (s x y).line.state = .receiving
          ∧ (s x y).line.charBits = [] ∧ (s x y).floor.view.epoch = some 7 ∧ (s x y).floor.view.live = some (s x y).station
          ∧ (s x y).station = 5 ∧ (s x y).engine.settleOnEntry = false ∧ (s x y).engine.fullSettle = false)
      ∧ live.floor.armed = false ∧ handing.floor.armed = true ∧ epochNewer toFive.epoch 7 = true := by decide +kernel

theorem test_meets_HeadFrameBeginsTransmission :
    let s := quiet [.rewind 4] ready
    s.line.state = .idle ∧ 14 ≤ s.line.idle ∧ s.feed.waiting = .rewind 4 :: [] ∧ s.floor.state ≠ .mute := by decide +kernel

/-- Every floor state that sends, counts at their limits, and eight fault entries. -/
theorem test_meets_PresenceFieldsReadFromBlocks :
    let s := (hearing .standby).setPort { ready.port with faults := [1, 2, 3, 4, 5, 6, 7, 8] }
    live.floor.state = .live ∧ (inFloor .handing).floor.state = .handing ∧ s.floor.state = .standby
      ∧ (hearing .claiming).floor.state = .claiming ∧ ready.line.errors ≤ 65535 ∧ ready.engine.refusals ≤ 65535
      ∧ s.port.faults.length ≤ 8 ∧ (presenceFields s).reach.isSome = true := by decide +kernel

/-- A CLAIM read back whole, and the hand-over read back whole in HANDING. -/
theorem test_meets_FrameSentWhole :
    (let s := readBack (.claim none false) ready;
      s.line.state = .transmitting ∧ s.line.mismatch = false ∧ s.feed.sending.isSome = true
        ∧ s.line.readBack = ((Frame.claim none false).levels s.station).length ∧ s.feed.waiting.length < 16
        ∧ s.engine.settleOnEntry = false ∧ s.engine.fullSettle = false ∧ s.floor.state ≠ .mute)
      ∧ (∀ successor ∈ [none, some (2 : Station)],
        let h : Handover := { epoch := 8, successor := successor, nextSeq := 100, lineTime := 9 };
        let s := readBack (.handover h) (live.setFloor { live.floor with state := .handing });
        s.line.state = .transmitting ∧ s.floor.state = .handing ∧ s.feed.tenureEpoch = some 7
          ∧ s.floor.view.epoch = some 7 ∧ s.floor.view.live = some s.station ∧ h.epoch = 7 + 1
          ∧ h.successor ≠ some s.station) := by decide +kernel

/-- A takeover read back whole in LIVE, and in HANDING with a hand-over kept back; a decline read back whole standing by, armed or not, and claiming; one that is no longer newer. -/
theorem test_meets_FrameSentWhole_own_handover :
    let handing := live.setFloor { live.floor with state := .handing, keptBack := some { takeover with epoch := 8, successor := some 2 } }
    let decline : Handover := { toFive with epoch := 9, successor := none }
    (∀ x ∈ [live, handing], let s := readBack (.handover takeover) x
        (s.floor.state = .live ∨ s.floor.state = .handing) ∧ s.line.state = .transmitting ∧ s.line.mismatch = false
          ∧ s.line.readBack = ((Frame.handover takeover).levels s.station).length ∧ s.feed.waiting.length < 16
          ∧ s.engine.settleOnEntry = false ∧ s.engine.fullSettle = false ∧ takeover.successor = some s.station
          ∧ s.feed.tenureEpoch = some takeover.epoch ∧ s.floor.view.epoch = some takeover.epoch
          ∧ s.floor.view.live = some s.station)
      ∧ live.floor.keptBack = none ∧ handing.floor.keptBack.isSome = true
      ∧ (∀ f ∈ [FloorState.standby, .claiming], let s := readBack (.handover decline) (hearing f)
        s.floor.state = f ∧ s.floor.armed = false ∧ s.floor.view.epoch = some 7 ∧ s.floor.view.live ≠ some s.station
          ∧ s.floor.keptBack = none ∧ s.engine.settleOnEntry = false ∧ s.engine.fullSettle = false)
      ∧ epochNewer decline.epoch 7 = true ∧ epochNewer takeover.epoch 7 = false := by decide +kernel

/-- R173: the hand-over kept back goes out once the takeover is sent whole. -/
theorem test_kept_back_is_released :
    let kept : Handover := { epoch := 8, successor := some 2, nextSeq := 100, lineTime := 9 }
    let t := after .frameSentWhole
      (readBack (.handover takeover) (live.setFloor { live.floor with state := .handing, keptBack := some kept }))
    t.feed.waiting = [.handover kept] ∧ t.floor.keptBack = none ∧ t.floor.state = .handing
      ∧ t.floor.lastOffered = some { epoch := 8, successor := some 2, nextSeq := 100 } := by decide +kernel

/-- Mismatches at the last bit of the lead of each kind, at the first bit after it, and the third in a row. -/
theorem test_meets_MismatchHandsFrameBack :
    (let s := mismatchAt 10 (.rewind 4) ready;
      s.line.state = .transmitting ∧ s.line.mismatch = true ∧ s.line.readBack < 11 ∧ bitSent s = .released
        ∧ s.feed.held = none)
      ∧ (let s := mismatchAt 11 (.rewind 4) ready;
        11 ≤ s.line.readBack ∧ s.line.collisions < 2)
      ∧ (let s := mismatchAt 0 (.rewind 4) ready;
        s.line.readBack < 11 ∧ bitSent s = .driven)
      ∧ (let s := (mismatchAt 11 (.rewind 4) ready).setLine
          { (mismatchAt 11 (.rewind 4) ready).line with collisions := 2 };
        2 ≤ s.line.collisions ∧ s.floor.state ≠ .mute ∧ s.line.state = .transmitting) := by decide +kernel

/-- The absence timer due standing by, armed or not, and claiming after integration; the presence timer due. -/
theorem test_meets_AbsenceAndPresenceTimers :
    (hearing .standby).floor.absenceTimer = some 0 ∧ (hearing .standby).floor.armed = false
      ∧ (let s := (hearing .standby).setFloor { (hearing .standby).floor with armed := true };
        s.floor.state = .standby ∧ s.floor.armed = true ∧ s.floor.absenceTimer = some 0)
      ∧ (let s := (hearing .claiming).setLine { ready.line with integrated := true };
        s.floor.state = .claiming ∧ s.line.integrated = true ∧ s.floor.claimTimer = none)
      ∧ (∀ f ∈ [FloorState.standby, .claiming, .live], (presenceDue f).floor.presenceTimer = some 0
        ∧ (presenceDue f).floor.state ≠ .mute) := by decide +kernel

/-- A CLAIM offered while two wait, and while none does with 15 and with 16 places taken. -/
theorem test_meets_AbsenceAndPresenceTimers_offer :
    (queueing [.claim none false, .presence none, .claim none false, .rewind 4] ready).feed.waiting =
        [.claim none false, .presence none] ++ .claim none false :: [.rewind 4]
      ∧ (∀ x ∈ List.replicate 16 (Frame.rewind 4), x.isClaim = false)
      ∧ (queueing (List.replicate 15 (.rewind 4)) ready).feed.places < 16
      ∧ ¬(queueing (List.replicate 16 (.rewind 4)) ready).feed.places < 16 := by decide +kernel

/-- R165: behind a CLAIM handed back to the head and a later one, the withdrawal stands last. -/
theorem test_withdrawal_goes_out_last :
    (after .stepBegin (holding (item .floor) (queueing [.claim none false, .claim none false] windowOver))).feed.waiting =
      [.claim none false, .claim none true] := by decide +kernel

theorem test_meets_ClaimWindowTakesTheFloor :
    windowOver.floor.claimTimer = some 0 ∧ windowOver.floor.state = .claiming ∧ windowOver.engine.fullSettle = false
      ∧ windowOver.engine.step = none ∧ (lookingUp windowOver).engine.step.isSome = true := by decide +kernel

theorem test_meets_AttnPulseAndLamp : (ready.setAttnTimer (some 0)).attnTimer = some 0 := rfl

theorem test_meets_LiveAndClaimLamps : ∃ t, exec (.reset 3) live = .next t :=
  ⟨_, rfl⟩

end Sys2Proof.Tests
end

section
/-! SUPPORT. What each command answers, the step in terms of it, and the whole invariant kept: by the reset
state, before the end of start-up (where only six commands act), and after it (one lemma of Laws/CommandSound for each
command). -/

namespace Sys2Proof.Machine

section Answers
variable {s t : State}

/-- The state each command answers: the operation its rule gives it (`exec_eq_answer`). -/
def answer (c : Instr) (s : State) : State :=
  match c with
  | .reset straps => resetPart straps s
  | .headerReadComplete owner bytes => completeHeaderRead owner bytes s
  | .startupLimitExpiry => expireStartupLimit s
  | .contactChange contact closed => changeContact contact closed s
  | .debounceExpiry contact => expireDebounce contact s
  | .releaseWindowExpiry => expireReleaseWindow s
  | .maximumStrokeDurationExpiry => expireDuration s
  | .stepBegin => beginStep s
  | .slotReadComplete owner bytes => completeSlotRead owner bytes s
  | .lookupWatchdogExpiry => expireWatchdog s
  | .recoveryTimerExpiry => expireRecovery s
  | .recoveryReadComplete owner bytes => completeRecovery owner bytes s
  | .settleIdleExpiry => expireSettleIdle s
  | .huntingFlagClear => clearHunting s
  | .frameComplete => completeFrame s
  | .frameBreakOff => breakOff s
  | .lineFault => findLineFault s
  | .integrationEnd => endIntegration s
  | .transmitBegin => beginTransmission s
  | .frameSentWhole => sendWhole s
  | .lossOfArbitration => loseArbitration s
  | .bodyCollision => collide s
  | .replayGeneration => generateReplay s
  | .absenceTimerExpiry => expireAbsence s
  | .claimWindowExpiry => expireClaimWindow s
  | .presenceTimerExpiry => expirePresence s
  | .attnPulseExpiry => expireAttnPulse s
  | .lineReading level => readLine level s
  | .characterTakenIn => takeCharacter s
  | .stationClockTick => tick s

theorem exec_eq_answer (c : Instr) (s : State) : exec c s = .next (answer c s) := by
  cases c <;> rfl

theorem exec_eq_next {c : Instr} (h : answer c s = t) : exec c s = .next t := by
  rw [exec_eq_answer, h]

theorem answer_of_exec {c : Instr} (h : exec c s = .next t) : t = answer c s := by
  rw [exec_eq_answer] at h
  exact (Host.Outcome.next.inj h).symm

/-- A step either idles or answers the command at the front on the queue's rest. -/
theorem step_cases (h : step s = .next t) :
    (s.pending = [] ∧ t = s) ∨ ∃ c rest, s.pending = c :: rest ∧ t = answer c (s.setPending rest) := by
  unfold step at h
  split at h
  next hp => exact .inl ⟨hp, (Host.Outcome.next.inj h).symm⟩
  next c rest hp => exact .inr ⟨c, rest, hp, answer_of_exec h⟩

end Answers

section Invariant
variable {s : State}

theorem Sound.setPending (h : Sound s) (rest : List Instr) : Sound (s.setPending rest) where
  settings := { h.settings with }
  startup := { h.startup with }
  scanner := h.scanner
  intake := h.intake
  balance := h.balance
  port := { h.port with }
  engine := { h.engine with }
  line := { h.line with }
  queue := { h.queue with }
  tenure := { h.tenure with }
  floor := { h.floor with }

theorem afterReset_line_up (station : Station) (keys : Vector Line 24) (f m : Line) (pending : List Instr)
    (c : Contact) : ((State.afterReset station keys f m pending).scanner.line c).state = .up := by
  cases c with
  | key p => simp [State.afterReset, Scanner.initial, Scanner.line, Line.initial]
  | floor => rfl
  | mark => rfl

theorem afterReset_sound (station : Station) (keys : Vector Line 24) (f m : Line) (pending : List Instr) :
    Sound (State.afterReset station keys f m pending) where
  settings := by
    constructor <;> simp [State.afterReset, Scanner.initial, Port.initial, Engine.initial, Floor.initial, LabelSound]
  startup := by
    refine ⟨rfl, rfl, ?_, ?_, fun _ => afterReset_line_up station keys f m pending, ?_, ?_, ?_, ?_, ?_⟩ <;>
      simp [State.afterReset, Startup.initial, Scanner.initial, Intake.initial, Engine.initial, Port.initial,
        LineInterface.initial, Floor.initial, View.initial]
  scanner := initial_sound keys f m
  intake := by constructor <;> simp [State.afterReset, Intake.initial, Intake.strokes]
  balance := rfl
  port := by constructor <;> simp [State.afterReset, Port.initial, Engine.initial]
  engine := by constructor <;> simp [State.afterReset, Engine.initial, Startup.initial, Floor.initial]
  line := by constructor <;> simp [State.afterReset, LineInterface.initial, Feed.initial]
  queue := by constructor <;> simp [State.afterReset, Feed.initial, Feed.places, Floor.initial]
  tenure := by constructor <;> simp [State.afterReset, Engine.initial, Floor.initial]
  floor := by
    constructor <;> simp [State.afterReset, LineInterface.initial, Floor.initial, FloorState.inTenure,
      View.initial]

/-- The commands that can have an effect before start-up has ended. -/
def actsBeforeStartupEnds : Instr → Bool
  | .reset _ => true
  | .headerReadComplete _ _ => true
  | .startupLimitExpiry => true
  | .contactChange _ _ => true
  | .attnPulseExpiry => true
  | .stationClockTick => true
  | _ => false

theorem answer_self_before_startup (h : Sound s) (he : s.startup.ended = false) (c : Instr)
    (hc : actsBeforeStartupEnds c = false) : answer c s = s := by
  obtain ⟨debounce, release, duration, stepBegin, slotRead, watchdog, recovery, recoveryRead, settleIdle, hunting,
    frame, broken, fault, integration, transmit, sent, loss, collision, replay, absence, claimWindow, presence,
    reading, character⟩ := idle_before h he
  cases c with
  | reset _ | headerReadComplete _ _ | startupLimitExpiry | contactChange _ _ | attnPulseExpiry | stationClockTick =>
    cases hc
  | debounceExpiry k => exact debounce k
  | releaseWindowExpiry => exact release
  | maximumStrokeDurationExpiry => exact duration
  | stepBegin => exact stepBegin
  | slotReadComplete o b => exact slotRead o b
  | lookupWatchdogExpiry => exact watchdog
  | recoveryTimerExpiry => exact recovery
  | recoveryReadComplete o b => exact recoveryRead o b
  | settleIdleExpiry => exact settleIdle
  | huntingFlagClear => exact hunting
  | frameComplete => exact frame
  | frameBreakOff => exact broken
  | lineFault => exact fault
  | integrationEnd => exact integration
  | transmitBegin => exact transmit
  | frameSentWhole => exact sent
  | lossOfArbitration => exact loss
  | bodyCollision => exact collision
  | replayGeneration => exact replay
  | absenceTimerExpiry => exact absence
  | claimWindowExpiry => exact claimWindow
  | presenceTimerExpiry => exact presence
  | lineReading l => exact reading l
  | characterTakenIn => exact character

theorem answer_sound_before_startup (h : Sound s) (he : s.startup.ended = false) (c : Instr) :
    Sound (answer c s) := by
  cases hc : actsBeforeStartupEnds c with
  | false => rw [answer_self_before_startup h he c hc]; exact h
  | true =>
    cases c with
    | reset straps => exact afterReset_sound _ _ _ _ _
    | headerReadComplete o b => exact header_sound h o b
    | startupLimitExpiry => exact limit_sound h
    | contactChange k closed => exact contact_down h he k closed
    | attnPulseExpiry => exact attn_sound h
    | stationClockTick => exact tick_sound h
    | _ => cases hc

theorem answer_sound_after_startup (h : Sound s) (he : s.startup.ended = true) (c : Instr) : Sound (answer c s) := by
  have up : Up s := h.up he
  cases c with
  | reset straps => exact afterReset_sound _ _ _ _ _
  | headerReadComplete o b => exact header_sound h o b
  | startupLimitExpiry => exact limit_sound h
  | contactChange k closed => exact (up.contact k closed).sound
  | debounceExpiry k => exact (up.debounce k).sound
  | releaseWindowExpiry => exact up.release.sound
  | maximumStrokeDurationExpiry => exact up.maxDuration.sound
  | stepBegin => exact up.begin.sound
  | slotReadComplete o b => exact (up.slotRead o b).sound
  | lookupWatchdogExpiry => exact up.watchdog.sound
  | recoveryTimerExpiry => exact up.recovery.sound
  | recoveryReadComplete o b => exact (up.recoveryRead o b).sound
  | settleIdleExpiry => exact up.settleIdle.sound
  | huntingFlagClear => exact up.hunting.sound
  | frameComplete => exact up.frame.sound
  | frameBreakOff => exact up.breakOff.sound
  | lineFault => exact up.fault.sound
  | integrationEnd => exact up.integration.sound
  | transmitBegin => exact up.transmit.sound
  | frameSentWhole => exact up.sent.sound
  | lossOfArbitration => exact up.loss.sound
  | bodyCollision => exact up.collision.sound
  | replayGeneration => exact up.replay.sound
  | absenceTimerExpiry => exact up.absence.sound
  | claimWindowExpiry => exact up.claimWindow.sound
  | presenceTimerExpiry => exact up.presence.sound
  | attnPulseExpiry => exact attn_sound h
  | lineReading level => exact (up.reading level).sound
  | characterTakenIn => exact up.character.sound
  | stationClockTick => exact tick_sound h

theorem answer_sound (h : Sound s) (c : Instr) : Sound (answer c s) := by
  cases he : s.startup.ended with
  | false => exact answer_sound_before_startup h he c
  | true => exact answer_sound_after_startup h he c

end Invariant

end Sys2Proof.Machine
end

section
/-! SUPPORT. A command whose event does not arise leaves the state as it is: one lemma per command, by the
condition of its operation. -/

namespace Sys2Proof.Machine

section OutOfTurn
variable {s : State}

theorem completeHeaderRead_out_of_turn {owner : ReadOwner} {bytes : List Byte}
    (h : s.startup.reading = false ∨ owner = .abandoned ∨ bytes.length ≠ 290) :
    completeHeaderRead owner bytes s = s := by
  unfold completeHeaderRead
  rcases h with h | h | h <;> simp [h, Config.headerBytes]

theorem expireStartupLimit_out_of_turn (h : s.startup.reading = false ∨ s.startup.limitTimer ≠ some 0) :
    expireStartupLimit s = s := by
  unfold expireStartupLimit Timer.due
  rcases h with h | h <;> simp [h]

theorem expireDebounce_out_of_turn {c : Contact} (hc : (s.scanner.line c).state ≠ .closing 0)
    (ho : (s.scanner.line c).state ≠ .opening 0) : expireDebounce c s = s := by
  unfold expireDebounce
  split
  · exact absurd ‹_› hc
  · exact absurd ‹_› ho
  · rfl

theorem expireReleaseWindow_out_of_turn (h : s.scanner.releaseTimer ≠ some 0 ∨ s.scanner.chord ≠ .releasing) :
    expireReleaseWindow s = s := by
  unfold expireReleaseWindow Timer.due
  rcases h with h | h <;> simp [h]

theorem expireDuration_out_of_turn (h : s.scanner.durationTimer ≠ some 0 ∨ s.scanner.chord = .idle) :
    expireDuration s = s := by
  unfold expireDuration Timer.due
  rcases h with h | h <;> simp [h]

theorem beginStep_out_of_turn
    (h : s.engine.step.isSome = true ∨ s.startup.ended = false ∨ (s.engine.replay = [] ∧ s.intake.items = [])
      ∨ (s.floor.state.inTenure = true ∧ s.feed.free < 3)) : beginStep s = s := by
  have hready : stepReady s = false := by
    unfold stepReady
    rcases h with h | h | ⟨hr, hi⟩ | ⟨ht, hf⟩
    · simp [Option.isSome_iff_ne_none.mp h]
    · simp [h]
    · simp [hr, hi]
    · simp [ht, Config.stepPlaces, Nat.not_le.mpr hf]
  simp [beginStep, hready]

theorem slotRead_eq_none (h : (∀ i, s.port.read ≠ .slot i) ∨ s.port.lookup = none ∨ s.engine.step = none) :
    slotRead s = none := by
  unfold slotRead
  split
  · next hr hl hw =>
    rcases h with h | h | h
    · exact absurd hr (h _)
    · exact absurd (hl.symm.trans h) (Option.some_ne_none _)
    · exact absurd (hw.symm.trans h) (Option.some_ne_none _)
  · rfl

theorem completeSlotRead_out_of_turn {owner : ReadOwner} {bytes : List Byte}
    (h : (∀ i, s.port.read ≠ .slot i) ∨ s.port.lookup = none ∨ s.engine.step = none ∨ owner = .abandoned
      ∨ bytes.length ≠ 64) : completeSlotRead owner bytes s = s := by
  unfold completeSlotRead
  split
  · next hread =>
    have hblock : owner = .abandoned ∨ bytes.length ≠ 64 := by
      rcases h with h | h | h | h
      · simp [slotRead_eq_none (.inl h)] at hread
      · simp [slotRead_eq_none (.inr (.inl h))] at hread
      · simp [slotRead_eq_none (.inr (.inr h))] at hread
      · exact h
    rcases hblock with h | h <;> simp [h, Config.slotBytes]
  · rfl

theorem expireWatchdog_out_of_turn
    (h : (∀ i, s.port.read ≠ .slot i) ∨ s.port.lookup = none ∨ s.engine.step = none
      ∨ s.port.watchdogTimer ≠ some 0) : expireWatchdog s = s := by
  unfold expireWatchdog
  split
  · next hread =>
    have hdue : s.port.watchdogTimer ≠ some 0 := by
      rcases h with h | h | h | h
      · simp [slotRead_eq_none (.inl h)] at hread
      · simp [slotRead_eq_none (.inr (.inl h))] at hread
      · simp [slotRead_eq_none (.inr (.inr h))] at hread
      · exact h
    simp [Timer.due, hdue]
  · rfl

theorem expireRecovery_out_of_turn (h : s.port.up = true ∨ s.port.recoveryTimer ≠ some 0) :
    expireRecovery s = s := by
  unfold expireRecovery Timer.due
  rcases h with h | h <;> simp [h]

theorem completeRecovery_out_of_turn {owner : ReadOwner} {bytes : List Byte}
    (h : s.port.read ≠ .recovery ∨ owner = .abandoned ∨ bytes.length ≠ 290) :
    completeRecovery owner bytes s = s := by
  unfold completeRecovery
  rcases h with h | h | h <;> simp [h, Config.headerBytes]

theorem expireSettleIdle_out_of_turn (h : s.engine.settleTimer ≠ some 0 ∨ s.engine.step.isSome = true) :
    expireSettleIdle s = s := by
  unfold expireSettleIdle Timer.due
  rcases h with h | h
  · simp [h]
  · simp [Option.isSome_iff_ne_none.mp h]

theorem clearHunting_out_of_turn (h : s.line.hunting = false ∨ s.line.idle < 14) : clearHunting s = s := by
  unfold clearHunting
  rcases h with h | h
  · simp [h]
  · simp [Nat.not_le.mpr h]

/-- A frame in reception is complete when it has a lead, a length, and as many characters more as that length and two
CRC characters (R105). -/
theorem frameDone_iff (received : List Byte) : frameDone received = true ↔
    ∃ lead len rest, received = lead :: len :: rest ∧ rest.length = len.toNat + 2 := by
  match received with
  | [] => simp [frameDone]
  | [_] => simp [frameDone]
  | lead :: len :: rest =>
    simp only [frameDone, beq_iff_eq]
    constructor
    · exact fun h => ⟨lead, len, rest, rfl, h⟩
    · rintro ⟨_, _, _, heq, h⟩
      cases heq
      exact h

theorem completeFrame_out_of_turn
    (h : s.line.state ≠ .receiving ∨ s.line.received = [] ∨ s.line.charBits ≠ []
      ∨ (∀ lead len rest, s.line.received = lead :: len :: rest → rest.length ≠ len.toNat + 2)) :
    completeFrame s = s := by
  unfold completeFrame
  rcases h with h | h | h | h
  · simp [h]
  · simp [h, frameDone]
  · simp [h]
  · have hdone : frameDone s.line.received = false := by
      rw [Bool.eq_false_iff, Ne, frameDone_iff]
      rintro ⟨lead, len, rest, heq, hlen⟩
      exact h lead len rest heq hlen
    simp [hdone]

theorem breakOff_out_of_turn
    (h : s.line.state ≠ .receiving ∨ s.line.received = [] ∨ s.line.charBits ≠ [] ∨ s.line.idle ≤ 22
      ∨ ∃ lead len rest, s.line.received = lead :: len :: rest ∧ rest.length = len.toNat + 2) : breakOff s = s := by
  unfold breakOff brokenOff
  rcases h with h | h | h | h | h
  · simp [h]
  · simp [h]
  · simp [h]
  · simp [Nat.not_lt.mpr h]
  · simp [(frameDone_iff _).mpr h]

theorem findLineFault_out_of_turn (h : s.line.state ≠ .idle ∨ s.line.driven ≤ 22) : findLineFault s = s := by
  unfold findLineFault
  rcases h with h | h
  · simp [h]
  · simp [Nat.not_lt.mpr h]

theorem endIntegration_out_of_turn
    (h : s.startup.ended = false ∨ (s.line.state ≠ .integrating ∧ s.line.state ≠ .fault) ∨ s.line.idle < 33) :
    endIntegration s = s := by
  unfold endIntegration
  rcases h with h | ⟨hi, hf⟩ | h
  · simp [h]
  · cases hstate : s.line.state with
    | integrating => exact absurd hstate hi
    | fault => exact absurd hstate hf
    | idle | receiving | transmitting => exact ite_self s
  · simp [Nat.not_le.mpr h]

theorem beginTransmission_out_of_turn
    (h : s.line.state ≠ .idle ∨ s.line.idle < 14 ∨ s.feed.waiting = [] ∨ s.floor.state = .mute) :
    beginTransmission s = s := by
  unfold beginTransmission transmitReady
  rcases h with h | h | h | h
  · simp [h]
  · simp [Nat.not_le.mpr h]
  · simp [h]
  · simp [h]

theorem sendWhole_out_of_turn
    (h : s.line.state ≠ .transmitting ∨ s.line.mismatch = true
      ∨ (∀ x, s.feed.sending = some x → s.line.readBack ≠ (x.frame.levels s.station).length)) : sendWhole s = s := by
  unfold sendWhole sentWholeFound
  split
  · next x hx =>
    rcases h with h | h | h
    · simp [h]
    · simp [h]
    · simp [sendingLevels, hx, h x hx]
  · rfl

theorem loseArbitration_out_of_turn
    (h : s.line.state ≠ .transmitting ∨ s.line.mismatch = false ∨ 11 ≤ s.line.readBack ∨ bitSent s = .driven) :
    loseArbitration s = s := by
  unfold loseArbitration lossFound
  rcases h with h | h | h | h
  · simp [h]
  · simp [h]
  · simp [Nat.not_lt.mpr h]
  · simp [h]

theorem collide_out_of_turn
    (h : s.line.state ≠ .transmitting ∨ s.line.mismatch = false
      ∨ (s.line.readBack < 11 ∧ bitSent s = .released)) : collide s = s := by
  unfold collide collisionFound
  rcases h with h | h | ⟨hr, hb⟩
  · simp [h]
  · simp [h]
  · simp [hr, hb]

theorem generateReplay_out_of_turn
    (h : s.floor.state ≠ .live ∨ s.feed.waiting ≠ [] ∨ s.feed.sending.isSome = true
      ∨ (s.feed.gap = none ∧ s.feed.cursor = none)) : generateReplay s = s := by
  unfold generateReplay replayReady Feed.queueEmpty
  rcases h with h | h | h | ⟨hg, hc⟩
  · simp [h]
  · simp [h]
  · simp [Option.isSome_iff_ne_none.mp h]
  · simp [hg, hc]

theorem expireAbsence_out_of_turn (h : s.floor.absenceTimer ≠ some 0) : expireAbsence s = s := by
  simp [expireAbsence, Timer.due, h]

theorem expireClaimWindow_out_of_turn (h : s.floor.claimTimer ≠ some 0 ∨ s.floor.state ≠ .claiming) :
    expireClaimWindow s = s := by
  unfold expireClaimWindow Timer.due
  rcases h with h | h <;> simp [h]

theorem expirePresence_out_of_turn (h : s.floor.presenceTimer ≠ some 0) : expirePresence s = s := by
  simp [expirePresence, Timer.due, h]

theorem expireAttnPulse_out_of_turn (h : s.attnTimer ≠ some 0) : expireAttnPulse s = s := by
  simp [expireAttnPulse, Timer.due, h]

theorem takeCharacter_out_of_turn (h : s.line.state ≠ .receiving ∨ s.line.charBits.length ≠ 11) :
    takeCharacter s = s := by
  unfold takeCharacter
  rcases h with h | h <;> simp [h]

end OutOfTurn

end Sys2Proof.Machine
end

section
/-! SUPPORT. The account of strokes without any bound on the queue (R14 to R19), the end of start-up as its two causes
make it (R179, R181), and the commands that leave the clock alone (R2). -/

namespace Sys2Proof.Machine

section IntakeCounts
variable {s t : State}

theorem arriveStroke_kept {q : Intake} (code : StrokeCode) (time : Clock) (hs : q.strokes < 30)
    (hl : q.items.length < 32) :
    q.arriveStroke code time = { q with items := q.items ++ [{ kind := .stroke code, time := time, gap := 0 }] } :=
  if_pos ⟨hs, hl⟩

theorem arriveStroke_lost {q : Intake} (code : StrokeCode) (time : Clock)
    (h : 30 ≤ q.strokes ∨ 32 ≤ q.items.length) :
    q.arriveStroke code time = { q with items := mapNewest Item.raiseGap q.items, lost := q.lost + 1 } :=
  if_neg fun ⟨hs, hl⟩ => h.elim (Nat.not_le.mpr hs) (Nat.not_le.mpr hl)

theorem mapNewest_concat (f : Item → Item) (older : List Item) (newest : Item) :
    mapNewest f (older ++ [newest]) = older ++ [f newest] := by
  induction older with
  | nil => rfl
  | cons i rest ih =>
    cases rest with
    | nil => rfl
    | cons j rest => exact congrArg (i :: ·) ih

/-- The strokes the intake queue answers for (R19): those taken, held and lost, modulo 2^32. -/
def Intake.account (q : Intake) : BitVec 32 :=
  q.taken + BitVec.ofNat 32 q.strokes + q.lost

theorem strokeBalance_iff : StrokeBalance s ↔ s.scanner.completed = s.intake.account := Iff.rfl

theorem StrokeBalance.of_counts (h : StrokeBalance s) (hc : t.scanner.completed = s.scanner.completed)
    (ha : t.intake.account = s.intake.account) : StrokeBalance t :=
  strokeBalance_iff.mpr (hc.trans (h.trans ha.symm))

/-- A completed stroke raises the account by one whatever the queue holds: the queue's limits only decide whether the
stroke is held or lost. -/
theorem arriveStroke_account (code : StrokeCode) (time : Clock) (q : Intake) :
    (q.arriveStroke code time).account = q.account + 1 := by
  by_cases hs : q.strokes ≤ 30
  · exact arriveStroke_balance code time q hs
  · rw [arriveStroke_lost code time (.inl (by omega))]
    have hheld : ({ q with items := mapNewest Item.raiseGap q.items, lost := q.lost + 1 } : Intake).strokes
        = q.strokes := mapNewest_countP q.items
    simp only [Intake.account, hheld]
    ring

theorem completeStroke_counts (s : State) :
    (completeStroke s).scanner.completed = s.scanner.completed + 1
      ∧ (completeStroke s).intake.account = s.intake.account + 1 :=
  ⟨rfl, arriveStroke_account _ _ _⟩

theorem strokeBalance_completeStroke (h : StrokeBalance s) : StrokeBalance (completeStroke s) := by
  obtain ⟨hcompleted, haccount⟩ := completeStroke_counts s
  rw [strokeBalance_iff, hcompleted, haccount, strokeBalance_iff.mp h]

theorem arriveButton_account {kind : ItemKind} (hk : ∀ code, kind ≠ .stroke code) (s : State) :
    (arriveButton kind s).intake.account = s.intake.account := by
  unfold arriveButton
  split
  · simp only [State.setIntake_intake, Intake.account, strokes_button _ _ _ hk]
  · rfl

theorem expireDebounce_account (c : Contact) (s : State) :
    (expireDebounce c s).intake.account = s.intake.account := by
  unfold expireDebounce
  split
  · cases c with
    | key p => rfl
    | floor => exact arriveButton_account (by simp) _
    | mark => exact arriveButton_account (by simp) _
  · simp
  · rfl

theorem beginStep_account (s : State) : (beginStep s).intake.account = s.intake.account := by
  obtain h | ⟨i, rest, hitems, htaken⟩ := beginStep_intake s
  · rw [h]
  · rw [htaken]
    exact take_balance s.intake i rest hitems

theorem completeHeaderRead_completed (owner : ReadOwner) (bytes : List Byte) (s : State) :
    (completeHeaderRead owner bytes s).scanner.completed = s.scanner.completed := by
  unfold completeHeaderRead
  split
  · split <;> rfl
  · rfl

theorem expireStartupLimit_completed (s : State) :
    (expireStartupLimit s).scanner.completed = s.scanner.completed := by
  unfold expireStartupLimit
  split <;> rfl

theorem strokeBalance_expireReleaseWindow (h : StrokeBalance s) : StrokeBalance (expireReleaseWindow s) := by
  unfold expireReleaseWindow
  split
  · exact strokeBalance_completeStroke h
  · exact h

theorem strokeBalance_expireDuration (h : StrokeBalance s) : StrokeBalance (expireDuration s) := by
  unfold expireDuration
  split
  · exact strokeBalance_completeStroke (h.of_counts (by simp) rfl)
  · exact h

/-- The two expiries that complete a stroke count it on both sides; every other command but RESET keeps the completed
count and the queue's account. -/
theorem strokeBalance_answer (h : StrokeBalance s) (c : Instr) : StrokeBalance (answer c s) := by
  cases c with
  | reset straps => exact strokeBalance_iff.mpr rfl
  | headerReadComplete owner bytes => exact h.of_counts (completeHeaderRead_completed owner bytes s) (by simp [answer])
  | startupLimitExpiry => exact h.of_counts (expireStartupLimit_completed s) (by simp [answer])
  | contactChange k closed => exact h.of_counts (changeContact_completed k closed s) (by simp [answer])
  | debounceExpiry k => exact h.of_counts (expireDebounce_completed k s) (expireDebounce_account k s)
  | releaseWindowExpiry => exact strokeBalance_expireReleaseWindow h
  | maximumStrokeDurationExpiry => exact strokeBalance_expireDuration h
  | stepBegin => exact h.of_counts (by simp [answer]) (beginStep_account s)
  | stationClockTick => exact h.of_counts rfl rfl
  | _ => exact h.of_counts (by simp [answer]) (by simp [answer])

end IntakeCounts

section StartupEnd
variable {s : State}

theorem beginWatching_line (p : Params) (k : Scanner) (c : Contact) :
    (k.beginWatching p).line c = (k.line c).watch := by
  cases c with
  | key i => simp [Scanner.beginWatching, Scanner.line]
  | floor => rfl
  | mark => rfl

theorem has_beginWatching_stuck (p : Params) (k : Scanner) (i : Fin 24) :
    KeySet.has (k.beginWatching p).stuck i = k.keys[i].closed := by
  simp [Scanner.beginWatching, KeySet.has_ofFnLE]

theorem completeHeaderRead_accepted {bytes : List Byte} {p : Params} (hr : s.startup.reading = true)
    (hl : bytes.length = 290) (hp : acceptHeader bytes = some p) :
    completeHeaderRead .inFlight bytes s = endStartup p true s := by
  simp [completeHeaderRead, hr, hl, hp, Config.headerBytes]

theorem completeHeaderRead_invalid {bytes : List Byte} (hr : s.startup.reading = true)
    (hl : bytes.length = 290) (hp : acceptHeader bytes = none) :
    completeHeaderRead .inFlight bytes s = defaultedStart s := by
  simp [completeHeaderRead, hr, hl, hp, Config.headerBytes]

theorem expireStartupLimit_due (hr : s.startup.reading = true) (hd : s.startup.limitTimer = some 0) :
    expireStartupLimit s = defaultedStart s := by
  simp [expireStartupLimit, Timer.due, hr, hd]

end StartupEnd

section Clock

theorem tick_line (k : Scanner) (c : Contact) : k.tick.line c = (k.line c).tick := by
  cases c with
  | key p => simp [Scanner.tick, Scanner.line]
  | floor => rfl
  | mark => rfl

theorem answer_clock {c : Instr} (ht : c ≠ .stationClockTick) (hr : ∀ straps, c ≠ .reset straps) (s : State) :
    (answer c s).clock = s.clock := by
  cases c with
  | stationClockTick => exact absurd rfl ht
  | reset straps => exact absurd rfl (hr straps)
  | _ => simp [answer]

end Clock

end Sys2Proof.Machine
end

section
/-! SUPPORT. The keyboard's events case by case (R4 to R18), a stroke code as a number (R1), and the
read a step begins with (R25, R41, R47, R88). -/

namespace Sys2Proof.Machine

section Keys
variable {s : State}

theorem contact_eq (debounceTime : Nat) (closed : Bool) (d : Debounce) :
    d.contact debounceTime closed =
      match d, closed with
      | .up, true => .closing debounceTime
      | .closing _, false => .up
      | .down, false => .opening debounceTime
      | .opening _, true => .down
      | unchanged, _ => unchanged := by
  cases d <;> cases closed <;> rfl

theorem expireDebounce_closing {c : Contact} (h : (s.scanner.line c).state = .closing 0) :
    expireDebounce c s = acceptDown c (setDebounce c .down s) := by
  simp [expireDebounce, h]

theorem expireDebounce_opening {c : Contact} (h : (s.scanner.line c).state = .opening 0) :
    expireDebounce c s = acceptUp c (setDebounce c .up s) := by
  simp [expireDebounce, h]

theorem expireDebounce_keyDown (p : Fin 24) (h : s.scanner.keys[p].state = .closing 0) :
    expireDebounce (.key p) s
      = s.setScanner ((s.scanner.setLine (.key p) { s.scanner.keys[p] with state := .down }).keyDown s.clock p) :=
  expireDebounce_closing (c := .key p) h

theorem expireDebounce_keyUp (p : Fin 24) (h : s.scanner.keys[p].state = .opening 0) :
    expireDebounce (.key p) s
      = s.setScanner ((s.scanner.setLine (.key p) { s.scanner.keys[p] with state := .up }).keyUp p) :=
  expireDebounce_opening (c := .key p) h

variable (now : Clock) (p : Fin 24) {k : Scanner}

theorem keyDown_stuck (h : KeySet.has k.stuck p = true) : k.keyDown now p = k := by
  simp [Scanner.keyDown, h]

theorem keyDown_idle (h : KeySet.has k.stuck p = false) (hc : k.chord = .idle) :
    k.keyDown now p =
      { k with
        chord := .chording, strokeTime := now, union := KeySet.single p
        durationTimer := some k.maxDuration } := by
  simp [Scanner.keyDown, h, hc]

theorem keyDown_chording (h : KeySet.has k.stuck p = false) (hc : k.chord = .chording) :
    k.keyDown now p = { k with union := k.union ||| KeySet.single p } := by
  simp [Scanner.keyDown, h, hc, KeySet.add]

theorem keyDown_releasing (h : KeySet.has k.stuck p = false) (hc : k.chord = .releasing) :
    k.keyDown now p =
      { k with chord := .chording, releaseTimer := none, union := k.union ||| KeySet.single p } := by
  simp [Scanner.keyDown, h, hc, KeySet.add]

/-- The release window starts when the chord is CHORDING and every key outside the stuck set is up (R9). -/
theorem keyUp_release (hc : k.chord = .chording)
    (hup : ({ k with stuck := KeySet.remove k.stuck p } : Scanner).freeKeysUp = true) :
    k.keyUp p =
      { k with
        stuck := KeySet.remove k.stuck p, chord := .releasing, releaseTimer := some k.releaseWindow } := by
  unfold Scanner.keyUp
  dsimp only
  split
  next h => cases hc.symm.trans h
  next => exact if_pos hup
  next h => cases hc.symm.trans h

theorem keyUp_stay
    (h : ¬(k.chord = .chording ∧ ({ k with stuck := KeySet.remove k.stuck p } : Scanner).freeKeysUp = true)) :
    k.keyUp p = { k with stuck := KeySet.remove k.stuck p } := by
  unfold Scanner.keyUp
  dsimp only
  split
  next => rfl
  next hc => exact if_neg fun hup => h ⟨hc, hup⟩
  next => rfl

end Keys

section Arrivals
variable {s : State}

theorem arriveButton_kept {kind : ItemKind} (h : s.intake.items.length < 32) :
    arriveButton kind s
      = s.setIntake { s.intake with items := s.intake.items ++ [{ kind := kind, time := s.clock, gap := 0 }] } :=
  if_pos h

theorem arriveButton_discarded {kind : ItemKind} (h : 32 ≤ s.intake.items.length) :
    arriveButton kind s = requestPulse s :=
  if_neg (Nat.not_lt.mpr h)

end Arrivals

section Expiries
variable {s : State}

theorem expireReleaseWindow_due (ht : s.scanner.releaseTimer = some 0) (hc : s.scanner.chord = .releasing) :
    expireReleaseWindow s = completeStroke s := by
  simp [expireReleaseWindow, Timer.due, ht, hc]

theorem expireDuration_due (ht : s.scanner.durationTimer = some 0) (hc : s.scanner.chord ≠ .idle) :
    expireDuration s = completeStroke (s.setScanner s.scanner.stickKeys) := by
  simp [expireDuration, Timer.due, ht, hc]

theorem stickKeys_eq (k : Scanner) : k.stickKeys = { k with stuck := k.stickKeys.stuck } := by
  unfold Scanner.stickKeys
  split <;> rfl

theorem completeStroke_eq (s : State) :
    completeStroke s =
      { s with
        scanner := { s.scanner with
          chord := .idle, union := 0, releaseTimer := none, durationTimer := none
          completed := s.scanner.completed + 1 }
        intake := s.intake.arriveStroke (strokeCode s.scanner.union) s.scanner.strokeTime } := rfl

end Expiries

section Codes

/-- A number below `2^n` is the sum of its bits. -/
theorem sum_bits_eq_mod (x n : Nat) :
    ((List.finRange n).map fun p => if x.testBit p.val then 2 ^ p.val else 0).sum = x % 2 ^ n := by
  induction n with
  | zero => simp [Nat.mod_one]
  | succ n ih =>
    rw [List.finRange_succ_last, List.map_append, List.sum_append, List.map_map, Nat.mod_pow_succ,
      ← Nat.toNat_testBit, ← ih]
    cases h : x.testBit n <;> simp [h, Function.comp_def]

theorem union_toNat (union : KeySet) :
    union.toNat = ((List.finRange 24).map fun p => if KeySet.has union p then 2 ^ p.val else 0).sum := by
  rw [← Nat.mod_eq_of_lt union.isLt]
  exact (sum_bits_eq_mod union.toNat 24).symm

end Codes

section Lookup
variable {s : State}

theorem slotIndex_zero (p : Port) (key : List StrokeCode) :
    slotIndex p key 0 = bucket p.bits key % 2 ^ p.bits := rfl

/-- A candidate is looked up by a read when the port is UP and its first slot is not listed (R25, R33, R47). -/
theorem lookupFrom_reads {k : Nat} {w : Work} {key : List StrokeCode} (hkey : key = candidateKey s.engine.tail k w.code)
    (hup : s.port.up = true) (hlisted : slotIndex s.port key 0 ∉ s.port.faults) :
    lookupFrom (k + 1) w s = startRead key 0 { w with candidate := k } s := by
  subst hkey
  simp [lookupFrom, hup, hlisted]

theorem takeStroke_ordinary {code : StrokeCode} (h : strokeShape code = .ordinary) (time : Clock) (gap : Nat)
    (s : State) : takeStroke code time gap s = strokeStep code time gap s := by
  simp [takeStroke, h]

/-- A stroke of the replay list comes before the intake queue, at the replay time (R88). -/
theorem beginStep_replay {code : StrokeCode} {rest : List StrokeCode} (h1 : s.startup.ended = true)
    (h2 : s.engine.step = none) (h3 : s.engine.replay = code :: rest)
    (h4 : s.floor.state.inTenure = true → 3 ≤ s.feed.free) :
    beginStep s = takeStroke code s.engine.replayTime 0
      ((openStep s).setEngine { (openStep s).engine with replay := rest }) := by
  unfold beginStep
  rw [if_pos (stepReady_of h1 h2 (.inl (by simp [h3])) h4), h3]

theorem openStep_eq (s : State) :
    openStep s = s.setEngine
      { s.engine with settleTimer := none, mode := if s.floor.state = .live then .live else .shadow } := by
  simp [openStep]

theorem take_stroke (q : Intake) {i : Item} {code : StrokeCode} (rest : List Item) (h : i.kind = .stroke code) :
    q.take i rest = { q with items := rest, taken := q.taken + 1 } := by
  simp [Intake.take, h]

end Lookup

end Sys2Proof.Machine
end

section
/-! The statements of keyboard capture and the intake queue, settled. -/

namespace Sys2Proof.Proofs

open Sys2Proof.Machine

/-- Settles O5: a step answers the front command on the queue's rest, every command keeps the invariant form after
start-up, and before it only six commands act at all. -/
theorem everyStepKeepsSound : Obligations.EveryStepKeepsSound := by
  intro s t h hstep
  obtain ⟨-, rfl⟩ | ⟨c, rest, -, rfl⟩ := step_cases hstep
  · exact h
  · exact answer_sound (h.setPending rest) c

/-- Settles O4, for the contacts and straps of power-on. -/
theorem resetStateIsSound : Obligations.ResetStateIsSound :=
  afterReset_sound _ _ _ _ _

/-- Settles O14: `answer_self_before_startup` says it of every command but the six that act before then. -/
theorem nothingRunsBeforeStartupEnds : Obligations.NothingRunsBeforeStartupEnds := by
  intro c s h he hreset hheader hlimit hcontact hattn htick
  have hc : actsBeforeStartupEnds c = false := by
    cases c with
    | reset straps => exact absurd rfl (hreset straps)
    | headerReadComplete o b => exact absurd rfl (hheader o b)
    | startupLimitExpiry => exact absurd rfl hlimit
    | contactChange k closed => exact absurd rfl (hcontact k closed)
    | attnPulseExpiry => exact absurd rfl hattn
    | stationClockTick => exact absurd rfl htick
    | _ => rfl
  exact exec_eq_next (answer_self_before_startup h he c hc)

/-- Settles O3: each clause is the lemma that the command's operation is the identity when its event does not arise. -/
theorem commandOutOfTurnChangesNothing : Obligations.CommandOutOfTurnChangesNothing := by
  intro s
  exact ⟨fun _ _ h => exec_eq_next (completeHeaderRead_out_of_turn h),
    fun h => exec_eq_next (expireStartupLimit_out_of_turn h),
    fun _ hc ho => exec_eq_next (expireDebounce_out_of_turn hc ho),
    fun h => exec_eq_next (expireReleaseWindow_out_of_turn h),
    fun h => exec_eq_next (expireDuration_out_of_turn h),
    fun h => exec_eq_next (beginStep_out_of_turn h),
    fun _ _ h => exec_eq_next (completeSlotRead_out_of_turn h),
    fun h => exec_eq_next (expireWatchdog_out_of_turn h),
    fun h => exec_eq_next (expireRecovery_out_of_turn h),
    fun _ _ h => exec_eq_next (completeRecovery_out_of_turn h),
    fun h => exec_eq_next (expireSettleIdle_out_of_turn h),
    fun h => exec_eq_next (clearHunting_out_of_turn h),
    fun h => exec_eq_next (completeFrame_out_of_turn h),
    fun h => exec_eq_next (breakOff_out_of_turn h),
    fun h => exec_eq_next (findLineFault_out_of_turn h),
    fun h => exec_eq_next (endIntegration_out_of_turn h),
    fun h => exec_eq_next (beginTransmission_out_of_turn h),
    fun h => exec_eq_next (sendWhole_out_of_turn h),
    fun h => exec_eq_next (loseArbitration_out_of_turn h),
    fun h => exec_eq_next (collide_out_of_turn h),
    fun h => exec_eq_next (generateReplay_out_of_turn h),
    fun h => exec_eq_next (expireAbsence_out_of_turn h),
    fun h => exec_eq_next (expireClaimWindow_out_of_turn h),
    fun h => exec_eq_next (expirePresence_out_of_turn h),
    fun h => exec_eq_next (expireAttnPulse_out_of_turn h),
    fun h => exec_eq_next (takeCharacter_out_of_turn h)⟩

/-- Settles O6, with no bound on the queue: a step keeps the balance from any state in which it holds. -/
theorem everyStepKeepsStrokeBalance : Obligations.EveryStepKeepsStrokeBalance := by
  intro s t h hstep
  obtain ⟨-, rfl⟩ | ⟨c, rest, -, rfl⟩ := step_cases hstep
  · exact h
  · exact strokeBalance_answer (s := s.setPending rest) h c

/-- Settles O12: the accepted header is the end of start-up, whose hand-over is read off field by field. -/
theorem headerAcceptedEndsStartup : Obligations.HeaderAcceptedEndsStartup := by
  intro s bytes p hr hl hp
  exact ⟨endStartup p true s, exec_eq_next (completeHeaderRead_accepted hr hl hp), rfl, rfl, rfl, rfl, rfl,
    beginWatching_line p s.scanner, has_beginWatching_stuck p s.scanner,
    rfl, rfl, rfl, rfl, rfl, rfl, rfl, rfl, rfl, rfl⟩

/-- Settles O13: both causes make the same defaulted start. -/
theorem defaultedStart : Obligations.DefaultedStart := by
  intro s c hr hcause
  have hstart : answer c s = Machine.defaultedStart s := by
    obtain ⟨rfl, hd⟩ | ⟨bytes, rfl, hl, hp⟩ := hcause
    · exact expireStartupLimit_due hr hd
    · exact completeHeaderRead_invalid hr hl hp
  exact ⟨Machine.defaultedStart s, exec_eq_next hstart, rfl, rfl, rfl, rfl, rfl,
    beginWatching_line defaultParams s.scanner, has_beginWatching_stuck defaultParams s.scanner,
    rfl, rfl, rfl, rfl, rfl, rfl, rfl, rfl⟩

/-- Settles O15: the tick moves the clock and the timers, and by `answer_clock` no other command but RESET moves the
clock. -/
theorem clockCountsMilliseconds : Obligations.ClockCountsMilliseconds := by
  refine ⟨fun s => ⟨tick s, rfl, rfl, rfl, fun k => ?_, rfl, rfl, rfl, rfl, rfl, rfl, rfl, rfl, rfl⟩, rfl, ?_⟩
  · refine (tick_line s.scanner k).trans ?_
    unfold Line.tick
    cases (s.scanner.line k).state <;> rfl
  · intro c s t hc hexec
    obtain rfl := answer_of_exec hexec
    cases c with
    | reset straps => exact .inr ⟨straps, rfl, rfl⟩
    | _ => exact .inl (answer_clock hc (fun _ h => nomatch h) s)

/-- Settles O16: `Debounce.contact` gives the four moves, and the contact moves with its line. -/
theorem contactChangeMovesDebounce : Obligations.ContactChangeMovesDebounce := by
  intro k closed s
  refine exec_eq_next ?_
  simp only [answer, changeContact, contact_eq]
  rfl

/-- Settles O17: the scanner with the line moved takes the key-down or key-up by its chord state. -/
theorem acceptedKeyMovesChord : Obligations.AcceptedKeyMovesChord := by
  refine ⟨fun k s h => exec_eq_next ?_, fun k s h => ?_⟩
  · refine (expireDebounce_keyDown k h).trans (congrArg s.setScanner ?_)
    cases hstuck : KeySet.has s.scanner.stuck k with
    | true => exact keyDown_stuck s.clock k hstuck
    | false =>
      cases hchord : s.scanner.chord with
      | idle => exact keyDown_idle s.clock k hstuck hchord
      | chording => exact keyDown_chording s.clock k hstuck hchord
      | releasing => exact keyDown_releasing s.clock k hstuck hchord
  · intro up allUp
    have hfree : up.freeKeysUp = true ↔ allUp := Scanner.freeKeysUp_iff up
    have hexpiry := expireDebounce_keyUp k h
    exact ⟨fun ⟨hc, hall⟩ => exec_eq_next (hexpiry.trans (congrArg s.setScanner
        (keyUp_release k hc (hfree.mpr hall)))),
      fun hnot => exec_eq_next (hexpiry.trans (congrArg s.setScanner
        (keyUp_stay k fun ⟨hc, hup⟩ => hnot ⟨hc, hfree.mp hup⟩)))⟩

/-- Settles O18: of the two buttons, an accepted press is an arrival at the queue and an accepted release is nothing. -/
theorem buttonAccepted : Obligations.ButtonAccepted := by
  intro k kind s hk
  have hdown : ∀ t, acceptDown k t = arriveButton kind t := by
    obtain ⟨rfl, rfl⟩ | ⟨rfl, rfl⟩ := hk <;> exact fun _ => rfl
  have hup : ∀ t, acceptUp k t = t := by
    obtain ⟨rfl, rfl⟩ | ⟨rfl, rfl⟩ := hk <;> exact fun _ => rfl
  refine ⟨fun hclosing => ⟨fun hroom => exec_eq_next ?_, fun hfull => exec_eq_next ?_⟩,
    fun hopening => exec_eq_next ?_⟩
  · rw [answer, expireDebounce_closing hclosing, hdown, arriveButton_kept (by simpa using hroom)]
    rfl
  · rw [answer, expireDebounce_closing hclosing, hdown, arriveButton_discarded (by simpa using hfull)]
    rfl
  · rw [answer, expireDebounce_opening hopening, hup]
    rfl

/-- Settles O19: the expiry completes the stroke, after the keys held too long joined the stuck set, and the queue's
limits decide whether the stroke is kept or counted as lost. -/
theorem expiryCompletesStroke : Obligations.ExpiryCompletesStroke := by
  refine ⟨fun s ht hc => ⟨fun hs hl => exec_eq_next ?_, fun hfull older newest hitems => exec_eq_next ?_⟩,
    fun s ht hc => ?_⟩
  · rw [answer, expireReleaseWindow_due ht hc, completeStroke_eq, arriveStroke_kept _ _ hs hl]
  · rw [answer, expireReleaseWindow_due ht hc, completeStroke_eq, arriveStroke_lost _ _ hfull, hitems,
      mapNewest_concat]
    rfl
  · refine ⟨_, exec_eq_next (expireDuration_due ht hc), ?_, fun k => ?_, ?_, ?_⟩
    · rw [completeStroke_eq, stickKeys_eq]
      rfl
    · simp [completeStroke_eq, has_stickKeys]
    · rw [completeStroke_eq, stickKeys_eq]
      rfl
    · rw [completeStroke_eq, stickKeys_eq]
      rfl

/-- Settles O20: the code of a stroke is its union read as a number. -/
theorem strokeCodeIsSumOfPositions : Obligations.StrokeCodeIsSumOfPositions := by
  intro union
  rw [strokeCode_eq]
  refine ⟨union_toNat union, fun ⟨p, hp⟩ => Nat.one_le_iff_ne_zero.mpr fun hzero => ?_⟩
  have hempty : union = 0 := BitVec.eq_of_toNat_eq hzero
  rw [hempty, KeySet.has_zero] at hp
  cases hp

/-- Settles O29: once the stroke is taken from its list, `lookupFrom` reads for the first candidate it tries. -/
theorem stepBeginsWithLongestCandidate : Obligations.StepBeginsWithLongestCandidate := by
  intro s code hended hstep hshape hup hroom m key slot reading mode hslot
  refine ⟨fun rest hreplay => exec_eq_next ?_, fun item rest hreplay hitems hkind => exec_eq_next ?_⟩
  · rw [answer, beginStep_replay hended hstep hreplay hroom, takeStroke_ordinary hshape, openStep_eq]
    exact lookupFrom_reads (key := key) rfl hup hslot
  · rw [answer, beginStep_item hended hstep hreplay hitems hroom, takeItem, hkind, openStep_eq]
    dsimp only
    rw [takeStroke_ordinary hshape, take_stroke _ _ hkind]
    exact lookupFrom_reads (key := key) rfl hup hslot

/-- Settles O59: the lamp is a disjunction of its causes, and the expiry clears the pulse timer alone. -/
theorem attnPulseAndLamp : Obligations.AttnPulseAndLamp := by
  refine fun s => ⟨fun h => exec_eq_next ?_, ?_⟩
  · simp [answer, expireAttnPulse, Timer.due, h, State.setAttnTimer]
  · simp [attnLamp, attnSteady, downFlag, stuckFlag, or_assoc]

end Sys2Proof.Proofs
end

section
/-! SUPPORT. The settings between resets (section 0.2), the hash and the judging of a slot (R23, R27, R28), and the
Dictionary Port's part of a lookup: reads, probes, faults, timeouts and recovery (R24 to R35). -/

namespace Sys2Proof.Machine

section SettledValues
variable {s : State}

theorem answer_settings {c : Instr} (hr : s.startup.reading = false) (hc : ∀ straps, c ≠ .reset straps) :
    settings (answer c s) = settings s := by
  cases c with
  | reset straps => exact absurd rfl (hc straps)
  | headerReadComplete owner bytes => exact congrArg settings (completeHeaderRead_out_of_turn (.inl hr))
  | startupLimitExpiry => exact congrArg settings (expireStartupLimit_out_of_turn (.inl hr))
  | _ => simp [answer]

end SettledValues

section Hash

/-- A sequence that starts at `a 0` and follows the recurrence of R23 along the key ends in the fold over the key. -/
theorem hashFold_eq_of_recurrence {key : List StrokeCode} {a : Nat → Nat}
    (hstep : ∀ i (h : i < key.length), a (i + 1) = (a i * 33 + key[i].toNat) % 2 ^ 24) :
    hashFold (a 0) key = a key.length := by
  induction key generalizing a with
  | nil => rfl
  | cons c rest ih =>
    have hfirst : a 1 = (a 0 * 33 + c.toNat) % 2 ^ 24 := hstep 0 (by simp)
    have hrest : hashFold (a 1) rest = a (rest.length + 1) :=
      ih (a := fun i => a (i + 1)) fun i h => hstep (i + 1) (by simpa using h)
    rw [hfirst] at hrest
    exact hrest

theorem accumulator_lt_of_recurrence {key : List StrokeCode} {a : Nat → Nat}
    (hstep : ∀ i (h : i < key.length), a (i + 1) = (a i * 33 + key[i].toNat) % 2 ^ 24) (hkey : key ≠ []) :
    a key.length < 2 ^ 24 := by
  obtain ⟨c, rest, rfl⟩ := List.exists_cons_of_ne_nil hkey
  rw [List.length_cons, hstep rest.length (by simp)]
  exact Nat.mod_lt _ (by decide)

theorem xor_fold_lt {x : Nat} (h : x < 2 ^ 24) : x ^^^ (x / 4096) < 2 ^ 24 :=
  Nat.xor_lt_two_pow h (Nat.lt_of_le_of_lt (Nat.div_le_self x 4096) h)

theorem bucket_lt (b : Nat) (key : List StrokeCode) : bucket b key < 2 ^ b :=
  Nat.mod_lt _ (Nat.two_pow_pos b)

end Hash

section Slots
variable {key : List StrokeCode} {bytes : List Byte}

theorem slotStrokes_eq_iff : slotStrokes bytes key.length = key ↔
    ∀ i (h : i < key.length), BitVec.ofNat 24 (numberAt bytes (4 + 3 * i) 3) = key[i] := by
  rw [List.ext_getElem_iff]
  simp only [slotStrokes, List.length_map, List.length_range, List.getElem_map, List.getElem_range, true_and]
  exact ⟨fun h i hi => h i hi hi, fun h i hi _ => h i hi⟩

/-- The slot's check word is right (R27). -/
def SlotChecked (bytes : List Byte) : Prop :=
  numberAt bytes 62 2 = (crc (bytes.take 62)).toNat

theorem judgeSlot_unchecked (h : ¬SlotChecked bytes) : judgeSlot key bytes = .check :=
  if_pos h

theorem judgeSlot_checked (h : SlotChecked bytes) : judgeSlot key bytes =
    if 9 ≤ (byteAt bytes 0).toNat then .check
    else if (byteAt bytes 0).toNat = 0 then .empty
    else if (byteAt bytes 0).toNat = key.length ∧ slotStrokes bytes (byteAt bytes 0).toNat = key then
      .hit (slotEntry bytes)
    else .differ :=
  if_neg (not_not_intro h)

theorem judgeSlot_long (h : SlotChecked bytes) (hn : 9 ≤ (byteAt bytes 0).toNat) : judgeSlot key bytes = .check := by
  rw [judgeSlot_checked h, if_pos hn]

theorem judgeSlot_empty (h : SlotChecked bytes) (hn : (byteAt bytes 0).toNat = 0) : judgeSlot key bytes = .empty := by
  rw [judgeSlot_checked h, if_neg (by omega), if_pos hn]

/-- A slot of 1 to 8 strokes is hit when its key length is the candidate's and so are its first codes (R28). -/
theorem judgeSlot_entry (h : SlotChecked bytes) (hlo : 1 ≤ (byteAt bytes 0).toNat)
    (hhi : (byteAt bytes 0).toNat ≤ 8) : judgeSlot key bytes =
      if (byteAt bytes 0).toNat = key.length ∧ slotStrokes bytes key.length = key then .hit (slotEntry bytes)
      else .differ := by
  have hsame : ((byteAt bytes 0).toNat = key.length ∧ slotStrokes bytes (byteAt bytes 0).toNat = key) =
      ((byteAt bytes 0).toNat = key.length ∧ slotStrokes bytes key.length = key) :=
    propext (and_congr_right fun hn => by rw [hn])
  simp only [judgeSlot_checked h, hsame, if_neg (show ¬9 ≤ (byteAt bytes 0).toNat by omega),
    if_neg (show (byteAt bytes 0).toNat ≠ 0 by omega)]

end Slots

section Recovery
variable {s : State} {bytes : List Byte}

theorem expireRecovery_due (hup : s.port.up = false) (ht : s.port.recoveryTimer = some 0) :
    expireRecovery s = s.setPort { s.port with read := .recovery, recoveryTimer := some 1000 } := by
  simp [expireRecovery, Timer.due, hup, ht, Config.recoveryTime]

theorem recoveryGood_iff (p : Port) (bytes : List Byte) : recoveryGood p bytes = true ↔
    bytes.take 5 = [0x5A#8, 0x46#8, 0x44#8, 0x48#8, 1#8] ∧ numberAt bytes 288 2 = (crc (bytes.take 288)).toNat
      ∧ p.acceptedCrc = some (BitVec.ofNat 16 (numberAt bytes 288 2)) := by
  simp only [recoveryGood, headerSound, headerCrc, Bool.and_eq_true, beq_iff_eq, and_assoc]

theorem completeRecovery_inFlight (hread : s.port.read = .recovery) (hl : bytes.length = 290) :
    completeRecovery .inFlight bytes s =
      if recoveryGood s.port bytes = true then
        s.setPort { s.port with read := .none, timeouts := 0, up := true, recoveryTimer := none }
      else s.setPort { s.port with read := .none, timeouts := 0 } :=
  if_pos (by simp [hread, hl, Config.headerBytes])

end Recovery

section Faults

/-- A slot joins the fault table once, and sets OVERFLOW when eight others are listed (R31). -/
theorem recordFault_eq (i : Nat) (p : Port) : p.recordFault i =
    { p with
      faults := if i ∈ p.faults ∨ 8 ≤ p.faults.length then p.faults else p.faults ++ [i]
      overflow := p.overflow || decide (i ∉ p.faults ∧ 8 ≤ p.faults.length) } := by
  unfold Port.recordFault
  by_cases hlisted : i ∈ p.faults
  · simp [hlisted]
  · by_cases hfull : 8 ≤ p.faults.length
    · simp [hlisted, hfull, Config.faultEntries, Nat.not_lt.mpr hfull]
    · simp [hlisted, hfull, Config.faultEntries, Nat.lt_of_not_le hfull]

/-- The fourth consecutive timeout takes the port DOWN and loads the recovery timer (R32). -/
theorem timeout_eq (p : Port) : p.timeout =
    { p with
      timeouts := min 4 (p.timeouts + 1)
      up := if 3 ≤ p.timeouts then false else p.up
      recoveryTimer := if 3 ≤ p.timeouts then some 1000 else p.recoveryTimer } := by
  have hfourth : min 4 (p.timeouts + 1) = 4 ↔ 3 ≤ p.timeouts := by omega
  simp only [Port.timeout, saturate, Config.timeoutsToDown, Config.recoveryTime, hfourth]
  split <;> rfl

/-- The port after a watchdog expiry: the read abandoned, its slot recorded, the timeout counted (R26, R31, R32). -/
theorem expiredPort_eq (i : Nat) (p : Port) : (p.endRead.recordFault i).timeout =
    { p with
      read := .none, lookup := none, watchdogTimer := none, timeouts := min 4 (p.timeouts + 1)
      faults := if i ∈ p.faults ∨ 8 ≤ p.faults.length then p.faults else p.faults ++ [i]
      overflow := p.overflow || decide (i ∉ p.faults ∧ 8 ≤ p.faults.length)
      up := if 3 ≤ p.timeouts then false else p.up
      recoveryTimer := if 3 ≤ p.timeouts then some 1000 else p.recoveryTimer } := by
  rw [recordFault_eq, timeout_eq]
  rfl

end Faults

section Lookups
variable {s : State} {i : Nat} {l : Lookup} {w : Work} {bytes : List Byte}

theorem slotRead_of (hr : s.port.read = .slot i) (hl : s.port.lookup = some l) (hw : s.engine.step = some w) :
    slotRead s = some (i, l, w) := by
  simp [slotRead, hr, hl, hw]

/-- The port once a slot read has completed (R26). -/
def Port.readDone (p : Port) : Port :=
  { p with read := .none, lookup := none, watchdogTimer := none, timeouts := 0 }

/-- The 64 bytes of the read in flight decide the probe step, the port's read being over (R26, R27). -/
theorem completeSlotRead_inFlight (hr : s.port.read = .slot i) (hl : s.port.lookup = some l)
    (hw : s.engine.step = some w) (hbytes : bytes.length = 64) :
    completeSlotRead .inFlight bytes s = judgeRead i l w bytes (s.setPort s.port.readDone) := by
  simp only [completeSlotRead, slotRead_of hr hl hw]
  exact if_pos (by simp [hbytes, Config.slotBytes])

theorem expireWatchdog_due (hr : s.port.read = .slot i) (hl : s.port.lookup = some l) (hw : s.engine.step = some w)
    (ht : s.port.watchdogTimer = some 0) :
    expireWatchdog s =
      lookupFrom w.candidate { w with faulted := true } (s.setPort (s.port.endRead.recordFault i).timeout) := by
  simp [expireWatchdog, slotRead_of hr hl hw, Timer.due, ht]

section Verdicts
variable (i l w)

theorem judgeRead_check (h : judgeSlot l.key bytes = .check) : judgeRead i l w bytes s =
    lookupFrom w.candidate { w with faulted := true } (s.setPort (s.port.recordFault i)) := by
  simp [judgeRead, h]

theorem judgeRead_empty (h : judgeSlot l.key bytes = .empty) :
    judgeRead i l w bytes s = lookupFrom w.candidate w s := by
  simp [judgeRead, h]

theorem judgeRead_differ (h : judgeSlot l.key bytes = .differ) :
    judgeRead i l w bytes s = probeOn l.key l.probe w s := by
  simp [judgeRead, h]

end Verdicts

theorem probeOn_past_limit {key : List StrokeCode} {j : Nat} (h : s.port.probeLimit ≤ j + 1) :
    probeOn key j w s = lookupFrom w.candidate w s :=
  if_pos h

theorem probeOn_listed {key : List StrokeCode} {j : Nat} (h : j + 1 < s.port.probeLimit)
    (hlisted : slotIndex s.port key (j + 1) ∈ s.port.faults) :
    probeOn key j w s = lookupFrom w.candidate { w with faulted := true } s := by
  simp [probeOn, Nat.not_le.mpr h, hlisted]

theorem probeOn_reads {key : List StrokeCode} {j : Nat} (h : j + 1 < s.port.probeLimit)
    (hlisted : slotIndex s.port key (j + 1) ∉ s.port.faults) :
    probeOn key j w s = startRead key (j + 1) w s := by
  simp [probeOn, Nat.not_le.mpr h, hlisted]

/-- A read for the step in flight moves the port alone (R25, R26). -/
theorem startRead_inStep (key : List StrokeCode) (j : Nat) (hw : s.engine.step = some w) :
    startRead key j w s = s.setPort { s.port with
      read := .slot (slotIndex s.port key j)
      lookup := some { key := key, probe := j }
      watchdogTimer := some s.port.watchdog } := by
  rw [startRead, ← hw]
  rfl

/-- A lookup in DOWN, or whose first slot is listed, is a faulted miss at once (R25, R33). -/
theorem lookupFrom_misses {k : Nat} {key : List StrokeCode} (hkey : key = candidateKey s.engine.tail k w.code)
    (h : s.port.up = false ∨ slotIndex s.port key 0 ∈ s.port.faults) :
    lookupFrom (k + 1) w s = lookupFrom k { w with faulted := true } s := by
  subst hkey
  rcases h with h | h <;> simp [lookupFrom, h]

/-- In DOWN every candidate is a faulted miss, so the step comes to its fallback without a read (R33, R51). -/
theorem lookupFrom_down (k : Nat) (w : Work) (hup : s.port.up = false) :
    lookupFrom (k + 1) w s = fallback { w with faulted := true } s := by
  induction k generalizing w with
  | zero => exact lookupFrom_misses rfl (.inl hup)
  | succ k ih => exact (lookupFrom_misses rfl (.inl hup)).trans (ih { w with faulted := true })

/-- Going on with a step's candidates moves nothing of the port but the read it starts (R25, R26). -/
theorem lookupFrom_port (n : Nat) (w : Work) (s : State) : (lookupFrom n w s).port =
    { s.port with
      read := (lookupFrom n w s).port.read
      lookup := (lookupFrom n w s).port.lookup
      watchdogTimer := (lookupFrom n w s).port.watchdogTimer } := by
  induction n generalizing w with
  | zero => simp [lookupFrom]
  | succ k ih =>
    by_cases h : s.port.up = true ∧ slotIndex s.port (candidateKey s.engine.tail k w.code) 0 ∉ s.port.faults
    · obtain ⟨hup, hfree⟩ := h
      rw [lookupFrom_reads rfl hup hfree]
      rfl
    · rw [lookupFrom_misses rfl (by simpa [or_iff_not_imp_left] using h)]
      exact ih _

theorem lookupFrom_port_down (n : Nat) (w : Work) (hup : s.port.up = false) :
    (lookupFrom n w s).port = s.port := by
  cases n with
  | zero => simp [lookupFrom]
  | succ k => simp [lookupFrom_down k w hup]

end Lookups

end Sys2Proof.Machine
end

section
/-! SUPPORT. How a stroke step ends: the requests it makes in LIVE (R144 to R148), the record it builds and places
(R38, R48, R52 to R54, R59), and the step boundary (R42, R44, R64, R66). -/

namespace Sys2Proof.Machine

section Requests
variable {s : State}

theorem feedOpen_live (hlive : s.floor.state = .live) : feedOpen s = true := by
  simp [feedOpen, hlive, FloorState.inTenure]

theorem handAppend_live (chars : List Byte) (degraded : Bool) (time : Clock) (hlive : s.floor.state = .live) :
    handAppend chars degraded time s = s.setFeed (s.feed.append chars degraded (time + s.floor.lineOffset)) :=
  if_pos (feedOpen_live hlive)

theorem handSettle_live (boundary : Seq) (hlive : s.floor.state = .live) :
    handSettle boundary s = s.setFeed (s.feed.settle boundary) :=
  if_pos (feedOpen_live hlive)

theorem answeredSeq_live (hlive : s.floor.state = .live) : answeredSeq s = some s.feed.nextSeq :=
  if_pos (feedOpen_live hlive)

theorem handCutAt_shadow (point : Option Seq) (hmode : s.engine.mode = .shadow) : handCutAt point s = s := by
  cases point <;> simp [handCutAt, hmode]

/-- The feed after a cut at `point`, if there is one (R148). -/
def Feed.cutAt (point : Option Seq) (f : Feed) : Feed :=
  match point with
  | some q => f.cut q
  | none => f

theorem handCutAt_live (point : Option Seq) (hmode : s.engine.mode = .live) (hlive : s.floor.state = .live) :
    handCutAt point s = s.setFeed (s.feed.cutAt point) := by
  cases point <;> simp [handCutAt, handCut, hmode, feedOpen_live hlive, Feed.cutAt]

/-- In LIVE a gap count settles the whole tail locally and hands the lost request, in line time (R59). -/
theorem reportGap_lost {gap : Nat} (time : Clock) (hgap : gap ≠ 0) (hmode : s.engine.mode = .live)
    (hlive : s.floor.state = .live) : reportGap gap time s =
      (settleLocal s).setFeed (s.feed.lost (BitVec.ofNat 8 gap) (time + s.floor.lineOffset)) := by
  simp [reportGap, hgap, hmode, handLost, feedOpen_live, hlive, settleLocal, toLineTime]

end Requests

section StepEnd
variable {s : State}

/-- A step that ends with a settle on entry due empties the tail and clears the flag (R64). -/
theorem endStep_settled (hfull : s.engine.fullSettle = false) (hentry : s.engine.settleOnEntry = true) :
    endStep s = s.setEngine { s.engine with
      tail := [], step := none, settleTimer := some s.engine.settleIdle, settleOnEntry := false } := by
  unfold endStep boundaryWork settleMute fullSettle
  rw [settleOnEntry_eq]
  by_cases hmute : s.floor.state = .mute <;> simp [hentry, hmute, hfull, settleLocal]

/-- A step that ends with neither settle due loads the settle idle timer, and in MUTE empties the tail (R42, R66). -/
theorem endStep_unsettled (hfull : s.engine.fullSettle = false) (hentry : s.engine.settleOnEntry = false) :
    endStep s = s.setEngine { s.engine with
      tail := if s.floor.state = .mute then [] else s.engine.tail
      step := none, settleTimer := some s.engine.settleIdle } := by
  by_cases hmute : s.floor.state = .mute
  · rw [endStep, boundaryWork_mute (by exact hfull) (by exact hmute) (by exact hentry), if_pos hmute]
    rfl
  · rw [endStep, boundaryWork_quiet (by exact hentry) (by exact hfull) (by exact hmute), if_neg hmute]

theorem endStep_quiet (hfull : s.engine.fullSettle = false) (hentry : s.engine.settleOnEntry = false)
    (hmute : s.floor.state ≠ .mute) :
    endStep s = s.setEngine { s.engine with step := none, settleTimer := some s.engine.settleIdle } := by
  rw [endStep_unsettled hfull hentry, if_neg hmute]

end StepEnd

section Placing
variable {s : State}

/-- The tail of depth `depth` once `r` has joined it: a full tail lets its oldest record go (R39, R54). -/
def grownTail (depth : Nat) (tail : List Record) (r : Record) : List Record :=
  (if tail = [] ∨ tail.length < depth then tail else tail.tail) ++ [r]

/-- The feed once a record has joined the tail `before`, which is `grown` then: an oldest record with a seq that had to
go is settled to its successor's seq (R54). -/
def Feed.settleOldest (depth : Nat) (before grown : List Record) (f : Feed) : Feed :=
  match before.head? with
  | some oldest =>
    if depth ≤ before.length ∧ oldest.seq.isSome = true then
      f.settle ((grown.head?.bind Record.seq).getD f.nextSeq)
    else f
  | none => f

theorem grownTail_room {depth : Nat} {tail : List Record} (r : Record) (h : tail = [] ∨ tail.length < depth) :
    grownTail depth tail r = tail ++ [r] := by
  rw [grownTail, if_pos h]

theorem grownTail_full {depth : Nat} {oldest : Record} {rest : List Record} (r : Record)
    (h : ¬(oldest :: rest).length < depth) : grownTail depth (oldest :: rest) r = rest ++ [r] := by
  rw [grownTail, if_neg (by simpa using h)]
  rfl

theorem settleOldest_room {depth : Nat} {before : List Record} (grown : List Record) (f : Feed)
    (h : before = [] ∨ before.length < depth) : f.settleOldest depth before grown = f := by
  cases before with
  | nil => rfl
  | cons oldest rest => exact if_neg fun hfull => Nat.not_le.mpr (h.resolve_left (List.cons_ne_nil _ _)) hfull.1

/-- Without a settle request, which only LIVE makes and only when no LOST follows, placing a record moves the tail
alone (R54, R59). -/
theorem placeRecord_quiet (r : Record) {lossFollows : Bool} (h : s.engine.mode = .shadow ∨ lossFollows = true) :
    placeRecord r lossFollows s =
      s.setEngine { s.engine with tail := grownTail s.engine.depth s.engine.tail r } := by
  by_cases hroom : s.engine.tail = [] ∨ s.engine.tail.length < s.engine.depth
  · rw [placeRecord_keep r lossFollows s hroom, grownTail_room r hroom]
  · obtain ⟨hne, hfull⟩ := not_or.mp hroom
    obtain ⟨oldest, rest, htail⟩ := List.exists_cons_of_ne_nil hne
    rw [placeRecord_over r lossFollows s oldest rest htail hfull, htail, grownTail_full r (htail ▸ hfull)]
    rcases h with h | h <;> simp [h]

theorem placeRecord_live (r : Record) (hmode : s.engine.mode = .live) (hlive : s.floor.state = .live) :
    placeRecord r false s =
      let grown := grownTail s.engine.depth s.engine.tail r
      (s.setEngine { s.engine with tail := grown }).setFeed
        (s.feed.settleOldest s.engine.depth s.engine.tail grown) := by
  by_cases hroom : s.engine.tail = [] ∨ s.engine.tail.length < s.engine.depth
  · simp only [placeRecord_keep r false s hroom, grownTail_room r hroom, settleOldest_room _ _ hroom]
    rfl
  · obtain ⟨hne, hfull⟩ := not_or.mp hroom
    obtain ⟨oldest, rest, htail⟩ := List.exists_cons_of_ne_nil hne
    rw [placeRecord_over r false s oldest rest htail hfull, htail, grownTail_full r (htail ▸ hfull)]
    have hle : s.engine.depth ≤ (oldest :: rest).length := htail ▸ Nat.le_of_not_lt hfull
    cases hseq : oldest.seq.isSome with
    | false =>
      simp only [Feed.settleOldest, List.head?_cons, hseq, Bool.and_false, Bool.false_and, Bool.false_eq_true,
        and_false, if_false]
      rfl
    | true =>
      simp only [Feed.settleOldest, List.head?_cons, hseq, hmode, hle, and_self, if_true]
      exact handSettle_live _ hlive

end Placing

section Finishing
variable {s : State} (k : Nat) (kind : RecordKind) (d : Descriptor) (w : Work)

/-- The context in force when a step absorbs `k` records: the saved context of the oldest of them (R48). -/
def contextBefore (k : Nat) (e : Engine) : Context :=
  ((tailNewest e.tail k).head?.map Record.saved).getD e.context

/-- The text a step forms once it has absorbed `k` records, and the context it leaves (R48, R52). -/
def formedText (k : Nat) (d : Descriptor) (s : State) : List Byte × Context :=
  formSegment s.port.labels d (contextBefore k s.engine)

/-- The record a step builds from `k` absorbed records and its own stroke (R38, R52, R53). -/
def builtRecord (k : Nat) (kind : RecordKind) (d : Descriptor) (w : Work) (seq : Option Seq) (s : State) : Record :=
  { strokes := candidateKey s.engine.tail k w.code, kind := kind, text := (formedText k d s).1
    saved := contextBefore k s.engine, seq := seq, degraded := w.faulted }

/-- The tail after a step that absorbed `k` records has placed its own. -/
def builtTail (k : Nat) (kind : RecordKind) (d : Descriptor) (w : Work) (seq : Option Seq) (s : State) :
    List Record :=
  grownTail s.engine.depth (tailKept s.engine.tail k) (builtRecord k kind d w seq s)

/-- The state in which a step makes its requests: `k` records absorbed and the text formed (R48, R52). -/
def absorb (k : Nat) (d : Descriptor) (s : State) : State :=
  s.setEngine { s.engine with tail := tailKept s.engine.tail k, context := (formedText k d s).2 }

/-- The feed after the cut at the oldest absorbed record's seq, and the append of the text (R48, R53). -/
def appendedFeed (k : Nat) (d : Descriptor) (w : Work) (s : State) : Feed :=
  (s.feed.cutAt (cutPoint k s)).append (formedText k d s).1 w.faulted (w.time + s.floor.lineOffset)

theorem finishStroke_eq (s : State) : finishStroke k kind d w s =
    let cut := handCutAt (cutPoint k s) (absorb k d s)
    let live := cut.engine.mode == .live
    let seq := if live then answeredSeq cut else none
    let appended := if live then handAppend (formedText k d s).1 w.faulted w.time cut else cut
    endStep (reportGap w.gap w.time
      (placeRecord (builtRecord k kind d w seq s) (decide (w.gap ≠ 0)) appended)) := rfl

/-- In SHADOW a step places its record without a seq and makes no request (R53, R59). -/
theorem finishStroke_shadow (hmode : s.engine.mode = .shadow) : finishStroke k kind d w s =
    endStep (s.setEngine { s.engine with
      tail := builtTail k kind d w none s, context := (formedText k d s).2 }) := by
  have habsorb : (absorb k d s).engine.mode = .shadow := hmode
  have hlive : ((absorb k d s).engine.mode == .live) = false := by rw [habsorb]; rfl
  simp only [finishStroke_eq, handCutAt_shadow _ habsorb, hlive, Bool.false_eq_true, if_false]
  rw [placeRecord_quiet _ (.inl habsorb)]
  exact congrArg endStep (reportGap_shadow (by exact hmode) w.gap w.time)

/-- The state of a LIVE step when its record is placed: the cut made and the text appended (R48, R53). -/
theorem finishStroke_requests (hmode : s.engine.mode = .live) (hlive : s.floor.state = .live) :
    finishStroke k kind d w s = endStep (reportGap w.gap w.time
      (placeRecord (builtRecord k kind d w (some (s.feed.cutAt (cutPoint k s)).nextSeq) s) (decide (w.gap ≠ 0))
        ((absorb k d s).setFeed (appendedFeed k d w s)))) := by
  have hcut : handCutAt (cutPoint k s) (absorb k d s) =
      (absorb k d s).setFeed (s.feed.cutAt (cutPoint k s)) := handCutAt_live _ hmode hlive
  have hopen : ((absorb k d s).setFeed (s.feed.cutAt (cutPoint k s))).floor.state = .live := hlive
  have hmode' : (((absorb k d s).setFeed (s.feed.cutAt (cutPoint k s))).engine.mode == .live) = true := by
    rw [State.setFeed_engine, show (absorb k d s).engine.mode = .live from hmode]
    rfl
  simp only [finishStroke_eq, hcut, hmode', if_true, answeredSeq_live hopen, handAppend_live _ _ _ hopen]
  rfl

/-- A LIVE step without a gap count places its record with the seq of its segment (R53, R54). -/
theorem finishStroke_live (hmode : s.engine.mode = .live) (hlive : s.floor.state = .live) (hgap : w.gap = 0) :
    finishStroke k kind d w s =
      let grown := builtTail k kind d w (some (s.feed.cutAt (cutPoint k s)).nextSeq) s
      endStep ((s.setEngine { s.engine with tail := grown, context := (formedText k d s).2 }).setFeed
        ((appendedFeed k d w s).settleOldest s.engine.depth (tailKept s.engine.tail k) grown)) := by
  rw [finishStroke_requests k kind d w hmode hlive, hgap, reportGap_zero, decide_eq_false (by simp)]
  exact congrArg endStep (placeRecord_live (s := (absorb k d s).setFeed (appendedFeed k d w s)) _ hmode hlive)

/-- A LIVE step with a gap count settles its whole tail with no settle request, and a LOST segment follows (R59). -/
theorem finishStroke_live_gap (hmode : s.engine.mode = .live) (hlive : s.floor.state = .live) (hgap : w.gap ≠ 0) :
    finishStroke k kind d w s =
      endStep ((s.setEngine { s.engine with tail := [], context := (formedText k d s).2 }).setFeed
        ((appendedFeed k d w s).lost (BitVec.ofNat 8 w.gap) (w.time + s.floor.lineOffset))) := by
  rw [finishStroke_requests k kind d w hmode hlive, decide_eq_true hgap, placeRecord_quiet _ (.inr rfl),
    reportGap_lost _ hgap (by exact hmode) (by exact hlive)]
  rfl

end Finishing

section NewStrokeAlone
variable (s : State) (kind : RecordKind) (d : Descriptor) (w : Work)

@[simp] theorem tailKept_zero (tail : List Record) : tailKept tail 0 = tail := by
  simp [tailKept]

@[simp] theorem tailNewest_zero (tail : List Record) : tailNewest tail 0 = [] := by
  simp [tailNewest]

@[simp] theorem contextBefore_zero (e : Engine) : contextBefore 0 e = e.context := by
  simp [contextBefore]

@[simp] theorem candidateKey_zero (tail : List Record) (code : StrokeCode) : candidateKey tail 0 code = [code] := by
  simp [candidateKey]

@[simp] theorem cutPoint_zero : cutPoint 0 s = none := by
  simp [cutPoint]

theorem formedText_zero : formedText 0 d s = formSegment s.port.labels d s.engine.context := by
  simp [formedText]

/-- With the new stroke alone the record joins the whole tail, in the context in force. -/
theorem builtTail_zero (seq : Option Seq) : builtTail 0 kind d w seq s =
    grownTail s.engine.depth s.engine.tail
      { strokes := [w.code], kind := kind, text := (formSegment s.port.labels d s.engine.context).1
        saved := s.engine.context, seq := seq, degraded := w.faulted } := by
  simp [builtTail, builtRecord, formedText_zero]

/-- A SHADOW step that makes no lookup, for its stroke alone, with neither settle due, no MUTE and room in the tail. -/
theorem finishStroke_shadow_room (hstep : s.engine.step = none) (hmode : s.engine.mode = .shadow)
    (hfull : s.engine.fullSettle = false) (hentry : s.engine.settleOnEntry = false)
    (hmute : s.floor.state ≠ .mute) (hroom : s.engine.tail.length < s.engine.depth) : finishStroke 0 kind d w s =
      let formed := formSegment s.port.labels d s.engine.context
      s.setEngine { s.engine with
        tail := s.engine.tail ++
          [{ strokes := [w.code], kind := kind, text := formed.1, saved := s.engine.context, seq := none
             degraded := w.faulted }]
        context := formed.2, settleTimer := some s.engine.settleIdle } := by
  rw [finishStroke_shadow 0 kind d w hmode, endStep_quiet (by exact hfull) (by exact hentry) (by exact hmute),
    builtTail_zero, grownTail_room _ (.inr hroom), formedText_zero, ← hstep]
  rfl

theorem appendedFeed_zero : appendedFeed 0 d w s =
    s.feed.append (formSegment s.port.labels d s.engine.context).1 w.faulted (w.time + s.floor.lineOffset) := by
  simp [appendedFeed, formedText_zero, Feed.cutAt]

end NewStrokeAlone

end Sys2Proof.Machine
end

section
/-! SUPPORT. The two fallbacks of a step whose candidates have all missed, and their texts letter by letter (R49, R50,
R71). -/

namespace Sys2Proof.Machine

/-- R49: a stroke that is written as a NUMERAL record: it holds key 23 and a key of 12..21. -/
def NumeralStroke (code : StrokeCode) : Prop :=
  KeySet.has code 23 = true ∧ ∃ p : Fin 24, 12 ≤ p.val ∧ p.val ≤ 21 ∧ KeySet.has code p = true

section Fallback
variable {w : Work} {s : State}

theorem mem_keysFrom {code : StrokeCode} {lo hi : Nat} {p : Fin 24} :
    p ∈ keysFrom code lo hi ↔ lo ≤ p.val ∧ p.val ≤ hi ∧ KeySet.has code p = true := by
  simp [keysFrom, and_assoc]

theorem isNumeral_iff (code : StrokeCode) : isNumeral code = true ↔ NumeralStroke code := by
  rw [isNumeral, Bool.and_eq_true, Bool.not_eq_true', List.isEmpty_eq_false_iff_exists_mem]
  simp only [mem_keysFrom, NumeralStroke]

theorem lookupFrom_numeral (h : NumeralStroke w.code) :
    lookupFrom 0 w s = finishStroke 0 .numeral (numeralDescriptor w.code) w s :=
  if_pos ((isNumeral_iff w.code).mpr h)

theorem lookupFrom_raw (h : ¬NumeralStroke w.code) :
    lookupFrom 0 w s = finishStroke 0 .raw (rawDescriptor w.code) w s :=
  if_neg fun hnum => h ((isNumeral_iff w.code).mp hnum)

end Fallback

section StepInDown
variable {s : State}

/-- In DOWN a step that takes a stroke outside a tenure comes to its fallback at once, DEGRADED (R33, R41, R51). -/
theorem beginStep_down {code : StrokeCode} {item : Item} {rest : List Item} (hended : s.startup.ended = true)
    (hstep : s.engine.step = none) (hreplay : s.engine.replay = []) (hitems : s.intake.items = item :: rest)
    (hkind : item.kind = .stroke code) (hshape : strokeShape code = .ordinary) (hup : s.port.up = false)
    (htenure : s.floor.state.inTenure = false) :
    beginStep s = lookupFrom 0
      { code := code, time := item.time, gap := item.gap, candidate := eligible 7 s.engine.tail.reverse
        faulted := true }
      ((s.setEngine { s.engine with settleTimer := none, mode := .shadow }).setIntake
        { s.intake with items := rest, taken := s.intake.taken + 1 }) := by
  have hlive : s.floor.state ≠ .live := fun h => by rw [h] at htenure; cases htenure
  rw [beginStep_item hended hstep hreplay hitems (by simp [htenure]), takeItem, hkind]
  dsimp only
  rw [takeStroke_ordinary hshape, take_stroke _ _ hkind, openStep_eq, if_neg hlive, strokeStep]
  exact lookupFrom_down _ _ hup

end StepInDown

section Texts

/-- The characters of the keys a stroke holds, out of a list of keys with their characters. -/
def heldCharacters (code : StrokeCode) (keys : List (Fin 24 × Byte)) : List Byte :=
  keys.filterMap fun k => if KeySet.has code k.1 then some k.2 else none

/-- The keys of the positions `lo` to `hi` in order, each with its character. -/
def keyCharacters (char : Fin 24 → Byte) (lo hi : Nat) : List (Fin 24 × Byte) :=
  ((List.finRange 24).filter fun p => decide (lo ≤ p.val ∧ p.val ≤ hi)).map fun p => (p, char p)

theorem keysFrom_map (char : Fin 24 → Byte) (code : StrokeCode) (lo hi : Nat) :
    (keysFrom code lo hi).map char = heldCharacters code (keyCharacters char lo hi) := by
  unfold keysFrom heldCharacters keyCharacters
  induction List.finRange 24 with
  | nil => rfl
  | cons p rest ih =>
    by_cases hrange : lo ≤ p.val ∧ p.val ≤ hi
    · cases hheld : KeySet.has code p <;> simpa [hrange, hheld] using ih
    · simpa [hrange] using ih

theorem heldCharacters_single (code : StrokeCode) (p : Fin 24) (b : Byte) :
    heldCharacters code [(p, b)] = if KeySet.has code p then [b] else [] := by
  cases h : KeySet.has code p <;> simp [heldCharacters, h]

theorem numeralText_eq (code : StrokeCode) :
    numeralText code = heldCharacters code (keyCharacters digit 12 21) :=
  keysFrom_map digit code 12 21

/-- R50: '-' stands for the thumb letters when there is none but a right-bank key or key 22. -/
theorem rawText_eq (code : StrokeCode) :
    let thumb := heldCharacters code (keyCharacters legend 8 11)
    let right := heldCharacters code (keyCharacters legend 12 21)
    let star := heldCharacters code [(22, 0x2A#8)]
    rawText code = heldCharacters code [(23, 0x23#8)] ++ heldCharacters code (keyCharacters legend 0 7)
      ++ (if thumb = [] ∧ (right ≠ [] ∨ star ≠ []) then [0x2D#8] else thumb) ++ right ++ star := by
  simp only [heldCharacters_single, ← keysFrom_map, rawText]
  cases hthumb : keysFrom code 8 11 with
  | nil => cases hright : keysFrom code 12 21 <;> cases hstar : KeySet.has code 22 <;> simp
  | cons p rest => simp

end Texts

end Sys2Proof.Machine
end

section
/-! The statements of the dictionary and its lookups, settled. -/

namespace Sys2Proof.Proofs

open Sys2Proof.Machine

/-- Settles O9: before the end of start-up only the header's two commands settle values, and only while its read is in
flight. -/
theorem settingsFixedUntilReset : Obligations.SettingsFixedUntilReset := by
  intro c s t hr hc hexec
  rw [answer_of_exec hexec, answer_settings hr hc]

/-- Settles O21: the sequence of accumulators is the model's fold over the key. -/
theorem bucketFollowsTheHash : Obligations.BucketFollowsTheHash := by
  refine ⟨fun b key a hzero hstep => ⟨?_, fun hkey => ?_⟩, bucket_lt⟩
  · have hfold : hashFold key.length key = a key.length := hzero ▸ hashFold_eq_of_recurrence hstep
    simp only [bucket, hfold]
  · have hlt := accumulator_lt_of_recurrence hstep hkey
    exact ⟨hlt, xor_fold_lt hlt⟩

/-- Settles O22: the first case of R27 that applies, with the codes compared one by one. -/
theorem slotJudgedByCheckAndKey : Obligations.SlotJudgedByCheckAndKey := by
  intro key bytes n checked equalsKey
  have hequals : equalsKey ↔ n = key.length ∧ slotStrokes bytes key.length = key :=
    and_congr_right fun _ => slotStrokes_eq_iff.symm
  refine ⟨judgeSlot_unchecked, judgeSlot_long, judgeSlot_empty, fun hc hlo hhi heq => ?_, fun hc hlo hhi hne => ?_⟩
  · exact (judgeSlot_entry hc hlo hhi).trans (if_pos (hequals.mp heq))
  · exact (judgeSlot_entry hc hlo hhi).trans (if_neg fun h => hne (hequals.mpr h))

/-- Settles O27: the header read back is judged by `recoveryGood`, whose conditions are the statement's. -/
theorem recoveryReadsReturnToUp : Obligations.RecoveryReadsReturnToUp := by
  refine ⟨fun s hup ht => exec_eq_next (expireRecovery_due hup ht), fun s bytes hread hl => ?_⟩
  have hcomplete := completeRecovery_inFlight hread hl
  exact ⟨fun hgood => exec_eq_next (hcomplete.trans (if_pos ((recoveryGood_iff _ _).mpr hgood))),
    fun hbad => exec_eq_next (hcomplete.trans (if_neg fun h => hbad ((recoveryGood_iff _ _).mp h)))⟩

/-- Settles O26: the expired port is the one the lookup goes on with, and the lookup moves nothing of it but a read that
it starts, which it does not in DOWN. -/
theorem watchdogRecordsFault : Obligations.WatchdogRecordsFault := by
  intro s i l w hr hl hw ht
  have hexpiry := expireWatchdog_due hr hl hw ht
  rw [expiredPort_eq] at hexpiry
  refine ⟨_, exec_eq_next hexpiry, rfl, ?_, ?_, ?_, fun hfourth => ?_, fun hfewer => ?_, ?_⟩
  · rw [lookupFrom_port]
    rfl
  · rw [lookupFrom_port]
    simp
  · rw [lookupFrom_port]
    rfl
  · rw [lookupFrom_port_down _ _ (if_pos hfourth)]
    exact ⟨if_pos hfourth, if_pos hfourth, rfl⟩
  · rw [lookupFrom_port]
    exact ⟨if_neg (Nat.not_le.mpr hfewer), if_neg (Nat.not_le.mpr hfewer)⟩
  · simp

/-- Settles O23: the port's read being over, the verdict on the bytes leads to the next probe or the next candidate;
the candidates end in a fallback, whose step ends by its mode. -/
theorem slotReadDecidesProbeStep : Obligations.SlotReadDecidesProbeStep := by
  refine ⟨fun s i l w bytes hr hl hw hbytes => ?_, fun s w k => ⟨lookupFrom_reads rfl, lookupFrom_misses rfl⟩, ?_⟩
  · intro next ended
    have hread := completeSlotRead_inFlight hr hl hw hbytes
    refine ⟨fun hv hlimit hfree => exec_eq_next ?_, fun hv hlimit hlisted => exec_eq_next ?_,
      fun hv hlimit => exec_eq_next ?_, fun hv => exec_eq_next ?_, fun hv => exec_eq_next ?_⟩
    · rw [answer, hread, judgeRead_differ i l w hv, probeOn_reads (by exact hlimit) (by exact hfree)]
      exact startRead_inStep l.key (l.probe + 1) (s := s.setPort s.port.readDone) hw
    · exact hread.trans ((judgeRead_differ i l w hv).trans (probeOn_listed hlimit hlisted))
    · exact hread.trans ((judgeRead_differ i l w hv).trans (probeOn_past_limit hlimit))
    · exact hread.trans (judgeRead_empty i l w hv)
    · rw [answer, hread, judgeRead_check i l w hv, recordFault_eq]
      rfl
  · intro s w kind d numeral hkind hfull formed grown ended
    have hfallback : lookupFrom 0 w s = finishStroke 0 kind d w s := by
      obtain ⟨hnum, rfl, rfl⟩ | ⟨hraw, rfl, rfl⟩ := hkind
      · exact lookupFrom_numeral hnum
      · exact lookupFrom_raw hraw
    have hnotMute (hlive : s.floor.state = .live) : s.floor.state ≠ .mute := by simp [hlive]
    rw [hfallback]
    refine ⟨fun hmode hentry => ?_, fun hmode hentry => ?_,
      fun hmode hlive hentry => ⟨fun hgap => ?_, fun hgap => ?_⟩⟩
    · rw [finishStroke_shadow 0 kind d w hmode, endStep_unsettled (by exact hfull) (by exact hentry),
        builtTail_zero, formedText_zero]
      rfl
    · rw [finishStroke_shadow 0 kind d w hmode, endStep_settled (by exact hfull) (by exact hentry), formedText_zero]
      rfl
    · rw [finishStroke_live_gap 0 kind d w hmode hlive hgap, endStep_quiet (by exact hfull) (by exact hentry)
        (by exact hnotMute hlive), formedText_zero, appendedFeed_zero]
      rfl
    · rw [finishStroke_live 0 kind d w hmode hlive hgap, endStep_quiet (by exact hfull) (by exact hentry)
        (by exact hnotMute hlive), builtTail_zero, formedText_zero, appendedFeed_zero, tailKept_zero, cutPoint_zero]
      rfl

/-- Settles O30: in DOWN the candidates miss one after the other, and the fallback joins a tail with room. -/
theorem stepInDownFallsBack : Obligations.StepInDownFallsBack := by
  refine ⟨?_, fun code => ?_⟩
  · intro s code item rest hended hstep hreplay hitems hkind hshape hup hentry hfull hfloor hroom numeral write
    have hstandby : s.floor.state.inTenure = false ∧ s.floor.state ≠ .mute := by
      rcases hfloor with h | h <;> simp [h, FloorState.inTenure]
    obtain ⟨htenure, hmute⟩ := hstandby
    have hbegin := beginStep_down hended hstep hreplay hitems hkind hshape hup htenure
    refine ⟨fun hnum => exec_eq_next (hbegin.trans ((lookupFrom_numeral (by exact hnum)).trans ?_)),
      fun hraw => exec_eq_next (hbegin.trans ((lookupFrom_raw (by exact hraw)).trans ?_))⟩
    · exact finishStroke_shadow_room _ _ _ _ hstep rfl hfull hentry hmute hroom
    · exact finishStroke_shadow_room _ _ _ _ hstep rfl hfull hentry hmute hroom
  · intro letters left thumb right star number
    constructor
    · rw [numeralDescriptor, numeralText_eq]
      rfl
    · rw [rawDescriptor, rawText_eq]
      rfl

end Sys2Proof.Proofs
end

section
/-! SUPPORT. The most records that hold a number of strokes together (R46), an entry's descriptor (R69, R70), and a hit's
way to its record: the end of a step in every floor state (R42, R64, R66) and the append of a segment (R139, R145). -/

namespace Sys2Proof.Machine

section Eligible

/-- The strokes that the newest `k` records of the tail hold together (R46). -/
def heldStrokes (tail : List Record) (k : Nat) : Nat :=
  ((tailNewest tail k).map fun r => r.strokes.length).sum

theorem tailNewest_eq_reverse_take (tail : List Record) (k : Nat) :
    tailNewest tail k = (tail.reverse.take k).reverse := by
  rw [List.take_reverse, List.reverse_reverse, tailNewest]

theorem heldStrokes_eq_take (tail : List Record) (k : Nat) :
    heldStrokes tail k = ((tail.reverse.take k).map fun r => r.strokes.length).sum := by
  rw [heldStrokes, tailNewest_eq_reverse_take, List.map_reverse, List.sum_reverse]

/-- Of the records newest first, no more than `eligible` hold at most `budget` strokes together. -/
theorem le_eligible {records : List Record} {budget k : Nat} (hk : k ≤ records.length)
    (hsum : ((records.take k).map fun r => r.strokes.length).sum ≤ budget) : k ≤ eligible budget records := by
  induction records generalizing budget k with
  | nil => exact hk
  | cons r older ih =>
    cases k with
    | zero => exact Nat.zero_le _
    | succ k =>
      rw [List.take_succ_cons, List.map_cons, List.sum_cons] at hsum
      have hfits : r.strokes.length ≤ budget := by omega
      have hrest : k ≤ eligible (budget - r.strokes.length) older := ih (Nat.le_of_succ_le_succ hk) (by omega)
      rw [eligible, if_pos hfits]
      exact Nat.succ_le_succ hrest

theorem heldStrokes_eligible_le (tail : List Record) : heldStrokes tail (eligible 7 tail.reverse) ≤ 7 := by
  rw [heldStrokes_eq_take]
  exact eligible_sum 7 tail.reverse _ (Nat.le_refl _)

/-- Records of a stroke or more hold at least as many strokes as they are. -/
theorem le_heldStrokes {tail : List Record} (hone : ∀ r ∈ tail, 1 ≤ r.strokes.length) {k : Nat} (hk : k ≤ tail.length) :
    k ≤ heldStrokes tail k := by
  have hcount : (tailNewest tail k).length = k := by
    rw [tailNewest, List.length_drop]
    omega
  calc k = (tailNewest tail k).length • 1 := by rw [hcount, smul_eq_mul, mul_one]
    _ ≤ heldStrokes tail k := by
      rw [heldStrokes, ← List.length_map (f := fun r : Record => r.strokes.length)]
      refine List.card_nsmul_le_sum _ 1 fun n hn => ?_
      obtain ⟨r, hr, rfl⟩ := List.mem_map.mp hn
      exact hone r (List.mem_of_mem_drop hr)

end Eligible

section EntryDescriptors

theorem speakerOf_eq_some_iff (b : Byte) (k : Fin 16) : speakerOf b = some k ↔ b.toNat = k.val := by
  unfold speakerOf
  split
  · simp [Fin.ext_iff]
  · simp
    omega

theorem speakerOf_isSome_iff (b : Byte) : (speakerOf b).isSome = true ↔ b.toNat ≤ 15 := by
  unfold speakerOf
  split
  · simp
    omega
  · simp
    omega

theorem orQuestion_eq (b : Byte) :
    orQuestion b = if 0x20 ≤ b.toNat ∧ b.toNat ≤ 0x7E then b else 0x3F#8 := by
  simp [orQuestion, printable]

end EntryDescriptors

section Hits
variable {s : State} {i : Nat} {l : Lookup} {w : Work} {bytes : List Byte} {e : Entry}

theorem completeSlotRead_hit (hr : s.port.read = .slot i) (hl : s.port.lookup = some l)
    (hw : s.engine.step = some w) (hbytes : bytes.length = 64) (hhit : judgeSlot l.key bytes = .hit e) :
    completeSlotRead .inFlight bytes s =
      finishStroke w.candidate .entry (entryDescriptor e) w (s.setPort s.port.readDone) := by
  rw [completeSlotRead_inFlight hr hl hw hbytes, judgeRead, hhit]

/-- A step that ends with no full settle asked for loads the settle idle timer; with a settle on entry due, and in MUTE,
it leaves an empty tail (R42, R64, R66). -/
theorem endStep_eq (hfull : s.engine.fullSettle = false) : endStep s = s.setEngine { s.engine with
    tail := if s.engine.settleOnEntry = true ∨ s.floor.state = .mute then [] else s.engine.tail
    step := none, settleTimer := some s.engine.settleIdle, settleOnEntry := false } := by
  cases hentry : s.engine.settleOnEntry with
  | true => simp [endStep_settled hfull hentry]
  | false => simp [endStep_unsettled hfull hentry, hentry]

theorem grownTail_eq (depth : Nat) (tail : List Record) (r : Record) : grownTail depth tail r =
    if tail = [] ∨ tail.length < depth then tail ++ [r] else tail.tail ++ [r] :=
  apply_ite (· ++ [r]) _ tail tail.tail

end Hits

section Appends
variable {f : Feed}

theorem append_room (chars : List Byte) (degraded : Bool) (time : Clock) (hroom : f.places < 16) :
    f.append chars degraded time = { f.push (.text chars degraded) time with
      waiting := f.waiting
        ++ [.segment f.epoch none { seq := f.nextSeq, body := .text chars degraded, time := time }] } := by
  have hpushed : (f.push (.text chars degraded) time).places < 16 := by rwa [push_places_eq]
  obtain ⟨hwaiting, -, -, hepoch⟩ := push_queue (.text chars degraded) time f
  rw [Feed.append, Feed.joinSegment, join_room _ hpushed]
  simp [Feed.epoch]

end Appends

end Sys2Proof.Machine
end

section
/-! SUPPORT. A step that takes an intake item of its own: the state it works on (R41 to R43), the retractions (R83 to R92),
the MARK item (R58), and the gap count that follows (R59). -/

namespace Sys2Proof.Machine

section Settlings
variable {f : Feed}

/-- What a MARK or LOST segment leaves of the queue: its frame behind, and no SETTLE that still counts (R146). -/
theorem appendSettling_room (body : SegmentBody) (time : Clock) (hheld : f.held = none) (hroom : f.places < 16) :
    f.appendSettling body time = { f.push body time with
      settled := f.nextSeq + 1
      waiting := f.waiting.filter (fun x => !x.isSettle)
        ++ [.segment f.epoch none { seq := f.nextSeq, body := body, time := time }]
      sending := f.sending.map fun x => if x.frame.isSettle then { x with withdrawn := true } else x } := by
  obtain ⟨hwaiting, hsending, hpushedHeld, hnext, -, -, hepoch, -⟩ := push_queue body time f
  let g : Feed := { f.push body time with settled := (f.push body time).nextSeq }
  have hg : g.held = none := hpushedHeld.trans hheld
  have hplaces : (g.withdraw Frame.isSettle).places < 16 :=
    Nat.lt_of_le_of_lt (withdraw_le _ hg) ((push_places_eq body time f).trans_lt hroom)
  have happend : f.appendSettling body time =
      (g.withdraw Frame.isSettle).join
        (.segment (g.withdraw Frame.isSettle).epoch none { seq := f.nextSeq, body := body, time := time }) := rfl
  rw [happend, join_room _ hplaces, withdraw_free _ hg]
  simp [g, Feed.epoch]

/-- The mark counter plays no part in the ring (R139). -/
theorem push_markCounter (body : SegmentBody) (time : Clock) (f : Feed) (counter : BitVec 16) :
    Feed.push body time { f with markCounter := counter } = { f.push body time with markCounter := counter } := by
  unfold Feed.push
  dsimp only
  split
  · rfl
  · split
    · rfl
    · split <;> rfl

theorem mark_room (time : Clock) (hheld : f.held = none) (hroom : f.places < 16) :
    f.mark time = { f.push (.mark f.markCounter) time with
      settled := f.nextSeq + 1
      waiting := f.waiting.filter (fun x => !x.isSettle)
        ++ [.segment f.epoch none { seq := f.nextSeq, body := .mark f.markCounter, time := time }]
      sending := f.sending.map fun x => if x.frame.isSettle then { x with withdrawn := true } else x
      markCounter := f.markCounter + 1 } := by
  rw [Feed.mark, appendSettling_room _ _ (by exact hheld) (by exact hroom), push_markCounter]
  rfl

theorem places_lt_of_free (h : 3 ≤ f.free) : f.places < 16 := by
  simp only [Feed.free, Config.queuePlaces] at h
  omega

end Settlings

section ItemSteps
variable {s : State}

/-- The state on which a step works that has taken the item `i` from the intake queue (R41, R43). -/
def itemTaken (i : Item) (rest : List Item) (s : State) : State :=
  (openStep s).setIntake (s.intake.take i rest)

/-- The step mode is the one that R43 gives the floor state. -/
def ModeSuits (s : State) : Prop :=
  s.engine.mode = if s.floor.state = .live then .live else .shadow

theorem itemTaken_eq (i : Item) (rest : List Item) (s : State) : itemTaken i rest s =
    (s.setEngine { s.engine with
      settleTimer := none, mode := if s.floor.state = .live then .live else .shadow }).setIntake
      (s.intake.take i rest) := by
  rw [itemTaken, openStep_eq]

theorem itemTaken_mode (i : Item) (rest : List Item) (s : State) : ModeSuits (itemTaken i rest s) := by
  rw [itemTaken_eq]
  rfl

theorem ModeSuits.live (h : ModeSuits s) (hlive : s.floor.state = .live) : s.engine.mode = .live :=
  h.trans (if_pos hlive)

theorem ModeSuits.shadow (h : ModeSuits s) (hlive : s.floor.state ≠ .live) : s.engine.mode = .shadow :=
  h.trans (if_neg hlive)

theorem take_button (q : Intake) {i : Item} (rest : List Item) (h : ∀ code, i.kind ≠ .stroke code) :
    q.take i rest = { q with items := rest } := by
  unfold Intake.take
  split
  · next code hcode => exact absurd hcode (h code)
  · rfl

theorem refuse_eq (s : State) : refuse s =
    (s.setEngine { s.engine with refusals := min 65535 (s.engine.refusals + 1) }).setAttnTimer (some 250) := rfl

/-- The feed after a retraction's cut, which only LIVE makes (R92, R93). -/
def Feed.cutIn (state : FloorState) (point : Option Seq) (f : Feed) : Feed :=
  match state, point with
  | .live, some q => f.cut q
  | _, _ => f

theorem cutIn_live (point : Option Seq) (f : Feed) : f.cutIn .live point = f.cutAt point := by
  cases point <;> rfl

theorem cutIn_of_ne {state : FloorState} (point : Option Seq) (f : Feed) (h : state ≠ .live) :
    f.cutIn state point = f := by
  cases state with
  | live => exact absurd rfl h
  | _ => rfl

theorem handCutAt_suits (point : Option Seq) (hmode : ModeSuits s) :
    handCutAt point s = s.setFeed (s.feed.cutIn s.floor.state point) := by
  by_cases hlive : s.floor.state = .live
  · rw [handCutAt_live point (hmode.live hlive) hlive, hlive, cutIn_live]
  · rw [handCutAt_shadow point (hmode.shadow hlive), cutIn_of_ne point s.feed hlive, State.setFeed_self]

/-- The feed after the gap count of an item, which only LIVE reports (R59). -/
def Feed.tellGap (state : FloorState) (gap : Nat) (time : Clock) (f : Feed) : Feed :=
  if state = .live ∧ gap ≠ 0 then f.lost (BitVec.ofNat 8 gap) time else f

theorem reportGap_suits (gap : Nat) (time : Clock) (hmode : ModeSuits s) : reportGap gap time s =
    (s.setEngine { s.engine with
      tail := if s.floor.state = .live ∧ gap ≠ 0 then [] else s.engine.tail }).setFeed
      (s.feed.tellGap s.floor.state gap (time + s.floor.lineOffset)) := by
  unfold Feed.tellGap
  by_cases hlost : s.floor.state = .live ∧ gap ≠ 0
  · obtain ⟨hlive, hgap⟩ := hlost
    rw [reportGap_lost time hgap (hmode.live hlive) hlive, if_pos ⟨hlive, hgap⟩, if_pos ⟨hlive, hgap⟩]
    rfl
  · rw [if_neg hlost, if_neg hlost]
    rcases not_and_or.mp hlost with hlive | hgap
    · exact reportGap_shadow (hmode.shadow hlive) gap time
    · rw [not_not.mp hgap]
      exact reportGap_zero time s

theorem reportGap_empty (gap : Nat) (time : Clock) (hmode : ModeSuits s) (htail : s.engine.tail = []) :
    reportGap gap time s = s.setFeed (s.feed.tellGap s.floor.state gap (time + s.floor.lineOffset)) := by
  rw [reportGap_suits gap time hmode, ← htail, ite_self]
  rfl

/-- A step that held no stroke ends with neither settle due: the timer is loaded, and in MUTE the tail was empty (R42). -/
theorem endStep_between (hfull : s.engine.fullSettle = false) (hentry : s.engine.settleOnEntry = false)
    (hstep : s.engine.step = none) (hmute : s.floor.state = .mute → s.engine.tail = []) :
    endStep s = s.setEngine { s.engine with settleTimer := some s.engine.settleIdle } := by
  have htail : (if s.floor.state = .mute then [] else s.engine.tail) = s.engine.tail := by
    split
    · next h => exact (hmute h).symm
    · rfl
  rw [endStep_unsettled hfull hentry, htail, ← hstep]

end ItemSteps

section Retractions
variable {s : State}

theorem strokeShape_wordRetract {p : Nat} (hlo : 12 ≤ p) (hhi : p ≤ 20) :
    strokeShape (BitVec.ofNat 24 (12582912 + 2 ^ p)) = .wordRetract (p - 11) := by
  interval_cases p <;> rfl

theorem removeNewest_eq (k : Nat) (s : State) : removeNewest k s = s.setEngine { s.engine with
    tail := tailKept s.engine.tail k, context := contextBefore k s.engine } := rfl

theorem tailKept_one_concat (older : List Record) (newest : Record) : tailKept (older ++ [newest]) 1 = older := by
  simp [tailKept]

theorem tailNewest_one_concat (older : List Record) (newest : Record) :
    tailNewest (older ++ [newest]) 1 = [newest] := by
  simp [tailNewest]

theorem retractStroke_empty (time : Clock) (htail : s.engine.tail = []) : retractStroke time s = refuse s := by
  simp [retractStroke, htail]

/-- A retract stroke takes the newest record back and leaves its first strokes to the replay list (R84 to R87). -/
theorem retractStroke_newest {older : List Record} {newest : Record} (time : Clock) (hmode : ModeSuits s)
    (hreplay : s.engine.replay = []) (htail : s.engine.tail = older ++ [newest]) : retractStroke time s =
      (s.setEngine { s.engine with
        tail := older, context := newest.saved
        replay := if 1 < newest.strokes.length then newest.strokes.dropLast else []
        replayTime := if 1 < newest.strokes.length then time else s.engine.replayTime }).setFeed
        (s.feed.cutIn s.floor.state newest.seq) := by
  have hlast : s.engine.tail.getLast? = some newest := by simp [htail]
  have hremoved : removeNewest 1 s = s.setEngine { s.engine with tail := older, context := newest.saved } := by
    rw [removeNewest_eq, contextBefore, htail, tailKept_one_concat, tailNewest_one_concat]
    rfl
  rw [retractStroke, hlast, hremoved, ← hreplay]
  dsimp only
  split
  · exact handCutAt_suits (s := s.setEngine _) newest.seq hmode
  · exact handCutAt_suits (s := s.setEngine _) newest.seq hmode

/-- A word retract takes back as many records as it can of its count, and is refused when they are fewer (R91, R92). -/
theorem wordRetract_eq {count k : Nat} {oldest : Option Record} (hk : k = min count s.engine.tail.length)
    (holdest : oldest = (tailNewest s.engine.tail k).head?) (hmode : ModeSuits s) : wordRetract count s =
      ((s.setEngine { s.engine with
        tail := tailKept s.engine.tail k, context := (oldest.map Record.saved).getD s.engine.context
        refusals := if s.engine.tail.length < count then min 65535 (s.engine.refusals + 1) else s.engine.refusals
        }).setFeed (s.feed.cutIn s.floor.state (oldest.bind Record.seq))).setAttnTimer
        (if s.engine.tail.length < count then some 250 else s.attnTimer) := by
  have hcut : handCutAt (cutPoint k s) (removeNewest k s) =
      (removeNewest k s).setFeed (s.feed.cutIn s.floor.state (cutPoint k s)) :=
    handCutAt_suits (s := removeNewest k s) _ hmode
  rw [wordRetract, ← hk, hcut, removeNewest_eq, contextBefore, cutPoint, ← holdest]
  dsimp only
  split <;> rfl

end Retractions

section Marks
variable {s : State}

theorem markItem_live (time : Clock) (hmode : s.engine.mode = .live) (hlive : s.floor.state = .live) :
    markItem time s = (settleLocal s).setFeed (s.feed.mark (time + s.floor.lineOffset)) := by
  have hopen : feedOpen (settleLocal s) = true := feedOpen_live hlive
  simp only [markItem, hmode, beq_self_eq_true, if_true, hopen, handMark]
  rfl

theorem markItem_shadow (time : Clock) (hmode : s.engine.mode = .shadow) : markItem time s = refuse s := by
  simp [markItem, hmode]

end Marks

section TakenItems
variable {s : State} {item : Item} {rest : List Item}

theorem beginStep_takes (hended : s.startup.ended = true) (hstep : s.engine.step = none)
    (hreplay : s.engine.replay = []) (hitems : s.intake.items = item :: rest)
    (hroom : s.floor.state.inTenure = true → 3 ≤ s.feed.free) :
    beginStep s = takeItem item (itemTaken item rest s) :=
  beginStep_item hended hstep hreplay hitems hroom

theorem takeItem_retract (hkind : item.kind = .stroke 4194304#24) (s : State) :
    takeItem item s = endStep (reportGap item.gap item.time (retractStroke item.time s)) := by
  rw [takeItem, hkind]
  rfl

theorem takeItem_wordRetract {p : Nat} (hlo : 12 ≤ p) (hhi : p ≤ 20)
    (hkind : item.kind = .stroke (BitVec.ofNat 24 (12582912 + 2 ^ p))) (s : State) :
    takeItem item s = endStep (reportGap item.gap item.time (wordRetract (p - 11) s)) := by
  rw [takeItem, hkind]
  dsimp only
  rw [takeStroke, strokeShape_wordRetract hlo hhi]

theorem takeItem_mark (hkind : item.kind = .mark) (s : State) :
    takeItem item s = endStep (reportGap item.gap item.time (markItem item.time s)) := by
  rw [takeItem, hkind]

theorem takeItem_floor (hkind : item.kind = .floor) (s : State) :
    takeItem item s = endStep (reportGap item.gap item.time (floorItem s)) := by
  rw [takeItem, hkind]

/-- The tail that the gap count of an item leaves: LIVE settles it before the LOST segment (R59). -/
def tailAfterGap (state : FloorState) (gap : Nat) (tail : List Record) : List Record :=
  if state = .live ∧ gap ≠ 0 then [] else tail

section ItemOutcomes
variable (hended : s.startup.ended = true) (hstep : s.engine.step = none) (hreplay : s.engine.replay = [])
  (hitems : s.intake.items = item :: rest) (hentry : s.engine.settleOnEntry = false)
  (hfull : s.engine.fullSettle = false) (hroom : s.floor.state.inTenure = true → 3 ≤ s.feed.free)
include hended hstep hreplay hitems hentry hfull hroom

theorem beginStep_retract_empty (hkind : item.kind = .stroke 4194304#24) (htail : s.engine.tail = []) :
    beginStep s = (((s.setIntake { s.intake with items := rest, taken := s.intake.taken + 1 }).setEngine
      { s.engine with
        mode := if s.floor.state = .live then .live else .shadow, settleTimer := some s.engine.settleIdle
        refusals := min 65535 (s.engine.refusals + 1) }).setFeed
      (s.feed.tellGap s.floor.state item.gap (item.time + s.floor.lineOffset))).setAttnTimer (some 250) := by
  have hsuits := itemTaken_mode item rest s
  rw [beginStep_takes hended hstep hreplay hitems hroom, takeItem_retract hkind]
  rw [itemTaken_eq, take_stroke s.intake rest hkind] at hsuits ⊢
  rw [retractStroke_empty _ (by exact htail), refuse_eq, reportGap_empty _ _ (by exact hsuits) (by exact htail),
    endStep_between (by exact hfull) (by exact hentry) (by exact hstep) (fun _ => by exact htail)]
  dsimp only [State.setEngine, State.setFeed, State.setIntake, State.setAttnTimer]

theorem beginStep_retract (hkind : item.kind = .stroke 4194304#24) (hmute : s.floor.state ≠ .mute)
    {older : List Record} {newest : Record} (htail : s.engine.tail = older ++ [newest]) :
    beginStep s = ((s.setIntake { s.intake with items := rest, taken := s.intake.taken + 1 }).setEngine
      { s.engine with
        tail := tailAfterGap s.floor.state item.gap older, context := newest.saved
        mode := if s.floor.state = .live then .live else .shadow, settleTimer := some s.engine.settleIdle
        replay := if 1 < newest.strokes.length then newest.strokes.dropLast else []
        replayTime := if 1 < newest.strokes.length then item.time else s.engine.replayTime }).setFeed
      ((s.feed.cutIn s.floor.state newest.seq).tellGap s.floor.state item.gap
        (item.time + s.floor.lineOffset)) := by
  have hsuits := itemTaken_mode item rest s
  rw [beginStep_takes hended hstep hreplay hitems hroom, takeItem_retract hkind]
  rw [itemTaken_eq, take_stroke s.intake rest hkind] at hsuits ⊢
  rw [retractStroke_newest _ hsuits (by exact hreplay) (by exact htail), reportGap_suits _ _ (by exact hsuits),
    endStep_between (by exact hfull) (by exact hentry) (by exact hstep) (fun h => absurd h (by exact hmute))]
  dsimp only [State.setEngine, State.setFeed, State.setIntake, State.setAttnTimer]
  rfl

theorem beginStep_wordRetract {p : Nat} (hlo : 12 ≤ p) (hhi : p ≤ 20)
    (hkind : item.kind = .stroke (BitVec.ofNat 24 (12582912 + 2 ^ p)))
    (hmute : s.floor.state = .mute → s.engine.tail = []) {k : Nat} {oldest : Option Record}
    (hk : k = min (p - 11) s.engine.tail.length) (holdest : oldest = (tailNewest s.engine.tail k).head?) :
    beginStep s = (((s.setIntake { s.intake with items := rest, taken := s.intake.taken + 1 }).setEngine
      { s.engine with
        tail := tailAfterGap s.floor.state item.gap (tailKept s.engine.tail k)
        context := (oldest.map Record.saved).getD s.engine.context
        mode := if s.floor.state = .live then .live else .shadow, settleTimer := some s.engine.settleIdle
        refusals := if s.engine.tail.length < p - 11 then min 65535 (s.engine.refusals + 1) else s.engine.refusals
        }).setFeed ((s.feed.cutIn s.floor.state (oldest.bind Record.seq)).tellGap s.floor.state item.gap
          (item.time + s.floor.lineOffset))).setAttnTimer
      (if s.engine.tail.length < p - 11 then some 250 else s.attnTimer) := by
  have hsuits := itemTaken_mode item rest s
  rw [beginStep_takes hended hstep hreplay hitems hroom, takeItem_wordRetract hlo hhi hkind]
  rw [itemTaken_eq, take_stroke s.intake rest hkind] at hsuits ⊢
  rw [wordRetract_eq (by exact hk) (by exact holdest) hsuits, reportGap_suits _ _ (by exact hsuits),
    endStep_between (by exact hfull) (by exact hentry) (by exact hstep) (fun h => by simp [hmute h, tailKept])]
  dsimp only [State.setEngine, State.setFeed, State.setIntake, State.setAttnTimer]
  rfl

theorem beginStep_mark_live (hkind : item.kind = .mark) (hlive : s.floor.state = .live) :
    beginStep s = ((s.setIntake { s.intake with items := rest }).setEngine
      { s.engine with tail := [], mode := .live, settleTimer := some s.engine.settleIdle }).setFeed
      ((s.feed.mark (item.time + s.floor.lineOffset)).tellGap s.floor.state item.gap
        (item.time + s.floor.lineOffset)) := by
  have hsuits := itemTaken_mode item rest s
  rw [beginStep_takes hended hstep hreplay hitems hroom, takeItem_mark hkind]
  rw [itemTaken_eq, take_button s.intake rest (by simp [hkind])] at hsuits ⊢
  rw [markItem_live _ (hsuits.live hlive) (by exact hlive), reportGap_empty _ _ (by exact hsuits) (by exact rfl),
    endStep_between (by exact hfull) (by exact hentry) (by exact hstep) (fun _ => by exact rfl), if_pos hlive]
  dsimp only [State.setEngine, State.setFeed, State.setIntake, State.setAttnTimer]
  rfl

theorem beginStep_mark_refused (hkind : item.kind = .mark) (hlive : s.floor.state ≠ .live)
    (hmute : s.floor.state = .mute → s.engine.tail = []) :
    beginStep s = ((s.setIntake { s.intake with items := rest }).setEngine
      { s.engine with
        mode := .shadow, settleTimer := some s.engine.settleIdle
        refusals := min 65535 (s.engine.refusals + 1) }).setAttnTimer (some 250) := by
  have hsuits := itemTaken_mode item rest s
  rw [beginStep_takes hended hstep hreplay hitems hroom, takeItem_mark hkind]
  rw [itemTaken_eq, take_button s.intake rest (by simp [hkind])] at hsuits ⊢
  rw [markItem_shadow _ (hsuits.shadow hlive), reportGap_shadow (by exact hsuits.shadow hlive), refuse_eq,
    endStep_between (by exact hfull) (by exact hentry) (by exact hstep) (by exact hmute), if_neg hlive]
  dsimp only [State.setEngine, State.setFeed, State.setIntake, State.setAttnTimer]

end ItemOutcomes

end TakenItems

end Sys2Proof.Machine
end

section
/-! SUPPORT. What the Floor Controller's own operations make of the state (R142, R165 to R173): the claim window and the
entry to LIVE, the FLOOR item in each floor state, and the move to HANDING with its full settle and hand-over. -/

namespace Sys2Proof.Machine

section SettleRequests
variable {f : Feed}

theorem settle_rewrites {older : List Frame} {epoch : Epoch} {old : Seq} (boundary : Seq)
    (h : f.waiting = older ++ [.settle epoch old]) :
    f.settle boundary = { f with settled := boundary, waiting := older ++ [.settle f.epoch boundary] } := by
  simp [Feed.settle, h]

theorem join_eq (fr : Frame) (f : Feed) :
    f.join fr = { f with waiting := if f.places < 16 then f.waiting ++ [fr] else f.waiting } := by
  by_cases h : f.places < 16
  · rw [join_room fr h, if_pos h]
  · rw [Feed.join, if_neg (by exact h), if_neg h]

theorem settle_joins (boundary : Seq) (h : ∀ older epoch old, f.waiting ≠ older ++ [.settle epoch old]) :
    f.settle boundary = { f with
      settled := boundary
      waiting := if f.places < 16 then f.waiting ++ [.settle f.epoch boundary] else f.waiting } := by
  unfold Feed.settle
  dsimp only
  split
  · next hlast =>
    obtain ⟨older, holder⟩ := List.getLast?_eq_some_iff.mp hlast
    exact absurd holder (h older _ _)
  · exact join_eq _ _

/-- The feed after a settle to the end of the tail: a request only for records that carry a seq (R55, R57). -/
def Feed.settleCarried (tail : List Record) (f : Feed) : Feed :=
  if carriesSeq tail then f.settle f.nextSeq else f

end SettleRequests

section Handovers
variable {f g k : Feed}

/-- The HANDOVERs that wait, are held or are in transmission are the same, and so is the tenure's epoch. -/
structure KeepsHandovers (f g : Feed) : Prop where
  waiting : ∀ h, .handover h ∈ g.waiting ↔ .handover h ∈ f.waiting
  sent : g.sentFrame = f.sentFrame
  held : g.held = f.held
  epoch : g.tenureEpoch = f.tenureEpoch

theorem KeepsHandovers.refl (f : Feed) : KeepsHandovers f f :=
  ⟨fun _ => Iff.rfl, rfl, rfl, rfl⟩

theorem KeepsHandovers.trans (h : KeepsHandovers f g) (h' : KeepsHandovers g k) : KeepsHandovers f k :=
  ⟨fun x => (h'.waiting x).trans (h.waiting x), h'.sent.trans h.sent, h'.held.trans h.held, h'.epoch.trans h.epoch⟩

theorem keepsHandovers_join {fr : Frame} (hfr : ∀ h, fr ≠ .handover h) : KeepsHandovers f (f.join fr) := by
  have hmem (h : Handover) : Frame.handover h ≠ fr := (hfr h).symm
  rw [join_eq]
  refine ⟨fun h => ?_, rfl, rfl, rfl⟩
  dsimp only
  split
  · simp [hmem h]
  · exact Iff.rfl

theorem keepsHandovers_withdraw {p : Frame → Bool} (hheld : f.held = none) (hp : ∀ h, p (.handover h) = false) :
    KeepsHandovers f (f.withdraw p) := by
  refine ⟨fun h => ?_, withdraw_sent p f, ?_, ?_⟩
  · simp [withdraw_free p hheld, hp h]
  · rw [withdraw_free p hheld]
  · rw [withdraw_free p hheld]

theorem keepsHandovers_push (body : SegmentBody) (time : Clock) (f : Feed) : KeepsHandovers f (f.push body time) := by
  obtain ⟨hwaiting, -, hheld, -, -, -, hepoch, -⟩ := push_queue body time f
  exact ⟨fun h => by rw [hwaiting], push_sent body time f, hheld, hepoch⟩

theorem keepsHandovers_settle (boundary : Seq) (f : Feed) : KeepsHandovers f (f.settle boundary) := by
  by_cases hlast : ∃ older epoch old, f.waiting = older ++ [.settle epoch old]
  · obtain ⟨older, epoch, old, hwaiting⟩ := hlast
    rw [settle_rewrites boundary hwaiting]
    exact ⟨fun h => by simp [hwaiting], rfl, rfl, rfl⟩
  · rw [settle_joins boundary fun older epoch old h => hlast ⟨older, epoch, old, h⟩]
    refine ⟨fun h => ?_, rfl, rfl, rfl⟩
    dsimp only
    split <;> simp

theorem keepsHandovers_settleCarried (tail : List Record) (f : Feed) :
    KeepsHandovers f (f.settleCarried tail) := by
  unfold Feed.settleCarried
  split
  · exact keepsHandovers_settle _ f
  · exact .refl f

theorem keepsHandovers_lost (count : Byte) (time : Clock) (hheld : f.held = none) :
    KeepsHandovers f (f.lost count time) := by
  have hpush := keepsHandovers_push (.lost count) time f
  have hsettled : KeepsHandovers (f.push (.lost count) time)
      { f.push (.lost count) time with settled := (f.push (.lost count) time).nextSeq } :=
    ⟨fun _ => Iff.rfl, rfl, rfl, rfl⟩
  have hwithdraw := keepsHandovers_withdraw (p := Frame.isSettle) (hsettled.held.trans (hpush.held.trans hheld))
    fun _ => rfl
  exact ((hpush.trans hsettled).trans hwithdraw).trans (keepsHandovers_join (by simp))

theorem keepsHandovers_endReplay (hheld : f.held = none) : KeepsHandovers f f.endReplay := by
  have hcleared : KeepsHandovers f { f with cursor := none, gap := none } := ⟨fun _ => Iff.rfl, rfl, rfl, rfl⟩
  exact hcleared.trans (keepsHandovers_withdraw (p := Frame.isReplay) (hcleared.held.trans hheld) fun _ => rfl)

/-- A takeover of station `me` waits, is held or is in transmission (R125, R173). -/
def Feed.HoldsTakeover (me : Station) (f : Feed) : Prop :=
  ∃ h : Handover, h.successor = some me
    ∧ (.handover h ∈ f.waiting ∨ f.sentFrame = some (.handover h) ∨ f.held = some h)

theorem KeepsHandovers.holdsTakeover (h : KeepsHandovers f g) (me : Station) :
    g.HoldsTakeover me ↔ f.HoldsTakeover me := by
  simp only [Feed.HoldsTakeover, h.waiting, h.sent, h.held]

theorem isTakeover_iff (me : Station) (fr : Frame) :
    isTakeover me fr = true ↔ ∃ h : Handover, fr = .handover h ∧ h.successor = some me := by
  cases fr <;> simp [isTakeover]

theorem takeoverUnsent_iff (s : State) : takeoverUnsent s = true ↔ s.feed.HoldsTakeover s.station := by
  have hwaiting : s.feed.waiting.any (isTakeover s.station) = true ↔
      ∃ h : Handover, h.successor = some s.station ∧ .handover h ∈ s.feed.waiting := by
    simp only [List.any_eq_true, isTakeover_iff]
    constructor
    · rintro ⟨_, hmem, h, rfl, hs⟩
      exact ⟨h, hs, hmem⟩
    · rintro ⟨h, hs, hmem⟩
      exact ⟨.handover h, hmem, h, rfl, hs⟩
  have hsending : ((s.feed.sending.map fun x => isTakeover s.station x.frame).getD false) = true ↔
      ∃ h : Handover, h.successor = some s.station ∧ s.feed.sentFrame = some (.handover h) := by
    cases hx : s.feed.sending with
    | none => simp [Feed.sentFrame, hx]
    | some x => simp [Feed.sentFrame, hx, isTakeover_iff, and_comm]
  have hheld : ((s.feed.held.map fun h => h.successor == some s.station).getD false) = true ↔
      ∃ h : Handover, h.successor = some s.station ∧ s.feed.held = some h := by
    cases hx : s.feed.held with
    | none => simp
    | some x => simp
  rw [takeoverUnsent, Bool.or_eq_true, Bool.or_eq_true, hwaiting, hsending, hheld, ← exists_or, ← exists_or]
  simp only [← and_or_left, or_assoc, Feed.HoldsTakeover]

theorem holdsTakeover_iff (me : Station) (hheld : f.held = none) : f.HoldsTakeover me ↔
    ∃ h : Handover, h.successor = some me
      ∧ (.handover h ∈ f.waiting ∨ ∃ x, f.sending = some x ∧ x.frame = .handover h) := by
  simp only [Feed.HoldsTakeover, Feed.sentFrame, Option.map_eq_some_iff, hheld, reduceCtorEq, or_false]

end Handovers

section FloorChanges
variable {s : State}

theorem offer_eq (place : Feed → Feed) (hmute : s.floor.state ≠ .mute) : offer place s = s.setFeed (place s.feed) :=
  if_neg (by simpa using hmute)

theorem offerHandover_eq (h : Handover) (hmute : s.floor.state ≠ .mute) : offerHandover h s =
    (s.setFloor { s.floor with lastOffered := some h.offered }).setFeed (s.feed.offerHandover h) :=
  offer_eq (s := s.setFloor _) _ hmute

/-- The claim window once CLAIMING, a vacant view and the end of start-up integration hold together (R166). -/
def Floor.windowLoaded (integrated : Bool) (f : Floor) : Timer :=
  if f.view.live = none ∧ integrated = true ∧ f.claimTimer = none then some f.claimWindow else f.claimTimer

theorem loadClaimWindow_eq (hclaiming : s.floor.state = .claiming) : loadClaimWindow s =
    s.setFloor { s.floor with claimTimer := s.floor.windowLoaded s.line.integrated } := by
  unfold loadClaimWindow Floor.windowLoaded
  by_cases h : s.floor.view.live = none ∧ s.line.integrated = true ∧ s.floor.claimTimer = none
  · rw [if_pos h, if_pos (by simp [hclaiming, h])]
  · rw [if_neg h, if_neg (by simpa [hclaiming, and_assoc] using h)]
    rfl

theorem enterClaiming_eq (origin : Origin) (s : State) : enterClaiming origin s =
    (s.setFloor { s.floor with
      state := .claiming, origin := some origin, presenceTimer := some s.floor.presencePeriod
      claimTimer := s.floor.windowLoaded s.line.integrated }).setFeed
      (s.feed.offerClaim (.claim s.floor.view.epoch false)) := by
  rw [enterClaiming, offerClaim, offer_eq _ (by simp), loadClaimWindow_eq (by rfl)]
  rfl

theorem leaveClaiming_eq (s : State) : leaveClaiming s =
    (s.setFloor { s.floor with
      state := .standby, origin := none, claimTimer := none
      presenceTimer := some (4 * s.floor.presencePeriod) }).setFeed
      (s.feed.offerClaim (.claim s.floor.view.epoch true)) := by
  rw [leaveClaiming, offerClaim, offer_eq _ (by simp)]
  rfl

theorem enterLive_eq (epoch : Epoch) (next : Seq) (s : State) : enterLive epoch next s =
    ((s.setFloor { s.floor with
      state := .live
      view := { live := some s.station, epoch := some epoch, nextSeq := some next, boundary := some next }
      claimant := none, origin := none, absenceTimer := none, claimTimer := none
      presenceTimer := some s.floor.presencePeriod }).setFeed (s.feed.openTenure epoch next)).setEngine
      { s.engine with settleOnEntry := true } := rfl

/-- The armed flag once the view's live station is `live`: set again when a vacant view gets one (R164). -/
def Floor.armedFor (live : Option Station) (f : Floor) : Bool :=
  if f.view.live = none ∧ live ≠ none then f.autoClaim else f.armed

theorem moveView_eq (view : View) (s : State) : moveView view s = s.setFloor { s.floor with
    view := view, armed := s.floor.armedFor view.live
    absenceTimer := absenceLoad s.station s.floor.absenceTimeout view.live } := by
  simp [moveView, Floor.armedFor, Option.isSome_iff_ne_none]

theorem leaveTenure_eq (s : State) : leaveTenure s =
    ((s.setFloor { s.floor with
      state := .standby, claimant := none, keptBack := none
      presenceTimer := some (4 * s.floor.presencePeriod) }).setFeed s.feed.closeTenure).setEngine
      s.engine.leaveTenure := rfl

theorem enterHanding_eq (s : State) : enterHanding s =
    ((s.setFloor { s.floor with state := .handing }).setFeed s.feed.endReplay).setEngine
      { s.engine with fullSettle := true } := rfl

/-- Between steps a settle on entry is made at once; a step in flight leaves it due (R44, R64). -/
theorem boundaryIfBetween_entry (hentry : s.engine.settleOnEntry = true) (hfull : s.engine.fullSettle = false)
    (hmute : s.floor.state ≠ .mute) : boundaryIfBetween s = s.setEngine
      (if s.engine.step = none then { s.engine with tail := [], settleOnEntry := false } else s.engine) := by
  by_cases hstep : s.engine.step = none
  · simp [boundaryIfBetween, boundaryWork, settleMute, fullSettle, settleOnEntry_eq, hstep, hentry, hfull, hmute]
  · simp [boundaryIfBetween, hstep]

end FloorChanges

section FloorStates
variable {s : State}

theorem floorItem_standby (h : s.floor.state = .standby) : floorItem s = enterClaiming .reporter s := by
  simp [floorItem, h]

theorem floorItem_claiming (h : s.floor.state = .claiming) :
    floorItem s = leaveClaiming (s.setFloor { s.floor with armed := false }) := by
  simp [floorItem, h]

theorem floorItem_live (h : s.floor.state = .live) : floorItem s = enterHanding s := by
  simp [floorItem, h]

theorem floorItem_handing (h : s.floor.state = .handing) : floorItem s = requestPulse s := by
  simp [floorItem, h]

theorem floorItem_mute (h : s.floor.state = .mute) : floorItem s = s := by
  simp [floorItem, h]

end FloorStates

section Takeover
variable {s : State}

theorem expireClaimWindow_due (ht : s.floor.claimTimer = some 0) (hclaiming : s.floor.state = .claiming) :
    expireClaimWindow s = boundaryIfBetween (takeFloor s) :=
  if_pos (by simp [ht, hclaiming, Timer.due])

/-- The takeover is offered before the tenure opens, so that it stands in the queue of the new tenure (R152, R169). -/
theorem takeFloor_eq {h : Handover} (hframe : takeoverFrame s = h) (hmute : s.floor.state ≠ .mute) : takeFloor s =
    ((s.setFloor { s.floor with
      state := .live
      view := { live := some s.station, epoch := some h.epoch, nextSeq := some h.nextSeq, boundary := some h.nextSeq }
      lastOffered := some h.offered
      armed := s.floor.armedFor (some s.station)
      claimant := none, origin := none, absenceTimer := none, claimTimer := none
      presenceTimer := some s.floor.presencePeriod }).setFeed
        ((s.feed.offerHandover h).openTenure h.epoch h.nextSeq)).setEngine
      { s.engine with settleOnEntry := true } := by
  rw [takeFloor, hframe]
  dsimp only
  rw [offerHandover_eq _ hmute, moveView_eq, enterLive_eq]
  rfl

end Takeover

section FullSettles
variable {s : State}

theorem feedOpen_handing (h : s.floor.state = .handing) : feedOpen s = true := by
  simp [feedOpen, h, FloorState.inTenure]

theorem settleToEnd_open (hopen : feedOpen s = true) : settleToEnd s =
    (settleLocal s).setFeed (s.feed.settleCarried s.engine.tail) := by
  have hopen' : feedOpen (settleLocal s) = true := hopen
  unfold settleToEnd Feed.settleCarried handSettle
  cases carriesSeq s.engine.tail with
  | true => simp [hopen']
  | false => rfl

theorem settleToEnd_closed (hclosed : s.floor.state.inTenure = false) : settleToEnd s = settleLocal s := by
  have hclosed' : feedOpen (settleLocal s) = false := hclosed
  simp [settleToEnd, handSettle, hclosed']

/-- In LIVE mode a gap count is reported also on the way to HANDING, where the Feed Unit still takes requests (R59, R65). -/
theorem reportGap_open {gap : Nat} (time : Clock) (hgap : gap ≠ 0) (hmode : s.engine.mode = .live)
    (hopen : feedOpen s = true) : reportGap gap time s =
      (settleLocal s).setFeed (s.feed.lost (BitVec.ofNat 8 gap) (time + s.floor.lineOffset)) := by
  have hopen' : feedOpen (settleLocal s) = true := hopen
  simp [reportGap, hgap, hmode, handLost, hopen', toLineTime]

/-- The boundary at which a full settle in HANDING is made and answered by the hand-over (R44, R65, R173). -/
theorem boundaryWork_handing (hentry : s.engine.settleOnEntry = false) (hfull : s.engine.fullSettle = true)
    (hhanding : s.floor.state = .handing) : boundaryWork s =
      buildHandover ((s.setEngine { s.engine with tail := [], fullSettle := false }).setFeed
        (s.feed.settleCarried s.engine.tail)) := by
  have hsettled : settleToEnd (s.setEngine { s.engine with fullSettle := false }) =
      (s.setEngine { s.engine with tail := [], fullSettle := false }).setFeed
        (s.feed.settleCarried s.engine.tail) := settleToEnd_open (feedOpen_handing hhanding)
  have hwork : settleMute (fullSettle s) =
      settleMute (buildHandover (settleToEnd (s.setEngine { s.engine with fullSettle := false }))) := by
    simp [fullSettle, hfull, hhanding]
  rw [boundaryWork, settleOnEntry_eq, if_neg (by simp [hentry]), hwork, hsettled, buildHandover]
  split <;> simp [settleMute, hhanding]

end FullSettles

section HandingFeeds
variable {f : Feed}

theorem endReplay_free (hheld : f.held = none) : f.endReplay = { f with
    cursor := none, gap := none, waiting := f.waiting.filter (fun x => !x.isReplay)
    sending := f.sending.map fun x => if x.frame.isReplay then { x with withdrawn := true } else x } :=
  withdraw_free (f := { f with cursor := none, gap := none }) Frame.isReplay hheld

theorem settleCarried_next (tail : List Record) (f : Feed) : (f.settleCarried tail).nextSeq = f.nextSeq := by
  unfold Feed.settleCarried
  split
  · exact settle_next _ f
  · rfl

theorem settleCarried_sending (tail : List Record) (f : Feed) : (f.settleCarried tail).sending = f.sending := by
  unfold Feed.settleCarried
  split
  · obtain ⟨-, -, -, hsending, -⟩ := settle_queueStep f.nextSeq f
    exact hsending
  · rfl

theorem endReplay_next (f : Feed) : f.endReplay.nextSeq = f.nextSeq := by
  obtain ⟨hnext, -⟩ := withdraw_fields Frame.isReplay { f with cursor := none, gap := none }
  exact hnext

/-- What the feed has been told when a FLOOR item has moved the station to HANDING: the end of replay, the gap count and
the settle of the tail (R59, R65, R153). -/
def handingFeed (gap : Nat) (time : Clock) (tail : List Record) (f : Feed) : Feed :=
  if gap ≠ 0 then f.endReplay.lost (BitVec.ofNat 8 gap) time else f.endReplay.settleCarried tail

variable (gap : Nat) (time : Clock) (tail : List Record)

theorem keepsHandovers_handingFeed (hheld : f.held = none) : KeepsHandovers f (handingFeed gap time tail f) := by
  have hended := keepsHandovers_endReplay hheld
  unfold handingFeed
  split
  · exact hended.trans (keepsHandovers_lost _ time (hended.held.trans hheld))
  · exact hended.trans (keepsHandovers_settleCarried tail _)

theorem handingFeed_next : (handingFeed gap time tail f).nextSeq = if gap = 0 then f.nextSeq else f.nextSeq + 1 := by
  unfold handingFeed
  by_cases hgap : gap = 0
  · rw [if_neg (not_not_intro hgap), if_pos hgap, settleCarried_next, endReplay_next]
  · rw [if_pos hgap, if_neg hgap, Feed.lost, appendSettling_next, endReplay_next]

end HandingFeeds

section HandoverBuilt
variable {s : State}

/-- The hand-over names the tenure's next epoch, the claimant and N as the feed has them now (R173). -/
theorem handoverFrame_eq {f : Feed} {next : Seq} (hkept : KeepsHandovers f s.feed) (hnext : s.feed.nextSeq = next) :
    handoverFrame s =
      { epoch := f.epoch + 1, successor := s.floor.claimant, nextSeq := next
        lineTime := s.clock + s.floor.lineOffset } := by
  rw [handoverFrame, Feed.epoch, hkept.epoch, hnext]
  rfl

theorem buildHandover_keptBack (h : s.feed.HoldsTakeover s.station) : buildHandover s =
    s.setFloor { s.floor with keptBack := some (handoverFrame s) } :=
  if_pos ((takeoverUnsent_iff s).mpr h)

theorem buildHandover_offered (h : ¬s.feed.HoldsTakeover s.station) (hmute : s.floor.state ≠ .mute) :
    buildHandover s = (s.setFloor { s.floor with lastOffered := some (handoverFrame s).offered }).setFeed
      (s.feed.offerHandover (handoverFrame s)) := by
  rw [buildHandover, if_neg fun hunsent => h ((takeoverUnsent_iff s).mp hunsent), offerHandover_eq _ hmute]

/-- Where the hand-over goes when the feed has come to the boundary from `f` with its HANDOVERs unmoved: to the queue, or
kept back behind a takeover of this station that is still unsent (R173). -/
theorem buildHandover_fields {f : Feed} {next : Seq} {unsent : Prop} (hkept : KeepsHandovers f s.feed)
    (hnext : s.feed.nextSeq = next) (hunsent : f.HoldsTakeover s.station ↔ unsent) (hmute : s.floor.state ≠ .mute) :
    let handover : Handover :=
      { epoch := f.epoch + 1, successor := s.floor.claimant, nextSeq := next
        lineTime := s.clock + s.floor.lineOffset }
    (¬unsent → (buildHandover s).feed = s.feed.offerHandover handover
        ∧ (buildHandover s).floor = { s.floor with lastOffered := some handover.offered })
      ∧ (unsent → (buildHandover s).feed = s.feed
        ∧ (buildHandover s).floor = { s.floor with keptBack := some handover }) := by
  have hholds : s.feed.HoldsTakeover s.station ↔ unsent := (hkept.holdsTakeover s.station).trans hunsent
  rw [← handoverFrame_eq hkept hnext]
  refine ⟨fun hsent => ?_, fun hwaits => ?_⟩
  · rw [buildHandover_offered (fun h => hsent (hholds.mp h)) hmute]
    exact ⟨rfl, rfl⟩
  · rw [buildHandover_keptBack (hholds.mpr hwaits)]
    exact ⟨rfl, rfl⟩

end HandoverBuilt

section FloorItems

variable {s : State} {item : Item} {rest : List Item} (hended : s.startup.ended = true)
  (hstep : s.engine.step = none) (hreplay : s.engine.replay = []) (hitems : s.intake.items = item :: rest)
  (hentry : s.engine.settleOnEntry = false) (hfull : s.engine.fullSettle = false)
  (hroom : s.floor.state.inTenure = true → 3 ≤ s.feed.free) (hkind : item.kind = .floor)
include hended hstep hreplay hitems hroom hkind

/-- A step that takes a FLOOR item works by the floor state, and its gap count follows (R59, R60). -/
theorem beginStep_floor : beginStep s = endStep (reportGap item.gap item.time (floorItem
    ((s.setIntake { s.intake with items := rest }).setEngine { s.engine with
      settleTimer := none, mode := if s.floor.state = .live then .live else .shadow }))) := by
  rw [beginStep_takes hended hstep hreplay hitems hroom, takeItem_floor hkind, itemTaken_eq,
    take_button s.intake rest (by simp [hkind])]
  rfl

include hentry hfull

theorem beginStep_floor_standby (hstandby : s.floor.state = .standby) : beginStep s =
    (((s.setIntake { s.intake with items := rest }).setEngine { s.engine with
      mode := .shadow, settleTimer := some s.engine.settleIdle }).setFloor { s.floor with
        state := .claiming, origin := some .reporter, presenceTimer := some s.floor.presencePeriod
        claimTimer := s.floor.windowLoaded s.line.integrated }).setFeed
      (s.feed.offerClaim (.claim s.floor.view.epoch false)) := by
  rw [beginStep_floor hended hstep hreplay hitems hroom hkind, if_neg (by simp [hstandby]),
    floorItem_standby (by exact hstandby), enterClaiming_eq, reportGap_shadow (by rfl),
    endStep_between (by exact hfull) (by exact hentry) (by exact hstep) (by simp)]
  rfl

theorem beginStep_floor_claiming (hclaiming : s.floor.state = .claiming) : beginStep s =
    (((s.setIntake { s.intake with items := rest }).setEngine { s.engine with
      mode := .shadow, settleTimer := some s.engine.settleIdle }).setFloor { s.floor with
        state := .standby, origin := none, claimTimer := none, armed := false
        presenceTimer := some (4 * s.floor.presencePeriod) }).setFeed
      (s.feed.offerClaim (.claim s.floor.view.epoch true)) := by
  rw [beginStep_floor hended hstep hreplay hitems hroom hkind, if_neg (by simp [hclaiming]),
    floorItem_claiming (by exact hclaiming), leaveClaiming_eq, reportGap_shadow (by rfl),
    endStep_between (by exact hfull) (by exact hentry) (by exact hstep) (by simp)]
  rfl

theorem beginStep_floor_handing (hhanding : s.floor.state = .handing) : beginStep s =
    ((s.setIntake { s.intake with items := rest }).setEngine { s.engine with
      mode := .shadow, settleTimer := some s.engine.settleIdle }).setAttnTimer (some 250) := by
  rw [beginStep_floor hended hstep hreplay hitems hroom hkind, if_neg (by simp [hhanding]),
    floorItem_handing (by exact hhanding), reportGap_shadow (by rfl),
    endStep_between (by exact hfull) (by exact hentry) (by exact hstep) (by simp [hhanding])]
  rfl

theorem beginStep_floor_mute (hmute : s.floor.state = .mute) : beginStep s =
    (s.setIntake { s.intake with items := rest }).setEngine { s.engine with
      tail := [], mode := .shadow, settleTimer := some s.engine.settleIdle } := by
  rw [beginStep_floor hended hstep hreplay hitems hroom hkind, if_neg (by simp [hmute]),
    floorItem_mute (by exact hmute), reportGap_shadow (by rfl), endStep_unsettled (by exact hfull) (by exact hentry),
    if_pos (by exact hmute), ← hstep]
  rfl

theorem beginStep_floor_live (hlive : s.floor.state = .live) : beginStep s =
    buildHandover ((((s.setIntake { s.intake with items := rest }).setEngine { s.engine with
      tail := [], mode := .live, settleTimer := some s.engine.settleIdle, fullSettle := false }).setFloor
        { s.floor with state := .handing }).setFeed
      (handingFeed item.gap (item.time + s.floor.lineOffset) s.engine.tail s.feed)) := by
  rw [beginStep_floor hended hstep hreplay hitems hroom hkind, if_pos hlive, floorItem_live (by exact hlive),
    enterHanding_eq, handingFeed]
  by_cases hgap : item.gap = 0
  · rw [hgap, reportGap_zero, endStep, boundaryWork_handing (by exact hentry) rfl rfl, if_neg (by simp), ← hstep,
      ← hfull]
    dsimp only [State.setEngine, State.setFeed, State.setFloor, State.setIntake]
  · rw [reportGap_open _ hgap rfl rfl, endStep, boundaryWork_handing (by exact hentry) rfl rfl, if_pos hgap,
      ← hstep, ← hfull]
    dsimp only [State.setEngine, State.setFeed, State.setFloor, State.setIntake]
    rfl

end FloorItems

section SettleIdle
variable {s : State} (ht : s.engine.settleTimer = some 0) (hstep : s.engine.step = none)
  (hentry : s.engine.settleOnEntry = false) (hfull : s.engine.fullSettle = false)
include ht hstep

theorem expireSettleIdle_due : expireSettleIdle s =
    (boundaryWork (pauseReport (settleToEnd s))).setEngine
      { (boundaryWork (pauseReport (settleToEnd s))).engine with
        settleTimer := some (boundaryWork (pauseReport (settleToEnd s))).engine.settleIdle } :=
  if_pos (by simp [ht, hstep, Timer.due])

include hentry hfull

/-- Off the floor the settle idle expiry settles the tail with no request, and the pause it reports moves nothing. -/
theorem expireSettleIdle_closed (hclosed : s.floor.state.inTenure = false) : expireSettleIdle s =
    s.setEngine { s.engine with tail := [], settleTimer := some s.engine.settleIdle } := by
  have hlive : s.floor.state ≠ .live := fun h => by simp [h, FloorState.inTenure] at hclosed
  have hpause : pauseReport (settleLocal s) = settleLocal s := if_neg (by simp [hlive])
  have hwork : boundaryWork (settleLocal s) = settleLocal s := by
    by_cases hmute : s.floor.state = .mute
    · exact boundaryWork_mute hfull hmute hentry
    · exact boundaryWork_quiet hentry hfull hmute
  rw [expireSettleIdle_due ht hstep, settleToEnd_closed hclosed, hpause, hwork]
  rfl

/-- On the floor, with no claimant for the pause to hand over to. -/
theorem expireSettleIdle_open (hopen : s.floor.state.inTenure = true)
    (hclaimant : s.floor.state = .live → s.floor.claimant = none) : expireSettleIdle s =
      (s.setEngine { s.engine with tail := [], settleTimer := some s.engine.settleIdle }).setFeed
        (s.feed.settleCarried s.engine.tail) := by
  have hmute : s.floor.state ≠ .mute := fun h => by simp [h, FloorState.inTenure] at hopen
  have hpause (f : Feed) : pauseReport ((settleLocal s).setFeed f) = (settleLocal s).setFeed f :=
    if_neg (by simpa using hclaimant)
  have hwork (f : Feed) : boundaryWork ((settleLocal s).setFeed f) = (settleLocal s).setFeed f :=
    boundaryWork_quiet hentry hfull hmute
  rw [expireSettleIdle_due ht hstep, settleToEnd_open hopen, hpause, hwork]
  rfl

/-- In LIVE with a claimant pending the pause moves the station to HANDING, behind the settle (R57, R65, R171). -/
theorem expireSettleIdle_pause (hlive : s.floor.state = .live) (hclaimant : s.floor.claimant.isSome = true) :
    expireSettleIdle s =
      let built := buildHandover (((s.setEngine { s.engine with tail := [] }).setFloor
        { s.floor with state := .handing }).setFeed (s.feed.settleCarried s.engine.tail).endReplay)
      built.setEngine { s.engine with tail := [], settleTimer := some s.engine.settleIdle } := by
  have hpause (f : Feed) : pauseReport ((settleLocal s).setFeed f) = enterHanding ((settleLocal s).setFeed f) :=
    if_pos (by simp [hlive, hclaimant])
  have hwork (f : Feed) : boundaryWork (enterHanding ((settleLocal s).setFeed f)) =
      buildHandover (((s.setEngine { s.engine with tail := [] }).setFloor
        { s.floor with state := .handing }).setFeed f.endReplay) := by
    rw [enterHanding_eq, boundaryWork_handing (by exact hentry) rfl rfl, ← hfull]
    rfl
  rw [expireSettleIdle_due ht hstep, settleToEnd_open (feedOpen_live hlive), hpause, hwork]
  simp

end SettleIdle

end Sys2Proof.Machine
end

section
/-! SUPPORT. A frame heard whole (R105, R108, R121 to R130): its characters pass the three checks, and its fields are read
back as they were sent. -/

namespace Sys2Proof.Machine

section Fields

theorem join_be16 (x : BitVec 16) : x.extractLsb' 8 8 ++ x.extractLsb' 0 8 = x := by
  rw [BitVec.extractLsb'_append_extractLsb'_eq_extractLsb' (by rfl), BitVec.extractLsb'_eq_self]

theorem join_be32 (x : BitVec 32) :
    x.extractLsb' 24 8 ++ x.extractLsb' 16 8 ++ x.extractLsb' 8 8 ++ x.extractLsb' 0 8 = x := by
  rw [BitVec.extractLsb'_append_extractLsb'_eq_extractLsb' (by rfl),
    BitVec.extractLsb'_append_extractLsb'_eq_extractLsb' (by rfl),
    BitVec.extractLsb'_append_extractLsb'_eq_extractLsb' (by rfl), BitVec.extractLsb'_eq_self]

theorem stationOf_stationByte (station : Option Station) : stationOf (stationByte station) = some station := by
  cases station with
  | none => rfl
  | some x => revert x; decide

theorem roleOf_roleByte (role : Role) : roleOf (roleByte role) = some role := by
  cases role <;> rfl

theorem copyOf_segmentFlags (copy : Option Bool) (degraded : Bool) : copyOf (segmentFlags copy degraded) = copy := by
  revert copy degraded
  decide

theorem segmentFlags_degraded (copy : Option Bool) (degraded : Bool) :
    (segmentFlags copy degraded).getLsbD 2 = degraded := by
  revert copy degraded
  decide

theorem claimFlags (withdraw noEpoch : Bool) :
    (flagBit 0 withdraw ||| flagBit 1 noEpoch).getLsbD 0 = withdraw
      ∧ (flagBit 0 withdraw ||| flagBit 1 noEpoch).getLsbD 1 = noEpoch := by
  revert withdraw noEpoch
  decide

/-- The five flags of a PRESENCE (R129). -/
def presenceFlags (down overflow defaulted stuck noView : Bool) : Byte :=
  flagBit 0 down ||| flagBit 1 overflow ||| flagBit 2 defaulted ||| flagBit 3 stuck ||| flagBit 4 noView

theorem presenceFlags_getLsbD (down overflow defaulted stuck noView : Bool) :
    let flags := presenceFlags down overflow defaulted stuck noView
    flags.getLsbD 0 = down ∧ flags.getLsbD 1 = overflow ∧ flags.getLsbD 2 = defaulted ∧ flags.getLsbD 3 = stuck
      ∧ flags.getLsbD 4 = noView := by
  revert down overflow defaulted stuck noView
  decide

theorem leadKind_leadByte {kind : Nat} (station : Station) (h : kind ≤ 9) : leadKind (leadByte kind station) = kind := by
  have hlt : kind * 16 + station.val < 2 ^ 8 := by omega
  rw [leadKind, leadByte, BitVec.toNat_ofNat, Nat.mod_eq_of_lt hlt]
  omega

theorem leadStation_leadByte {kind : Nat} (station : Station) (h : kind ≤ 9) :
    leadStation (leadByte kind station) = station := by
  have hlt : kind * 16 + station.val < 2 ^ 8 := by omega
  have hvalue : (leadByte kind station).toNat = kind * 16 + station.val := by
    rw [leadByte, BitVec.toNat_ofNat, Nat.mod_eq_of_lt hlt]
  refine Fin.ext ?_
  show (leadByte kind station).toNat % 16 = station.val
  rw [hvalue]
  omega

end Fields

section Bodies

theorem kind_le (f : Frame) : f.kind ≤ 9 := by
  cases f with
  | segment epoch copy seg =>
    rw [Frame.kind]
    split <;> exact Nat.le_of_ble_eq_true rfl
  | _ => exact Nat.le_of_ble_eq_true rfl

/-- A frame within its layout has a body of a length that suits its kind, which a length character can announce. -/
theorem body_length {f : Frame} (hf : FrameSound f) :
    bodyLengthSuits f.kind f.body.length = true ∧ f.body.length ≤ 60 := by
  cases f with
  | segment epoch copy seg =>
    obtain ⟨seq, body, time⟩ := seg
    cases body with
    | text chars degraded =>
      have hlength : (Frame.segment epoch copy ⟨seq, .text chars degraded, time⟩).body.length = 8 + chars.length := by
        simp [Frame.body, be16, be32]
        omega
      have hchars : chars.length ≤ 51 := hf
      rw [hlength]
      exact ⟨by simp [Frame.kind, bodyLengthSuits]; omega, by omega⟩
    | mark number => exact ⟨rfl, Nat.le_of_ble_eq_true rfl⟩
    | lost count => exact ⟨rfl, Nat.le_of_ble_eq_true rfl⟩
  | presence fields =>
    cases fields with
    | none => exact hf.elim
    | some p => exact ⟨rfl, Nat.le_of_ble_eq_true rfl⟩
  | _ => exact ⟨rfl, Nat.le_of_ble_eq_true rfl⟩

theorem parse_handover (h : Handover) : parseFrame 0 (Frame.handover h).body = some (.handover h) := by
  show (stationOf (stationByte h.successor)).map _ = _
  rw [stationOf_stationByte]
  simp only [Option.map_some, join_be16, join_be32]

theorem parse_claim (epoch : Option Epoch) (withdraw : Bool) :
    parseFrame 1 (Frame.claim epoch withdraw).body = some (.claim epoch withdraw) := by
  obtain ⟨hwithdraw, hepoch⟩ := claimFlags withdraw epoch.isNone
  show some (Frame.claim (if (flagBit 0 withdraw ||| flagBit 1 epoch.isNone).getLsbD 1 then none else some (epoch.getD 0))
    ((flagBit 0 withdraw ||| flagBit 1 epoch.isNone).getLsbD 0)) = _
  rw [hwithdraw, hepoch]
  cases epoch <;> rfl

theorem parse_segment (epoch : Epoch) (copy : Option Bool) (seg : Segment) (hf : FrameSound (.segment epoch copy seg)) :
    parseFrame (Frame.segment epoch copy seg).kind (Frame.segment epoch copy seg).body =
      some (.segment epoch copy seg) := by
  obtain ⟨seq, body, time⟩ := seg
  cases body with
  | text chars degraded =>
    show some (segmentOf _ _ _ (segmentFlags copy degraded) (.text chars ((segmentFlags copy degraded).getLsbD 2)) _ _ _ _)
      = _
    rw [segmentOf, join_be16, join_be32, copyOf_segmentFlags, segmentFlags_degraded]
  | mark number =>
    show some (segmentOf _ _ _ (segmentFlags copy false) (.mark (_ ++ _)) _ _ _ _) = _
    rw [segmentOf, join_be16, join_be16, join_be32, copyOf_segmentFlags]
  | lost count =>
    have hcount : count ≠ 0 := hf
    show (if count = 0 then none else some (segmentOf _ _ _ (segmentFlags copy false) (.lost count) _ _ _ _)) = _
    rw [if_neg hcount, segmentOf, join_be16, join_be32, copyOf_segmentFlags]

theorem parse_presence (p : Presence) (hf : p.faultEntries.toNat ≤ 8) :
    parseFrame 7 (presenceBody p) = some (.presence (some p)) := by
  obtain ⟨hdown, hoverflow, hdefaulted, hstuck, hview⟩ :=
    presenceFlags_getLsbD p.down p.overflow p.defaulted p.stuck p.reach.isNone
  unfold presenceFlags at *
  obtain ⟨role, reach, lineTime, lost, lineErrors, refusals, faultEntries, down, overflow, defaulted, stuck⟩ := p
  dsimp only at *
  simp only [presenceBody, be16, be32, List.cons_append, List.nil_append, parseFrame, roleOf_roleByte,
    if_neg (Nat.not_lt.mpr hf), hdown, hoverflow, hdefaulted, hstuck, hview, join_be16, join_be32]
  cases reach <;> rfl

/-- The fields of a frame within its layout are read back as they were sent. -/
theorem parse_body {f : Frame} (hf : FrameSound f) : parseFrame f.kind f.body = some f := by
  cases f with
  | handover h => exact parse_handover h
  | claim epoch withdraw => exact parse_claim epoch withdraw
  | cut epoch q =>
    show some (Frame.cut epoch (_ ++ _)) = _
    rw [join_be16]
  | settle epoch b =>
    show some (Frame.settle epoch (_ ++ _)) = _
    rw [join_be16]
  | segment epoch copy seg => exact parse_segment epoch copy seg hf
  | presence fields =>
    cases fields with
    | none => exact hf.elim
    | some p => exact parse_presence p hf
  | rewind q =>
    show some (Frame.rewind (_ ++ _)) = _
    rw [join_be16]
  | gap epoch fromSeq toSeq =>
    have hnewer : seqNewer toSeq fromSeq = true := hf
    show (if seqNewer (_ ++ _) (_ ++ _) then some (Frame.gap epoch (_ ++ _) (_ ++ _)) else none) = _
    rw [join_be16, join_be16, if_pos hnewer]

end Bodies

section Characters

/-- The characters after the lead: length, body and CRC (R121). -/
def Frame.afterLead (f : Frame) : List Byte :=
  let counted := BitVec.ofNat 8 f.body.length :: f.body
  counted ++ be16 (crc counted)

theorem chars_eq (sender : Station) (f : Frame) : f.chars sender = leadByte f.kind sender :: f.afterLead := rfl

theorem length_afterLead (f : Frame) : f.afterLead.length = f.body.length + 3 := by
  simp [Frame.afterLead, be16]

theorem frameDone_chars {f : Frame} (sender : Station) (hf : FrameSound f) : frameDone (f.chars sender) = true := by
  obtain ⟨-, hlength⟩ := body_length hf
  have hannounced : (BitVec.ofNat 8 f.body.length).toNat = f.body.length := by
    rw [BitVec.toNat_ofNat, Nat.mod_eq_of_lt (by omega)]
  show ((f.body ++ be16 _).length == (BitVec.ofNat 8 f.body.length).toNat + 2) = true
  rw [hannounced]
  simp [be16]

theorem frameBody_afterLead (f : Frame) : frameBody f.afterLead = f.body := by
  rw [frameBody, length_afterLead]
  simp [Frame.afterLead]

theorem frameValid_chars {f : Frame} (sender : Station) (hf : FrameSound f) :
    frameValid (leadByte f.kind sender) f.afterLead = true := by
  obtain ⟨hsuits, -⟩ := body_length hf
  have hcounted : f.afterLead.length - 2 = (BitVec.ofNat 8 f.body.length :: f.body).length := by
    rw [length_afterLead, List.length_cons]
    omega
  rw [frameValid, hcounted]
  simp [Frame.afterLead, leadKind_leadByte sender (kind_le f), kind_le f, hsuits]

end Characters

section Heard
variable {s : State}

/-- The state in which a frame received whole is handed on: the line is idle and has no characters (R105). -/
def State.lineQuiet (s : State) : State :=
  s.setLine { s.line with state := .idle, received := [] }

theorem completeFrame_heard {f : Frame} {sender : Station} (hf : FrameSound f) (hstate : s.line.state = .receiving)
    (hbits : s.line.charBits = []) (hreceived : s.line.received = f.chars sender) (hsender : sender ≠ s.station) :
    completeFrame s = boundaryIfBetween (feedTakes f (floorTakes sender f s.lineQuiet)) := by
  have hturn : (s.line.state == .receiving && s.line.charBits.isEmpty && frameDone s.line.received) = true := by
    rw [hreceived, frameDone_chars sender hf, hstate, hbits]
    rfl
  have hhanded : handOn (leadByte f.kind sender) f.afterLead s.lineQuiet = feedTakes f (floorTakes sender f s.lineQuiet) := by
    have hstation : s.lineQuiet.station = s.station := rfl
    rw [handOn, leadStation_leadByte sender (kind_le f), hstation, if_neg (fun h => hsender h.2),
      leadKind_leadByte sender (kind_le f), frameBody_afterLead, parse_body hf]
  rw [completeFrame, if_pos hturn]
  dsimp only
  rw [hreceived, chars_eq]
  dsimp only
  rw [if_pos (frameValid_chars sender hf)]
  exact congrArg boundaryIfBetween hhanded

theorem floorTakes_tenure {f : Frame} {epoch : Option Epoch} (sender : Station) (hmute : s.floor.state ≠ .mute)
    (htenure : f.tenure = some epoch) : floorTakes sender f s = takeTenureFrame sender epoch f s := by
  unfold floorTakes
  rw [if_neg (by simpa using hmute)]
  cases f with
  | claim _ _ => cases htenure
  | _ => simp only [htenure]

theorem feedTakes_tenure {f : Frame} {epoch : Option Epoch} (s : State) (htenure : f.tenure = some epoch) :
    feedTakes f s = s := by
  cases f with
  | rewind _ => cases htenure
  | _ => rfl

/-- A tenure frame of another station is judged against the view (section 9.2). -/
theorem completeFrame_tenure {f : Frame} {sender : Station} {epoch : Option Epoch} (hf : FrameSound f)
    (hstate : s.line.state = .receiving) (hbits : s.line.charBits = []) (hreceived : s.line.received = f.chars sender)
    (hsender : sender ≠ s.station) (hmute : s.floor.state ≠ .mute) (htenure : f.tenure = some epoch) :
    completeFrame s = boundaryIfBetween (takeTenureFrame sender epoch f s.lineQuiet) := by
  rw [completeFrame_heard hf hstate hbits hreceived hsender, feedTakes_tenure _ htenure,
    floorTakes_tenure sender (s := s.lineQuiet) hmute htenure]

end Heard

end Sys2Proof.Machine
end

section
/-! SUPPORT. A tenure frame of another station taken in (R157 to R167, R172): its verdict, the view it leaves, and what a
claiming station and a station in a tenure do then. -/

namespace Sys2Proof.Machine

section Verdicts
variable {view : View} {me : Station} {epoch : Epoch} {candidate : Option Station}

theorem verdict_newer (h : ∀ e, view.epoch = some e → epochNewer epoch e = true) :
    verdict me view (some epoch) candidate = .adopted := by
  have hage : epochAge (some epoch) view.epoch = .newer := by
    cases he : view.epoch with
    | none => rfl
    | some e =>
      have hnewer := h e he
      have hne : epoch ≠ e := by
        rintro rfl
        simp [epochNewer] at hnewer
      rw [epochAge, if_neg hne, if_pos hnewer]
  rw [verdict, hage]

theorem verdict_same (h : view.epoch = some epoch) :
    verdict me view (some epoch) candidate = sameEpochVerdict me view.live candidate := by
  have hage : epochAge (some epoch) view.epoch = .same := by rw [h, epochAge, if_pos rfl]
  rw [verdict, hage]

theorem verdict_older {e : Epoch} (h : view.epoch = some e) (hne : epoch ≠ e) (holder : epochNewer epoch e = false) :
    verdict me view (some epoch) candidate = .stale := by
  have hage : epochAge (some epoch) view.epoch = .stale := by
    rw [h, epochAge, if_neg hne, if_neg (by simp [holder])]
  rw [verdict, hage]

/-- A sender below the live station, or any sender when there is none, refreshes the view (R158). -/
theorem sameEpochVerdict_lower {live : Option Station} {y : Station} (hme : y ≠ me)
    (hlower : ∀ x, live = some x → y < x) : sameEpochVerdict me live (some y) = .refreshed := by
  cases live with
  | none => rw [sameEpochVerdict, if_neg hme]
  | some x =>
    have hlt := hlower x rfl
    rw [sameEpochVerdict, if_neg (ne_of_gt hlt), if_neg hme, if_pos hlt]

theorem sameEpochVerdict_higher {x y : Station} (hme : y ≠ me) (hhigher : x < y) :
    sameEpochVerdict me (some x) (some y) = .stale := by
  rw [sameEpochVerdict, if_neg (ne_of_lt hhigher), if_neg hme, if_neg (not_lt_of_gt hhigher)]

theorem sameEpochVerdict_live (x : Station) : sameEpochVerdict me (some x) (some x) = .refreshed := by
  rw [sameEpochVerdict, if_pos rfl]

theorem absenceLoad_other {y : Station} (timeout : Nat) (h : y ≠ me) : absenceLoad me timeout (some y) = some timeout :=
  if_neg h

theorem absenceLoad_me (timeout : Nat) : absenceLoad me timeout (some me) = none :=
  if_pos rfl

end Verdicts

section Following
variable {s : State} {sender : Station} {epoch : Option Epoch} {f : Frame}

theorem inTenure_of_state (hstate : s.floor.state = .live ∨ s.floor.state = .handing) :
    s.floor.state.inTenure = true := by
  rcases hstate with hlive | hhanding
  · rw [hlive]; rfl
  · rw [hhanding]; rfl

theorem state_of_inTenure (htenure : s.floor.state.inTenure = true) :
    s.floor.state = .live ∨ s.floor.state = .handing := by
  cases hstate : s.floor.state with
  | live => exact .inl rfl
  | handing => exact .inr rfl
  | _ =>
    rw [hstate] at htenure
    cases htenure

/-- The view and the line offset have followed a frame; the armed flag and the absence timer go with the view's live
station (R159 to R161, R164). -/
def State.followed (view : View) (offset : Clock) (s : State) : State :=
  s.setFloor { s.floor with
    view := view, lineOffset := offset, armed := s.floor.armedFor view.live
    absenceTimer := absenceLoad s.station s.floor.absenceTimeout view.live }

/-- The view after a HANDOVER has been followed (R159). -/
def Handover.view (h : Handover) (live : Option Station) : View :=
  { live := live, epoch := some h.epoch, nextSeq := some h.nextSeq, boundary := some h.nextSeq }

theorem not_mute_of_inTenure (htenure : s.floor.state.inTenure = true) : s.floor.state ≠ .mute := by
  rcases state_of_inTenure htenure with hstate | hstate <;> simp [hstate]

theorem moveView_own_line (view : View) (h : f.carriedLineTime = none ∨ s.floor.state.inTenure = true) :
    moveView view (takeLineTime f s) = s.followed view s.floor.lineOffset := by
  have hline : takeLineTime f s = s := by
    unfold takeLineTime
    rcases h with hnone | htenure
    · rw [hnone]
    · split
      · rcases state_of_inTenure htenure with hstate | hstate <;> exact if_neg (by simp [hstate])
      · rfl
  rw [hline, moveView_eq]
  rfl

theorem moveView_handover (view : View) (h : Handover) (hclaiming : s.floor.state = .claiming) :
    moveView view (takeLineTime (.handover h) s) = s.followed view (h.lineTime - s.clock) := by
  have hline : takeLineTime (.handover h) s = s.setFloor { s.floor with lineOffset := h.lineTime - s.clock } :=
    if_pos (by simp [hclaiming])
  rw [hline, moveView_eq]
  rfl

/-- An adopted or refreshing frame that does not make the station LIVE moves the view, and the station reacts to it. -/
theorem takeTenureFrame_follows {v : Verdict} (hv : verdict s.station s.floor.view epoch (f.candidate sender) = v)
    (hfollow : v = .adopted ∨ v = .refreshed) (hlive : makesLive s v f = false) :
    takeTenureFrame sender epoch f s =
      reactToView v f (moveView (s.floor.view.follow v epoch (newLive s.station v false (f.candidate sender)) f)
        (takeLineTime f s)) := by
  obtain ⟨hview, -⟩ := takeLineTime_view f s
  unfold takeTenureFrame
  dsimp only
  rw [hv]
  rcases hfollow with rfl | rfl <;> simp [hlive, hview]

theorem offerPresence_eq (feed : Feed) : feed.offerPresence =
    if feed.waiting = [] ∧ feed.sending = none then { feed with waiting := [.presence none] } else feed := by
  unfold Feed.offerPresence
  by_cases hempty : feed.waiting = [] ∧ feed.sending = none
  · have hroom : feed.places < 16 := by simp [Feed.places, hempty]
    rw [if_pos ((queueEmpty_iff feed).mpr hempty), if_pos hempty, join_room _ hroom, hempty.1, List.nil_append]
  · rw [if_neg fun h => hempty ((queueEmpty_iff feed).mp h), if_neg hempty]

/-- A stale frame is answered by a PRESENCE in a tenure (R172), and changes nothing else. -/
theorem takeTenureFrame_stale (hv : verdict s.station s.floor.view epoch (f.candidate sender) = .stale)
    (htenure : s.floor.state.inTenure = true) :
    takeTenureFrame sender epoch f s =
      s.setFeed (if s.feed.waiting = [] ∧ s.feed.sending = none then { s.feed with waiting := [.presence none] }
        else s.feed) := by
  have hmute := not_mute_of_inTenure htenure
  unfold takeTenureFrame
  dsimp only
  rw [hv]
  dsimp only
  rw [if_pos htenure, offerPresence, offer_eq _ hmute, offerPresence_eq]

theorem takeTenureFrame_ignored (hv : verdict s.station s.floor.view epoch (f.candidate sender) = .ignored) :
    takeTenureFrame sender epoch f s = s := by
  unfold takeTenureFrame
  dsimp only
  rw [hv]

theorem makesLive_tenure (v : Verdict) (f : Frame) (h : s.floor.state ≠ .claiming) : makesLive s v f = false := by
  simp [makesLive, h]

end Following

section Claiming
variable {s : State} {sender : Station} {h : Handover}

/-- A newer HANDOVER that names a claiming station makes it LIVE (R167). -/
theorem takeHandover_makesLive (hclaiming : s.floor.state = .claiming) (hme : h.successor = some s.station)
    (hnewer : ∀ e, s.floor.view.epoch = some e → epochNewer h.epoch e = true) :
    takeTenureFrame sender (some h.epoch) (.handover h) s =
      enterLive h.epoch h.nextSeq (s.followed (h.view (some s.station)) (h.lineTime - s.clock)) := by
  obtain ⟨hview, -⟩ := takeLineTime_view (.handover h) s
  have hlive : makesLive s .adopted (.handover h) = true := by
    simp [makesLive, hclaiming, Frame.isHandover, Frame.candidate, hme]
  unfold takeTenureFrame
  dsimp only [Frame.candidate]
  rw [verdict_newer hnewer]
  dsimp only
  rw [hlive, hview, moveView_handover _ _ hclaiming, hme]
  simp only [newLive, Bool.not_true, Bool.and_false, Bool.false_eq_true, if_false]
  rfl

/-- Any other newer HANDOVER leaves a claiming station to react to the view. -/
theorem takeHandover_claiming (hclaiming : s.floor.state = .claiming) (hme : h.successor ≠ some s.station)
    (hnewer : ∀ e, s.floor.view.epoch = some e → epochNewer h.epoch e = true) :
    takeTenureFrame sender (some h.epoch) (.handover h) s =
      reactClaiming .adopted (.handover h) (s.followed (h.view h.successor) (h.lineTime - s.clock)) := by
  have hnot : makesLive s .adopted (.handover h) = false := by
    simp [makesLive, Frame.candidate, hme]
  have hlive : newLive s.station .adopted false h.successor = h.successor := by
    simp [newLive, hme]
  rw [takeTenureFrame_follows (f := .handover h) (verdict_newer hnewer) (.inl rfl) hnot,
    moveView_handover _ _ hclaiming]
  show reactToView .adopted (.handover h) (s.followed (h.view (newLive s.station .adopted false h.successor)) _) = _
  rw [hlive, reactToView]
  have hstate : (s.followed (h.view h.successor) (h.lineTime - s.clock)).floor.state = .claiming := hclaiming
  rw [hstate]

/-- The view of a claiming station has a live station after a HANDOVER: the claim ends, with a pulse for the reporter. -/
theorem reactClaiming_handover {y : Station} (hlive : s.floor.view.live = some y) :
    reactClaiming .adopted (.handover h) s =
      leaveClaiming (s.setAttnTimer (if s.floor.origin = some .reporter then some 250 else s.attnTimer)) := by
  unfold reactClaiming
  rw [hlive]
  dsimp only
  split
  · next horigin =>
    rw [if_pos horigin]
    rfl
  · next horigin =>
    rw [if_neg horigin]
    rfl

/-- A frame that is no HANDOVER stops the window of a reporter's claim, and ends any other claim. -/
theorem reactClaiming_other {f : Frame} {y : Station} (v : Verdict) (hlive : s.floor.view.live = some y)
    (hf : f.isHandover = false) : reactClaiming v f s =
      if s.floor.origin = some .reporter then s.setFloor { s.floor with claimTimer := none } else leaveClaiming s := by
  unfold reactClaiming
  rw [hlive]
  dsimp only
  split
  · next horigin => rw [if_pos horigin, hf, Bool.and_false, if_neg Bool.false_ne_true]
  · next horigin => rw [if_neg horigin]

end Claiming

section SenderFrames
variable {s : State} {sender : Station} {epoch : Epoch} {f : Frame} {v : Verdict}

/-- A tenure frame of epoch `epoch` that names its sender: any but a HANDOVER (R157). -/
structure NamesSender (epoch : Epoch) (f : Frame) : Prop where
  tenure : f.tenure = some (some epoch)
  candidate : ∀ sender, f.candidate sender = some sender
  noHandover : f.isHandover = false

theorem namesSender_segment (copy : Option Bool) (seg : Segment) : NamesSender epoch (.segment epoch copy seg) :=
  ⟨rfl, fun _ => rfl, rfl⟩

/-- The frame is newer than the view, or of its epoch with the view refreshed. -/
def Follows (view : View) (epoch : Epoch) (v : Verdict) : Prop :=
  v = .adopted ∨ v = .refreshed ∧ view.epoch = some epoch

theorem follow_epoch_eq {view : View} (hv : Follows view epoch v) (live : Option Station) (f : Frame) :
    (view.follow v (some epoch) live f).epoch = some epoch := by
  rcases hv with rfl | ⟨rfl, hepoch⟩
  · rfl
  · exact hepoch

theorem newLive_sender (v : Verdict) (hsender : sender ≠ s.station) :
    newLive s.station v false (some sender) = some sender := by
  simp [newLive, hsender]

/-- A frame of a newer epoch, or of the view's from a station below the live one, is followed. -/
theorem verdict_follows (hsender : sender ≠ s.station)
    (h : (∀ e, s.floor.view.epoch = some e → epochNewer epoch e = true)
      ∨ s.floor.view.epoch = some epoch ∧ ∀ x, s.floor.view.live = some x → sender < x) :
    ∃ v, verdict s.station s.floor.view (some epoch) (some sender) = v ∧ Follows s.floor.view epoch v := by
  rcases h with hnewer | ⟨hepoch, hlower⟩
  · exact ⟨_, verdict_newer hnewer, .inl rfl⟩
  · exact ⟨_, (verdict_same hepoch).trans (sameEpochVerdict_lower hsender hlower), .inr ⟨rfl, hepoch⟩⟩

theorem takeSenderFrame_follows (hf : NamesSender epoch f) (hsender : sender ≠ s.station)
    (hline : f.carriedLineTime = none ∨ s.floor.state.inTenure = true)
    (hv : verdict s.station s.floor.view (some epoch) (some sender) = v) (hfollow : Follows s.floor.view epoch v) :
    takeTenureFrame sender (some epoch) f s =
      reactToView v f (s.followed (s.floor.view.follow v (some epoch) (some sender) f) s.floor.lineOffset) := by
  have hlive : makesLive s v f = false := by simp [makesLive, hf.noHandover]
  rw [takeTenureFrame_follows (by rw [hf.candidate, hv]) (hfollow.imp_right And.left) hlive,
    moveView_own_line _ hline, hf.candidate, newLive_sender v hsender]

theorem takeSegment_claiming (seg : Segment) (hclaiming : s.floor.state = .claiming) (hsender : sender ≠ s.station)
    (hv : verdict s.station s.floor.view (some epoch) (some sender) = v) (hfollow : Follows s.floor.view epoch v) :
    takeTenureFrame sender (some epoch) (.segment epoch none seg) s =
      let t := s.followed (s.floor.view.follow v (some epoch) (some sender) (.segment epoch none seg)) s.floor.lineOffset
      if s.floor.origin = some .reporter then t.setFloor { t.floor with claimTimer := none } else leaveClaiming t := by
  have hstate (view : View) : (s.followed view s.floor.lineOffset).floor.state = .claiming := hclaiming
  rw [takeSenderFrame_follows (namesSender_segment none seg) hsender (.inl rfl) hv hfollow, reactToView, hstate]
  exact reactClaiming_other v rfl rfl

end SenderFrames

section Demotion
variable {s : State} {f : Frame}

/-- The floor of a station that has left its tenure and follows the view (R160, R164, R172, R174). -/
def Floor.demoted (view : View) (f : Floor) : Floor :=
  { f with
    state := .standby, view := view, claimant := none, keptBack := none, armed := f.armedFor view.live
    presenceTimer := some (4 * f.presencePeriod)
    absenceTimer := if view.live = none then none else some f.absenceTimeout }

/-- The tenure has ended (R63), and the floor and the feed are as given. -/
def State.leftTenure (floor : Floor) (feed : Feed) (s : State) : State :=
  ((s.setFloor floor).setFeed feed).setEngine s.engine.leaveTenure

theorem closeTenure_eq (feed : Feed) : feed.closeTenure = { feed with
    ring := [], cursor := none, gap := none, held := none
    waiting := feed.waiting.filter (fun f => !f.ofTenure)
    sending := feed.sending.map fun x => if x.frame.ofTenure then { x with withdrawn := true } else x } :=
  withdraw_free (f := { feed with ring := [], held := none, cursor := none, gap := none }) Frame.ofTenure rfl

theorem leaveTenure_followed {view : View} (hlive : view.live ≠ some s.station) :
    leaveTenure (s.followed view s.floor.lineOffset) =
      s.leftTenure (s.floor.demoted view) s.feed.closeTenure := by
  have habsence : absenceLoad s.station s.floor.absenceTimeout view.live =
      if view.live = none then none else some s.floor.absenceTimeout := by
    cases h : view.live with
    | none => rfl
    | some x =>
      have hx : x ≠ s.station := by
        rintro rfl
        exact hlive h
      rw [absenceLoad_other _ hx, if_neg (by simp)]
  rw [leaveTenure_eq, Floor.demoted, ← habsence]
  rfl

/-- A station in a tenure that follows a view with another live station, or none, leaves the tenure (R172). -/
theorem reactToView_tenure {view : View} (v : Verdict) (htenure : s.floor.state.inTenure = true)
    (hlive : view.live ≠ some s.station) :
    reactToView v f (s.followed view s.floor.lineOffset) =
      let t := s.leftTenure (s.floor.demoted view) s.feed.closeTenure
      if v = .adopted then reactStandby f t else t := by
  have hlive' : (s.followed view s.floor.lineOffset).floor.view.live ≠ some (s.followed view s.floor.lineOffset).station :=
    hlive
  have hstate : (s.followed view s.floor.lineOffset).floor.state = .live
      ∨ (s.followed view s.floor.lineOffset).floor.state = .handing := state_of_inTenure htenure
  unfold reactToView
  rcases hstate with hstate | hstate <;> simp [hstate, hlive', leaveTenure_followed hlive]

theorem settleOnEntry_engine (s : State) : ∃ e : Engine, settleOnEntry s = s.setEngine e
    ∧ (∀ r ∈ e.tail, r ∈ s.engine.tail) ∧ e.context = s.engine.context ∧ e.replay = s.engine.replay := by
  rw [settleOnEntry_eq]
  split
  · exact ⟨_, rfl, fun _ hr => absurd hr List.not_mem_nil, rfl, rfl⟩
  · exact ⟨s.engine, rfl, fun _ hr => hr, rfl, rfl⟩

theorem fullSettle_outside (hhanding : s.floor.state ≠ .handing) :
    ∃ flag, fullSettle s = s.setEngine { s.engine with fullSettle := flag } := by
  unfold fullSettle
  split
  · exact ⟨false, if_neg (by simpa using hhanding)⟩
  · exact ⟨s.engine.fullSettle, rfl⟩

/-- In STANDBY and CLAIMING the boundary work sends nothing: it can only empty the tail and clear the flags (R64, R65). -/
theorem boundaryIfBetween_outside (hhanding : s.floor.state ≠ .handing) (hmute : s.floor.state ≠ .mute) :
    ∃ e : Engine, boundaryIfBetween s = s.setEngine e ∧ (∀ r ∈ e.tail, r ∈ s.engine.tail)
      ∧ e.context = s.engine.context ∧ e.replay = s.engine.replay := by
  unfold boundaryIfBetween
  split
  · obtain ⟨e, hentry, htail, hcontext, hreplay⟩ := settleOnEntry_engine s
    obtain ⟨flag, hfull⟩ := fullSettle_outside (s := s.setEngine e) hhanding
    refine ⟨{ e with fullSettle := flag }, ?_, htail, hcontext, hreplay⟩
    rw [boundaryWork, hentry, hfull, settleMute]
    exact if_neg (by simpa using hmute)
  · exact ⟨s.engine, rfl, fun _ hr => hr, rfl, rfl⟩

/-- A frame heard whole that ends the tenure: the records of the tail have lost their seqs, also when the boundary work
follows at once (R63). -/
theorem completeFrame_leaves {floor : Floor} {feed : Feed}
    (hcomplete : completeFrame s = boundaryIfBetween (s.lineQuiet.leftTenure floor feed))
    (hstate : floor.state = .standby ∨ floor.state = .claiming) :
    ∃ t, exec .frameComplete s = .next t
      ∧ t.floor = floor ∧ t.feed = feed ∧ t.line = { s.line with state := .idle, received := [] }
      ∧ (∀ r ∈ t.engine.tail, r.seq = none)
      ∧ t.engine.context = s.engine.context ∧ t.engine.replay = s.engine.replay
      ∧ t.intake = s.intake ∧ t.port = s.port ∧ t.scanner = s.scanner ∧ t.attnTimer = s.attnTimer := by
  have hhanding : floor.state ≠ .handing := by rcases hstate with h | h <;> simp [h]
  have hmute : floor.state ≠ .mute := by rcases hstate with h | h <;> simp [h]
  obtain ⟨e, hboundary, htail, hcontext, hreplay⟩ := boundaryIfBetween_outside
    (s := s.lineQuiet.leftTenure floor feed) hhanding hmute
  exact ⟨_, exec_eq_next (hcomplete.trans hboundary), rfl, rfl, rfl, fun r hr => leave_seqs s.engine r (htail r hr),
    hcontext, hreplay, rfl, rfl, rfl, rfl⟩

end Demotion

section Successors
variable {s : State} {sender : Station} {h : Handover}

theorem follow_handover {view : View} {v : Verdict} (hfollow : Follows view h.epoch v) (live : Option Station) :
    view.follow v (some h.epoch) live (.handover h) = h.view live := by
  rcases hfollow with rfl | ⟨rfl, hepoch⟩
  · rfl
  · rw [Handover.view, ← hepoch]
    rfl

theorem newLive_refreshed (me : Station) (candidate : Option Station) :
    newLive me .refreshed false candidate = candidate := rfl

theorem reactToView_own {f : Frame} (v : Verdict) (htenure : s.floor.state.inTenure = true)
    (hlive : s.floor.view.live = some s.station) : reactToView v f s = s := by
  unfold reactToView
  rcases state_of_inTenure htenure with hstate | hstate <;> rw [hstate] <;> exact if_pos hlive

/-- A followed HANDOVER takes the tenure from this station, unless the view's live station is this one still (R172). -/
theorem takeHandover_tenure {v : Verdict} {live : Option Station} (htenure : s.floor.state.inTenure = true)
    (hv : verdict s.station s.floor.view (some h.epoch) h.successor = v) (hfollow : Follows s.floor.view h.epoch v)
    (hlive : newLive s.station v false h.successor = live) (hother : live ≠ some s.station) :
    takeTenureFrame sender (some h.epoch) (.handover h) s =
      let t := s.leftTenure (s.floor.demoted (h.view live)) s.feed.closeTenure
      if v = .adopted then reactStandby (.handover h) t else t := by
  have hnot : makesLive s v (.handover h) = false := by
    have hclaiming : s.floor.state ≠ .claiming := by
      rcases state_of_inTenure htenure with hstate | hstate <;> simp [hstate]
    exact makesLive_tenure v _ hclaiming
  rw [takeTenureFrame_follows (f := .handover h) hv (hfollow.imp_right And.left) hnot, moveView_own_line _ (.inr htenure)]
  dsimp only [Frame.candidate]
  rw [hlive, follow_handover hfollow]
  exact reactToView_tenure v htenure hother

/-- A HANDOVER of the tenure's own epoch that names this station refreshes the view (R158). -/
theorem takeHandover_refreshes (htenure : s.floor.state.inTenure = true) (hepoch : s.floor.view.epoch = some h.epoch)
    (hlive : s.floor.view.live = some s.station) (hme : h.successor = some s.station) :
    takeTenureFrame sender (some h.epoch) (.handover h) s =
      s.setFloor { s.floor with view := h.view (some s.station), absenceTimer := none } := by
  have hv : verdict s.station s.floor.view (some h.epoch) h.successor = .refreshed := by
    rw [verdict_same hepoch, hlive, hme, sameEpochVerdict_live]
  have hfollowed : s.followed (h.view (some s.station)) s.floor.lineOffset =
      s.setFloor { s.floor with view := h.view (some s.station), absenceTimer := none } := by
    have harmed : s.floor.armedFor (some s.station) = s.floor.armed := if_neg (by simp [hlive])
    rw [State.followed]
    dsimp only [Handover.view]
    rw [harmed, absenceLoad_me]
  have hnot : makesLive s .refreshed (.handover h) = false := by simp [makesLive]
  rw [takeTenureFrame_follows (f := .handover h) hv (.inr rfl) hnot, moveView_own_line _ (.inr htenure)]
  dsimp only [Frame.candidate]
  rw [hme, newLive_refreshed, follow_handover (.inr ⟨rfl, hepoch⟩), hfollowed]
  exact reactToView_own .refreshed htenure rfl

end Successors

end Sys2Proof.Machine
end

section
/-! SUPPORT. What FRAME_COMPLETE makes of the state when the frame is one of another station's tenure: one equation for
each outcome in CLAIMING, LIVE and HANDING. -/

namespace Sys2Proof.Machine

section ClaimingOutcomes
variable {s : State} {sender : Station} {h : Handover}

theorem heard_handover (hmute : s.floor.state ≠ .mute) (hsender : sender ≠ s.station)
    (hstate : s.line.state = .receiving) (hbits : s.line.charBits = [])
    (hreceived : s.line.received = (Frame.handover h).chars sender) :
    completeFrame s = boundaryIfBetween (takeTenureFrame sender (some h.epoch) (.handover h) s.lineQuiet) :=
  completeFrame_tenure (f := .handover h) trivial hstate hbits hreceived hsender hmute rfl

/-- The floor of a claiming station that a HANDOVER has made LIVE (R167). -/
def Floor.madeLive (h : Handover) (offset : Clock) (me : Station) (f : Floor) : Floor :=
  { f with
    state := .live, view := h.view (some me), lineOffset := offset, armed := f.armedFor (some me)
    claimant := none, origin := none, absenceTimer := none, claimTimer := none
    presenceTimer := some f.presencePeriod }

theorem enterLive_followed : enterLive h.epoch h.nextSeq (s.followed (h.view (some s.station)) (h.lineTime - s.clock)) =
    { s with
      floor := s.floor.madeLive h (h.lineTime - s.clock) s.station
      feed := s.feed.openTenure h.epoch h.nextSeq
      engine := { s.engine with settleOnEntry := true } } := by
  rw [enterLive_eq, State.followed, Floor.madeLive]
  dsimp only [State.setEngine, State.setFeed, State.setFloor, Handover.view]

theorem takeHandover_names_other {y : Station} (hclaiming : s.floor.state = .claiming) (hy : h.successor = some y)
    (hother : y ≠ s.station) (hnewer : ∀ e, s.floor.view.epoch = some e → epochNewer h.epoch e = true) :
    takeTenureFrame sender (some h.epoch) (.handover h) s = { s with
      floor := { s.floor with
        state := .standby, view := h.view (some y), lineOffset := h.lineTime - s.clock
        armed := if s.floor.view.live = none then s.floor.autoClaim else s.floor.armed
        origin := none, claimTimer := none, absenceTimer := some s.floor.absenceTimeout
        presenceTimer := some (4 * s.floor.presencePeriod) }
      feed := s.feed.offerClaim (.claim (some h.epoch) true)
      attnTimer := if s.floor.origin = some .reporter then some 250 else s.attnTimer } := by
  have harmed : s.floor.armedFor (some y) = if s.floor.view.live = none then s.floor.autoClaim else s.floor.armed := by
    simp [Floor.armedFor]
  rw [takeHandover_claiming hclaiming (by simp [hy, hother]) hnewer, hy, reactClaiming_handover (y := y) rfl,
    leaveClaiming_eq, State.followed]
  dsimp only [State.setEngine, State.setFeed, State.setFloor, State.setAttnTimer, Handover.view]
  rw [harmed, absenceLoad_other _ hother]
  rfl

theorem takeHandover_names_none (hclaiming : s.floor.state = .claiming) (hnone : h.successor = none)
    (hnewer : ∀ e, s.floor.view.epoch = some e → epochNewer h.epoch e = true) :
    takeTenureFrame sender (some h.epoch) (.handover h) s = { s with
      floor := { s.floor with
        view := h.view none, lineOffset := h.lineTime - s.clock, absenceTimer := none
        claimTimer :=
          if s.line.integrated = true ∧ s.floor.claimTimer = none then some s.floor.claimWindow
          else s.floor.claimTimer } } := by
  have harmed : s.floor.armedFor none = s.floor.armed := if_neg (by simp)
  have hreact (t : State) (hlive : t.floor.view.live = none) :
      reactClaiming .adopted (.handover h) t = loadClaimWindow t := by
    unfold reactClaiming
    rw [hlive]
  rw [takeHandover_claiming hclaiming (by simp [hnone]) hnewer, hnone, hreact _ rfl,
    loadClaimWindow_eq (by exact hclaiming), State.followed]
  dsimp only [State.setFloor, Handover.view, Floor.windowLoaded]
  rw [harmed]
  simp [absenceLoad]

/-- The floor of a claiming station once a segment of `sender` has moved its view: a reporter's claim waits without its
window, and any other claim has ended (R164, R166). -/
def Floor.outclaimed (view : View) (f : Floor) : Floor :=
  { f with
    state := if f.origin = some .reporter then f.state else .standby
    view := view, armed := f.armedFor view.live
    origin := if f.origin = some .reporter then f.origin else none
    claimTimer := none, absenceTimer := some f.absenceTimeout
    presenceTimer := if f.origin = some .reporter then f.presenceTimer else some (4 * f.presencePeriod) }

theorem takeSegment_outclaims {epoch : Epoch} {v : Verdict} (seg : Segment) (hclaiming : s.floor.state = .claiming)
    (hsender : sender ≠ s.station) (hv : verdict s.station s.floor.view (some epoch) (some sender) = v)
    (hfollow : Follows s.floor.view epoch v) :
    takeTenureFrame sender (some epoch) (.segment epoch none seg) s = { s with
      floor := s.floor.outclaimed (s.floor.view.follow v (some epoch) (some sender) (.segment epoch none seg))
      feed := if s.floor.origin = some .reporter then s.feed else s.feed.offerClaim (.claim (some epoch) true) } := by
  have hepoch := follow_epoch_eq hfollow (some sender) (.segment epoch none seg)
  have hlive : (s.floor.view.follow v (some epoch) (some sender) (.segment epoch none seg)).live = some sender := rfl
  rw [takeSegment_claiming seg hclaiming hsender hv hfollow, Floor.outclaimed]
  generalize s.floor.view.follow v (some epoch) (some sender) (.segment epoch none seg) = view at hepoch hlive ⊢
  have habsence : absenceLoad s.station s.floor.absenceTimeout view.live = some s.floor.absenceTimeout := by
    rw [hlive, absenceLoad_other _ hsender]
  by_cases horigin : s.floor.origin = some .reporter
  · simp only [if_pos horigin, State.followed, habsence]
    rfl
  · simp only [if_neg horigin, leaveClaiming_eq, State.followed, habsence]
    dsimp only [State.setFeed, State.setFloor]
    rw [hepoch]

theorem outclaimed_not_mute (view : View) {f : Floor} (hmute : f.state ≠ .mute) :
    (f.outclaimed view).state ≠ .mute := by
  show (if f.origin = some .reporter then f.state else .standby) ≠ .mute
  split
  · exact hmute
  · exact nofun

end ClaimingOutcomes

end Sys2Proof.Machine
end

section
/-! SUPPORT. What a station in LIVE or HANDING makes of another station's tenure frames (R158, R163, R164, R172): one
equation for each outcome. -/

namespace Sys2Proof.Machine

section Demotions
variable {s : State} {sender : Station} {epoch : Epoch} {f : Frame} {v : Verdict}

theorem reactStandby_other (s : State) (hf : f.isHandover = false) : reactStandby f s = s := by
  cases f with
  | handover h => cases hf
  | _ => rfl

theorem takeSenderFrame_demotes (hf : NamesSender epoch f) (htenure : s.floor.state.inTenure = true)
    (hsender : sender ≠ s.station) (hv : verdict s.station s.floor.view (some epoch) (some sender) = v)
    (hfollow : Follows s.floor.view epoch v) :
    takeTenureFrame sender (some epoch) f s =
      s.leftTenure (s.floor.demoted (s.floor.view.follow v (some epoch) (some sender) f)) s.feed.closeTenure := by
  have hother : (s.floor.view.follow v (some epoch) (some sender) f).live ≠ some s.station := by
    simp [follow_live, hsender]
  rw [takeSenderFrame_follows hf hsender (.inr htenure) hv hfollow, reactToView_tenure v htenure hother]
  dsimp only
  rw [reactStandby_other _ hf.noHandover, ite_self]

theorem follows_of_view {viewEpoch : Epoch} {y : Station} (hview : s.floor.view.epoch = some viewEpoch)
    (h : epochNewer epoch viewEpoch = true ∨ epoch = viewEpoch ∧ s.floor.view.live = some s.station ∧ y < s.station) :
    (∀ e, s.floor.view.epoch = some e → epochNewer epoch e = true)
      ∨ s.floor.view.epoch = some epoch ∧ ∀ x, s.floor.view.live = some x → y < x := by
  rcases h with hnewer | ⟨rfl, hlive, hlower⟩
  · refine .inl fun e he => ?_
    rw [← Option.some_inj.mp (hview.symm.trans he)]
    exact hnewer
  · refine .inr ⟨hview, fun x hx => ?_⟩
    rw [← Option.some_inj.mp (hlive.symm.trans hx)]
    exact hlower

theorem namesSender_of_frame
    (h : (∃ copy seg, f = .segment epoch copy seg) ∨ (∃ q, f = .cut epoch q) ∨ (∃ b, f = .settle epoch b)
      ∨ (∃ fromSeq toSeq, f = .gap epoch fromSeq toSeq)
      ∨ (∃ p n b, f = .presence (some p) ∧ p.role = .live
        ∧ p.reach = some { epoch := epoch, nextSeq := n, boundary := b })) : NamesSender epoch f := by
  rcases h with ⟨copy, seg, rfl⟩ | ⟨q, rfl⟩ | ⟨b, rfl⟩ | ⟨fromSeq, toSeq, rfl⟩ | ⟨p, n, b, rfl, hrole, hreach⟩
  · exact namesSender_segment copy seg
  · exact ⟨rfl, fun _ => rfl, rfl⟩
  · exact ⟨rfl, fun _ => rfl, rfl⟩
  · exact ⟨rfl, fun _ => rfl, rfl⟩
  · exact ⟨by simp [Frame.tenure, hrole, hreach], fun _ => rfl, rfl⟩

/-- A stale frame heard in a tenure is answered by a PRESENCE, and changes nothing else. -/
theorem completeFrame_stale (hsound : FrameSound f) (hstate : s.line.state = .receiving) (hbits : s.line.charBits = [])
    (hreceived : s.line.received = f.chars sender) (hsender : sender ≠ s.station) (hf : f.tenure = some (some epoch))
    (htenure : s.floor.state.inTenure = true)
    (hv : verdict s.station s.floor.view (some epoch) (f.candidate sender) = .stale)
    (hentry : s.engine.settleOnEntry = false) (hfull : s.engine.fullSettle = false) :
    completeFrame s = { s with
      line := { s.line with state := .idle, received := [] }
      feed :=
        if s.feed.waiting = [] ∧ s.feed.sending = none then { s.feed with waiting := [.presence none] }
        else s.feed } := by
  have hmute : s.floor.state ≠ .mute := not_mute_of_inTenure htenure
  rw [completeFrame_tenure hsound hstate hbits hreceived hsender hmute hf,
    takeTenureFrame_stale (s := s.lineQuiet) hv htenure]
  exact boundaryIfBetween_quiet (by exact hentry) (by exact hfull) hmute

theorem verdict_stale {viewEpoch : Epoch} (hview : s.floor.view.epoch = some viewEpoch) {y : Station}
    (hother : y ≠ s.station)
    (h : epoch ≠ viewEpoch ∧ epochNewer epoch viewEpoch = false
      ∨ epoch = viewEpoch ∧ s.floor.view.live = some s.station ∧ s.station < y) :
    verdict s.station s.floor.view (some epoch) (some y) = .stale := by
  rcases h with ⟨hne, holder⟩ | ⟨rfl, hlive, hhigher⟩
  · exact verdict_older hview hne holder
  · rw [verdict_same hview, hlive, sameEpochVerdict_higher hother hhigher]

end Demotions

section SuccessorOutcomes
variable {s : State} {sender : Station} {h : Handover}

/-- A station that holds its own view keeps its armed flag when it follows another live station (R164). -/
theorem demoted_own {f : Floor} {me : Station} (view : View) (hlive : f.view.live = some me) :
    f.demoted view = { f with
      state := .standby, view := view, claimant := none, keptBack := none
      presenceTimer := some (4 * f.presencePeriod)
      absenceTimer := if view.live = none then none else some f.absenceTimeout } := by
  have harmed : f.armedFor view.live = f.armed := if_neg (by simp [hlive])
  rw [Floor.demoted, harmed]

theorem reactStandby_names_other {y : Station} (hy : h.successor = some y) (hother : y ≠ s.station) :
    reactStandby (.handover h) s = s := by
  simp [reactStandby, hy, hother]

theorem takeHandover_demotes {y : Station} (htenure : s.floor.state.inTenure = true) (hy : h.successor = some y)
    (hother : y ≠ s.station)
    (hfollows : (∀ e, s.floor.view.epoch = some e → epochNewer h.epoch e = true)
      ∨ s.floor.view.epoch = some h.epoch ∧ ∀ x, s.floor.view.live = some x → y < x) :
    takeTenureFrame sender (some h.epoch) (.handover h) s =
      s.leftTenure (s.floor.demoted (h.view (some y))) s.feed.closeTenure := by
  obtain ⟨v, hv, hfollow⟩ := verdict_follows hother hfollows
  have hreact := reactStandby_names_other (s := s.leftTenure (s.floor.demoted (h.view (some y))) s.feed.closeTenure) hy
    hother
  rw [takeHandover_tenure htenure (by rw [hy, hv]) hfollow (by rw [hy, newLive_sender v hother]) (by simpa using hother)]
  dsimp only
  rw [hreact, ite_self]

/-- A newer HANDOVER that names this station, or none, leaves a vacant view, and the station reacts as one standing by. -/
theorem takeHandover_vacates (htenure : s.floor.state.inTenure = true)
    (hsuccessor : h.successor = some s.station ∨ h.successor = none)
    (hnewer : ∀ e, s.floor.view.epoch = some e → epochNewer h.epoch e = true) :
    takeTenureFrame sender (some h.epoch) (.handover h) s =
      reactStandby (.handover h) (s.leftTenure (s.floor.demoted (h.view none)) s.feed.closeTenure) := by
  have hlive : newLive s.station .adopted false h.successor = none := by
    rcases hsuccessor with hme | hnone
    · simp [newLive, hme]
    · simp [newLive, hnone]
  rw [takeHandover_tenure htenure (verdict_newer hnewer) (.inl rfl) hlive (by simp)]
  exact if_pos rfl

/-- R163: the decline of a HANDOVER that names this station. -/
theorem reactStandby_declines (hme : h.successor = some s.station) (hmute : s.floor.state ≠ .mute) :
    reactStandby (.handover h) s =
      (s.setFloor { s.floor with
        armed := false
        lastOffered := some { epoch := h.epoch + 1, successor := none, nextSeq := h.nextSeq } }).setFeed
      (s.feed.offerHandover
        { epoch := h.epoch + 1, successor := none, nextSeq := h.nextSeq, lineTime := s.clock + s.floor.lineOffset }) := by
  unfold reactStandby
  dsimp only
  rw [if_pos hme, decline, offerHandover_eq _ (by exact hmute)]
  rfl

theorem reactStandby_vacant (hnone : h.successor = none) :
    reactStandby (.handover h) s = if s.floor.armed = true then enterClaiming .auto s else s := by
  simp [reactStandby, hnone]

theorem takeHandover_declines (htenure : s.floor.state.inTenure = true) (hme : h.successor = some s.station)
    (hnewer : ∀ e, s.floor.view.epoch = some e → epochNewer h.epoch e = true) :
    takeTenureFrame sender (some h.epoch) (.handover h) s =
      s.leftTenure
        { s.floor.demoted (h.view none) with
          armed := false
          lastOffered := some { epoch := h.epoch + 1, successor := none, nextSeq := h.nextSeq } }
        (s.feed.closeTenure.offerHandover
          { epoch := h.epoch + 1, successor := none, nextSeq := h.nextSeq
            lineTime := s.clock + s.floor.lineOffset }) := by
  have hmute : (s.leftTenure (s.floor.demoted (h.view none)) s.feed.closeTenure).floor.state ≠ .mute := by
    intro hstate
    cases (show FloorState.standby = .mute from hstate)
  rw [takeHandover_vacates htenure (.inl hme) hnewer, reactStandby_declines (by exact hme) hmute]
  rfl

theorem takeHandover_unclaimed (htenure : s.floor.state.inTenure = true) (hnone : h.successor = none)
    (hnewer : ∀ e, s.floor.view.epoch = some e → epochNewer h.epoch e = true)
    (harmed : (s.floor.demoted (h.view none)).armed = false) :
    takeTenureFrame sender (some h.epoch) (.handover h) s =
      s.leftTenure (s.floor.demoted (h.view none)) s.feed.closeTenure := by
  rw [takeHandover_vacates htenure (.inr hnone) hnewer, reactStandby_vacant hnone]
  exact if_neg (by simpa [State.leftTenure, State.setEngine, State.setFeed, State.setFloor] using harmed)

/-- An armed station claims the vacant floor by itself (R164). -/
theorem takeHandover_claims (htenure : s.floor.state.inTenure = true) (hnone : h.successor = none)
    (hnewer : ∀ e, s.floor.view.epoch = some e → epochNewer h.epoch e = true)
    (harmed : (s.floor.demoted (h.view none)).armed = true) :
    takeTenureFrame sender (some h.epoch) (.handover h) s =
      s.leftTenure
        { s.floor.demoted (h.view none) with
          state := .claiming, origin := some .auto, presenceTimer := some s.floor.presencePeriod
          claimTimer :=
            if s.line.integrated = true ∧ s.floor.claimTimer = none then some s.floor.claimWindow
            else s.floor.claimTimer }
        (s.feed.closeTenure.offerClaim (.claim (some h.epoch) false)) := by
  have hwindow : (s.floor.demoted (h.view none)).windowLoaded s.line.integrated =
      if s.line.integrated = true ∧ s.floor.claimTimer = none then some s.floor.claimWindow
      else s.floor.claimTimer := by
    simp [Floor.windowLoaded, Floor.demoted, Handover.view]
  rw [takeHandover_vacates htenure (.inr hnone) hnewer, reactStandby_vacant hnone, if_pos (by exact harmed),
    enterClaiming_eq, ← hwindow]
  rfl

end SuccessorOutcomes

end Sys2Proof.Machine
end

section
/-! The statements of translation, and of the floor as the translation engine meets it, settled. -/

namespace Sys2Proof.Proofs

open Sys2Proof.Machine

/-- Settles O28: `eligible` counts the records newest first, and no larger count fits the 7 strokes. -/
theorem eligibleRecordsAreTheMost : Obligations.EligibleRecordsAreTheMost := by
  intro tail m held
  have hlength : m ≤ tail.length := by simpa using eligible_le 7 tail.reverse
  have hsum : held m ≤ 7 := heldStrokes_eligible_le tail
  refine ⟨hlength, hsum, fun k hk hheld => le_eligible (by simpa using hk) ?_, fun hone => ?_⟩
  · exact heldStrokes_eq_take tail k ▸ hheld
  · exact Nat.le_trans (le_heldStrokes hone hlength) hsum

/-- Settles O24: a SHADOW step places its record and ends; no floor state makes it hand a request. -/
theorem shadowHitBuildsRecord : Obligations.ShadowHitBuildsRecord := by
  refine ⟨fun s i l w bytes e hr hl hw hbytes hhit hmode hfull => ?_, fun e => ?_⟩
  · intro absorbed kept saved formed record
    refine exec_eq_next ?_
    rw [answer, completeSlotRead_hit hr hl hw hbytes hhit, finishStroke_shadow _ _ _ _ (by exact hmode),
      endStep_eq (by exact hfull), builtTail, grownTail_eq]
    rfl
  · refine ⟨rfl, rfl, rfl, rfl, rfl, rfl, speakerOf_eq_some_iff e.speaker, ?_, ?_⟩
    · rw [Descriptor.isParagraph, Bool.or_eq_true]
      exact or_congr_right (speakerOf_isSome_iff e.speaker)
    · exact List.map_congr_left fun b _ => orQuestion_eq b

/-- Settles O25: a LIVE step's cut, append and settle are `finishStroke_live`; for the new stroke alone, with room, the
append is one entry and one frame. -/
theorem liveHitAppendsSegment : Obligations.LiveHitAppendsSegment := by
  refine ⟨fun s i l w bytes e hr hl hw hbytes hhit hmode hlive hentry hfull => ?_,
    fun f chars degraded time hroom => append_room chars degraded time hroom⟩
  intro absorbed kept saved formed time cutFeed appended record grown ended
  have hmute : s.floor.state ≠ .mute := by simp [hlive]
  have hhits := completeSlotRead_hit hr hl hw hbytes hhit
  have hplain (hgap : w.gap = 0) : completeSlotRead .inFlight bytes s =
      ended grown (appended.settleOldest s.engine.depth kept grown) := by
    rw [hhits, finishStroke_live _ _ _ _ (by exact hmode) (by exact hlive) hgap, endStep_quiet (by exact hfull)
      (by exact hentry) (by exact hmute), builtTail, grownTail_eq]
    rfl
  refine ⟨fun hgap => exec_eq_next (hplain hgap), fun hgap => exec_eq_next ?_,
    fun hgap hcandidate htail hplaces hring => ?_⟩
  · rw [answer, hhits, finishStroke_live_gap _ _ _ _ (by exact hmode) (by exact hlive) hgap,
      endStep_quiet (by exact hfull) (by exact hentry) (by exact hmute)]
    rfl
  · intro segment
    have hkept : kept = s.engine.tail := by simp [kept, hcandidate]
    have hcut : cutFeed = s.feed := by simp [cutFeed, absorbed, hcandidate]
    have hgrown : grown = s.engine.tail ++ [record] := by rw [← hkept]; exact if_pos (.inr (hkept ▸ htail))
    refine exec_eq_next ((hplain hgap).trans ?_)
    rw [settleOldest_room _ _ (.inr (hkept ▸ htail)), hgrown]
    refine congrArg (ended _) ?_
    simp only [appended, hcut, append_room _ _ _ hplaces, push_room _ _ _ hring]
    rfl

/-- Settles O31: the retraction's state, then its gap count, then the step's end. -/
theorem retractionsRemoveRecords : Obligations.RetractionsRemoveRecords := by
  refine ⟨fun s item rest hended hstep hreplay hitems hkind hentry hfull hroom => ?_,
    fun s item rest p hended hstep hreplay hitems hlo hhi hkind hentry hfull hroom hmute => ?_⟩
  · intro took lost told mode
    exact ⟨fun htail => exec_eq_next
        (beginStep_retract_empty hended hstep hreplay hitems hentry hfull hroom hkind htail),
      fun older newest hmute htail => exec_eq_next
        (beginStep_retract hended hstep hreplay hitems hentry hfull hroom hkind hmute htail)⟩
  · intro d lost told kept oldest
    exact ⟨_, exec_eq_next (beginStep_wordRetract hended hstep hreplay hitems hentry hfull hroom hlo hhi hkind hmute
        rfl rfl),
      rfl, rfl, rfl, rfl, rfl, rfl, rfl, rfl, rfl⟩

/-- Settles O32: in LIVE a MARK item hands the mark request, elsewhere it is refused; the feed takes both segments
alike. -/
theorem markItemAndGapCount : Obligations.MarkItemAndGapCount := by
  refine ⟨fun s item rest hended hstep hreplay hitems hkind hgap hentry hfull =>
      ⟨fun hlive hfree hheld hring => ?_, fun hlive hfree hmute => ?_⟩,
    fun s item rest hended hstep hreplay hitems hkind hlo hhi hentry hfull => ⟨fun hlive hfree => ?_, fun hfloor => ?_⟩,
    fun f time hheld hroom => ?_, fun f body time => push_room body time f⟩
  · intro segment
    have hbegin := beginStep_mark_live hended hstep hreplay hitems hentry hfull (fun _ => hfree) hkind hlive
    rw [Feed.tellGap, if_neg (by simpa [hlive] using hgap), mark_room _ hheld (places_lt_of_free hfree),
      push_room _ _ _ hring] at hbegin
    exact exec_eq_next hbegin
  · have hroom (htenure : s.floor.state.inTenure = true) : 3 ≤ s.feed.free := by
      cases hstate : s.floor.state with
      | live => exact absurd hstate hlive
      | handing => exact hfree hstate
      | standby | claiming | mute => simp [hstate, FloorState.inTenure] at htenure
    exact exec_eq_next (beginStep_mark_refused hended hstep hreplay hitems hentry hfull hroom hkind hlive hmute)
  · have hbegin := beginStep_mark_live hended hstep hreplay hitems hentry hfull (fun _ => hfree) hkind hlive
    rw [Feed.tellGap, if_pos ⟨hlive, Nat.one_le_iff_ne_zero.mp hlo⟩] at hbegin
    exact exec_eq_next hbegin
  · have hoff : s.floor.state ≠ .live ∧ s.floor.state ≠ .mute ∧ s.floor.state.inTenure = false := by
      rcases hfloor with h | h <;> simp [h, FloorState.inTenure]
    obtain ⟨hlive, hmute, htenure⟩ := hoff
    exact exec_eq_next (beginStep_mark_refused hended hstep hreplay hitems hentry hfull (by simp [htenure]) hkind hlive
      (absurd · hmute))
  · exact ⟨fun count => appendSettling_room (.lost count) time hheld hroom, mark_room time hheld hroom⟩

/-- Settles O58: the takeover opens the tenure, and the settle on entry is made at once when no step is in flight. -/
theorem claimWindowTakesTheFloor : Obligations.ClaimWindowTakesTheFloor := by
  intro s ht hclaiming hfull epoch next takeover
  have htaken := takeFloor_eq (s := s) (h := takeover) rfl (by simp [hclaiming])
  have hexpiry : expireClaimWindow s = _ := (expireClaimWindow_due ht hclaiming).trans
    ((congrArg boundaryIfBetween htaken).trans (boundaryIfBetween_entry rfl (by exact hfull) (by simp)))
  refine ⟨_, exec_eq_next hexpiry, rfl, rfl, rfl, rfl, rfl, rfl, rfl, rfl, rfl, fun hstep => ?_, fun hstep => ?_, rfl,
    rfl, rfl, rfl⟩
  · exact if_pos hstep
  · exact if_neg (Option.isSome_iff_ne_none.mp hstep)

/-- Settles O33: one lemma for each floor state; the move to HANDING ends in the hand-over of `buildHandover`. -/
theorem floorItemByFloorState : Obligations.FloorItemByFloorState := by
  intro s item rest hended hstep hreplay hitems hkind hentry hfull hroom
  cases hstate : s.floor.state with
  | standby =>
    exact ⟨_, exec_eq_next (beginStep_floor_standby hended hstep hreplay hitems hentry hfull hroom hkind hstate),
      rfl, rfl, rfl, rfl, rfl, rfl, fun _ => ⟨rfl, rfl, rfl, rfl, rfl, rfl⟩, nofun, nofun, nofun, nofun⟩
  | claiming =>
    exact ⟨_, exec_eq_next (beginStep_floor_claiming hended hstep hreplay hitems hentry hfull hroom hkind hstate),
      rfl, rfl, rfl, rfl, rfl, rfl, nofun, fun _ => ⟨rfl, rfl, rfl, rfl⟩, nofun, nofun, nofun⟩
  | handing =>
    exact ⟨_, exec_eq_next (beginStep_floor_handing hended hstep hreplay hitems hentry hfull hroom hkind hstate),
      rfl, rfl, rfl, rfl, rfl, rfl, nofun, nofun, nofun, fun _ => ⟨rfl, rfl, rfl⟩, nofun⟩
  | mute =>
    exact ⟨_, exec_eq_next (beginStep_floor_mute hended hstep hreplay hitems hentry hfull hroom hkind hstate),
      rfl, rfl, rfl, rfl, rfl, rfl, nofun, nofun, nofun, nofun, fun _ => ⟨rfl, rfl, rfl⟩⟩
  | live =>
    have hbegin := beginStep_floor_live hended hstep hreplay hitems hentry hfull hroom hkind hstate
    refine ⟨_, exec_eq_next hbegin, by simp, by simp, by simp, by simp, by simp, by simp, nofun, nofun,
      fun _ hheld => ?_, nofun, nofun⟩
    intro replay ended told handover unsent
    have htold : handingFeed item.gap (item.time + s.floor.lineOffset) s.engine.tail s.feed = told := by
      rw [handingFeed, endReplay_free hheld]
      rfl
    have hkept : KeepsHandovers s.feed told := htold ▸ keepsHandovers_handingFeed _ _ _ hheld
    have hnext : told.nextSeq = handover.nextSeq := htold ▸ handingFeed_next _ _ _
    rw [htold]
    exact ⟨by simp, by simp, by simp,
      buildHandover_fields hkept hnext (holdsTakeover_iff s.station hheld) (by simp)⟩

/-- Settles O34: the expiry off the floor, on it, and with a claimant for the pause to hand over to. -/
theorem settleIdleSettlesTail : Obligations.SettleIdleSettlesTail := by
  refine ⟨fun s ht hstep hentry hfull => ?_, fun f boundary =>
    ⟨fun older epoch old h => settle_rewrites boundary h, fun h => settle_joins boundary h⟩⟩
  by_cases hopen : s.floor.state.inTenure = true
  · have htenure : s.floor.state.inTenure ≠ false := by simp [hopen]
    by_cases hpause : s.floor.state = .live ∧ s.floor.claimant.isSome = true
    · obtain ⟨hlive, hclaimant⟩ := hpause
      have hexpiry := expireSettleIdle_pause ht hstep hentry hfull hlive hclaimant
      have hnone : s.floor.claimant ≠ none := Option.isSome_iff_ne_none.mp hclaimant
      have hstate (u : State) (h : u.floor.state = .handing) : (buildHandover u).floor.state = .handing := by
        rw [buildHandover]
        split <;> simp [h]
      refine ⟨_, exec_eq_next hexpiry, rfl, fun h => absurd h htenure, fun _ h => absurd h hnone,
        fun _ _ => hstate _ rfl, fun _ _ hheld => ?_, by simp, by simp, by simp, by simp, by simp⟩
      intro replay settled ended handover unsent
      have hsettled : KeepsHandovers s.feed (s.feed.settleCarried s.engine.tail) := keepsHandovers_settleCarried _ _
      have hfeed : (s.feed.settleCarried s.engine.tail).endReplay = ended := by
        rw [endReplay_free (hsettled.held.trans hheld), settleCarried_sending]
        rfl
      have hkept : KeepsHandovers s.feed ended :=
        hfeed ▸ hsettled.trans (keepsHandovers_endReplay (hsettled.held.trans hheld))
      have hnext : ended.nextSeq = s.feed.nextSeq := by
        rw [← hfeed, endReplay_next, settleCarried_next]
      rw [hfeed]
      exact buildHandover_fields hkept hnext (holdsTakeover_iff s.station hheld) (by simp)
    · have hclaimant (hlive : s.floor.state = .live) : s.floor.claimant = none := by
        simpa using fun h => hpause ⟨hlive, h⟩
      have hexpiry := expireSettleIdle_open ht hstep hentry hfull hopen hclaimant
      exact ⟨_, exec_eq_next hexpiry, rfl, fun h => absurd h htenure, fun _ _ => ⟨rfl, rfl⟩,
        fun hlive h => absurd ⟨hlive, h⟩ hpause, fun hlive h => absurd ⟨hlive, h⟩ hpause, rfl, rfl, rfl, rfl, rfl⟩
  · have hlive : s.floor.state ≠ .live := fun h => hopen (by simp [h, FloorState.inTenure])
    have hexpiry := expireSettleIdle_closed ht hstep hentry hfull (Bool.eq_false_iff.mpr hopen)
    exact ⟨_, exec_eq_next hexpiry, rfl, fun _ => rfl, fun h => absurd h hlive, fun h => absurd h hlive,
      fun h => absurd h hlive, rfl, rfl, rfl, rfl, rfl⟩

/-- Settles O50: the station named takes the floor with its entry settle, and every other frame leaves the boundary quiet. -/
theorem handoverMakesClaimantLive : Obligations.HandoverMakesClaimantLive := by
  refine ⟨?_, ?_⟩
  · intro s sender h hclaiming hsender hstate hbits hreceived hnewer hfull view
    have hheard := heard_handover (h := h) (by simp [hclaiming]) hsender hstate hbits hreceived
    refine ⟨fun hme => ?_, fun y hy hother hentry => ?_, fun hnone hentry => ?_⟩
    · have hlive := (takeHandover_makesLive (s := s.lineQuiet) (sender := sender) hclaiming hme hnewer).trans
        enterLive_followed
      have hentered := (hheard.trans (congrArg boundaryIfBetween hlive)).trans
        (boundaryIfBetween_entry rfl (by exact hfull) (by simp [Floor.madeLive]))
      refine ⟨_, exec_eq_next hentered, rfl, rfl, rfl, rfl, rfl, rfl, rfl, rfl, rfl, fun hstep => ?_, fun hstep => ?_,
        rfl, rfl, rfl, rfl⟩
      · exact if_pos hstep
      · exact if_neg (Option.isSome_iff_ne_none.mp hstep)
    · have htaken := takeHandover_names_other (s := s.lineQuiet) (sender := sender) hclaiming hy hother hnewer
      exact exec_eq_next ((hheard.trans (congrArg boundaryIfBetween htaken)).trans
        (boundaryIfBetween_quiet (by exact hentry) (by exact hfull) (by simp)))
    · have htaken := takeHandover_names_none (s := s.lineQuiet) (sender := sender) hclaiming hnone hnewer
      refine exec_eq_next ((hheard.trans (congrArg boundaryIfBetween htaken)).trans
        (boundaryIfBetween_quiet (by exact hentry) (by exact hfull) ?_))
      show s.floor.state ≠ .mute
      simp [hclaiming]
  · intro s sender epoch seg hclaiming hsender hstate hbits hsound hreceived hentry hfull hfollows
    obtain ⟨v, hv, hfollow⟩ := verdict_follows hsender hfollows
    have htaken := takeSegment_outclaims (s := s.lineQuiet) seg hclaiming hsender hv hfollow
    have hmute : s.floor.state ≠ .mute := by simp [hclaiming]
    have hheard := ((completeFrame_tenure hsound hstate hbits hreceived hsender hmute rfl).trans
      (congrArg boundaryIfBetween htaken)).trans
      (boundaryIfBetween_quiet (by exact hentry) (by exact hfull) (outclaimed_not_mute _ hmute))
    refine ⟨_, exec_eq_next hheard, rfl, follow_epoch_eq hfollow _ _, rfl, rfl, rfl, fun hreporter => ?_, fun hauto => ?_,
      rfl, rfl, rfl, rfl⟩
    · exact ⟨(if_pos hreporter).trans hclaiming, (if_pos hreporter).trans hreporter, if_pos hreporter, if_pos hreporter⟩
    · have hnot : s.floor.origin ≠ some .reporter := by simp [hauto]
      exact ⟨if_neg hnot, if_neg hnot, if_neg hnot, if_neg hnot⟩

/-- Settles O52: the frames that name their sender first, then a HANDOVER by its successor; every demotion goes through
`completeFrame_leaves`, every stale frame through `completeFrame_stale`. -/
theorem newerTenureDemotesLiveStation : Obligations.NewerTenureDemotesLiveStation := by
  refine ⟨?_, ?_⟩
  · intro s sender epoch viewEpoch frame hframe htenures hsender hstate hbits hsound hreceived hview
    have htenure := inTenure_of_state htenures
    have hnames := namesSender_of_frame hframe
    refine ⟨fun hdemotes => ?_, fun hstale hentry hfull => ?_⟩
    · obtain ⟨v, hv, hfollow⟩ := verdict_follows hsender (follows_of_view hview hdemotes)
      have htaken := takeSenderFrame_demotes (s := s.lineQuiet) hnames htenure hsender hv hfollow
      have hheard := (completeFrame_tenure hsound hstate hbits hreceived hsender (not_mute_of_inTenure htenure)
        hnames.tenure).trans (congrArg boundaryIfBetween htaken)
      obtain ⟨t, ht, hfloor, hfeed, -, htail, hcontext, hreplay, hintake, hport, -, hattn⟩ :=
        completeFrame_leaves hheard (.inl rfl)
      have hfeed' : t.feed = _ := hfeed.trans (closeTenure_eq s.feed)
      refine ⟨t, ht, ?_, ?_, ?_, ?_, ?_, ?_, ?_, ?_, ?_, ?_, ?_, ?_, ?_, htail, hcontext, hreplay, hintake, hport, hattn⟩
      · rw [hfloor]; rfl
      · rw [hfloor]; rfl
      · rw [hfloor]; exact follow_epoch_eq hfollow _ _
      · rw [hfloor]; rfl
      · rw [hfloor]; rfl
      · rw [hfloor]; rfl
      · rw [hfloor]; rfl
      · rw [hfloor]; rfl
      all_goals rw [hfeed']
    · refine exec_eq_next (completeFrame_stale hsound hstate hbits hreceived hsender hnames.tenure htenure ?_ hentry hfull)
      rw [hnames.candidate]
      exact verdict_stale hview hsender hstale
  · intro s sender h viewEpoch htenures hsender hstate hbits hreceived hview hlive quiet view closed demoted leaves
    have htenure := inTenure_of_state htenures
    have hmute := not_mute_of_inTenure htenure
    have hheard := heard_handover hmute hsender hstate hbits hreceived
    have hclosed : s.feed.closeTenure = closed := closeTenure_eq s.feed
    have hdemoted (live : Option Station) : s.floor.demoted (h.view live) = demoted live := demoted_own _ hlive
    have hnewer (hn : epochNewer h.epoch viewEpoch = true) :
        ∀ e, s.floor.view.epoch = some e → epochNewer h.epoch e = true := by
      rw [hview]
      rintro _ ⟨⟩
      exact hn
    refine ⟨fun y hy hother hfollows => ?_, fun hme hn => ?_, fun hnone hn => ⟨fun harmed => ?_, fun harmed => ?_⟩,
      fun hentry hfull => ⟨fun hepoch hme => ?_, fun hepoch hnone => ?_, fun hstale => ?_⟩⟩
    · have htaken := takeHandover_demotes (s := s.lineQuiet) (sender := sender) htenure hy hother
        (follows_of_view hview (hfollows.imp_right fun ⟨he, hlt⟩ => ⟨he, hlive, hlt⟩))
      rw [← hdemoted, ← hclosed]
      exact completeFrame_leaves (hheard.trans (congrArg boundaryIfBetween htaken)) (.inl rfl)
    · have htaken := takeHandover_declines (s := s.lineQuiet) (sender := sender) htenure hme (hnewer hn)
      rw [← hdemoted, ← hclosed]
      exact completeFrame_leaves (hheard.trans (congrArg boundaryIfBetween htaken)) (.inl rfl)
    · have hkept : (s.floor.demoted (h.view none)).armed = false := by
        rw [hdemoted]
        exact harmed
      have htaken := takeHandover_unclaimed (s := s.lineQuiet) (sender := sender) htenure hnone (hnewer hn) hkept
      rw [← hdemoted, ← hclosed]
      exact completeFrame_leaves (hheard.trans (congrArg boundaryIfBetween htaken)) (.inl rfl)
    · have hkept : (s.floor.demoted (h.view none)).armed = true := by
        rw [hdemoted]
        exact harmed
      have htaken := takeHandover_claims (s := s.lineQuiet) (sender := sender) htenure hnone (hnewer hn) hkept
      rw [← hdemoted, ← hclosed]
      exact completeFrame_leaves (hheard.trans (congrArg boundaryIfBetween htaken)) (.inr rfl)
    · have htaken := takeHandover_refreshes (s := s.lineQuiet) (sender := sender) htenure (hepoch ▸ hview) hlive hme
      exact exec_eq_next ((hheard.trans (congrArg boundaryIfBetween htaken)).trans
        (boundaryIfBetween_quiet (by exact hentry) (by exact hfull) (by exact hmute)))
    · have hv : verdict s.station s.floor.view (some h.epoch) ((Frame.handover h).candidate sender) = .ignored := by
        rw [verdict_same (hepoch ▸ hview), hlive, Frame.candidate, hnone]
        rfl
      exact exec_eq_next ((hheard.trans (congrArg boundaryIfBetween (takeTenureFrame_ignored (s := s.lineQuiet) hv))).trans
        (boundaryIfBetween_quiet (by exact hentry) (by exact hfull) (by exact hmute)))
    · have hv : verdict s.station s.floor.view (some h.epoch) ((Frame.handover h).candidate sender) = .stale := by
        rcases hstale with ⟨hne, holder⟩ | ⟨hepoch, y, hy, hhigher⟩
        · exact verdict_older hview hne holder
        · rw [Frame.candidate, hy]
          exact verdict_stale hview (ne_of_gt hhigher) (.inr ⟨hepoch, hlive, hhigher⟩)
      exact exec_eq_next (completeFrame_stale (f := .handover h) trivial hstate hbits hreceived hsender rfl htenure hv
        hentry hfull)

end Sys2Proof.Proofs
end

section
/-! SUPPORT. The four stages that form a segment's text and the context after it (R72 to R77), one equation per case. -/

namespace Sys2Proof.Machine

section SegmentStages
variable {labels : Vector (List Byte) 16} {d : Descriptor} {c : Context}

theorem formSegment_running (h : d.isParagraph = false) :
    formSegment labels d c = (separatorStage d c ++ capitalStage d c, updateStage d c) := by
  simp [formSegment, h]

theorem formSegment_paragraph (h : d.isParagraph = true) :
    formSegment labels d c =
      ((paragraphStage labels d c).1 ++ capitalStage d (paragraphStage labels d c).2,
        updateStage d (paragraphStage labels d c).2) := by
  simp [formSegment, h]

/-- Stage 4 starts from the context that stage 1 left; a running entry has no stage 1. -/
theorem formSegment_context :
    (formSegment labels d c).2 = updateStage d (if d.isParagraph then (paragraphStage labels d c).2 else c) := by
  cases h : d.isParagraph with
  | false => rw [formSegment_running h]; rfl
  | true => rw [formSegment_paragraph h]; rfl

/-- R75: the space stands for a body that none of the four reasons keeps from it. -/
theorem separatorStage_eq (d : Descriptor) (c : Context) :
    separatorStage d c =
      if d.body ≠ [] ∧ ¬(c.attachPending = true ∨ d.attachBefore = true ∨ (d.glue = true ∧ c.glueLast = true)
        ∨ c.atParaStart = true) then [0x20#8] else [] := by
  have hbars : (d.body.isEmpty || c.attachPending || d.attachBefore || (d.glue && c.glueLast) || c.atParaStart) = true
      ↔ ¬(d.body ≠ [] ∧ ¬(c.attachPending = true ∨ d.attachBefore = true ∨ (d.glue = true ∧ c.glueLast = true)
        ∨ c.atParaStart = true)) := by
    simp only [Bool.or_eq_true, Bool.and_eq_true, List.isEmpty_iff]
    tauto
  rw [separatorStage, if_congr hbars rfl rfl, ite_not]

theorem separatorStage_empty (h : d.body = []) : separatorStage d c = [] := by
  simp [separatorStage, h]

theorem capitalStage_empty (h : d.body = []) : capitalStage d c = [] := by
  simp [capitalStage, h]

theorem capitalStage_cons {first : Byte} {rest : List Byte} (h : d.body = first :: rest) :
    capitalStage d c = (if c.capNext && !d.raw then raiseLetter first else first) :: rest := by
  simp [capitalStage, h]

theorem raiseLetter_lower {b : Byte} (hlow : 0x61 ≤ b.toNat) (hhigh : b.toNat ≤ 0x7A) :
    raiseLetter b = b - 0x20#8 :=
  if_pos ⟨hlow, hhigh⟩

theorem raiseLetter_other {b : Byte} (h : b.toNat < 0x61 ∨ 0x7A < b.toNat) : raiseLetter b = b :=
  if_neg (by omega)

/-- Without a body stage 4 leaves a pending capital, and the paragraph's start, to the next text. -/
theorem updateStage_empty (h : d.body = []) :
    updateStage d c =
      { c with attachPending := d.attachAfter, glueLast := d.glue, capNext := d.capNext || c.capNext } := by
  cases hcap : d.capNext <;> simp [updateStage, h, hcap]

/-- R74: the label speaker is the entry's own, and the turn's when the entry names none. -/
def labelSpeaker (d : Descriptor) (c : Context) : Option (Fin 16) :=
  if d.speaker.isSome then d.speaker else c.speaker

theorem labelText_eq (labels : Vector (List Byte) 16) (speaker : Option (Fin 16)) :
    labelText labels speaker = match speaker with | some k => labels[k] | none => [] := by
  cases speaker with
  | none => rfl
  | some k => rfl

/-- R73, R74: the break, then the label with its colon and space, which alone raises the next letter. -/
theorem paragraphStage_eq (labels : Vector (List Byte) 16) (d : Descriptor) (c : Context) :
    let label := labelText labels (labelSpeaker d c)
    paragraphStage labels d c =
      ((if c.atParaStart then [] else [0x0A#8, 0x0A#8]) ++ (if label = [] then [] else label ++ [0x3A#8, 0x20#8]),
        { c with
          atParaStart := true
          speaker := labelSpeaker d c
          capNext := if label = [] then c.capNext else true }) := by
  intro label
  by_cases h : label = []
  · rw [if_pos h, if_pos h, List.append_nil]
    exact if_pos (List.isEmpty_iff.mpr h)
  · rw [if_neg h, if_neg h, ← List.append_assoc]
    exact if_neg (h ∘ List.isEmpty_iff.mp)

end SegmentStages

end Sys2Proof.Machine
end

section
/-! The statements of segment text and the format context, settled. -/

namespace Sys2Proof.Proofs

open Sys2Proof.Machine

/-- Settles O36: stage 4 sets every field from the descriptor and the context that stage 1 left. -/
theorem contextAfterSegment : Obligations.ContextAfterSegment := by
  intro labels d c c1 t
  have ht : t = updateStage d c1 := formSegment_context
  rw [ht]
  cases hbody : d.body <;> simp [updateStage, hbody]

/-- Settles O35: a running entry has stages 2 to 4 alone, and an empty body empties both parts of its text. -/
theorem separatorOfRunningEntry : Obligations.SeparatorOfRunningEntry := by
  intro labels d c hrunning separator
  have hform := formSegment_running (labels := labels) (c := c) hrunning
  refine ⟨?_, capitalStage_length d c, fun hbody => ?_⟩
  · rw [hform, separatorStage_eq]
  · rw [hform, separatorStage_empty hbody, capitalStage_empty hbody, updateStage_empty hbody, List.append_nil]

/-- Settles O37: stage 1 by whether the label speaker's label is empty, stage 3 by what raises the first letter. -/
theorem paragraphLabelAndCapital : Obligations.ParagraphLabelAndCapital := by
  refine ⟨fun labels d c hpara => ?_, fun d c first rest hbody => ⟨fun hcap hraw hlow hhigh => ?_, fun hkeep => ?_⟩⟩
  · intro speaker label lines
    have hlabel : labelText labels speaker = label := labelText_eq labels speaker
    have hstage := paragraphStage_eq labels d c
    rw [show labelSpeaker d c = speaker from rfl, hlabel] at hstage
    exact ⟨congrArg Prod.fst hstage, congrArg Prod.snd hstage, congrArg Prod.fst (formSegment_paragraph hpara)⟩
  · rw [capitalStage_cons hbody, hcap, hraw]
    exact congrArg (· :: rest) (raiseLetter_lower hlow hhigh)
  · rw [capitalStage_cons hbody]
    rcases hkeep with hcap | hraw | hother
    · simp [hcap]
    · simp [hraw]
    · rw [raiseLetter_other hother, ite_self]

end Sys2Proof.Proofs
end

section
/-! SUPPORT. The line reading by reading (R101 to R111), a character's levels and the CRC over its own bytes (R102,
R122), frame assembly (R104 to R106), the start of transmission (R110, R141) and the end of integration (R116, R181). -/

namespace Sys2Proof.Machine

section Readings
variable {s : State}

theorem count_idle (level : Level) (l : LineInterface) : (l.count level).idle =
    match level with | .released => min 33 (l.idle + 1) | .driven => 0 := by
  cases level <;> rfl

theorem count_driven (level : Level) (l : LineInterface) : (l.count level).driven =
    match level with | .released => 0 | .driven => min 23 (l.driven + 1) := by
  cases level <;> rfl

/-- The line after a reading has been counted, with the reception and the comparison as they then stand (R101). -/
def LineInterface.read (level : Level) (state : LineState) (bits : List Level) (readBack : Nat) (mismatch : Bool)
    (l : LineInterface) : LineInterface :=
  { l.count level with state := state, charBits := bits, readBack := readBack, mismatch := mismatch }

/-- A reading that only counts. -/
theorem read_count (level : Level) (l : LineInterface) :
    l.count level = l.read level l.state l.charBits l.readBack l.mismatch := by
  cases level <;> rfl

/-- What a reading leaves as it was: the counts of errors and collisions, the flags and the rate. -/
theorem read_frame (level : Level) (state : LineState) (bits : List Level) (readBack : Nat) (mismatch : Bool)
    (l : LineInterface) :
    (l.read level state bits readBack mismatch).errors = l.errors
      ∧ (l.read level state bits readBack mismatch).collisions = l.collisions
      ∧ (l.read level state bits readBack mismatch).rate = l.rate
      ∧ (l.read level state bits readBack mismatch).hunting = l.hunting
      ∧ (l.read level state bits readBack mismatch).integrated = l.integrated := by
  cases level <;> exact ⟨rfl, rfl, rfl, rfl, rfl⟩

theorem startsChar_iff (level : Level) (l : LineInterface) :
    startsChar level l = true ↔ level = .driven ∧ 0 < l.idle := by
  simp [startsChar]

theorem readLine_idle_start {level : Level} (hended : s.startup.ended = true) (hstate : s.line.state = .idle)
    (hstart : startsChar level s.line = true) : readLine level s =
      s.setLine (s.line.read level .receiving [level] s.line.readBack s.line.mismatch) := by
  rw [readLine, if_pos hended, hstate]
  dsimp only
  rw [if_pos hstart, read_count]
  rfl

theorem readLine_receiving {level : Level} (hended : s.startup.ended = true) (hstate : s.line.state = .receiving) :
    readLine level s = s.setLine (s.line.receive level) := by
  rw [readLine, if_pos hended, hstate]

theorem readLine_transmitting {level : Level} (hended : s.startup.ended = true)
    (hstate : s.line.state = .transmitting) :
    readLine level s = s.setLine (s.line.compare level (bitSent s) (sendingLevels s).length) := by
  rw [readLine, if_pos hended, hstate]

theorem receive_start {level : Level} {l : LineInterface} (hbits : l.charBits = []) (hstart : startsChar level l = true)
    (hdone : frameDone l.received = false) :
    l.receive level = l.read level l.state [level] l.readBack l.mismatch := by
  rw [LineInterface.receive, hbits, hstart, hdone, read_count]
  rfl

theorem receive_bit (level : Level) {l : LineInterface} (hbits : l.charBits ≠ []) (hroom : l.charBits.length < 11) :
    l.receive level = l.read level l.state (l.charBits ++ [level]) l.readBack l.mismatch := by
  rw [LineInterface.receive, if_neg (by simpa using hbits), if_pos hroom, read_count]
  rfl

theorem compare_sent {level sent : Level} {total : Nat} {l : LineInterface} (hmatch : l.mismatch = false)
    (hunread : l.readBack < total) : l.compare level sent total =
      if level = sent then l.read level l.state l.charBits (l.readBack + 1) false
      else l.read level l.state l.charBits l.readBack true := by
  rw [LineInterface.compare, if_neg (by simp [hmatch, hunread]), read_count, hmatch]
  rfl

/-- Whatever the line state, a reading counts, and moves at most the reception and the comparison (R101, R104, R111). -/
theorem readLine_reads (level : Level) (hended : s.startup.ended = true) :
    ∃ state bits readBack mismatch, readLine level s = s.setLine (s.line.read level state bits readBack mismatch) := by
  cases hstate : s.line.state with
  | integrating | fault =>
    refine ⟨s.line.state, s.line.charBits, s.line.readBack, s.line.mismatch, ?_⟩
    rw [← read_count, readLine, if_pos hended, hstate]
  | idle =>
    cases hstart : startsChar level s.line with
    | true => exact ⟨_, _, _, _, readLine_idle_start hended hstate hstart⟩
    | false =>
      refine ⟨s.line.state, s.line.charBits, s.line.readBack, s.line.mismatch, ?_⟩
      rw [← read_count, readLine, if_pos hended, hstate, hstart]
      rfl
  | receiving =>
    rw [readLine_receiving hended hstate, LineInterface.receive, read_count]
    (repeat' split) <;> exact ⟨_, _, _, _, rfl⟩
  | transmitting =>
    rw [readLine_transmitting hended hstate, LineInterface.compare, read_count]
    (repeat' split) <;> exact ⟨_, _, _, _, rfl⟩

end Readings

section Characters

/-- The bits of a byte, most significant first, read as a number again (R102). -/
theorem foldl_getMsbD {w : Nat} (b : BitVec w) (n : Nat) (hn : n ≤ w) :
    (List.range n).foldl (fun acc i => acc * 2 + (b.getMsbD i).toNat) 0 = b.toNat >>> (w - n) := by
  induction n with
  | zero =>
    rw [List.range_zero, List.foldl_nil, Nat.sub_zero, Nat.shiftRight_eq_div_pow, Nat.div_eq_of_lt b.isLt]
  | succ n ih =>
    have hbit : b.getMsbD n = b.toNat.testBit (w - (n + 1)) := by
      rw [BitVec.getMsbD_eq_getLsbD, BitVec.getLsbD, decide_eq_true (by omega), Bool.true_and]
      congr 1
      omega
    have hsucc : w - n = w - (n + 1) + 1 := by omega
    rw [List.range_succ, List.foldl_append, ih (by omega), List.foldl_cons, List.foldl_nil, hbit, hsucc,
      Nat.shiftRight_succ, Nat.testBit_eq_decide_div_mod_eq, ← Nat.shiftRight_eq_div_pow]
    rcases Nat.mod_two_eq_zero_or_one (b.toNat >>> (w - (n + 1))) with h | h <;> simp [h] <;> omega

theorem charLevels_length (value : Byte) (leadMark : Bool) : (charLevels value leadMark).length = 11 := rfl

theorem charValue_charLevels (value : Byte) (leadMark : Bool) : charValue (charLevels value leadMark) = value := by
  have hdata : ((charLevels value leadMark).drop 1).take 8 =
      (List.range 8).map fun i => if value.getMsbD i then .released else .driven := rfl
  have hbit (i : Nat) : (if (if value.getMsbD i then Level.released else .driven) == .released then 1 else 0) =
      (value.getMsbD i).toNat := by
    cases value.getMsbD i <;> rfl
  rw [charValue, hdata, List.foldl_map]
  simp only [hbit]
  rw [foldl_getMsbD value 8 le_rfl]
  simp

theorem charMark_charLevels (value : Byte) (leadMark : Bool) : charMark (charLevels value leadMark) = leadMark := by
  cases leadMark <;> rfl

theorem charStopGood_charLevels (value : Byte) (leadMark : Bool) : charStopGood (charLevels value leadMark) = true :=
  rfl

end Characters

section Crc

theorem crcShift_of_getMsb {r : BitVec 16} (h : r.msb = false) : crcShift r = r <<< 1 := by
  rw [crcShift, h]
  rfl

/-- A register whose high byte is 0 meets no carry in the eight shifts of a character. -/
theorem repeat_crcShift_low {r : BitVec 16} (hlow : ∀ i, 8 ≤ i → r.getLsbD i = false) (n : Nat) (hn : n ≤ 8) :
    Nat.repeat crcShift n r = r <<< n := by
  induction n with
  | zero => exact (BitVec.shiftLeft_zero r).symm
  | succ n ih =>
    have hmsb : (r <<< n).msb = false := by
      rw [BitVec.msb_eq_getLsbD_last, BitVec.getLsbD_shiftLeft, hlow _ (by omega), Bool.and_false]
    show crcShift (Nat.repeat crcShift n r) = _
    rw [ih (by omega), crcShift_of_getMsb hmsb, BitVec.shiftLeft_add]

theorem crcByte_high (r : BitVec 16) : crcByte r (r.extractLsb' 8 8) = r <<< 8 := by
  have hlow (i : Nat) (hi : 8 ≤ i) :
      (r ^^^ ((r.extractLsb' 8 8).setWidth 16 <<< 8)).getLsbD i = false := by
    by_cases h : i < 16
    · have hsub : i - 8 < 8 := by omega
      simp [hi, h, hsub]
    · exact BitVec.getLsbD_of_ge _ _ (by omega)
  rw [crcByte, repeat_crcShift_low hlow 8 le_rfl]
  ext i hi
  by_cases h : i < 8
  · simp [h]
  · have hsub : i - 8 < 8 := by omega
    simp [h, hsub]

/-- The CRC taken on over its own two characters shifts the register out whole (R122). -/
theorem crcByte_own (r : BitVec 16) : crcByte (crcByte r (r.extractLsb' 8 8)) (r.extractLsb' 0 8) = 0 := by
  have hlow : (r.extractLsb' 0 8).setWidth 16 <<< 8 = r <<< 8 := by
    ext i hi
    by_cases h : i < 8
    · simp [h]
    · have hsub : i - 8 < 8 := by omega
      simp [h, hsub, BitVec.getLsbD_eq_getElem (show i - 8 < 16 by omega)]
  rw [crcByte_high, crcByte, hlow, BitVec.xor_self, repeat_crcShift_low (fun _ _ => BitVec.getLsbD_zero) 8 le_rfl,
    BitVec.zero_shiftLeft]
  rfl

theorem crc_own (chars : List Byte) : crc (chars ++ be16 (crc chars)) = 0 := by
  have hown : crc (chars ++ be16 (crc chars)) =
      crcByte (crcByte (crc chars) ((crc chars).extractLsb' 8 8)) ((crc chars).extractLsb' 0 8) :=
    List.foldl_append
  rw [hown, crcByte_own]

end Crc

section Assembly
variable {l : LineInterface}

theorem takeChar_framingError (h : charStopGood l.charBits = false) : l.takeChar = l.framingError := by
  rw [LineInterface.takeChar, h]
  rfl

theorem takeChar_lead (hstop : charStopGood l.charBits = true) (hmark : charMark l.charBits = true) :
    l.takeChar = { l with
      received := [charValue l.charBits], charBits := [], hunting := false
      errors := if l.received = [] then l.errors else min 65535 (l.errors + 1) } := by
  rw [LineInterface.takeChar, hstop, hmark]
  by_cases hreceived : l.received = []
  · simp [LineInterface.beginFrame, hreceived]
  · simp [LineInterface.beginFrame, LineInterface.countError, saturate, hreceived]

theorem takeChar_discarded (hstop : charStopGood l.charBits = true) (hmark : charMark l.charBits = false)
    (hreceived : l.received = []) : l.takeChar = { l with
      state := .idle, charBits := [], hunting := true
      errors := if l.hunting then l.errors else min 65535 (l.errors + 1) } := by
  rw [LineInterface.takeChar, hstop, hmark, hreceived]
  cases hhunting : l.hunting <;>
    simp [LineInterface.discardChar, LineInterface.countError, saturate, hhunting, hreceived]

theorem takeChar_joins (hstop : charStopGood l.charBits = true) (hmark : charMark l.charBits = false)
    (hreceived : l.received ≠ []) : l.takeChar = l.extendFrame (charValue l.charBits) := by
  simp [LineInterface.takeChar, hstop, hmark, hreceived]

theorem takeCharacter_due {s : State} (hstate : s.line.state = .receiving) (hbits : s.line.charBits.length = 11) :
    takeCharacter s = s.setLine s.line.takeChar :=
  if_pos (by simp [hstate, hbits])

end Assembly

section Beginning
variable {s : State}

/-- The frame as it goes out: a PRESENCE is filled as transmission begins (R141). -/
def Frame.filled (p : Presence) : Frame → Frame
  | .presence _ => .presence (some p)
  | other => other

theorem segmentSeq_filled (p : Presence) (f : Frame) : (f.filled p).segmentSeq = f.segmentSeq := by
  cases f <;> rfl

theorem begun_head (p : Presence) {f : Feed} {head : Frame} {rest : List Frame} (hwaiting : f.waiting = head :: rest) :
    f.begun p = { f with
      waiting := rest
      sending := some { frame := head.filled p, withdrawn := false }
      wireNext :=
        match head.segmentSeq with
        | some q => if seqNewer (q + 1) f.wireNext then q + 1 else f.wireNext
        | none => f.wireNext } := by
  rw [← segmentSeq_filled p head, Feed.begun, hwaiting]
  cases head <;> rfl

theorem beginTransmission_ready (hstate : s.line.state = .idle) (hidle : 14 ≤ s.line.idle)
    (hwaiting : s.feed.waiting ≠ []) (hmute : s.floor.state ≠ .mute) :
    beginTransmission s = (s.setFeed (s.feed.begun (presenceFields s))).setLine
      { s.line with state := .transmitting, readBack := 0, mismatch := false } :=
  if_pos (by simp [transmitReady, hstate, hidle, hwaiting, hmute])

end Beginning

section Integration
variable {s : State}

theorem loadClaimWindow_off (h : s.floor.state ≠ .claiming) : loadClaimWindow s = s :=
  if_neg (by simp [h])

theorem endIntegration_fault (hended : s.startup.ended = true) (hidle : 33 ≤ s.line.idle)
    (hstate : s.line.state = .fault) :
    endIntegration s = s.setLine { s.line with state := .idle, hunting := false } := by
  rw [endIntegration, if_pos (by simp [hended, hidle]), hstate]

/-- The line once start-up integration has ended (R116, R181). -/
def LineInterface.integrationOver (l : LineInterface) : LineInterface :=
  { l with state := .idle, hunting := false, integrated := true }

theorem endIntegration_startup (hended : s.startup.ended = true) (hidle : 33 ≤ s.line.idle)
    (hstate : s.line.state = .integrating) :
    endIntegration s = integrationReported (s.setLine s.line.integrationOver) := by
  rw [endIntegration, if_pos (by simp [hended, hidle]), hstate]
  rfl

theorem integrationReported_line (s : State) : (integrationReported s).line = s.line := by
  unfold integrationReported
  dsimp only
  split <;> simp

theorem integrationReported_waits (hstandby : s.floor.state = .standby)
    (h : s.floor.armed = false ∨ s.floor.view.live ≠ none) : integrationReported s =
      s.setFloor { s.floor with presenceTimer := some (4 * s.floor.presencePeriod) } := by
  have hload : loadPresence s = s.setFloor { s.floor with presenceTimer := some (4 * s.floor.presencePeriod) } := by
    rw [loadPresence, Floor.presenceLoad, hstandby]
  rw [integrationReported, hload, loadClaimWindow_off (by simp [hstandby])]
  refine if_neg ?_
  rcases h with h | h <;> simp [h]

theorem integrationReported_claims (hstandby : s.floor.state = .standby) (harmed : s.floor.armed = true)
    (hvacant : s.floor.view.live = none) : integrationReported s =
      (s.setFloor { s.floor with
        state := .claiming, origin := some .auto, presenceTimer := some s.floor.presencePeriod
        claimTimer := s.floor.windowLoaded s.line.integrated }).setFeed
        (s.feed.offerClaim (.claim s.floor.view.epoch false)) := by
  rw [integrationReported, loadClaimWindow_off (by simp [loadPresence, hstandby])]
  dsimp only
  rw [if_pos (by simp [loadPresence, hstandby, harmed, hvacant]), enterClaiming_eq]
  rfl

theorem integrationReported_claiming (hclaiming : s.floor.state = .claiming) : integrationReported s =
    s.setFloor { s.floor with
      presenceTimer := some s.floor.presencePeriod, claimTimer := s.floor.windowLoaded s.line.integrated } := by
  have hload : loadPresence s = s.setFloor { s.floor with presenceTimer := some s.floor.presencePeriod } := by
    rw [loadPresence, Floor.presenceLoad, hclaiming]
  rw [integrationReported, hload, loadClaimWindow_eq (by exact hclaiming)]
  exact if_neg (by simp [hclaiming])

theorem windowLoaded_vacant {f : Floor} (hvacant : f.view.live = none) (htimer : f.claimTimer = none) :
    f.windowLoaded true = some f.claimWindow :=
  if_pos ⟨hvacant, rfl, htimer⟩

end Integration

end Sys2Proof.Machine
end

section
/-! SUPPORT. Replay beside the ring (R139, R149, R151), and a valid frame as it is handed on (R105, R108, R109). -/

namespace Sys2Proof.Machine

section Replay
variable {f : Feed}

theorem oldest_eq_none (h : f.ring = []) : f.oldest = none := by
  rw [Feed.oldest, h]
  rfl

/-- The ring as an append to a full one leaves it: the oldest entry has gone, and the cursor and the pending GAP are as
given (R139, R151). -/
theorem push_full (body : SegmentBody) (time : Clock) {dropped oldest : Segment} {rest : List Segment}
    (hring : f.ring = dropped :: oldest :: rest) (hfull : f.ring.length = 128) :
    f.push body time =
      let grown := { f with
        ring := oldest :: rest ++ [{ seq := f.nextSeq, body := body, time := time }], nextSeq := f.nextSeq + 1 }
      if f.cursor = some dropped.seq then
        { grown with
          cursor := some oldest.seq
          gap := some { fromSeq := (f.gap.map GapRun.fromSeq).getD dropped.seq, toSeq := oldest.seq } }
      else grown := by
  have hplaces : ¬(dropped :: oldest :: rest).length < Config.ringPlaces := by
    rw [← hring, hfull]
    exact Nat.lt_irrefl 128
  rw [Feed.push, hring]
  dsimp only
  rw [if_neg hplaces]
  rfl

theorem rewind_unasked {q : Seq} (h : seqOlder q f.nextSeq = false) : f.rewind q = f :=
  if_pos (by simp [h])

/-- The seq a GAP for a rewind to `q` begins at: that of a pending GAP when it is older (R149). -/
def Feed.gapFrom (q : Seq) (f : Feed) : Seq :=
  match f.gap with
  | some g => if seqOlder g.fromSeq q then g.fromSeq else q
  | none => q

/-- A rewind to a seq older than N, by where the ring begins (R149). -/
theorem rewind_asked {q : Seq} (h : seqOlder q f.nextSeq = true) : f.rewind q =
    match f.oldest with
    | none => { f with gap := some { fromSeq := f.gapFrom q, toSeq := f.nextSeq }, cursor := none }
    | some oldest =>
      if seqOlder q oldest then
        { f with gap := some { fromSeq := f.gapFrom q, toSeq := oldest }, cursor := some oldest }
      else
        match f.cursor with
        | some k => if seqNewer k q then { f with cursor := some q } else f
        | none => { f with cursor := some q } := by
  rw [Feed.rewind, if_neg (by simp [h])]
  rfl

theorem rewind_emptyRing {q : Seq} (h : seqOlder q f.nextSeq = true) (hring : f.ring = []) :
    f.rewind q = { f with gap := some { fromSeq := f.gapFrom q, toSeq := f.nextSeq }, cursor := none } := by
  rw [rewind_asked h, oldest_eq_none hring]

theorem rewind_beforeRing {q oldest : Seq} (h : seqOlder q f.nextSeq = true) (holdest : f.oldest = some oldest)
    (hbefore : seqOlder q oldest = true) :
    f.rewind q = { f with gap := some { fromSeq := f.gapFrom q, toSeq := oldest }, cursor := some oldest } := by
  rw [rewind_asked h, holdest]
  exact if_pos hbefore

theorem rewind_inRing {q oldest : Seq} (h : seqOlder q f.nextSeq = true) (holdest : f.oldest = some oldest)
    (hin : seqOlder q oldest = false) : f.rewind q =
      match f.cursor with
      | some k => if seqNewer k q then { f with cursor := some q } else f
      | none => { f with cursor := some q } := by
  rw [rewind_asked h, holdest]
  exact if_neg (by simp [hin])

end Replay

section RewindHeard
variable {s : State}

/-- A boundary in MUTE with an empty tail does nothing either (R44, R66). -/
theorem boundaryIfBetween_idle (hentry : s.engine.settleOnEntry = false) (hfull : s.engine.fullSettle = false)
    (htail : s.floor.state = .mute → s.engine.tail = []) : boundaryIfBetween s = s := by
  by_cases hmute : s.floor.state = .mute
  · have hsettled : settleLocal s = s := by
      rw [settleLocal, ← htail hmute]
      exact State.setEngine_self s
    rw [boundaryIfBetween, boundaryWork_mute hfull hmute hentry, hsettled, ite_self]
  · exact boundaryIfBetween_quiet hentry hfull hmute

/-- A valid frame in reception is handed on with the line idle (R105, R108). -/
theorem completeFrame_valid {lead : Byte} {rest : List Byte} (hstate : s.line.state = .receiving)
    (hbits : s.line.charBits = []) (hreceived : s.line.received = lead :: rest)
    (hdone : frameDone s.line.received = true) (hvalid : frameValid lead rest = true) :
    completeFrame s = boundaryIfBetween (handOn lead rest s.lineQuiet) := by
  rw [completeFrame, if_pos (by simp [hstate, hbits, hdone]), hreceived]
  exact if_pos hvalid

/-- A REWIND is no tenure frame, and not a duplicate whatever its sender (R109). -/
theorem handOn_rewind (sender : Station) (q : Seq) (s : State) :
    handOn (leadByte 8 sender) (Frame.rewind q).afterLead s =
      if s.floor.state = .live then s.setFeed (s.feed.rewind q) else s := by
  have hfloor : floorTakes sender (.rewind q) s = s := ite_self s
  have hparse : parseFrame 8 (Frame.rewind q).body = some (.rewind q) := parse_body (f := .rewind q) trivial
  rw [handOn, leadKind_leadByte sender (by omega), if_neg (by simp), frameBody_afterLead, hparse,
    leadStation_leadByte sender (by omega)]
  dsimp only
  rw [hfloor, feedTakes]
  simp only [beq_iff_eq]

theorem completeFrame_rewind {sender : Station} {q : Seq} (hstate : s.line.state = .receiving)
    (hbits : s.line.charBits = []) (hreceived : s.line.received = (Frame.rewind q).chars sender) :
    completeFrame s = boundaryIfBetween
      (if s.floor.state = .live then s.lineQuiet.setFeed (s.feed.rewind q) else s.lineQuiet) := by
  have hdone : frameDone s.line.received = true := by
    rw [hreceived]
    exact frameDone_chars (f := .rewind q) sender trivial
  rw [completeFrame_valid hstate hbits hreceived hdone (frameValid_chars (f := .rewind q) sender trivial)]
  exact congrArg boundaryIfBetween (handOn_rewind sender q s.lineQuiet)

end RewindHeard

end Sys2Proof.Machine
end

section
/-! SUPPORT. MUTE: what entering it leaves (R119, R155, R176), and how every command but RESET keeps it, with the feed
unchanged while no frame is in transmission. -/

namespace Sys2Proof.Machine

section Muted
variable {s : State}

/-- In MUTE the boundary work can only empty the tail and clear the flags (R64 to R66). -/
theorem boundaryWork_muted (hmute : s.floor.state = .mute) :
    ∃ e : Engine, boundaryWork s = s.setEngine e ∧ e.tail = [] := by
  obtain ⟨e, hentry, -⟩ := settleOnEntry_engine s
  obtain ⟨flag, hfull⟩ := fullSettle_outside (s := s.setEngine e) (by simp [hmute])
  refine ⟨{ e with fullSettle := flag, tail := [] }, ?_, rfl⟩
  rw [boundaryWork, hentry, hfull, settleMute]
  exact if_pos (by simp [hmute])

theorem boundaryIfBetween_muted (hmute : s.floor.state = .mute) :
    ∃ e : Engine, boundaryIfBetween s = s.setEngine e ∧ (s.engine.step = none → e.tail = [])
      ∧ ∀ r ∈ e.tail, r ∈ s.engine.tail := by
  by_cases hstep : s.engine.step = none
  · obtain ⟨e, hwork, htail⟩ := boundaryWork_muted hmute
    exact ⟨e, by rw [boundaryIfBetween, hstep]; exact hwork, fun _ => htail, by simp [htail]⟩
  · exact ⟨s.engine, by simp [boundaryIfBetween, hstep], fun h => absurd h hstep, fun _ hr => hr⟩

theorem enterMute_again (hmute : s.floor.state = .mute) : enterMute s = s :=
  if_pos (by simp [hmute])

/-- The floor of a station that has entered MUTE: nothing pending, every timer stopped (R176). -/
def Floor.muted (f : Floor) : Floor :=
  { f with
    state := .mute, presenceTimer := none, absenceTimer := none, claimTimer := none, claimant := none
    origin := none, keptBack := none }

theorem enterMute_eq (hmute : s.floor.state ≠ .mute) : enterMute s =
    (((s.setFloor s.floor.muted).setLine s.line.abandon).setFeed s.feed.mute).setEngine s.engine.leaveTenure :=
  if_neg (by simpa using hmute)

/-- Entry to MUTE with the boundary work that follows when no step is in flight: the tail has lost its seqs (R63, R66,
R119, R155, R176). -/
theorem enterMute_boundary (hmute : s.floor.state ≠ .mute) : ∃ e : Engine,
    boundaryIfBetween (enterMute s) =
        (((s.setFloor s.floor.muted).setLine s.line.abandon).setFeed s.feed.mute).setEngine e
      ∧ (s.engine.step = none → e.tail = []) ∧ ∀ r ∈ e.tail, r.seq = none := by
  obtain ⟨e, hwork, htail, hkept⟩ := boundaryIfBetween_muted
    (s := (((s.setFloor s.floor.muted).setLine s.line.abandon).setFeed s.feed.mute).setEngine s.engine.leaveTenure) rfl
  rw [enterMute_eq hmute]
  exact ⟨e, hwork, htail, fun r hr => leave_seqs s.engine r (hkept r hr)⟩

end Muted

section MuteKept

/-- The station is in MUTE with feed `f`. -/
structure MuteAt (f : Feed) (s : State) : Prop where
  state : s.floor.state = .mute
  feed : s.feed = f

variable {f : Feed} {s t : State}

theorem MuteAt.setEngine (h : MuteAt f s) (e : Engine) : MuteAt f (s.setEngine e) :=
  ⟨h.state, h.feed⟩

theorem MuteAt.setPort (h : MuteAt f s) (p : Port) : MuteAt f (s.setPort p) :=
  ⟨h.state, h.feed⟩

theorem MuteAt.setIntake (h : MuteAt f s) (q : Intake) : MuteAt f (s.setIntake q) :=
  ⟨h.state, h.feed⟩

theorem MuteAt.setLine (h : MuteAt f s) (l : LineInterface) : MuteAt f (s.setLine l) :=
  ⟨h.state, h.feed⟩

theorem MuteAt.setFloor (h : MuteAt f s) {floor : Floor} (hstate : floor.state = .mute) : MuteAt f (s.setFloor floor) :=
  ⟨hstate, h.feed⟩

/-- What leaves the floor and the feed alone keeps the station there. -/
theorem MuteAt.of_frame (h : MuteAt f s) (hfloor : t.floor = s.floor) (hfeed : t.feed = s.feed) : MuteAt f t :=
  ⟨by rw [hfloor, h.state], hfeed.trans h.feed⟩

theorem MuteAt.of_eq (h : MuteAt f s) (heq : t = s) : MuteAt f t :=
  heq ▸ h

/-- The Feed Unit takes no request in MUTE (R144). -/
theorem MuteAt.feedOpen (h : MuteAt f s) : feedOpen s = false := by
  rw [Machine.feedOpen, h.state]
  rfl

theorem MuteAt.handCut (h : MuteAt f s) (q : Seq) : MuteAt f (handCut q s) :=
  h.of_eq (if_neg (by simp [h.feedOpen]))

theorem MuteAt.handSettle (h : MuteAt f s) (boundary : Seq) : MuteAt f (handSettle boundary s) :=
  h.of_eq (if_neg (by simp [h.feedOpen]))

theorem MuteAt.handAppend (h : MuteAt f s) (chars : List Byte) (degraded : Bool) (time : Clock) :
    MuteAt f (handAppend chars degraded time s) :=
  h.of_eq (if_neg (by simp [h.feedOpen]))

theorem MuteAt.handLost (h : MuteAt f s) (count : Nat) (time : Clock) : MuteAt f (handLost count time s) :=
  h.of_eq (if_neg (by simp [h.feedOpen]))

theorem MuteAt.handCutAt (h : MuteAt f s) (point : Option Seq) : MuteAt f (handCutAt point s) := by
  unfold Machine.handCutAt
  split
  · split
    · exact h.handCut _
    · exact h
  · exact h

theorem MuteAt.settleLocal (h : MuteAt f s) : MuteAt f (settleLocal s) :=
  h.setEngine _

theorem MuteAt.refuse (h : MuteAt f s) : MuteAt f (refuse s) :=
  ⟨h.state, h.feed⟩

theorem MuteAt.removeNewest (h : MuteAt f s) (k : Nat) : MuteAt f (removeNewest k s) :=
  h.setEngine _

theorem MuteAt.settleToEnd (h : MuteAt f s) : MuteAt f (settleToEnd s) := by
  unfold Machine.settleToEnd
  split
  · exact h.settleLocal.handSettle _
  · exact h.settleLocal

theorem MuteAt.placeRecord (h : MuteAt f s) (r : Record) (lossFollows : Bool) :
    MuteAt f (placeRecord r lossFollows s) := by
  unfold Machine.placeRecord
  split
  · exact h.setEngine _
  · split
    · exact h.setEngine _
    · dsimp only
      split
      · exact (h.setEngine _).handSettle _
      · exact h.setEngine _

theorem MuteAt.reportGap (h : MuteAt f s) (gap : Nat) (time : Clock) : MuteAt f (reportGap gap time s) := by
  unfold Machine.reportGap
  split
  · exact h
  · split
    · exact h.settleLocal.handLost _ _
    · exact h

theorem MuteAt.boundaryWork (h : MuteAt f s) : MuteAt f (boundaryWork s) := by
  obtain ⟨e, hwork, -⟩ := boundaryWork_muted h.state
  rw [hwork]
  exact h.setEngine e

theorem MuteAt.boundaryIfBetween (h : MuteAt f s) : MuteAt f (boundaryIfBetween s) := by
  unfold Machine.boundaryIfBetween
  split
  · exact h.boundaryWork
  · exact h

theorem MuteAt.endStep (h : MuteAt f s) : MuteAt f (endStep s) :=
  (h.setEngine _).boundaryWork

/-- The engine's steps change the floor and the feed only by requests and by the boundary work. -/
theorem MuteAt.finishStroke (h : MuteAt f s) (k : Nat) (kind : RecordKind) (d : Descriptor) (w : Work) :
    MuteAt f (finishStroke k kind d w s) := by
  have hcut (e : Engine) : MuteAt f (Machine.handCutAt (cutPoint k s) ((Machine.removeNewest k s).setEngine e)) :=
    ((h.removeNewest k).setEngine e).handCutAt _
  unfold Machine.finishStroke
  dsimp only
  refine ((MuteAt.placeRecord ?_ _ _).reportGap _ _).endStep
  split
  · exact (hcut _).handAppend _ _ _
  · exact hcut _

theorem MuteAt.fallback (h : MuteAt f s) (w : Work) : MuteAt f (fallback w s) := by
  unfold Machine.fallback
  split <;> exact h.finishStroke _ _ _ _

theorem MuteAt.lookupFrom (h : MuteAt f s) (n : Nat) (w : Work) : MuteAt f (lookupFrom n w s) := by
  induction n generalizing w with
  | zero => exact h.fallback w
  | succ n ih =>
    rw [Machine.lookupFrom]
    split
    · exact (h.setPort _).setEngine _
    · exact ih _

theorem MuteAt.probeOn (h : MuteAt f s) (key : List StrokeCode) (j : Nat) (w : Work) :
    MuteAt f (probeOn key j w s) := by
  unfold Machine.probeOn
  split
  · exact h.lookupFrom _ _
  · split
    · exact h.lookupFrom _ _
    · exact (h.setPort _).setEngine _

theorem MuteAt.retractStroke (h : MuteAt f s) (time : Clock) : MuteAt f (retractStroke time s) := by
  unfold Machine.retractStroke
  split
  · exact h.refuse
  · refine MuteAt.handCutAt ?_ _
    split
    · exact (h.removeNewest 1).setEngine _
    · exact h.removeNewest 1

theorem MuteAt.wordRetract (h : MuteAt f s) (count : Nat) : MuteAt f (wordRetract count s) := by
  have hcut (k : Nat) : MuteAt f (Machine.handCutAt (cutPoint k s) (Machine.removeNewest k s)) :=
    (h.removeNewest k).handCutAt _
  unfold Machine.wordRetract
  dsimp only
  split
  · exact (hcut _).refuse
  · exact hcut _

theorem MuteAt.takeStroke (h : MuteAt f s) (code : StrokeCode) (time : Clock) (gap : Nat) :
    MuteAt f (takeStroke code time gap s) := by
  unfold Machine.takeStroke
  split
  · exact ((h.retractStroke _).reportGap _ _).endStep
  · exact ((h.wordRetract _).reportGap _ _).endStep
  · exact h.lookupFrom _ _

/-- A MARK item is refused: its tail may settle, but no mark is handed (R58). -/
theorem MuteAt.markItem (h : MuteAt f s) (time : Clock) : MuteAt f (markItem time s) := by
  unfold Machine.markItem
  split
  · dsimp only
    rw [if_neg (by simp [h.settleLocal.feedOpen])]
    exact h.settleLocal.refuse
  · exact h.refuse

theorem MuteAt.takeItem (h : MuteAt f s) (i : Item) : MuteAt f (takeItem i s) := by
  unfold Machine.takeItem
  split
  · exact h.takeStroke _ _ _
  · exact ((h.markItem _).reportGap _ _).endStep
  · rw [floorItem_mute h.state]
    exact (h.reportGap _ _).endStep

theorem MuteAt.beginStep (h : MuteAt f s) : MuteAt f (beginStep s) := by
  unfold Machine.beginStep
  split
  · dsimp only
    split
    · exact ((h.setEngine _).setEngine _).takeStroke _ _ _
    · split
      · exact ((h.setEngine _).setIntake _).takeItem _
      · exact h
  · exact h

theorem MuteAt.completeSlotRead (h : MuteAt f s) (owner : ReadOwner) (bytes : List Byte) :
    MuteAt f (completeSlotRead owner bytes s) := by
  unfold Machine.completeSlotRead
  split
  · split
    · unfold judgeRead
      split
      · exact ((h.setPort _).setPort _).lookupFrom _ _
      · exact (h.setPort _).lookupFrom _ _
      · exact (h.setPort _).finishStroke _ _ _ _
      · exact (h.setPort _).probeOn _ _ _
    · exact h
  · exact h

theorem MuteAt.expireWatchdog (h : MuteAt f s) : MuteAt f (expireWatchdog s) := by
  unfold Machine.expireWatchdog
  split
  · split
    · exact (h.setPort _).lookupFrom _ _
    · exact h
  · exact h

theorem MuteAt.expireSettleIdle (h : MuteAt f s) : MuteAt f (expireSettleIdle s) := by
  have hpause : pauseReport (Machine.settleToEnd s) = Machine.settleToEnd s :=
    if_neg (by simp [h.state])
  unfold Machine.expireSettleIdle
  split
  · rw [hpause]
    exact h.settleToEnd.boundaryWork.setEngine _
  · exact h

theorem MuteAt.endStartup (h : MuteAt f s) (p : Params) (valid : Bool) : MuteAt f (endStartup p valid s) :=
  ⟨h.state, h.feed⟩

theorem MuteAt.completeHeaderRead (h : MuteAt f s) (owner : ReadOwner) (bytes : List Byte) :
    MuteAt f (completeHeaderRead owner bytes s) := by
  unfold Machine.completeHeaderRead
  split
  · split <;> exact h.endStartup _ _
  · exact h

theorem MuteAt.expireStartupLimit (h : MuteAt f s) : MuteAt f (expireStartupLimit s) := by
  unfold Machine.expireStartupLimit
  split
  · exact h.endStartup _ _
  · exact h

/-- A valid frame heard in MUTE is not acted on, a duplicate among them (R119, R176). -/
theorem handOn_mute (lead : Byte) (rest : List Byte) (hmute : s.floor.state = .mute) : handOn lead rest s = s := by
  have hfloor (f : Frame) : floorTakes (leadStation lead) f s = s := if_pos (by simp [hmute])
  have hfeed (f : Frame) : feedTakes f s = s := by
    cases f with
    | rewind q => exact if_neg (by simp [hmute])
    | _ => rfl
  unfold handOn
  split
  · exact enterMute_again hmute
  · split
    · rw [hfloor, hfeed]
    · rfl

theorem MuteAt.completeFrame (h : MuteAt f s) : MuteAt f (completeFrame s) := by
  unfold Machine.completeFrame
  split
  · split
    · exact h
    · dsimp only
      split
      · rw [handOn_mute _ _ (by exact h.state)]
        exact (h.setLine _).boundaryIfBetween
      · exact h.setLine _
  · exact h

theorem MuteAt.loadPresence (h : MuteAt f s) : MuteAt f (loadPresence s) :=
  ⟨h.state, h.feed⟩

theorem MuteAt.integrationReported (h : MuteAt f s) : MuteAt f (integrationReported s) := by
  have hwindow : loadClaimWindow (Machine.loadPresence s) = Machine.loadPresence s :=
    if_neg (by simp [h.state])
  rw [Machine.integrationReported, hwindow, if_neg (by simp [h.state])]
  exact h.loadPresence

theorem MuteAt.endIntegration (h : MuteAt f s) : MuteAt f (endIntegration s) := by
  unfold Machine.endIntegration
  split
  · split
    · exact (h.setLine _).integrationReported
    · exact h.setLine _
    all_goals exact h
  · exact h

theorem reactToVacancy_mute (hmute : s.floor.state = .mute) : reactToVacancy s = s := by
  rw [reactToVacancy, hmute]

theorem MuteAt.expireAbsence (h : MuteAt f s) : MuteAt f (expireAbsence s) := by
  unfold Machine.expireAbsence
  split
  · rw [reactToVacancy_mute (by exact h.state)]
    exact h.setFloor h.state
  · exact h

theorem MuteAt.expirePresence (h : MuteAt f s) : MuteAt f (expirePresence s) := by
  have hoffer : offerPresence (Machine.loadPresence s) = Machine.loadPresence s := if_pos (by simp [h.state])
  unfold Machine.expirePresence
  split
  · dsimp only
    rw [if_neg (by simp [h.state]), hoffer]
    exact h.loadPresence
  · exact h

theorem MuteAt.moveView (h : MuteAt f s) (view : View) : MuteAt f (moveView view s) :=
  ⟨h.state, h.feed⟩

theorem reactToView_mute (v : Verdict) (fr : Frame) (hmute : s.floor.state = .mute) : reactToView v fr s = s := by
  rw [reactToView, hmute]

theorem MuteAt.applyOwnHandover (h : MuteAt f s) (handover : Handover) : MuteAt f (applyOwnHandover handover s) := by
  unfold Machine.applyOwnHandover
  dsimp only
  split
  · exact h
  · exact h
  all_goals
    rw [reactToView_mute _ _ (h.moveView _).state]
    exact h.moveView _

theorem MuteAt.offerHandover (h : MuteAt f s) (handover : Handover) : MuteAt f (offerHandover handover s) := by
  rw [Machine.offerHandover, offer, if_pos (by simp [h.state])]
  exact h.setFloor h.state

theorem MuteAt.releaseKeptBack (h : MuteAt f s) (handover : Handover) : MuteAt f (releaseKeptBack handover s) := by
  unfold Machine.releaseKeptBack
  split
  · next kept _ =>
    split
    · refine MuteAt.offerHandover ?_ kept
      exact h.setFloor h.state
    · exact h
  · exact h

theorem MuteAt.frameSent (h : MuteAt f s) (fr : Frame) : MuteAt f (frameSent fr s) := by
  cases fr with
  | handover handover =>
    have hnot : isHandOver handover s = false := by simp [isHandOver, h.state]
    rw [Machine.frameSent, handoverSent, hnot]
    exact (h.applyOwnHandover handover).releaseKeptBack handover
  | _ => exact h

/-- The station stays in MUTE, and its feed changes only when a frame is in transmission. -/
def StaysMute (f : Feed) (t : State) : Prop :=
  ∃ g, MuteAt g t ∧ (f.sending = none → g = f)

theorem MuteAt.stays (h : MuteAt f s) : StaysMute f s :=
  ⟨f, h, fun _ => rfl⟩

theorem MuteAt.sendWhole (h : MuteAt f s) : StaysMute f (sendWhole s) := by
  cases hsending : f.sending with
  | none =>
    rw [sendWhole_out_of_turn (.inr (.inr fun x hx => ?_))]
    · exact h.stays
    · rw [h.feed, hsending] at hx
      cases hx
  | some x =>
    have hsent : MuteAt f.sentWhole ((s.setLine { s.line with
        state := .idle, readBack := 0, collisions := 0 }).setFeed s.feed.sentWhole) :=
      ⟨h.state, congrArg Feed.sentWhole h.feed⟩
    unfold Machine.sendWhole
    rw [h.feed, hsending]
    dsimp only
    split
    · refine ⟨f.sentWhole, ?_, fun hnone => absurd hsending (by simp [hnone])⟩
      rw [← h.feed] at hsent ⊢
      exact (hsent.frameSent x.frame).loadPresence.boundaryIfBetween
    · exact h.stays

theorem handedBack_none (h : f.sending = none) : f.handedBack = f := by
  rw [Feed.handedBack, h]

theorem MuteAt.handedBack (h : MuteAt f s) (l : LineInterface) :
    MuteAt f.handedBack ((s.setFeed s.feed.handedBack).setLine l) :=
  ⟨h.state, congrArg Feed.handedBack h.feed⟩

theorem MuteAt.loseArbitration (h : MuteAt f s) : StaysMute f (loseArbitration s) := by
  unfold Machine.loseArbitration
  split
  · exact ⟨_, h.handedBack _, handedBack_none⟩
  · exact h.stays

theorem MuteAt.collide (h : MuteAt f s) : StaysMute f (collide s) := by
  unfold Machine.collide
  split
  · dsimp only
    split
    · rw [enterMute_again (by exact h.state)]
      exact ⟨_, (h.handedBack _).boundaryIfBetween, handedBack_none⟩
    · exact ⟨_, h.handedBack _, handedBack_none⟩
  · exact h.stays

theorem MuteAt.answer (h : MuteAt f s) (c : Instr) (hreset : ∀ straps, c ≠ .reset straps) :
    StaysMute f (answer c s) := by
  cases c with
  | reset straps => exact absurd rfl (hreset straps)
  | headerReadComplete owner bytes => exact (h.completeHeaderRead owner bytes).stays
  | startupLimitExpiry => exact h.expireStartupLimit.stays
  | stepBegin => exact h.beginStep.stays
  | slotReadComplete owner bytes => exact (h.completeSlotRead owner bytes).stays
  | lookupWatchdogExpiry => exact h.expireWatchdog.stays
  | settleIdleExpiry => exact h.expireSettleIdle.stays
  | frameComplete => exact h.completeFrame.stays
  | integrationEnd => exact h.endIntegration.stays
  | transmitBegin => exact (h.of_eq (beginTransmission_out_of_turn (.inr (.inr (.inr h.state))))).stays
  | frameSentWhole => exact h.sendWhole
  | lossOfArbitration => exact h.loseArbitration
  | bodyCollision => exact h.collide
  | replayGeneration => exact (h.of_eq (generateReplay_out_of_turn (.inl (by simp [h.state])))).stays
  | absenceTimerExpiry => exact h.expireAbsence.stays
  | claimWindowExpiry => exact (h.of_eq (expireClaimWindow_out_of_turn (.inr (by simp [h.state])))).stays
  | presenceTimerExpiry => exact h.expirePresence.stays
  | stationClockTick => exact MuteAt.stays ⟨h.state, h.feed⟩
  | _ => exact (h.of_frame (by simp [Machine.answer]) (by simp [Machine.answer])).stays

end MuteKept

end Sys2Proof.Machine
end

section
/-! SUPPORT. A frame given up (R108, R109), sent whole (R112, R141, R162, R173, R174) or handed back (R113 to R115). -/

namespace Sys2Proof.Machine

section GivenUp
variable {s : State} {lead len : Byte} {body check : List Byte}

/-- The three checks of a frame of announced length (R108). -/
theorem frameValid_iff (hcheck : check.length = 2) : frameValid lead (len :: (body ++ check)) = true ↔
    check = be16 (crc (len :: body)) ∧ leadKind lead ≤ 9 ∧ bodyLengthSuits (leadKind lead) body.length = true := by
  have hcounted : (len :: (body ++ check)).length - 2 = (len :: body).length := by
    simp [hcheck]
  rw [frameValid, hcounted, ← List.cons_append, List.take_left, List.drop_left]
  simp [and_assoc]

theorem completeFrame_invalid {rest : List Byte} (hstate : s.line.state = .receiving) (hbits : s.line.charBits = [])
    (hreceived : s.line.received = lead :: rest) (hdone : frameDone s.line.received = true)
    (hvalid : frameValid lead rest = false) : completeFrame s = s.setLine { s.line with
      state := .idle, received := [], errors := min 65535 (s.line.errors + 1) } := by
  rw [completeFrame, if_pos (by simp [hstate, hbits, hdone]), hreceived]
  exact if_neg (by simp [hvalid])

/-- A frame with this station's number, but for a REWIND, is a duplicate (R109). -/
theorem handOn_duplicate (rest : List Byte) (hkind : lead.toNat / 16 ≠ 8) (hstation : lead.toNat % 16 = s.station.val) :
    handOn lead rest s = enterMute s :=
  if_pos ⟨hkind, Fin.ext hstation⟩

theorem abandon_between {l : LineInterface} (hbits : l.charBits = []) : l.abandon = { l with
    state := .idle, hunting := true, received := [], readBack := 0, mismatch := false } := by
  rw [LineInterface.abandon, ← hbits]

end GivenUp

section HandedBack
variable {s : State} {x : Sending}

theorem sendingLevels_some (h : s.feed.sending = some x) : sendingLevels s = x.frame.levels s.station := by
  rw [sendingLevels, h]

theorem handedBack_free {f : Feed} (hsending : f.sending = some x) (hheld : f.held = none) :
    f.handedBack = { f with
      sending := none, waiting := if x.withdrawn then f.waiting else x.frame :: f.waiting } := by
  rw [Feed.handedBack, hsending]
  dsimp only
  split
  · exact joinHeld_none _ hheld
  · rfl

/-- The line of a station that turns to receiving: what it has read back of its own frame is received (R113, R114). -/
theorem turnToReceiving_eq (h : s.feed.sending = some x) : turnToReceiving s = { s.line with
    state := .receiving, readBack := 0, mismatch := false
    received := (x.frame.chars s.station).take (s.line.readBack / 11)
    charBits := ((x.frame.levels s.station).drop (s.line.readBack / 11 * 11)).take (s.line.readBack % 11)
      ++ [flipLevel (bitSent s)] } := by
  rw [turnToReceiving, sendingLevels_some h, h]

/-- Inside the lead character no character has been read back whole. -/
theorem turnToReceiving_lead (h : s.feed.sending = some x) (hlead : s.line.readBack < 11)
    (hsent : bitSent s = .released) : turnToReceiving s = { s.line with
      state := .receiving, received := [], readBack := 0, mismatch := false
      charBits := (x.frame.levels s.station).take s.line.readBack ++ [.driven] } := by
  rw [turnToReceiving_eq h, Nat.div_eq_of_lt hlead, Nat.mod_eq_of_lt hlead, hsent]
  rfl

variable (hstate : s.line.state = .transmitting) (hmismatch : s.line.mismatch = true)
include hstate hmismatch

theorem loseArbitration_found (hlead : s.line.readBack < 11) (hsent : bitSent s = .released) :
    loseArbitration s = (s.setFeed s.feed.handedBack).setLine (turnToReceiving s) :=
  if_pos (by simp [lossFound, hstate, hmismatch, hlead, hsent])

theorem collisionFound_of (h : 11 ≤ s.line.readBack ∨ bitSent s = .driven) : collisionFound s = true := by
  rcases h with h | h
  · simp [collisionFound, hstate, hmismatch, Nat.not_lt.mpr h]
  · simp [collisionFound, hstate, hmismatch, h]

theorem collide_below (h : 11 ≤ s.line.readBack ∨ bitSent s = .driven) (hcount : s.line.collisions < 2) :
    collide s = (s.setFeed s.feed.handedBack).setLine
      { turnToReceiving s with collisions := s.line.collisions + 1 } := by
  have hrisen : saturate 3 s.line.collisions = s.line.collisions + 1 := by
    unfold saturate
    omega
  rw [collide, if_pos (collisionFound_of hstate hmismatch h), hrisen]
  exact if_neg (by omega)

theorem collide_third (h : 11 ≤ s.line.readBack ∨ bitSent s = .driven) (hcount : 2 ≤ s.line.collisions) :
    collide s = boundaryIfBetween (enterMute ((s.setFeed s.feed.handedBack).setLine
      { turnToReceiving s with collisions := 3 })) := by
  have hrisen : saturate 3 s.line.collisions = 3 := by
    unfold saturate
    omega
  rw [collide, if_pos (collisionFound_of hstate hmismatch h), hrisen]
  exact if_pos rfl

end HandedBack

section SentWhole
variable {s : State} {x : Sending} {h : Handover}

/-- The feed once the frame in transmission has left it: a held HANDOVER takes the place it frees (R141, R142). -/
theorem sentWhole_eq {f : Feed} (hroom : f.waiting.length < 16) : f.sentWhole =
    match f.held with
    | none => { f with sending := none }
    | some w => { f with sending := none, waiting := f.waiting ++ [.handover w], held := none } := by
  rw [Feed.sentWhole, Feed.joinHeld]
  cases hheld : f.held with
  | none => rfl
  | some w => exact if_pos (by simpa [Feed.places, Config.queuePlaces] using hroom)

theorem sentWhole_sending (f : Feed) : f.sentWhole.sending = none := by
  unfold Feed.sentWhole Feed.joinHeld
  split
  · rfl
  · split <;> rfl

theorem sentWhole_epoch (f : Feed) : f.sentWhole.epoch = f.epoch := by
  unfold Feed.sentWhole Feed.joinHeld
  split
  · rfl
  · split <;> rfl

/-- The state in which the Floor Controller is told of a frame sent whole (R112, R141). -/
def State.sentOut (s : State) : State :=
  (s.setLine { s.line with state := .idle, readBack := 0, collisions := 0 }).setFeed s.feed.sentWhole

theorem sendWhole_found (hstate : s.line.state = .transmitting) (hmatch : s.line.mismatch = false)
    (hsending : s.feed.sending = some x) (hread : s.line.readBack = (x.frame.levels s.station).length) :
    sendWhole s = boundaryIfBetween (loadPresence (frameSent x.frame s.sentOut)) := by
  rw [sendWhole, hsending]
  exact if_pos (by simp [sentWholeFound, hstate, hmatch, sendingLevels_some hsending, hread])

theorem frameSent_other {f : Frame} (hf : f.isHandover = false) (s : State) : frameSent f s = s := by
  cases f with
  | handover h => cases hf
  | _ => rfl

/-- The presence timer as a frame sent whole loads it outside MUTE (R175). -/
theorem loadPresence_eq (hmute : s.floor.state ≠ .mute) : loadPresence s = s.setFloor { s.floor with
    presenceTimer := some
      (if s.floor.state = .standby then 4 * s.floor.presencePeriod else s.floor.presencePeriod) } := by
  rw [loadPresence, Floor.presenceLoad]
  cases hstate : s.floor.state with
  | mute => exact absurd hstate hmute
  | _ => rfl

/-- A followed HANDOVER of this station moves its own view, and the station reacts to it (R162). -/
theorem applyOwnHandover_follows {v : Verdict} (hv : verdict s.station s.floor.view (some h.epoch) h.successor = v)
    (hfollow : Follows s.floor.view h.epoch v) {live : Option Station}
    (hlive : newLive s.station v false h.successor = live) :
    applyOwnHandover h s = reactToView v (.handover h) (s.followed (h.view live) s.floor.lineOffset) := by
  have hmoved (view : View) : moveView view s = s.followed view s.floor.lineOffset := moveView_eq view s
  rw [← follow_handover hfollow live, ← hmoved, ← hlive]
  unfold applyOwnHandover
  dsimp only
  rw [hv]
  rcases hfollow with rfl | ⟨rfl, -⟩ <;> rfl

theorem applyOwnHandover_unmoved
    (hv : verdict s.station s.floor.view (some h.epoch) h.successor = .ignored
      ∨ verdict s.station s.floor.view (some h.epoch) h.successor = .stale) : applyOwnHandover h s = s := by
  unfold applyOwnHandover
  rcases hv with hv | hv <;> rw [hv]

/-- A frame sent whole that leaves the engine alone has a quiet boundary behind the load of the presence timer (R44,
R175). -/
theorem sendWhole_quiet {t : State} (hstate : s.line.state = .transmitting) (hmatch : s.line.mismatch = false)
    (hsending : s.feed.sending = some x) (hread : s.line.readBack = (x.frame.levels s.station).length)
    (htold : frameSent x.frame s.sentOut = t) (hengine : t.engine = s.engine)
    (hentry : s.engine.settleOnEntry = false) (hfull : s.engine.fullSettle = false) (hmute : t.floor.state ≠ .mute) :
    sendWhole s = t.setFloor { t.floor with
      presenceTimer := some
        (if t.floor.state = .standby then 4 * t.floor.presencePeriod else t.floor.presencePeriod) } := by
  rw [sendWhole_found hstate hmatch hsending hread, htold, loadPresence_eq hmute]
  exact boundaryIfBetween_quiet (by exact hengine ▸ hentry) (by exact hengine ▸ hfull) hmute

end SentWhole

section OwnHandovers
variable {s : State} {h : Handover}

theorem releaseKeptBack_none (hkept : s.floor.keptBack = none) : releaseKeptBack h s = s := by
  rw [releaseKeptBack, hkept]

theorem releaseKeptBack_other (hother : h.successor ≠ some s.station) : releaseKeptBack h s = s := by
  unfold releaseKeptBack
  split
  · exact if_neg hother
  · rfl

/-- Behind the takeover the hand-over kept back goes out (R173). -/
theorem releaseKeptBack_takeover {kept : Handover} (hkept : s.floor.keptBack = some kept)
    (hme : h.successor = some s.station) (hmute : s.floor.state ≠ .mute) : releaseKeptBack h s =
      (s.setFloor { s.floor with keptBack := none, lastOffered := some kept.offered }).setFeed
        (s.feed.offerHandover kept) := by
  rw [releaseKeptBack, hkept]
  exact (if_pos hme).trans (offerHandover_eq (s := s.setFloor _) kept hmute)

theorem frameSent_handover (hnot : s.floor.state ≠ .handing ∨ h.epoch ≠ s.feed.epoch + 1) :
    frameSent (.handover h) s = releaseKeptBack h (applyOwnHandover h s) := by
  have hother : isHandOver h s = false := by
    rcases hnot with hnot | hnot
    · simp [isHandOver, hnot]
    · rw [isHandOver, beq_eq_false_iff_ne.mpr hnot, Bool.and_false]
  rw [frameSent, handoverSent, hother]
  rfl

theorem frameSent_handOver (hhanding : s.floor.state = .handing) (hepoch : h.epoch = s.feed.epoch + 1) :
    frameSent (.handover h) s = leaveHanding h s :=
  if_pos (by simp [isHandOver, hhanding, hepoch])

/-- The armed flag stays as it is unless a vacant view gets a live station (R164). -/
theorem followed_armed {view : View} (hlive : s.floor.view.live ≠ none ∨ view.live = none) :
    s.followed view s.floor.lineOffset = s.setFloor { s.floor with
      view := view, absenceTimer := absenceLoad s.station s.floor.absenceTimeout view.live } := by
  have harmed : s.floor.armedFor view.live = s.floor.armed :=
    if_neg fun ⟨hvacant, hset⟩ => hlive.elim (absurd hvacant) (absurd · hset)
  rw [State.followed, harmed]

/-- A takeover of the tenure's own epoch refreshes the view (R158, R162). -/
theorem applyOwnHandover_takeover (htenure : s.floor.state.inTenure = true) (hepoch : s.floor.view.epoch = some h.epoch)
    (hlive : s.floor.view.live = some s.station) (hme : h.successor = some s.station) : applyOwnHandover h s =
      s.setFloor { s.floor with view := h.view (some s.station), absenceTimer := none } := by
  have hv : verdict s.station s.floor.view (some h.epoch) h.successor = .refreshed := by
    rw [verdict_same hepoch, hlive, hme, sameEpochVerdict_live]
  have hfollowed : s.followed (h.view (some s.station)) s.floor.lineOffset =
      s.setFloor { s.floor with view := h.view (some s.station), absenceTimer := none } := by
    rw [followed_armed (.inl (by simp [hlive]))]
    dsimp only [Handover.view]
    rw [absenceLoad_me]
  rw [applyOwnHandover_follows hv (.inr ⟨rfl, hepoch⟩) (by rw [newLive_refreshed, hme]), hfollowed]
  exact reactToView_own .refreshed htenure rfl

/-- A decline of a newer epoch leaves the view vacant there, and the station reacts by its floor state (R162, R164). -/
theorem applyOwnHandover_decline (hnone : h.successor = none)
    (hnewer : ∀ e, s.floor.view.epoch = some e → epochNewer h.epoch e = true) : applyOwnHandover h s =
      reactToView .adopted (.handover h)
        (s.setFloor { s.floor with view := h.view none, absenceTimer := none }) := by
  have hlive : newLive s.station .adopted false h.successor = none := by simp [newLive, hnone]
  have hfollowed : s.followed (h.view none) s.floor.lineOffset =
      s.setFloor { s.floor with view := h.view none, absenceTimer := none } := followed_armed (.inr rfl)
  rw [applyOwnHandover_follows (verdict_newer hnewer) (.inl rfl) hlive, hfollowed]

theorem reactToView_standby (f : Frame) (hstandby : s.floor.state = .standby) :
    reactToView .adopted f s = reactStandby f s := by
  rw [reactToView, hstandby]
  rfl

theorem reactToView_vacant (v : Verdict) (f : Frame) (hclaiming : s.floor.state = .claiming)
    (hvacant : s.floor.view.live = none) : reactToView v f s =
      s.setFloor { s.floor with claimTimer := s.floor.windowLoaded s.line.integrated } := by
  rw [reactToView, hclaiming]
  dsimp only
  rw [reactClaiming, hvacant]
  exact loadClaimWindow_eq hclaiming

theorem windowLoaded_of_vacant {f : Floor} (integrated : Bool) (hvacant : f.view.live = none) :
    f.windowLoaded integrated =
      if integrated = true ∧ f.claimTimer = none then some f.claimWindow else f.claimTimer := by
  simp [Floor.windowLoaded, hvacant]

/-- A HANDOVER of this station that is not newer changes nothing while the view's live station is another, or none
(R158, R162). -/
theorem applyOwnHandover_late {e : Epoch} (hsuccessor : h.successor = none ∨ h.successor = some s.station)
    (hother : s.floor.view.live ≠ some s.station) (hview : s.floor.view.epoch = some e)
    (holder : epochNewer h.epoch e = false) : applyOwnHandover h s = s := by
  refine applyOwnHandover_unmoved ?_
  by_cases hepoch : h.epoch = e
  · left
    rw [verdict_same (hepoch ▸ hview)]
    cases hlive : s.floor.view.live with
    | none => rcases hsuccessor with hs | hs <;> simp [hs, sameEpochVerdict]
    | some y =>
      have hy : y ≠ s.station := fun hy => hother (hy ▸ hlive)
      rcases hsuccessor with hs | hs <;> simp [hs, sameEpochVerdict, hy]
  · exact .inr (verdict_older hview hepoch holder)

theorem epochNewer_succ (e : Epoch) : epochNewer (e + 1) e = true := by
  have hdiff : e + 1 - e = 1 := by ring
  rw [epochNewer, hdiff]
  rfl

/-- The floor of a station whose hand-over has been sent whole: a hand-over to NONE disarms it (R164, R174). -/
def Floor.handedOver (h : Handover) (f : Floor) : Floor :=
  { f.demoted (h.view h.successor) with armed := if h.successor = none then false else f.armed }

/-- The station as it leaves HANDING, before its own HANDOVER moves its view (R174). -/
def State.leftHanding (h : Handover) (s : State) : State :=
  s.leftTenure { s.floor with
    state := .standby, claimant := none, keptBack := none, presenceTimer := some (4 * s.floor.presencePeriod)
    armed := if h.successor = none then false else s.floor.armed } s.feed.closeTenure

theorem leaveHanding_applies (h : Handover) (s : State) : leaveHanding h s = applyOwnHandover h (s.leftHanding h) := by
  unfold leaveHanding State.leftHanding
  rw [leaveTenure_eq]
  cases h.successor <;> rfl

theorem leftHanding_followed (hlive : s.floor.view.live = some s.station) (hother : h.successor ≠ some s.station) :
    (s.leftHanding h).followed (h.view h.successor) s.floor.lineOffset =
      s.leftTenure (s.floor.handedOver h) s.feed.closeTenure := by
  have hset : (s.leftHanding h).floor.view.live ≠ none :=
    fun hvacant => Option.some_ne_none _ (hlive.symm.trans hvacant)
  have habsence : absenceLoad s.station s.floor.absenceTimeout h.successor =
      if h.successor = none then none else some s.floor.absenceTimeout := by
    cases hs : h.successor with
    | none => rfl
    | some y => exact absenceLoad_other _ fun hy => hother (hy ▸ hs)
  refine (followed_armed (s := s.leftHanding h) (.inl hset)).trans ?_
  rw [Floor.handedOver, Floor.demoted, Handover.view]
  dsimp only
  rw [← habsence]
  rfl

/-- The station that hands over to another, or to NONE disarmed, stands by and makes no claim of its own (R174). -/
theorem leaveHanding_eq {e : Epoch} (hview : s.floor.view.epoch = some e) (hlive : s.floor.view.live = some s.station)
    (hepoch : h.epoch = e + 1) (hother : h.successor ≠ some s.station) :
    leaveHanding h s = s.leftTenure (s.floor.handedOver h) s.feed.closeTenure := by
  have hnewer (e' : Epoch) (he' : (s.leftHanding h).floor.view.epoch = some e') : epochNewer h.epoch e' = true := by
    obtain rfl : e = e' := Option.some_inj.mp (hview.symm.trans he')
    rw [hepoch]
    exact epochNewer_succ e
  have hnew : newLive (s.leftHanding h).station .adopted false h.successor = h.successor :=
    if_neg (by simpa [State.leftHanding, State.leftTenure] using hother)
  have happly := applyOwnHandover_follows (verdict_newer hnewer) (.inl rfl) hnew
  rw [leaveHanding_applies, happly]
  have hfollowed := leftHanding_followed hlive hother
  have hoffset : (s.leftHanding h).floor.lineOffset = s.floor.lineOffset := rfl
  rw [hoffset, hfollowed, reactToView_standby _ rfl]
  cases hs : h.successor with
  | none =>
    rw [reactStandby_vacant hs]
    exact if_neg (by simp [State.leftTenure, Floor.handedOver, hs])
  | some y => exact reactStandby_names_other hs fun hy => hother (hy ▸ hs)

/-- Off the floor the boundary work leaves the seqs dropped that the end of the tenure took (R63). -/
theorem leftTenure_boundary {floor : Floor} {feed : Feed} (hstandby : floor.state = .standby) : ∃ e : Engine,
    boundaryIfBetween (s.leftTenure floor feed) = ((s.setFloor floor).setFeed feed).setEngine e
      ∧ ∀ r ∈ e.tail, r.seq = none := by
  obtain ⟨e, hwork, htail, -⟩ := boundaryIfBetween_outside (s := s.leftTenure floor feed)
    (by simp [State.leftTenure, hstandby]) (by simp [State.leftTenure, hstandby])
  exact ⟨e, hwork, fun r hr => leave_seqs s.engine r (htail r hr)⟩

/-- The presence timer already holds what STANDBY loads it with (R175). -/
theorem loadPresence_handedOver (feed : Feed) :
    loadPresence (s.leftTenure (s.floor.handedOver h) feed) = s.leftTenure (s.floor.handedOver h) feed := rfl

end OwnHandovers

section HandoverOutcomes
variable {s : State} {h : Handover}

/-- What a HANDOVER of this station that is no hand-over does once it has been sent whole (R162, R173). -/
def ownHandoverSent (h : Handover) (s : State) : State :=
  releaseKeptBack h (applyOwnHandover h s)

section Takeover
variable (htenure : s.floor.state.inTenure = true) (hepoch : s.floor.view.epoch = some h.epoch)
  (hlive : s.floor.view.live = some s.station) (hme : h.successor = some s.station)
include htenure hepoch hlive hme

theorem ownHandoverSent_takeover (hkept : s.floor.keptBack = none) : ownHandoverSent h s =
    s.setFloor { s.floor with view := h.view h.successor, absenceTimer := none } := by
  rw [ownHandoverSent, applyOwnHandover_takeover htenure hepoch hlive hme, ← hme]
  exact releaseKeptBack_none hkept

theorem ownHandoverSent_releases {kept : Handover} (hkept : s.floor.keptBack = some kept) : ownHandoverSent h s =
    (s.setFloor { s.floor with
      view := h.view h.successor, absenceTimer := none, keptBack := none
      lastOffered := some kept.offered }).setFeed (s.feed.offerHandover kept) := by
  rw [ownHandoverSent, applyOwnHandover_takeover htenure hepoch hlive hme, ← hme]
  exact releaseKeptBack_takeover (s := s.setFloor _) hkept hme (not_mute_of_inTenure htenure)

end Takeover

section Decline
variable (hnone : h.successor = none) (hnewer : ∀ e, s.floor.view.epoch = some e → epochNewer h.epoch e = true)
include hnone hnewer

theorem ownHandoverSent_decline : ownHandoverSent h s = reactToView .adopted (.handover h)
    (s.setFloor { s.floor with view := h.view h.successor, absenceTimer := none }) := by
  rw [ownHandoverSent, applyOwnHandover_decline hnone hnewer, ← hnone]
  exact releaseKeptBack_other (by simp [hnone])

theorem ownHandoverSent_disarmed (hstandby : s.floor.state = .standby) (harmed : s.floor.armed = false) :
    ownHandoverSent h s = s.setFloor { s.floor with view := h.view h.successor, absenceTimer := none } := by
  rw [ownHandoverSent_decline hnone hnewer, reactToView_standby _ (by exact hstandby), reactStandby_vacant hnone]
  exact if_neg (by simp [harmed])

/-- An armed station claims the floor it has declined for itself (R164). -/
theorem ownHandoverSent_armed (hstandby : s.floor.state = .standby) (harmed : s.floor.armed = true) :
    ownHandoverSent h s = (s.setFloor { s.floor with
      view := h.view h.successor, absenceTimer := none, state := .claiming, origin := some .auto
      presenceTimer := some s.floor.presencePeriod
      claimTimer :=
        if s.line.integrated = true ∧ s.floor.claimTimer = none then some s.floor.claimWindow
        else s.floor.claimTimer }).setFeed (s.feed.offerClaim (.claim (some h.epoch) false)) := by
  rw [ownHandoverSent_decline hnone hnewer, reactToView_standby _ (by exact hstandby), reactStandby_vacant hnone,
    if_pos (by exact harmed), enterClaiming_eq, windowLoaded_of_vacant _ hnone]
  rfl

theorem ownHandoverSent_claiming (hclaiming : s.floor.state = .claiming) :
    ownHandoverSent h s = s.setFloor { s.floor with
      view := h.view h.successor, absenceTimer := none
      claimTimer :=
        if s.line.integrated = true ∧ s.floor.claimTimer = none then some s.floor.claimWindow
        else s.floor.claimTimer } := by
  rw [ownHandoverSent_decline hnone hnewer, reactToView_vacant _ _ (by exact hclaiming) hnone,
    windowLoaded_of_vacant _ hnone]
  rfl

end Decline

theorem ownHandoverSent_late {e : Epoch} (hsuccessor : h.successor = none ∨ h.successor = some s.station)
    (hkept : s.floor.keptBack = none) (hother : s.floor.view.live ≠ some s.station)
    (hview : s.floor.view.epoch = some e) (holder : epochNewer h.epoch e = false) : ownHandoverSent h s = s := by
  rw [ownHandoverSent, applyOwnHandover_late hsuccessor hother hview holder, releaseKeptBack_none hkept]

/-- A HANDOVER of this station, but for the hand-over, sent whole: its outcome, with the presence timer loaded. -/
theorem sendWhole_ownHandover {x : Sending} {t : State} (hstate : s.line.state = .transmitting)
    (hmatch : s.line.mismatch = false) (hsending : s.feed.sending = some x) (hframe : x.frame = .handover h)
    (hread : s.line.readBack = (x.frame.levels s.station).length) (hentry : s.engine.settleOnEntry = false)
    (hfull : s.engine.fullSettle = false) (hnot : s.floor.state ≠ .handing ∨ h.epoch ≠ s.feed.epoch + 1)
    (htold : ownHandoverSent h s.sentOut = t) (hengine : t.engine = s.engine) (hmute : t.floor.state ≠ .mute) :
    sendWhole s = t.setFloor { t.floor with
      presenceTimer := some
        (if t.floor.state = .standby then 4 * t.floor.presencePeriod else t.floor.presencePeriod) } := by
  have hnot' : s.sentOut.floor.state ≠ .handing ∨ h.epoch ≠ s.sentOut.feed.epoch + 1 :=
    hnot.imp_right fun hne => (sentWhole_epoch s.feed).symm ▸ hne
  refine sendWhole_quiet hstate hmatch hsending hread ?_ hengine hentry hfull hmute
  rw [hframe, frameSent_handover hnot']
  exact htold

end HandoverOutcomes

end Sys2Proof.Machine
end

section
/-! The statements of the courtroom line, settled. -/

namespace Sys2Proof.Proofs

open Sys2Proof.Machine

/-- Settles O41: the counts by `readLine_reads` in every line state, then the reading in IDLE, between characters,
inside a character and beside a bit being sent. -/
theorem lineReadingCountsRuns : Obligations.LineReadingCountsRuns := by
  intro level s
  refine ⟨fun hstarting => exec_eq_next (if_neg (by simp [hstarting])), fun hended => ?_⟩
  obtain ⟨state, bits, readBack, mismatch, hread⟩ := readLine_reads level hended
  have hline : (readLine level s).line = s.line.read level state bits readBack mismatch := by rw [hread]; rfl
  obtain ⟨herrors, hcollisions, hrate, hhunting, hintegrated⟩ := read_frame level state bits readBack mismatch s.line
  rw [← hline] at herrors hcollisions hrate hhunting hintegrated
  refine ⟨readLine level s, exec_eq_answer _ _, ?_, ?_, ?_, herrors, hcollisions, hrate, hhunting, hintegrated,
    fun hidle hdriven hquiet => ?_, fun hstate hbits hdriven hquiet _ hopen => ?_, fun hstate hbits hroom => ?_,
    fun hstate hmatch hunread => ⟨fun hsame => ?_, fun hother => ?_⟩⟩
  · rw [hread]; rfl
  · rw [hline]; exact count_idle level s.line
  · rw [hline]; exact count_driven level s.line
  · rw [readLine_idle_start hended hidle ((startsChar_iff _ _).mpr ⟨hdriven, hquiet⟩), hdriven]
    exact ⟨rfl, rfl⟩
  · have hdone : frameDone s.line.received = false := by
      rw [Bool.eq_false_iff, Ne, frameDone_iff]
      rintro ⟨lead, len, rest, heq, hlength⟩
      exact hopen lead len rest heq hlength
    rw [readLine_receiving hended hstate,
      receive_start hbits ((startsChar_iff _ _).mpr ⟨hdriven, hquiet⟩) hdone, hdriven]
    exact ⟨hstate, rfl, rfl⟩
  · rw [readLine_receiving hended hstate, receive_bit level hbits hroom]
    exact ⟨hstate, rfl⟩
  · rw [readLine_transmitting hended hstate, compare_sent hmatch hunread, if_pos hsame]
    exact ⟨rfl, rfl⟩
  · rw [readLine_transmitting hended hstate, compare_sent hmatch hunread, if_neg hother]
    exact ⟨rfl, rfl⟩

/-- Settles O42: the eight data levels give back the number bit by bit, and the register runs out over its own bytes. -/
theorem charactersAndCrcReadBack : Obligations.CharactersAndCrcReadBack :=
  ⟨fun value leadMark => ⟨charLevels_length value leadMark, charValue_charLevels value leadMark,
    charMark_charLevels value leadMark, charStopGood_charLevels value leadMark⟩, crc_own, by decide +kernel⟩

/-- Settles O43: one outcome of `takeChar` for each case, the last two by the length the character announces. -/
theorem characterTakenIntoFrame : Obligations.CharacterTakenIntoFrame := by
  intro s hstate hbits value one took
  have htook {l : LineInterface} (h : s.line.takeChar = l) : took l := by
    rw [← h]
    exact exec_eq_next (takeCharacter_due hstate hbits)
  refine ⟨fun hstop => htook (takeChar_framingError hstop), fun hstop hmark => htook (takeChar_lead hstop hmark),
    fun hstop hmark hreceived => htook ?_, fun hstop hmark hone hlong => htook ?_,
    fun hstop hmark hreceived hshort => htook ?_⟩
  · rw [takeChar_discarded hstop hmark hreceived]
  · have hreceived : s.line.received ≠ [] := List.ne_nil_of_length_pos (by omega)
    rw [takeChar_joins hstop hmark hreceived]
    exact if_pos ⟨hone, hlong⟩
  · rw [takeChar_joins hstop hmark hreceived]
    exact if_neg hshort

/-- Settles O44: each of the three events has its conditions. -/
theorem runCountsEndFramesAndFindFaults : Obligations.RunCountsEndFramesAndFindFaults := by
  intro s
  refine ⟨fun hhunting hidle => exec_eq_next (if_pos ?_),
    fun hstate hreceived hopen hbits hidle => exec_eq_next (if_pos ?_),
    fun hstate hdriven => exec_eq_next (if_pos ?_)⟩
  · simp [hhunting, hidle]
  · simp [brokenOff, hstate, hreceived, hopen, hbits, hidle]
  · simp [hstate, hdriven]

/-- Settles O53: the head frame leaves the waiting frames as it is filled. -/
theorem headFrameBeginsTransmission : Obligations.HeadFrameBeginsTransmission := by
  intro s head rest hstate hidle hwaiting hmute
  refine exec_eq_next ((beginTransmission_ready hstate hidle (by simp [hwaiting]) hmute).trans ?_)
  rw [begun_head _ hwaiting]
  cases head <;> rfl

/-- Settles O45: after a fault the end is not reported; at start-up the floor takes the report in its own state. -/
theorem integrationEnds : Obligations.IntegrationEnds := by
  intro s hended hidle
  refine ⟨fun hfault => exec_eq_next (endIntegration_fault hended hidle hfault), fun hstate => ?_⟩
  have hend := endIntegration_startup hended hidle hstate
  have hline : (integrationReported (s.setLine s.line.integrationOver)).line = s.line.integrationOver :=
    integrationReported_line _
  refine ⟨_, exec_eq_next hend, hline, fun hstandby hwaits => ?_, fun hstandby harmed hvacant htimer => ?_,
    fun hclaiming hvacant htimer => ?_⟩
  · rw [hline, integrationReported_waits (by exact hstandby) (by exact hwaits)]
    rfl
  · rw [integrationReported_claims (by exact hstandby) (by exact harmed) (by exact hvacant)]
    exact ⟨rfl, rfl, windowLoaded_vacant hvacant htimer, rfl, rfl⟩
  · rw [hline, integrationReported_claiming (by exact hclaiming)]
    dsimp only [State.setLine, State.setFloor, LineInterface.integrationOver]
    rw [windowLoaded_vacant hvacant htimer]

/-- Settles O39: an append by where the cursor stands, a rewind by where the ring begins, a REWIND frame by the floor
state. -/
theorem replayCursorFollowsRingAndRewind : Obligations.ReplayCursorFollowsRingAndRewind := by
  refine ⟨fun f body time dropped oldest rest hring hfull => ?_, fun f q oldest holdest hasked hin => ?_, fun f q => ?_,
    fun s sender q hstate hbits hreceived hentry hfull htail => ?_⟩
  · have hpush := push_full body time hring hfull
    exact ⟨fun hcursor => hpush.trans (if_neg hcursor), fun hcursor => hpush.trans (if_pos hcursor)⟩
  · rw [rewind_inRing hasked holdest hin]
    refine ⟨fun k hk holder => ?_, ?_⟩
    · rw [hk]
      exact if_neg (by simp [holder])
    · rintro (hnone | ⟨k, hk, hnewer⟩)
      · rw [hnone]
      · rw [hk]
        exact if_pos hnewer
  · exact ⟨rewind_unasked, rewind_emptyRing, fun oldest => rewind_beforeRing⟩
  · have hheard := completeFrame_rewind hstate hbits hreceived
    exact ⟨fun hlive => exec_eq_next ((hheard.trans (congrArg boundaryIfBetween (if_pos hlive))).trans
        (boundaryIfBetween_idle hentry hfull htail)),
      fun hlive => exec_eq_next ((hheard.trans (congrArg boundaryIfBetween (if_neg hlive))).trans
        (boundaryIfBetween_idle hentry hfull htail))⟩

/-- Settles O8: in MUTE every command but RESET keeps the state, and the feed while no frame is in transmission. -/
theorem muteLeftOnlyByReset : Obligations.MuteLeftOnlyByReset := by
  intro c s t hmute hreset hexec
  have hhere : MuteAt s.feed s := ⟨hmute, rfl⟩
  obtain ⟨g, ht, hfeed⟩ := hhere.answer c hreset
  rw [← answer_of_exec hexec] at ht
  refine ⟨ht.state, ?_⟩
  rintro ⟨hwaiting, hsending, hheld⟩
  rw [ht.feed, hfeed hsending]
  exact ⟨hwaiting, hsending, hheld⟩

/-- Settles O46: one check that fails is enough; a duplicate enters MUTE with its boundary work; in MUTE nothing is
handed on. -/
theorem completeFrameDroppedOrDuplicate : Obligations.CompleteFrameDroppedOrDuplicate := by
  refine ⟨fun s lead len body check hstate hbits hreceived hlength hcheck hwrong => ?_,
    fun s lead rest hstate hbits hreceived hdone hvalid hkind hstation hmute => ?_,
    fun s lead rest hstate hbits hreceived hdone hvalid hmute htail hentry hfull => ?_⟩
  · have hdone : frameDone s.line.received = true :=
      (frameDone_iff _).mpr ⟨lead, len, body ++ check, hreceived, by simp [hlength, hcheck]⟩
    have hvalid : frameValid lead (len :: (body ++ check)) = false := by
      rw [Bool.eq_false_iff, Ne, frameValid_iff hcheck]
      rintro ⟨hcrc, hkind, hsuits⟩
      rcases hwrong with h | h | h
      · exact h hcrc
      · exact Nat.not_succ_le_self 9 (h.trans hkind)
      · exact Bool.false_ne_true (h.symm.trans hsuits)
    exact exec_eq_next (completeFrame_invalid hstate hbits hreceived hdone hvalid)
  · have hheard := completeFrame_valid hstate hbits hreceived hdone hvalid
    rw [handOn_duplicate rest hkind (by exact hstation)] at hheard
    obtain ⟨e, hmuted, htail, hseqs⟩ := enterMute_boundary (s := s.lineQuiet) hmute
    refine ⟨_, exec_eq_next (hheard.trans hmuted), rfl, rfl, abandon_between hbits, htail, hseqs, rfl, rfl, rfl,
      rfl⟩
  · have hheard := completeFrame_valid hstate hbits hreceived hdone hvalid
    rw [handOn_mute lead rest (by exact hmute)] at hheard
    exact exec_eq_next (hheard.trans (boundaryIfBetween_idle hentry hfull fun _ => htail))

/-- Settles O55: but for the hand-over a frame sent whole leaves the engine alone (`sendWhole_quiet`), and a HANDOVER of
this station goes by its outcome (`ownHandoverSent`); the hand-over ends the tenure (`leaveHanding_eq`). -/
theorem frameSentWhole : Obligations.FrameSentWhole := by
  refine ⟨fun s x hstate hmatch hsending hread hother hroom hentry hfull hmute => ?_,
    fun s x h e hstate hmatch hsending hframe hread hhanding htenure hview hlive hepoch hother => ?_,
    fun s x h hstate hmatch hsending hframe hread hroom hentry hfull => ?_⟩
  · have htold := frameSent_other hother s.sentOut
    have hsent := sendWhole_quiet hstate hmatch hsending hread htold rfl hentry hfull (by exact hmute)
    refine exec_eq_next (hsent.trans ?_)
    rw [State.sentOut, sentWhole_eq hroom]
    rfl
  · have htenureEpoch : h.epoch = s.sentOut.feed.epoch + 1 := by
      have hfeed : s.feed.epoch = e := by rw [Feed.epoch, htenure]; rfl
      rw [hepoch, ← hfeed, ← sentWhole_epoch]
      rfl
    have hsent : frameSent x.frame s.sentOut =
        s.sentOut.leftTenure (s.floor.handedOver h) s.feed.sentWhole.closeTenure := by
      rw [hframe, frameSent_handOver (by exact hhanding) htenureEpoch]
      exact leaveHanding_eq (s := s.sentOut) hview hlive hepoch hother
    obtain ⟨engine, hwork, hseqs⟩ := leftTenure_boundary (s := s.sentOut) (floor := s.floor.handedOver h)
      (feed := s.feed.sentWhole.closeTenure) rfl
    have hended := (sendWhole_found hstate hmatch hsending hread).trans
      ((congrArg (fun t => boundaryIfBetween (loadPresence t)) hsent).trans
        ((congrArg boundaryIfBetween (loadPresence_handedOver _)).trans hwork))
    refine ⟨_, exec_eq_next hended, rfl, rfl, rfl, rfl, rfl, rfl, ?_, ?_, rfl, rfl, hseqs, rfl, rfl, rfl, rfl⟩
    · show s.feed.sentWhole.closeTenure.sending = none
      rw [closeTenure_eq, sentWhole_sending]
      rfl
    · show s.feed.sentWhole.closeTenure.ring = []
      rw [closeTenure_eq]
  · intro freed sent view
    have hfreed : s.feed.sentWhole = freed := sentWhole_eq hroom
    have hanswer {floor : Floor} {feed : Feed}
        (htold : ownHandoverSent h s.sentOut = (s.sentOut.setFloor floor).setFeed feed)
        (hnot : s.floor.state ≠ .handing ∨ h.epoch ≠ s.feed.epoch + 1) (hmute : s.floor.state ≠ .mute)
        (hfloor : floor.state = s.floor.state ∧ floor.presencePeriod = s.floor.presencePeriod) :
        exec .frameSentWhole s = .next (sent floor feed) := by
      obtain ⟨hsame, hperiod⟩ := hfloor
      have hsent := sendWhole_ownHandover hstate hmatch hsending hframe hread hentry hfull hnot htold rfl
        (by exact hsame ▸ hmute)
      refine exec_eq_next (hsent.trans ?_)
      simp only [sent, ← hsame, ← hperiod]
      rfl
    refine ⟨fun htenures hme hhere hview hlive => ?_,
      fun hnone hnewer => ⟨fun hstandby harmed => ?_, fun hstandby harmed => ?_, fun hclaiming => ?_⟩,
      fun hoff hsuccessor hkept hother ⟨e, hview, holder⟩ => ?_⟩
    · have htenure := inTenure_of_state htenures
      have hmute := not_mute_of_inTenure htenure
      have hnot : h.epoch ≠ s.feed.epoch + 1 := by
        rw [Feed.epoch, hhere]
        simp
      exact ⟨fun hkept => hfreed ▸ hanswer (feed := s.feed.sentWhole)
          (ownHandoverSent_takeover (s := s.sentOut) htenure hview hlive hme hkept) (.inr hnot) hmute ⟨rfl, rfl⟩,
        fun kept hkept => hfreed ▸ hanswer (feed := s.feed.sentWhole.offerHandover kept)
          (ownHandoverSent_releases (s := s.sentOut) htenure hview hlive hme hkept) (.inr hnot) hmute ⟨rfl, rfl⟩⟩
    · exact hfreed ▸ hanswer (feed := s.feed.sentWhole)
        (ownHandoverSent_disarmed (s := s.sentOut) hnone hnewer hstandby harmed) (.inl (by simp [hstandby]))
        (by simp [hstandby]) ⟨rfl, rfl⟩
    · have htold := ownHandoverSent_armed (s := s.sentOut) hnone hnewer hstandby harmed
      have hsent := sendWhole_ownHandover hstate hmatch hsending hframe hread hentry hfull
        (.inl (by simp [hstandby])) htold rfl (by simp)
      exact ⟨_, exec_eq_next hsent, rfl, rfl, rfl, rfl, by rw [← hfreed]; rfl⟩
    · exact hfreed ▸ hanswer (feed := s.feed.sentWhole)
        (ownHandoverSent_claiming (s := s.sentOut) hnone hnewer hclaiming) (.inl (by simp [hclaiming]))
        (by simp [hclaiming]) ⟨rfl, rfl⟩
    · exact hfreed ▸ hanswer (feed := s.feed.sentWhole)
        (ownHandoverSent_late (s := s.sentOut) hsuccessor hkept hother hview holder)
        (.inl (by rcases hoff with hf | hf <;> simp [hf])) (by rcases hoff with hf | hf <;> simp [hf]) ⟨rfl, rfl⟩

/-- Settles O56: what is handed back and what is received as the line turns, then the count of collisions. -/
theorem mismatchHandsFrameBack : Obligations.MismatchHandsFrameBack := by
  refine ⟨fun s x hstate hmismatch hsending hlead hsent hheld => exec_eq_next ?_,
    fun s x hstate hmismatch hsending hfound hheld => ⟨fun hcount => exec_eq_next ?_, fun hcount hmute => ?_⟩⟩
  · have hlost := loseArbitration_found hstate hmismatch hlead hsent
    rw [handedBack_free hsending hheld, turnToReceiving_lead hsending hlead hsent] at hlost
    exact hlost
  · have hcollided := collide_below hstate hmismatch hfound hcount
    rw [handedBack_free hsending hheld, turnToReceiving_eq hsending] at hcollided
    exact hcollided
  · have hcollided := collide_third hstate hmismatch hfound hcount
    obtain ⟨e, hmuted, -, hseqs⟩ := enterMute_boundary (s := (s.setFeed s.feed.handedBack).setLine
      { turnToReceiving s with collisions := 3 }) hmute
    exact ⟨_, exec_eq_next (hcollided.trans hmuted), rfl, rfl, rfl, rfl, hseqs, by simp, by simp, by simp, by simp⟩

end Sys2Proof.Proofs
end

section
/-! SUPPORT. The header of the dictionary (R134 to R136, R179, R180): a number of one byte, the bucket bits that fit the
flash, and which headers are accepted with which parameters. -/

namespace Sys2Proof.Machine

section BucketBits
variable {base flash : Nat}

/-- The slot area of `b` bucket bits lies within the flash (R180). -/
def SlotAreaFits (base flash b : Nat) : Prop :=
  base + 2 ^ b * 64 ≤ flash

theorem SlotAreaFits.of_le {b c : Nat} (hfits : SlotAreaFits base flash b) (hle : c ≤ b) : SlotAreaFits base flash c := by
  have hpow : 2 ^ c ≤ 2 ^ b := Nat.pow_le_pow_right Nat.two_pos hle
  unfold SlotAreaFits at *
  omega

theorem fitBits_succ_fits {b : Nat} (hlow : 10 ≤ b + 1) (hfits : SlotAreaFits base flash (b + 1)) :
    fitBits base flash (b + 1) = some (b + 1) := by
  rw [fitBits, if_neg (Nat.not_lt.mpr hlow)]
  exact if_pos hfits

theorem fitBits_succ_exceeds {b : Nat} (hlow : 10 ≤ b + 1) (hexceeds : ¬SlotAreaFits base flash (b + 1)) :
    fitBits base flash (b + 1) = fitBits base flash b := by
  rw [fitBits, if_neg (Nat.not_lt.mpr hlow)]
  exact if_neg hexceeds

theorem fitBits_below {b : Nat} (hlow : b < 10) : fitBits base flash b = none := by
  cases b with
  | zero => rfl
  | succ b => rw [fitBits, if_pos hlow]

/-- The loop of R180 gives up exactly when ten bucket bits are already too many. -/
theorem fitBits_eq_none_iff {b : Nat} (hlow : 10 ≤ b) : fitBits base flash b = none ↔ ¬SlotAreaFits base flash 10 := by
  induction b, hlow using Nat.le_induction with
  | base =>
    by_cases hfits : SlotAreaFits base flash 10
    · simp [fitBits_succ_fits (Nat.le_refl 10) hfits, hfits]
    · simp [fitBits_succ_exceeds (Nat.le_refl 10) hfits, fitBits_below, hfits]
  | succ b hlow ih =>
    by_cases hfits : SlotAreaFits base flash (b + 1)
    · simp [fitBits_succ_fits (Nat.le_succ_of_le hlow) hfits, hfits.of_le (Nat.le_succ_of_le hlow)]
    · rw [fitBits_succ_exceeds (Nat.le_succ_of_le hlow) hfits, ih]

/-- The bits the loop of R180 ends with are the most that fit. -/
theorem fitBits_most {b r : Nat} (hfound : fitBits base flash b = some r) :
    SlotAreaFits base flash r ∧ (r < b → ¬SlotAreaFits base flash (r + 1)) := by
  induction b with
  | zero => cases hfound
  | succ b ih =>
    have hlow : 10 ≤ b + 1 := by
      by_contra hbelow
      rw [fitBits_below (Nat.not_le.mp hbelow)] at hfound
      cases hfound
    by_cases hfits : SlotAreaFits base flash (b + 1)
    · obtain rfl : b + 1 = r := Option.some.inj ((fitBits_succ_fits hlow hfits).symm.trans hfound)
      exact ⟨hfits, fun hless => absurd hless (Nat.lt_irrefl _)⟩
    · rw [fitBits_succ_exceeds hlow hfits] at hfound
      obtain ⟨hfitting, hmost⟩ := ih hfound
      refine ⟨hfitting, fun hless => ?_⟩
      rcases Nat.lt_succ_iff_lt_or_eq.mp hless with hbelow | rfl
      · exact hmost hbelow
      · exact hfits

end BucketBits

section Headers
variable {bytes : List Byte} {p : Params}

theorem numberAt_one {i : Nat} : numberAt bytes i 1 = (byteAt bytes i).toNat := by
  rw [numberAt, byteAt, List.take_one, List.head?_drop, List.getD_eq_getElem?_getD]
  cases bytes[i]? <;> simp

/-- Magic and format version as R134 lays them out, each in its own bytes. -/
theorem headerSound_iff : headerSound bytes = true ↔
    bytes.take 4 = [0x5A#8, 0x46#8, 0x44#8, 0x48#8] ∧ byteAt bytes 4 = 1 ∧ 5 ≤ bytes.length
      ∧ numberAt bytes 288 2 = (crc (bytes.take 288)).toNat := by
  have hfirst : bytes.take 5 = [0x5A#8, 0x46#8, 0x44#8, 0x48#8, 1#8] ↔
      bytes.take 4 = [0x5A#8, 0x46#8, 0x44#8, 0x48#8] ∧ byteAt bytes 4 = 1 ∧ 5 ≤ bytes.length := by
    match bytes with
    | [] | [_] | [_, _] | [_, _, _] | [_, _, _, _] => simp [byteAt]
    | _ :: _ :: _ :: _ :: _ :: _ => simp [byteAt, and_assoc]
  rw [headerSound, Bool.and_eq_true, beq_iff_eq, beq_iff_eq, hfirst]
  simp only [and_assoc]

/-- The base of the slot area, a nonzero multiple of 4096 (R179, check 3). -/
def BaseSound (base : Nat) : Prop :=
  base % 4096 = 0 ∧ base ≠ 0

theorem acceptHeader_sound_eq (hsound : headerSound bytes = true) (hbase : BaseSound (numberAt bytes 10 4)) :
    acceptHeader bytes = (fitBits (numberAt bytes 10 4) (numberAt bytes 6 4)
      (clamp 10 16 (byteAt bytes 5).toNat)).map (headerParams bytes (numberAt bytes 10 4)) := by
  obtain ⟨haligned, hnonzero⟩ := hbase
  rw [acceptHeader, if_pos (by simp [hsound, haligned, hnonzero]), numberAt_one]

theorem acceptHeader_unsound (h : ¬(headerSound bytes = true ∧ BaseSound (numberAt bytes 10 4))) :
    acceptHeader bytes = none := by
  rw [acceptHeader, if_neg (by simpa [BaseSound, and_assoc] using h)]

/-- The four checks of R179. -/
theorem acceptHeader_eq_none_iff : acceptHeader bytes = none ↔
    ¬(headerSound bytes = true ∧ BaseSound (numberAt bytes 10 4)
      ∧ SlotAreaFits (numberAt bytes 10 4) (numberAt bytes 6 4) 10) := by
  by_cases hchecked : headerSound bytes = true ∧ BaseSound (numberAt bytes 10 4)
  · obtain ⟨hsound, hbase⟩ := hchecked
    have hlow := (clamp_range 10 16 (byteAt bytes 5).toNat (by omega)).1
    rw [acceptHeader_sound_eq hsound hbase, Option.map_eq_none_iff, fitBits_eq_none_iff hlow]
    simp [hsound, hbase]
  · rw [acceptHeader_unsound hchecked, ← and_assoc]
    simp only [hchecked, false_and, not_false_eq_true]

theorem acceptHeader_some (haccepted : acceptHeader bytes = some p) :
    ∃ b, fitBits (numberAt bytes 10 4) (numberAt bytes 6 4) (clamp 10 16 (byteAt bytes 5).toNat) = some b
      ∧ p = headerParams bytes (numberAt bytes 10 4) b := by
  by_cases hchecked : headerSound bytes = true ∧ BaseSound (numberAt bytes 10 4)
  · obtain ⟨hsound, hbase⟩ := hchecked
    rw [acceptHeader_sound_eq hsound hbase, Option.map_eq_some_iff] at haccepted
    obtain ⟨b, hfound, hp⟩ := haccepted
    exact ⟨b, hfound, hp.symm⟩
  · rw [acceptHeader_unsound hchecked] at haccepted
    cases haccepted

theorem lineRateOf_other {code : Nat} (hzero : code ≠ 0) (htwo : code ≠ 2) : lineRateOf code = .kbit500 := by
  rw [lineRateOf, if_neg hzero, if_neg htwo]

theorem labels_headerParams (base bits : Nat) (k : Fin 16) :
    (headerParams bytes base bits).labels[k] = labelOf bytes k.val := by
  simp [headerParams]

end Headers

end Sys2Proof.Machine
end

section
/-! SUPPORT. What a PRESENCE of this station tells (R129, R175, R183). -/

namespace Sys2Proof.Machine

section PresenceFields

theorem reach_inTenure {s : State} (htenure : s.floor.state.inTenure = true) :
    (presenceFields s).reach = some { epoch := s.feed.epoch, nextSeq := s.feed.nextSeq, boundary := s.feed.settled } :=
  if_pos htenure

theorem reach_outside {s : State} (htenure : s.floor.state.inTenure = false) :
    (presenceFields s).reach = viewReach s.floor.view := by
  rw [presenceFields, htenure]
  rfl

theorem viewReach_eq_none_iff (v : View) :
    viewReach v = none ↔ v.epoch = none ∨ v.nextSeq = none ∨ v.boundary = none := by
  obtain ⟨live, epoch, nextSeq, boundary⟩ := v
  cases epoch <;> cases nextSeq <;> cases boundary <;> simp [viewReach]

theorem viewReach_eq_some {v : View} {r : Reach} (hknown : viewReach v = some r) :
    v.epoch = some r.epoch ∧ v.nextSeq = some r.nextSeq ∧ v.boundary = some r.boundary := by
  unfold viewReach at hknown
  split at hknown
  · next e n b hepoch hnext hboundary =>
    obtain rfl := Option.some.inj hknown
    exact ⟨hepoch, hnext, hboundary⟩
  · cases hknown

/-- A count within its range passes through its field unchanged (section 0.6). -/
theorem toNat_ofNat_of_le {w n limit : Nat} (hcount : n ≤ limit) (hroom : limit < 2 ^ w) :
    (BitVec.ofNat w n).toNat = n := by
  rw [BitVec.toNat_ofNat, Nat.mod_eq_of_lt (Nat.lt_of_le_of_lt hcount hroom)]

end PresenceFields

end Sys2Proof.Machine
end

section
/-! The statements of the frame, slot and header formats, settled. -/

namespace Sys2Proof.Proofs

open Sys2Proof.Machine

/-- Settles O11: which headers are accepted by `acceptHeader_eq_none_iff`, how many bucket bits by `fitBits_most`, then
parameter by parameter. -/
theorem headerJudgedAndBroughtIntoRange : Obligations.HeaderJudgedAndBroughtIntoRange := by
  refine ⟨fun bytes => ⟨?_, fun p haccepted => ?_⟩, fun bytes p haccepted => ?_⟩
  · rw [acceptHeader_eq_none_iff, headerSound_iff, BaseSound, and_assoc (a := _ % _ = _)]
    rfl
  · obtain ⟨b, hfound, rfl⟩ := acceptHeader_some haccepted
    obtain ⟨hlow, hasked⟩ := fitBits_range _ _ _ _ hfound
    obtain ⟨hfits, hmost⟩ := fitBits_most hfound
    exact ⟨rfl, hlow, hasked, hfits, hmost⟩
  · obtain ⟨b, -, rfl⟩ := acceptHeader_some haccepted
    refine ⟨rfl, rfl, rfl, rfl, rfl, rfl, rfl, fun hcode => ?_, fun hcode => ?_, fun hzero htwo => ?_, rfl, rfl, rfl, rfl,
      rfl, fun k => ?_⟩
    · exact congrArg lineRateOf hcode
    · exact congrArg lineRateOf hcode
    · exact lineRateOf_other hzero htwo
    · rw [labels_headerParams, labelOf]
      exact List.map_congr_left fun b _ => orQuestion_eq b

/-- Settles O47: the characters by `frameDone_chars` and `frameValid_chars`, the lead by its two halves, the body by
`parse_body`. -/
theorem frameRoundTrip : Obligations.FrameRoundTrip := by
  intro sender f hf
  have hkind := leadKind_leadByte sender (kind_le f)
  refine ⟨leadByte f.kind sender, f.afterLead, chars_eq sender f, frameDone_chars sender hf, frameValid_chars sender hf,
    hkind, leadStation_leadByte sender (kind_le f), ?_⟩
  rw [hkind, frameBody_afterLead, parse_body hf]

/-- Settles O54: role and reach by the floor state, then each health field at the width of its own characters. -/
theorem presenceFieldsReadFromBlocks : Obligations.PresenceFieldsReadFromBlocks := by
  intro s
  refine ⟨fun htenure => ?_, congrArg roleOfFloor, congrArg roleOfFloor, fun houtside => ?_, rfl,
    toNat_ofNat_of_le (Nat.min_le_left _ _) (by omega), fun herrors => toNat_ofNat_of_le herrors (by omega),
    fun hrefusals => toNat_ofNat_of_le hrefusals (by omega), fun hfaults => toNat_ofNat_of_le hfaults (by omega),
    rfl, rfl, rfl, bne_iff_ne⟩
  · rcases htenure with hstate | hstate
    all_goals exact ⟨congrArg roleOfFloor hstate, reach_inTenure (congrArg FloorState.inTenure hstate)⟩
  · have hview : (presenceFields s).reach = viewReach s.floor.view := by
      rcases houtside with hstate | hstate
      all_goals exact reach_outside (congrArg FloorState.inTenure hstate)
    rw [hview]
    exact ⟨viewReach_eq_none_iff s.floor.view, fun _ => viewReach_eq_some⟩

end Sys2Proof.Proofs
end

section
/-! SUPPORT. The outbound queue's offers (R142): where a CLAIM and a HANDOVER go; a cut (R148, R151), and one replay frame
at a time (R150). -/

namespace Sys2Proof.Machine

section Offers
variable {f : Feed} {before behind : List Frame}

theorem offerClaim_replaces (fr : Frame) {epoch : Option Epoch} {withdraw : Bool}
    (hwaiting : f.waiting = before ++ .claim epoch withdraw :: behind) (hbehind : ∀ x ∈ behind, x.isClaim = false) :
    f.offerClaim fr = { f with waiting := before ++ fr :: behind } := by
  have hany : f.waiting.any Frame.isClaim = true := by simp [hwaiting, Frame.isClaim]
  rw [Feed.offerClaim, if_pos hany, hwaiting, replaceNewest_split Frame.isClaim fr _ before behind rfl hbehind]

theorem offerClaim_joins (fr : Frame) (hnone : ∀ x ∈ f.waiting, x.isClaim = false) :
    f.offerClaim fr = { f with waiting := if f.places < 16 then f.waiting ++ [fr] else f.waiting } := by
  rw [Feed.offerClaim, if_neg (by simpa using hnone), join_eq]

variable (h : Handover)

theorem offerHandover_held (hheld : f.held.isSome = true) : f.offerHandover h = { f with held := some h } :=
  if_pos hheld

theorem offerHandover_replaces {old : Handover} (hheld : f.held = none)
    (hwaiting : f.waiting = before ++ .handover old :: behind) (hbehind : ∀ x ∈ behind, x.isHandover = false) :
    f.offerHandover h = { f with waiting := before ++ .handover h :: behind } := by
  have hany : f.waiting.any Frame.isHandover = true := by simp [hwaiting, Frame.isHandover]
  rw [Feed.offerHandover, if_neg (by simp [hheld]), if_pos hany, hwaiting,
    replaceNewest_split Frame.isHandover _ _ before behind rfl hbehind]

/-- With no HANDOVER held or waiting, the queue's places decide whether it joins or is held. -/
theorem offerHandover_fresh (hheld : f.held = none) (hnone : ∀ x ∈ f.waiting, x.isHandover = false) :
    f.offerHandover h =
      if f.places < 16 then { f with waiting := f.waiting ++ [.handover h] } else { f with held := some h } := by
  rw [Feed.offerHandover, if_neg (by simp [hheld]), if_neg (by simpa using hnone)]
  rfl

end Offers

section Cuts
variable {f : Feed} {q : Seq}

/-- The feed as a cut leaves it before its CUT: no segment frame waits and no entry stands that is not older than `q`, and
N is `q` (R148). -/
def Feed.cutBack (q : Seq) (f : Feed) : Feed :=
  { f with
    waiting := f.waiting.filter fun x => !x.cutBy q
    sending := f.sending.map fun x => if x.frame.cutBy q then { x with withdrawn := true } else x
    ring := f.ring.filter fun e => seqOlder e.seq q
    nextSeq := q }

theorem cut_eq_cutBack (hheld : f.held = none) : f.cut q =
    let g := if seqOlder q f.wireNext then { (f.cutBack q).join (.cut f.epoch q) with wireNext := q } else f.cutBack q
    { g with cursor := cutCursor q g.cursor } := by
  rw [Feed.cut, withdraw_free _ hheld]
  rfl

theorem cutBack_places (hheld : f.held = none) : (f.cutBack q).places ≤ f.places := by
  have hwithdrawn := withdraw_le (Frame.cutBy q) hheld
  rw [withdraw_free _ hheld] at hwithdrawn
  exact hwithdrawn

/-- The CUT of a cut below W finds a place when the queue had one (R143, R148). -/
theorem cut_room (hheld : f.held = none) (hroom : f.places < 16) : f.cut q = { f.cutBack q with
    waiting := if seqOlder q f.wireNext then (f.cutBack q).waiting ++ [.cut f.epoch q] else (f.cutBack q).waiting
    wireNext := if seqOlder q f.wireNext then q else f.wireNext
    cursor := cutCursor q f.cursor } := by
  rw [cut_eq_cutBack hheld, join_room _ (Nat.lt_of_le_of_lt (cutBack_places hheld) hroom)]
  cases seqOlder q f.wireNext <;> rfl

end Cuts

section Generation
variable {s : State} {f : Feed}

theorem generateReplay_ready (hlive : s.floor.state = .live) (hwaiting : s.feed.waiting = [])
    (hsending : s.feed.sending = none) (hreplay : s.feed.gap.isSome = true ∨ s.feed.cursor.isSome = true) :
    generateReplay s = s.setFeed s.feed.generate := by
  have hempty : s.feed.queueEmpty = true := (queueEmpty_iff s.feed).mpr ⟨hwaiting, hsending⟩
  exact if_pos (by simp [replayReady, hlive, hempty, hreplay])

theorem join_empty (fr : Frame) (hwaiting : f.waiting = []) (hsending : f.sending = none) :
    f.join fr = { f with waiting := [fr] } := by
  rw [join_room fr (by simp [Feed.places, hwaiting, hsending]), hwaiting, List.nil_append]

theorem generate_gap {g : GapRun} (hgap : f.gap = some g) :
    f.generate = { f.join (.gap f.epoch g.fromSeq g.toSeq) with gap := none } := by
  rw [Feed.generate, hgap]

theorem generate_copy {c : Seq} {e : Segment} (hgap : f.gap = none) (hcursor : f.cursor = some c)
    (hentry : f.ring.find? (fun x => x.seq == c) = some e) :
    f.generate = { f.join (.segment f.epoch (some (seqOlder c f.settled)) e) with
      cursor := if c + 1 = f.nextSeq then none else some (c + 1) } := by
  rw [Feed.generate, hgap, hcursor]
  dsimp only
  rw [hentry]

end Generation

end Sys2Proof.Machine
end

section
/-! SUPPORT. A HANDOVER of another station heard standing by (R158 to R164): its verdict, the view it leaves, and the
decline or the automatic claim that answers it. -/

namespace Sys2Proof.Machine

section StandingBy
variable {s : State} {sender : Station} {h : Handover}

/-- A HANDOVER whose verdict moves nothing leaves a station off the floor as it is. -/
theorem takeHandover_unmoved (hoff : s.floor.state.inTenure = false)
    (hv : verdict s.station s.floor.view (some h.epoch) h.successor = .ignored
      ∨ verdict s.station s.floor.view (some h.epoch) h.successor = .stale) :
    takeTenureFrame sender (some h.epoch) (.handover h) s = s := by
  rcases hv with hv | hv
  · exact takeTenureFrame_ignored hv
  · unfold takeTenureFrame
    dsimp only [Frame.candidate]
    rw [hv]
    exact if_neg (by simp [hoff])

theorem moveView_standby (view : View) (hstandby : s.floor.state = .standby) :
    moveView view (takeLineTime (.handover h) s) = s.followed view (h.lineTime - s.clock) := by
  have hline : takeLineTime (.handover h) s = s.setFloor { s.floor with lineOffset := h.lineTime - s.clock } :=
    if_pos (by simp [hstandby])
  rw [hline, moveView_eq]
  rfl

/-- A followed HANDOVER moves the view, and a newer one is reacted to (R158, R159, R161, R163, R164). -/
theorem takeHandover_standby {v : Verdict} {live : Option Station} (hstandby : s.floor.state = .standby)
    (hv : verdict s.station s.floor.view (some h.epoch) h.successor = v) (hfollow : Follows s.floor.view h.epoch v)
    (hlive : newLive s.station v false h.successor = live) :
    takeTenureFrame sender (some h.epoch) (.handover h) s =
      let t := s.followed (h.view live) (h.lineTime - s.clock)
      if v = .adopted then reactStandby (.handover h) t else t := by
  have hstate (view : View) : (s.followed view (h.lineTime - s.clock)).floor.state = .standby := hstandby
  have hnot : makesLive s v (.handover h) = false := makesLive_tenure v _ (by simp [hstandby])
  rw [takeTenureFrame_follows (f := .handover h) hv (hfollow.imp_right And.left) hnot, moveView_standby _ hstandby]
  dsimp only [Frame.candidate]
  rw [hlive, follow_handover hfollow, reactToView, hstate]
  simp only [beq_iff_eq]

/-- The successor becomes the live station of the view when it is another station, or none. -/
theorem newLive_other {me : Station} {candidate : Option Station} (v : Verdict) (hother : candidate ≠ some me) :
    newLive me v false candidate = candidate := by
  simp [newLive, hother]

theorem sameEpochVerdict_upTo {me y : Station} {live : Option Station} (hme : y ≠ me)
    (hupTo : ∀ x, live = some x → y ≤ x) : sameEpochVerdict me live (some y) = .refreshed := by
  by_cases hhere : live = some y
  · rw [hhere, sameEpochVerdict_live]
  · refine sameEpochVerdict_lower hme fun x hx => lt_of_le_of_ne (hupTo x hx) ?_
    rintro rfl
    exact hhere hx

theorem sameEpochVerdict_unnamed {me : Station} {live candidate : Option Station} (hlive : live ≠ some me)
    (hcandidate : candidate = some me ∨ candidate = none) : sameEpochVerdict me live candidate = .ignored := by
  rcases hcandidate with rfl | rfl
  · cases live with
    | none => exact if_pos rfl
    | some x =>
      have hx : x ≠ me := fun hx => hlive (congrArg some hx)
      rw [sameEpochVerdict, if_neg hx, if_pos rfl]
  · cases live <;> rfl

/-- The floor of a station standing by once its view has followed a HANDOVER to another station, or to none (R158 to R161,
R164). -/
def Floor.heard (h : Handover) (offset : Clock) (f : Floor) : Floor :=
  { f with
    view := h.view h.successor, lineOffset := offset, armed := f.armedFor h.successor
    absenceTimer := if h.successor = none then none else some f.absenceTimeout }

theorem followed_heard (offset : Clock) (hother : h.successor ≠ some s.station) :
    s.followed (h.view h.successor) offset = s.setFloor (s.floor.heard h offset) := by
  have habsence : absenceLoad s.station s.floor.absenceTimeout h.successor =
      if h.successor = none then none else some s.floor.absenceTimeout := by
    cases hsuccessor : h.successor with
    | none => rfl
    | some y => exact absenceLoad_other _ fun hy => hother (hy ▸ hsuccessor)
  rw [Floor.heard, ← habsence]
  rfl

theorem takeHandover_adopts (hstandby : s.floor.state = .standby) (hother : h.successor ≠ some s.station)
    (hnewer : ∀ e, s.floor.view.epoch = some e → epochNewer h.epoch e = true) :
    takeTenureFrame sender (some h.epoch) (.handover h) s =
      reactStandby (.handover h) (s.setFloor (s.floor.heard h (h.lineTime - s.clock))) := by
  rw [takeHandover_standby hstandby (verdict_newer hnewer) (.inl rfl) (newLive_other .adopted hother),
    followed_heard _ hother]
  rfl

theorem heard_armed_vacant {f : Floor} (offset : Clock) (hnone : h.successor = none) :
    (f.heard h offset).armed = f.armed :=
  if_neg (by simp [hnone])

/-- Unless it is armed and the HANDOVER names NONE, the station only follows. -/
theorem takeHandover_heard (hstandby : s.floor.state = .standby) (hother : h.successor ≠ some s.station)
    (hidle : h.successor ≠ none ∨ s.floor.armed = false)
    (hnewer : ∀ e, s.floor.view.epoch = some e → epochNewer h.epoch e = true) :
    takeTenureFrame sender (some h.epoch) (.handover h) s = s.setFloor (s.floor.heard h (h.lineTime - s.clock)) := by
  rw [takeHandover_adopts hstandby hother hnewer]
  cases hsuccessor : h.successor with
  | none =>
    have hdisarmed : s.floor.armed = false := hidle.resolve_left (absurd hsuccessor)
    rw [reactStandby_vacant hsuccessor]
    exact if_neg (by simp [heard_armed_vacant _ hsuccessor, hdisarmed])
  | some y => exact reactStandby_names_other hsuccessor fun hy => hother (hy ▸ hsuccessor)

/-- R164: an armed station claims the floor a HANDOVER leaves vacant. -/
theorem takeHandover_vacant_claims (hstandby : s.floor.state = .standby) (hnone : h.successor = none)
    (harmed : s.floor.armed = true) (hnewer : ∀ e, s.floor.view.epoch = some e → epochNewer h.epoch e = true) :
    takeTenureFrame sender (some h.epoch) (.handover h) s =
      (s.setFloor { s.floor.heard h (h.lineTime - s.clock) with
        state := .claiming, origin := some .auto, presenceTimer := some s.floor.presencePeriod
        claimTimer :=
          if s.line.integrated = true ∧ s.floor.claimTimer = none then some s.floor.claimWindow
          else s.floor.claimTimer }).setFeed (s.feed.offerClaim (.claim (some h.epoch) false)) := by
  have hkept : (s.floor.heard h (h.lineTime - s.clock)).armed = true :=
    (heard_armed_vacant _ hnone).trans harmed
  rw [takeHandover_adopts hstandby (by simp [hnone]) hnewer, reactStandby_vacant hnone, if_pos (by exact hkept),
    enterClaiming_eq, windowLoaded_of_vacant _ (by exact hnone)]
  rfl

/-- R163: a newer HANDOVER that names this station is declined with its own line time. -/
theorem takeHandover_standby_declines (hstandby : s.floor.state = .standby) (hme : h.successor = some s.station)
    (hnewer : ∀ e, s.floor.view.epoch = some e → epochNewer h.epoch e = true) :
    takeTenureFrame sender (some h.epoch) (.handover h) s =
      (s.setFloor { s.floor with
        view := h.view none, lineOffset := h.lineTime - s.clock, armed := false, absenceTimer := none
        lastOffered := some { epoch := h.epoch + 1, successor := none, nextSeq := h.nextSeq } }).setFeed
      (s.feed.offerHandover
        { epoch := h.epoch + 1, successor := none, nextSeq := h.nextSeq, lineTime := h.lineTime }) := by
  have hlive : newLive s.station .adopted false h.successor = none := by simp [newLive, hme]
  have hmute : (s.followed (h.view none) (h.lineTime - s.clock)).floor.state ≠ .mute := by
    show s.floor.state ≠ .mute
    simp [hstandby]
  have htime : s.clock + (h.lineTime - s.clock) = h.lineTime := add_sub_cancel _ _
  rw [takeHandover_standby hstandby (verdict_newer hnewer) (.inl rfl) hlive]
  dsimp only
  rw [if_pos rfl, reactStandby_declines (by exact hme) hmute]
  dsimp only [State.followed, State.setFloor, State.setFeed]
  rw [htime]
  rfl

/-- A HANDOVER of the view's own epoch that names a station up to the live one is followed, and not reacted to (R158). -/
theorem takeHandover_standby_refreshes {y : Station} (hstandby : s.floor.state = .standby) (hy : h.successor = some y)
    (hother : y ≠ s.station) (hepoch : s.floor.view.epoch = some h.epoch)
    (hupTo : ∀ x, s.floor.view.live = some x → y ≤ x) :
    takeTenureFrame sender (some h.epoch) (.handover h) s = s.setFloor (s.floor.heard h (h.lineTime - s.clock)) := by
  have hsuccessor : h.successor ≠ some s.station := by simpa [hy] using hother
  have hv : verdict s.station s.floor.view (some h.epoch) h.successor = .refreshed := by
    rw [verdict_same hepoch, hy, sameEpochVerdict_upTo hother hupTo]
  rw [takeHandover_standby hstandby hv (.inr ⟨rfl, hepoch⟩) (newLive_refreshed _ _), followed_heard _ hsuccessor]
  exact if_neg nofun

/-- A HANDOVER heard whole that leaves the engine alone has a quiet boundary behind it (R44). -/
theorem exec_heard_handover {t : State} (hstandby : s.floor.state = .standby) (hsender : sender ≠ s.station)
    (hstate : s.line.state = .receiving) (hbits : s.line.charBits = [])
    (hreceived : s.line.received = (Frame.handover h).chars sender) (hentry : s.engine.settleOnEntry = false)
    (hfull : s.engine.fullSettle = false)
    (htaken : takeTenureFrame sender (some h.epoch) (.handover h) s.lineQuiet = t) (hengine : t.engine = s.engine)
    (hmute : t.floor.state ≠ .mute) : exec .frameComplete s = .next t := by
  have hheard := heard_handover (by simp [hstandby]) hsender hstate hbits hreceived
  rw [htaken] at hheard
  exact exec_eq_next (hheard.trans (boundaryIfBetween_quiet (hengine ▸ hentry) (hengine ▸ hfull) hmute))

end StandingBy

end Sys2Proof.Machine
end

section
/-! SUPPORT. The absence and the presence timer when they are due (R160, R164, R166, R175). -/

namespace Sys2Proof.Machine

section FloorTimers
variable {s : State}

/-- The view has become vacant by the absence timer: epoch, next seq and boundary stay (R160). -/
def State.vacated (s : State) : State :=
  s.setFloor { s.floor with view := { s.floor.view with live := none }, absenceTimer := none }

theorem expireAbsence_due (ht : s.floor.absenceTimer = some 0) : expireAbsence s = reactToVacancy s.vacated :=
  if_pos (by simp [Timer.due, ht])

theorem reactToVacancy_standby (hstandby : s.floor.state = .standby) :
    reactToVacancy s = if s.floor.armed = true then enterClaiming .auto s else s := by
  rw [reactToVacancy, hstandby]

theorem reactToVacancy_claiming (hclaiming : s.floor.state = .claiming) : reactToVacancy s = loadClaimWindow s := by
  rw [reactToVacancy, hclaiming]

theorem reactToVacancy_other (hstandby : s.floor.state ≠ .standby) (hclaiming : s.floor.state ≠ .claiming) :
    reactToVacancy s = s := by
  unfold reactToVacancy
  split
  · next h => exact absurd h hstandby
  · next h => exact absurd h hclaiming
  all_goals rfl

/-- An automatic claim and the claim window leave the vacant view and the stopped absence timer (R164, R166). -/
theorem reactToVacancy_view (s : State) : (reactToVacancy s).floor.view = s.floor.view
    ∧ (reactToVacancy s).floor.absenceTimer = s.floor.absenceTimer := by
  by_cases hstandby : s.floor.state = .standby
  · rw [reactToVacancy_standby hstandby, enterClaiming_eq]
    split <;> exact ⟨rfl, rfl⟩
  by_cases hclaiming : s.floor.state = .claiming
  · rw [reactToVacancy_claiming hclaiming, loadClaimWindow_eq hclaiming]
    exact ⟨rfl, rfl⟩
  · rw [reactToVacancy_other hstandby hclaiming]
    exact ⟨rfl, rfl⟩

/-- The presence timer is loaded again, and the station offers a CLAIM in CLAIMING and a PRESENCE elsewhere (R175). -/
theorem expirePresence_due (ht : s.floor.presenceTimer = some 0) (hmute : s.floor.state ≠ .mute) :
    expirePresence s = (s.setFloor { s.floor with
      presenceTimer := some
        (if s.floor.state = .standby then 4 * s.floor.presencePeriod else s.floor.presencePeriod) }).setFeed
      (if s.floor.state = .claiming then s.feed.offerClaim (.claim s.floor.view.epoch false)
      else s.feed.offerPresence) := by
  have hdue : s.floor.presenceTimer.due = true := by simp [Timer.due, ht]
  rw [expirePresence, if_pos hdue, loadPresence_eq hmute]
  by_cases hclaiming : s.floor.state = .claiming
  · rw [if_pos hclaiming]
    exact (if_pos (by simp [hclaiming])).trans (offer_eq _ (by exact hmute))
  · rw [if_neg hclaiming]
    exact (if_neg (by simpa using hclaiming)).trans (offer_eq _ (by exact hmute))

end FloorTimers

end Sys2Proof.Machine
end

section
/-! The statements of the feed: numbering, the outbound queue and replay, settled. -/

namespace Sys2Proof.Proofs

open Sys2Proof.Machine

/-- Settles O38: with nothing held a withdrawal only frees places, so the CUT finds one. -/
theorem cutWithdrawsSegments : Obligations.CutWithdrawsSegments :=
  fun _ _ hheld hroom => cut_room hheld hroom

/-- Settles O40: a pending GAP goes before the copy, and either joins the empty queue. -/
theorem replayGeneratesOneFrame : Obligations.ReplayGeneratesOneFrame := by
  intro s hlive hwaiting hsending
  refine ⟨fun g hgap => exec_eq_next ?_, fun c e hgap hcursor hentry => exec_eq_next ?_⟩
  · rw [answer, generateReplay_ready hlive hwaiting hsending (.inl (by simp [hgap])), generate_gap hgap,
      join_empty _ hwaiting hsending]
    rfl
  · rw [answer, generateReplay_ready hlive hwaiting hsending (.inr (by simp [hcursor])),
      generate_copy hgap hcursor hentry, join_empty _ hwaiting hsending]
    rfl

/-- Settles O51: the verdict by epoch and successor, then one equation of `takeTenureFrame` for each outcome; the offer by
what is held, what waits and the places. -/
theorem standbyDeclinesHandover : Obligations.StandbyDeclinesHandover := by
  refine ⟨?_, fun f h => ⟨offerHandover_held h, fun before old behind => offerHandover_replaces h,
    fun hheld hnone => ⟨fun hroom => ?_, fun hfull => ?_⟩⟩⟩
  · intro s sender h hstandby hsender hstate hbits hreceived hentry hfull quiet follows
    have hmute : s.floor.state ≠ .mute := by simp [hstandby]
    have hoff : s.lineQuiet.floor.state.inTenure = false := congrArg FloorState.inTenure hstandby
    have hanswer {t : State} (htaken : takeTenureFrame sender (some h.epoch) (.handover h) s.lineQuiet = t) :=
      exec_heard_handover hstandby hsender hstate hbits hreceived hentry hfull htaken
    refine ⟨fun hme hnewer => ?_, fun hother hidle hnewer => ?_, fun hnone harmed hnewer => ?_,
      fun y hy hother hepoch => ⟨fun hupTo => ?_, fun x hx hhigher => ?_⟩, fun hepoch hlive hsuccessor => ?_,
      fun e he hne holder => ?_⟩
    · exact hanswer (takeHandover_standby_declines (s := s.lineQuiet) hstandby hme hnewer) rfl hmute
    · exact hanswer (takeHandover_heard (s := s.lineQuiet) hstandby hother hidle hnewer) rfl hmute
    · exact hanswer (takeHandover_vacant_claims (s := s.lineQuiet) hstandby hnone harmed hnewer) rfl (by simp)
    · exact hanswer (takeHandover_standby_refreshes (s := s.lineQuiet) hstandby hy hother hepoch hupTo) rfl hmute
    · have hv : verdict s.station s.floor.view (some h.epoch) h.successor = .stale := by
        rw [verdict_same hepoch, hx, hy, sameEpochVerdict_higher hother hhigher]
      exact hanswer (takeHandover_unmoved hoff (.inr hv)) rfl hmute
    · have hv : verdict s.station s.floor.view (some h.epoch) h.successor = .ignored := by
        rw [verdict_same hepoch, sameEpochVerdict_unnamed hlive hsuccessor]
      exact hanswer (takeHandover_unmoved hoff (.inl hv)) rfl hmute
    · exact hanswer (takeHandover_unmoved hoff (.inr (verdict_older he hne holder))) rfl hmute
  · exact (offerHandover_fresh h hheld hnone).trans (if_pos hroom)
  · exact (offerHandover_fresh h hheld hnone).trans (if_neg (Nat.not_lt.mpr hfull))

/-- Settles O57: the vacancy by the floor state that meets it, the presence timer by what is offered, the offer by what
waits. -/
theorem absenceAndPresenceTimers : Obligations.AbsenceAndPresenceTimers := by
  refine ⟨fun s ht => ?_, fun s ht hmute => exec_eq_next ?_, fun f epoch withdraw =>
    ⟨fun before oldEpoch oldWithdraw behind => offerClaim_replaces _, offerClaim_joins _⟩⟩
  · have hexpiry := expireAbsence_due ht
    obtain ⟨hview, habsence⟩ := reactToVacancy_view s.vacated
    refine ⟨reactToVacancy s.vacated, exec_eq_next hexpiry, hview, habsence, fun hstandby harmed => ?_,
      fun hstandby harmed => ?_, fun hclaiming hintegrated htimer => ?_, by simp [State.vacated],
      by simp [State.vacated], by simp [State.vacated], by simp [State.vacated], by simp [State.vacated]⟩
    · rw [reactToVacancy_standby (by exact hstandby), if_neg (by simp [State.vacated, harmed])]
      exact ⟨rfl, hstandby⟩
    · rw [reactToVacancy_standby (by exact hstandby), if_pos (by exact harmed), enterClaiming_eq]
      exact ⟨rfl, rfl, windowLoaded_of_vacant _ rfl, rfl, rfl⟩
    · rw [reactToVacancy_claiming (by exact hclaiming), loadClaimWindow_eq (by exact hclaiming)]
      exact ⟨hclaiming, (windowLoaded_of_vacant _ rfl).trans (if_pos ⟨hintegrated, htimer⟩), rfl⟩
  · rw [answer, expirePresence_due ht hmute, offerPresence_eq]
    rfl

end Sys2Proof.Proofs
end

section
/-! SUPPORT. The floor view through each operation: only a tenure frame, an own HANDOVER sent whole, the takeover and
the absence timer move it (R158, R160, R162, R169), and none of them takes its epoch to an older one. -/

namespace Sys2Proof.Machine

section ViewKept
variable (s : State)

@[simp] theorem loadPresence_view : (loadPresence s).floor.view = s.floor.view := rfl

@[simp] theorem loadClaimWindow_view : (loadClaimWindow s).floor.view = s.floor.view := by
  unfold loadClaimWindow
  split <;> rfl

@[simp] theorem offerHandover_view (h : Handover) : (offerHandover h s).floor.view = s.floor.view := by
  simp [offerHandover]

@[simp] theorem enterClaiming_view (origin : Origin) : (enterClaiming origin s).floor.view = s.floor.view := by
  rw [enterClaiming_eq]
  rfl

@[simp] theorem leaveClaiming_view : (leaveClaiming s).floor.view = s.floor.view := by
  rw [leaveClaiming_eq]
  rfl

@[simp] theorem enterHanding_view : (enterHanding s).floor.view = s.floor.view := rfl

@[simp] theorem leaveTenure_view : (leaveTenure s).floor.view = s.floor.view := rfl

@[simp] theorem enterMute_view : (enterMute s).floor.view = s.floor.view := by
  unfold enterMute
  split <;> rfl

@[simp] theorem buildHandover_view : (buildHandover s).floor.view = s.floor.view := by
  unfold buildHandover
  split
  · rfl
  · exact offerHandover_view s _

@[simp] theorem fullSettle_view : (fullSettle s).floor.view = s.floor.view := by
  unfold fullSettle
  dsimp only
  (repeat' split) <;> simp

@[simp] theorem boundaryWork_view : (boundaryWork s).floor.view = s.floor.view := by
  simp [boundaryWork]

@[simp] theorem boundaryIfBetween_view : (boundaryIfBetween s).floor.view = s.floor.view := by
  unfold boundaryIfBetween
  split
  · exact boundaryWork_view s
  · rfl

@[simp] theorem decline_view (h : Handover) : (decline h s).floor.view = s.floor.view :=
  offerHandover_view _ _

@[simp] theorem reactStandby_view (f : Frame) : (reactStandby f s).floor.view = s.floor.view := by
  unfold reactStandby
  (repeat' split) <;> simp

@[simp] theorem reactClaiming_view (v : Verdict) (f : Frame) : (reactClaiming v f s).floor.view = s.floor.view := by
  unfold reactClaiming
  (repeat' split) <;> simp

@[simp] theorem reactToView_view (v : Verdict) (f : Frame) : (reactToView v f s).floor.view = s.floor.view := by
  unfold reactToView
  dsimp only
  (repeat' split) <;> simp

@[simp] theorem unnameClaimant_view : (unnameClaimant s).floor.view = s.floor.view := by
  unfold unnameClaimant
  dsimp only
  (repeat' split) <;> rfl

@[simp] theorem takeClaim_view (sender : Station) (withdraw : Bool) :
    (takeClaim sender withdraw s).floor.view = s.floor.view := by
  unfold takeClaim
  (repeat' split) <;> simp

@[simp] theorem floorItem_view : (floorItem s).floor.view = s.floor.view := by
  unfold floorItem
  split <;> simp

@[simp] theorem pauseReport_view : (pauseReport s).floor.view = s.floor.view := by
  unfold pauseReport
  split <;> rfl

@[simp] theorem releaseKeptBack_view (h : Handover) : (releaseKeptBack h s).floor.view = s.floor.view := by
  unfold releaseKeptBack
  (repeat' split) <;> simp

@[simp] theorem integrationReported_view : (integrationReported s).floor.view = s.floor.view := by
  unfold integrationReported
  dsimp only
  split <;> simp

@[simp] theorem endIntegration_view : (endIntegration s).floor.view = s.floor.view := by
  unfold endIntegration
  (repeat' split) <;> simp

@[simp] theorem expirePresence_view : (expirePresence s).floor.view = s.floor.view := by
  unfold expirePresence
  dsimp only
  (repeat' split) <;> simp

@[simp] theorem collide_view : (collide s).floor.view = s.floor.view := by
  unfold collide
  dsimp only
  (repeat' split) <;> simp

@[simp] theorem completeHeaderRead_view (owner : ReadOwner) (bytes : List Byte) :
    (completeHeaderRead owner bytes s).floor.view = s.floor.view := by
  unfold completeHeaderRead
  (repeat' split) <;> rfl

@[simp] theorem expireStartupLimit_view : (expireStartupLimit s).floor.view = s.floor.view := by
  unfold expireStartupLimit
  split <;> rfl

end ViewKept

section ViewKeptByEngine
variable (s : State)

@[simp] theorem endStep_view : (endStep s).floor.view = s.floor.view :=
  boundaryWork_view _

@[simp] theorem finishStroke_view (k : Nat) (kind : RecordKind) (d : Descriptor) (w : Work) :
    (finishStroke k kind d w s).floor.view = s.floor.view := by
  unfold finishStroke
  dsimp only
  split <;> simp

@[simp] theorem fallback_view (w : Work) : (fallback w s).floor.view = s.floor.view := by
  unfold fallback
  split <;> simp

@[simp] theorem lookupFrom_view (n : Nat) (w : Work) : (lookupFrom n w s).floor.view = s.floor.view := by
  induction n generalizing w with
  | zero => exact fallback_view s w
  | succ n ih =>
    rw [lookupFrom]
    split
    · simp
    · exact ih _

@[simp] theorem probeOn_view (key : List StrokeCode) (j : Nat) (w : Work) :
    (probeOn key j w s).floor.view = s.floor.view := by
  unfold probeOn
  (repeat' split) <;> simp

@[simp] theorem completeSlotRead_view (owner : ReadOwner) (bytes : List Byte) :
    (completeSlotRead owner bytes s).floor.view = s.floor.view := by
  unfold completeSlotRead judgeRead
  (repeat' split) <;> simp

@[simp] theorem expireWatchdog_view : (expireWatchdog s).floor.view = s.floor.view := by
  unfold expireWatchdog
  (repeat' split) <;> simp

@[simp] theorem takeStroke_view (code : StrokeCode) (time : Clock) (gap : Nat) :
    (takeStroke code time gap s).floor.view = s.floor.view := by
  unfold takeStroke strokeStep
  split <;> simp

@[simp] theorem takeItem_view (i : Item) : (takeItem i s).floor.view = s.floor.view := by
  unfold takeItem
  split <;> simp

@[simp] theorem beginStep_view : (beginStep s).floor.view = s.floor.view := by
  unfold beginStep
  (repeat' split) <;> simp

@[simp] theorem expireSettleIdle_view : (expireSettleIdle s).floor.view = s.floor.view := by
  unfold expireSettleIdle
  split <;> simp

end ViewKeptByEngine

section OffFloor
variable {s : State} {sender : Station} {epoch : Option Epoch} {f : Frame}

/-- Off the floor a stale frame is not answered (R172). -/
theorem takeTenureFrame_stale_offFloor (hv : verdict s.station s.floor.view epoch (f.candidate sender) = .stale)
    (hoff : s.floor.state.inTenure = false) : takeTenureFrame sender epoch f s = s := by
  unfold takeTenureFrame
  dsimp only
  rw [hv]
  exact if_neg (by simp [hoff])

end OffFloor

section EpochMoves
variable {s t : State}

/-- A view whose epoch is `a` may come to have epoch `b`: the same one, any if it was unknown, or a newer one (R158). -/
def EpochMoves (a b : Option Epoch) : Prop :=
  b = a ∨ a = none ∨ ∃ old new, a = some old ∧ b = some new ∧ epochNewer new old = true

theorem epochMoves_of_view (h : t.floor.view = s.floor.view) : EpochMoves s.floor.view.epoch t.floor.view.epoch :=
  .inl (congrArg View.epoch h)

theorem epochMoves_of_newer {e : Epoch} {a : Option Epoch} (h : ∀ old, a = some old → epochNewer e old = true) :
    EpochMoves a (some e) := by
  cases a with
  | none => exact .inr (.inl rfl)
  | some old => exact .inr (.inr ⟨old, e, rfl, rfl, h old rfl⟩)

theorem sameEpochVerdict_not_adopted (me : Station) (live candidate : Option Station) :
    sameEpochVerdict me live candidate ≠ .adopted := by
  unfold sameEpochVerdict
  (repeat' split) <;> exact nofun

/-- Only a frame of a newer epoch is adopted (R157, R158). -/
theorem newer_of_adopted {me : Station} {view : View} {epoch : Option Epoch} {candidate : Option Station}
    (h : verdict me view epoch candidate = .adopted) :
    ∃ e, epoch = some e ∧ ∀ old, view.epoch = some old → epochNewer e old = true := by
  have hage : epochAge epoch view.epoch = .newer := by
    cases hage : epochAge epoch view.epoch with
    | newer => rfl
    | same =>
      rw [verdict, hage] at h
      exact absurd h (sameEpochVerdict_not_adopted _ _ _)
    | stale =>
      rw [verdict, hage] at h
      cases h
  cases epoch with
  | none => cases hage
  | some e =>
    refine ⟨e, rfl, fun old hold => ?_⟩
    by_contra hnot
    rw [hold, epochAge, if_neg hnot] at hage
    split at hage <;> cases hage

/-- A followed view takes the frame's epoch when the frame is adopted, and keeps its own when it is refreshed (R158). -/
theorem follow_epochMoves {me : Station} {view : View} {epoch : Option Epoch} {candidate : Option Station} {v : Verdict}
    (hv : verdict me view epoch candidate = v) (live : Option Station) (f : Frame) :
    EpochMoves view.epoch (view.follow v epoch live f).epoch := by
  by_cases hadopted : v = .adopted
  · obtain ⟨e, rfl, hnewer⟩ := newer_of_adopted (hv.trans hadopted)
    rw [hadopted]
    exact epochMoves_of_newer hnewer
  · exact .inl (if_neg (by simpa using hadopted))

theorem makesLive_cases {v : Verdict} {f : Frame} (h : makesLive s v f = true) :
    s.floor.state = .claiming ∧ v = .adopted ∧ ∃ ho : Handover, f = .handover ho ∧ ho.successor = some s.station := by
  cases f with
  | handover ho => simpa [makesLive, Frame.isHandover, Frame.candidate, and_assoc] using h
  | _ => simp [makesLive, Frame.isHandover] at h

/-- A frame that is followed moves the view once: the station's reaction leaves it there, and its entry to LIVE opens
the tenure in the epoch adopted (R158, R167). -/
theorem followedFrame_epochMoves {sender : Station} {f : Frame} {epoch : Option Epoch} {v : Verdict}
    (htenure : f.tenure = some epoch) (hv : verdict s.station s.floor.view epoch (f.candidate sender) = v)
    (hfollow : v = .adopted ∨ v = .refreshed) :
    EpochMoves s.floor.view.epoch (takeTenureFrame sender epoch f s).floor.view.epoch := by
  cases hlive : makesLive s v f with
  | false =>
    rw [takeTenureFrame_follows hv hfollow hlive, reactToView_view]
    exact follow_epochMoves hv _ f
  | true =>
    obtain ⟨hclaiming, rfl, ho, rfl, hme⟩ := makesLive_cases hlive
    obtain rfl : some ho.epoch = epoch := Option.some_inj.mp htenure
    obtain ⟨e, he, hnewer⟩ := newer_of_adopted hv
    obtain rfl : ho.epoch = e := Option.some_inj.mp he
    rw [takeHandover_makesLive hclaiming hme hnewer]
    exact epochMoves_of_newer hnewer

theorem takeTenureFrame_epochMoves (sender : Station) {f : Frame} {epoch : Option Epoch}
    (htenure : f.tenure = some epoch) (s : State) :
    EpochMoves s.floor.view.epoch (takeTenureFrame sender epoch f s).floor.view.epoch := by
  cases hv : verdict s.station s.floor.view epoch (f.candidate sender) with
  | adopted => exact followedFrame_epochMoves htenure hv (.inl rfl)
  | refreshed => exact followedFrame_epochMoves htenure hv (.inr rfl)
  | ignored => exact .inl (by rw [takeTenureFrame_ignored hv])
  | stale =>
    cases hfloor : s.floor.state.inTenure with
    | true => exact .inl (by rw [takeTenureFrame_stale hv hfloor]; rfl)
    | false => exact .inl (by rw [takeTenureFrame_stale_offFloor hv hfloor])

theorem floorTakes_epochMoves (sender : Station) (f : Frame) (s : State) :
    EpochMoves s.floor.view.epoch (floorTakes sender f s).floor.view.epoch := by
  unfold floorTakes
  split
  · exact .inl rfl
  · split
    · exact epochMoves_of_view (takeClaim_view s _ _)
    · split
      · next htenure => exact takeTenureFrame_epochMoves sender htenure s
      · exact .inl rfl

theorem handOn_epochMoves (lead : Byte) (rest : List Byte) (s : State) :
    EpochMoves s.floor.view.epoch (handOn lead rest s).floor.view.epoch := by
  unfold handOn
  split
  · exact epochMoves_of_view (enterMute_view s)
  · split
    · next f _ =>
      simpa using floorTakes_epochMoves (leadStation lead) f s
    · exact .inl rfl

theorem completeFrame_epochMoves (s : State) :
    EpochMoves s.floor.view.epoch (completeFrame s).floor.view.epoch := by
  unfold completeFrame
  split
  · split
    · exact .inl rfl
    · dsimp only
      split
      · rw [boundaryIfBetween_view]
        exact handOn_epochMoves _ _ _
      · exact .inl rfl
  · exact .inl rfl

theorem applyOwnHandover_epochMoves (h : Handover) (s : State) :
    EpochMoves s.floor.view.epoch (applyOwnHandover h s).floor.view.epoch := by
  unfold applyOwnHandover
  cases hv : verdict s.station s.floor.view (some h.epoch) h.successor with
  | ignored | stale => exact .inl rfl
  | adopted | refreshed =>
    dsimp only
    rw [reactToView_view]
    exact follow_epochMoves hv _ _

/-- A HANDOVER of this station sent whole is applied to its own view once, also as the station leaves HANDING (R162,
R174). -/
theorem frameSent_epochMoves (f : Frame) (s : State) :
    EpochMoves s.floor.view.epoch (frameSent f s).floor.view.epoch := by
  cases f with
  | handover h =>
    rw [frameSent, handoverSent]
    split
    · rw [leaveHanding_applies]
      exact applyOwnHandover_epochMoves h (s.leftHanding h)
    · rw [releaseKeptBack_view]
      exact applyOwnHandover_epochMoves h s
  | _ => exact .inl rfl

theorem sendWhole_epochMoves (s : State) : EpochMoves s.floor.view.epoch (sendWhole s).floor.view.epoch := by
  unfold sendWhole
  split
  · split
    · dsimp only
      rw [boundaryIfBetween_view, loadPresence_view]
      exact frameSent_epochMoves _ (State.setFeed _ _)
    · exact .inl rfl
  · exact .inl rfl

/-- The takeover's epoch is the view's next (R169). -/
theorem takeFloor_epochMoves (s : State) : EpochMoves s.floor.view.epoch (takeFloor s).floor.view.epoch := by
  have hepoch : (takeFloor s).floor.view.epoch = some (takeoverFrame s).epoch := rfl
  rw [hepoch]
  refine epochMoves_of_newer fun old hold => ?_
  have htakeover : (takeoverFrame s).epoch = old + 1 := by rw [takeoverFrame, hold]
  rw [htakeover, epochNewer_succ]

theorem expireClaimWindow_epochMoves (s : State) :
    EpochMoves s.floor.view.epoch (expireClaimWindow s).floor.view.epoch := by
  unfold expireClaimWindow
  split
  · rw [boundaryIfBetween_view]
    exact takeFloor_epochMoves s
  · exact .inl rfl

theorem expireAbsence_epochMoves (s : State) :
    EpochMoves s.floor.view.epoch (expireAbsence s).floor.view.epoch := by
  unfold expireAbsence
  split
  · obtain ⟨hview, -⟩ := reactToVacancy_view s.vacated
    have hepoch : (reactToVacancy s.vacated).floor.view.epoch = s.floor.view.epoch := by
      rw [hview]
      rfl
    exact .inl hepoch
  · exact .inl rfl

/-- Four commands can move the view; every other but RESET leaves it. -/
theorem answer_epochMoves (c : Instr) (hreset : ∀ straps, c ≠ .reset straps) (s : State) :
    EpochMoves s.floor.view.epoch (answer c s).floor.view.epoch := by
  cases c with
  | reset straps => exact absurd rfl (hreset straps)
  | frameComplete => exact completeFrame_epochMoves s
  | frameSentWhole => exact sendWhole_epochMoves s
  | claimWindowExpiry => exact expireClaimWindow_epochMoves s
  | absenceTimerExpiry => exact expireAbsence_epochMoves s
  | stationClockTick => exact .inl rfl
  | _ => exact epochMoves_of_view (by simp [answer])

end EpochMoves

end Sys2Proof.Machine
end

section
/-! SUPPORT. A CLAIM of another station heard whole, by floor state (R166, R170, R173). -/

namespace Sys2Proof.Machine

section Claims
variable {s t : State} {sender : Station}

/-- A CLAIM heard whole that leaves the engine alone has a quiet boundary behind it (R44). -/
theorem exec_heard_claim {epoch : Option Epoch} {withdraw : Bool} (hsender : sender ≠ s.station)
    (hstate : s.line.state = .receiving) (hbits : s.line.charBits = [])
    (hreceived : s.line.received = (Frame.claim epoch withdraw).chars sender)
    (hentry : s.engine.settleOnEntry = false) (hfull : s.engine.fullSettle = false)
    (hstanding : s.floor.state ≠ .mute) (htaken : takeClaim sender withdraw s.lineQuiet = t)
    (hengine : t.engine = s.engine) (hmute : t.floor.state ≠ .mute) : exec .frameComplete s = .next t := by
  have hnot : ¬(s.lineQuiet.floor.state == .mute) = true := by
    show ¬(s.floor.state == .mute) = true
    simpa using hstanding
  have hfloor : floorTakes sender (.claim epoch withdraw) s.lineQuiet = t := (if_neg hnot).trans htaken
  have hheard : completeFrame s = boundaryIfBetween t :=
    (completeFrame_heard (f := .claim epoch withdraw) trivial hstate hbits hreceived hsender).trans
      (congrArg boundaryIfBetween hfloor)
  exact exec_eq_next (hheard.trans (boundaryIfBetween_quiet (hengine ▸ hentry) (hengine ▸ hfull) hmute))

/-- The pending claimant of a LIVE station after a CLAIM or a withdrawal (R170). -/
theorem takeClaim_live (withdraw : Bool) (hlive : s.floor.state = .live) : takeClaim sender withdraw s =
    s.setFloor { s.floor with
      claimant :=
        if withdraw then (if s.floor.claimant = some sender then none else s.floor.claimant)
        else if s.floor.claimant = none then some sender else s.floor.claimant } := by
  rw [takeClaim, hlive]
  cases withdraw with
  | true =>
    by_cases hpending : s.floor.claimant = some sender
    · simp [hpending]
    · simp only [if_pos, if_neg hpending]
      rfl
  | false =>
    by_cases hnone : s.floor.claimant = none
    · simp [hnone]
    · simp only [Option.isNone_iff_eq_none, if_neg hnone, Bool.false_eq_true, if_false]
      rfl

theorem takeClaim_standby (withdraw : Bool) (hstandby : s.floor.state = .standby) :
    takeClaim sender withdraw s = s := by
  rw [takeClaim, hstandby]

/-- A better bid ends the claim, with a pulse for the reporter (R166). -/
theorem takeClaim_betterBid (hclaiming : s.floor.state = .claiming) (hwindow : s.floor.claimTimer.isSome = true)
    (hlower : sender < s.station) : takeClaim sender false s =
      leaveClaiming (s.setAttnTimer (if s.floor.origin = some .reporter then some 250 else s.attnTimer)) := by
  rw [takeClaim, hclaiming]
  dsimp only
  rw [if_pos (by simp [hwindow, hlower])]
  by_cases hreporter : s.floor.origin = some .reporter
  · rw [if_pos (by simpa using hreporter), if_pos hreporter]
    rfl
  · rw [if_neg (by simpa using hreporter), if_neg hreporter]
    rfl

theorem takeClaim_noBid {withdraw : Bool} (hclaiming : s.floor.state = .claiming)
    (h : withdraw = true ∨ s.floor.claimTimer = none ∨ s.station < sender) : takeClaim sender withdraw s = s := by
  rw [takeClaim, hclaiming]
  refine if_neg ?_
  rcases h with h | h | h
  · simp [h]
  · simp [h]
  · simp [not_lt_of_gt h]

theorem takeClaim_handing_other {withdraw : Bool} (hhanding : s.floor.state = .handing)
    (h : withdraw = false ∨ s.floor.claimant ≠ some sender) : takeClaim sender withdraw s = s := by
  rw [takeClaim, hhanding]
  refine if_neg ?_
  rcases h with h | h <;> simp [h]

theorem takeClaim_handing_withdrawal (hhanding : s.floor.state = .handing) (hpending : s.floor.claimant = some sender) :
    takeClaim sender true s = unnameClaimant s := by
  rw [takeClaim, hhanding]
  exact if_pos (by simp [hpending])

theorem unnameClaimant_keptBack {h : Handover} (hkept : s.floor.keptBack = some h) : unnameClaimant s =
    s.setFloor { s.floor with claimant := none, keptBack := some { h with successor := none } } := by
  simp [unnameClaimant, hkept]

theorem unname_other {fr : Frame} (epoch : Epoch) (hother : fr.isHandover = false) : fr.unname epoch = fr := by
  cases fr with
  | handover h => cases hother
  | _ => rfl

theorem map_unname_others {frames : List Frame} (epoch : Epoch) (hother : ∀ f ∈ frames, f.isHandover = false) :
    frames.map (Frame.unname epoch) = frames :=
  (List.map_congr_left fun f hf => unname_other epoch (hother f hf)).trans (List.map_id frames)

/-- The only HANDOVER that waits names NONE from now on (R142, R173). -/
theorem unnameHandover_waiting {f : Feed} {before behind : List Frame} {h : Handover} (hheld : f.held = none)
    (hwaiting : f.waiting = before ++ .handover h :: behind) (hepoch : h.epoch = f.epoch + 1)
    (hothers : ∀ x ∈ before ++ behind, x.isHandover = false) :
    f.unnameHandover = { f with waiting := before ++ .handover { h with successor := none } :: behind } := by
  obtain ⟨hbefore, hbehind⟩ := List.forall_mem_append.mp hothers
  have hnamed : (Frame.handover h).unname (f.epoch + 1) = .handover { h with successor := none } := if_pos hepoch
  rw [Feed.unnameHandover, hwaiting, List.map_append, List.map_cons, map_unname_others _ hbefore,
    map_unname_others _ hbehind, hnamed, hheld, Option.map_none, ← hheld]

theorem unnameClaimant_waiting {before behind : List Frame} {h : Handover} (hkept : s.floor.keptBack = none)
    (hheld : s.feed.held = none) (hwaiting : s.feed.waiting = before ++ .handover h :: behind)
    (hepoch : h.epoch = s.feed.epoch + 1) (hothers : ∀ x ∈ before ++ behind, x.isHandover = false) :
    unnameClaimant s = (s.setFloor { s.floor with
        claimant := none
        lastOffered := s.floor.lastOffered.map fun o => { o with successor := none } }).setFeed
      { s.feed with waiting := before ++ .handover { h with successor := none } :: behind } := by
  have hwaits : handoverWaits s = true := by simp [handoverWaits, hwaiting, hepoch]
  rw [← unnameHandover_waiting hheld hwaiting hepoch hothers, unnameClaimant, if_neg (by simp [hkept])]
  exact if_pos hwaits

end Claims

end Sys2Proof.Machine
end

section
/-! SUPPORT. A tenure frame that names its sender, heard standing by (R157 to R161). -/

namespace Sys2Proof.Machine

section SendersHeard
variable {s : State} {sender : Station} {epoch : Epoch} {f : Frame} {v : Verdict}

/-- The line offset of a station standing by after a frame: by the line time the frame carries, if any (R161). -/
def Frame.offsetHeard (clock own : Clock) (f : Frame) : Clock :=
  match f.carriedLineTime with
  | some time => time - clock
  | none => own

theorem moveView_heard (view : View) (f : Frame) (hstandby : s.floor.state = .standby) :
    moveView view (takeLineTime f s) = s.followed view (f.offsetHeard s.clock s.floor.lineOffset) := by
  have hline : takeLineTime f s =
      s.setFloor { s.floor with lineOffset := f.offsetHeard s.clock s.floor.lineOffset } := by
    unfold takeLineTime Frame.offsetHeard
    cases f.carriedLineTime with
    | none => rfl
    | some time => exact if_pos (by simp [hstandby])
  rw [hline, moveView_eq]
  rfl

/-- What a frame that names its sender gives the view: its row of R159, and the line offset of R161. -/
structure GivesReach (reach : Option Seq → Option Seq → Option Seq × Option Seq) (offset clock own : Clock)
    (epoch : Epoch) (f : Frame) : Prop where
  names : NamesSender epoch f
  reach : ∀ next boundary, reach next boundary = followReach f next boundary
  offset : offset = f.offsetHeard clock own

/-- Standing by, a station only follows a frame that names its sender (R158 to R161, R164). -/
theorem takeSenderFrame_standby (hf : NamesSender epoch f) (hstandby : s.floor.state = .standby)
    (hsender : sender ≠ s.station) (hv : verdict s.station s.floor.view (some epoch) (some sender) = v)
    (hfollow : Follows s.floor.view epoch v) :
    takeTenureFrame sender (some epoch) f s =
      s.followed (s.floor.view.follow v (some epoch) (some sender) f) (f.offsetHeard s.clock s.floor.lineOffset) := by
  have hlive : makesLive s v f = false := makesLive_tenure v f (by simp [hstandby])
  have hstate (view : View) (offset : Clock) : (s.followed view offset).floor.state = .standby := hstandby
  rw [takeTenureFrame_follows (by rw [hf.candidate, hv]) (hfollow.imp_right And.left) hlive, hf.candidate,
    newLive_sender v hsender, moveView_heard _ f hstandby, reactToView, hstate]
  dsimp only
  rw [reactStandby_other _ hf.noHandover, ite_self]

/-- The view once it follows a frame of `sender`: its next seq and boundary are what the frame gives (R159). -/
def View.heardFrom (sender : Station) (epoch : Epoch) (reach : Option Seq × Option Seq) : View :=
  { live := some sender, epoch := some epoch, nextSeq := reach.1, boundary := reach.2 }

theorem follow_adopted (view : View) (f : Frame) : view.follow .adopted (some epoch) (some sender) f =
    .heardFrom sender epoch (followReach f none none) := rfl

theorem follow_refreshed {view : View} (f : Frame) (hepoch : view.epoch = some epoch) :
    view.follow .refreshed (some epoch) (some sender) f =
      .heardFrom sender epoch (followReach f view.nextSeq view.boundary) := by
  rw [View.heardFrom, ← hepoch]
  rfl

section Given
variable {reach : Option Seq → Option Seq → Option Seq × Option Seq} {offset : Clock}
  (hf : GivesReach reach offset s.clock s.floor.lineOffset epoch f)
include hf

theorem takeSenderFrame_moves {next boundary : Option Seq} (hstandby : s.floor.state = .standby)
    (hsender : sender ≠ s.station) (hv : verdict s.station s.floor.view (some epoch) (some sender) = v)
    (hfollow : Follows s.floor.view epoch v)
    (hview : s.floor.view.follow v (some epoch) (some sender) f =
      .heardFrom sender epoch (followReach f next boundary)) :
    takeTenureFrame sender (some epoch) f s = s.setFloor { s.floor with
      view := .heardFrom sender epoch (reach next boundary), lineOffset := offset
      armed := if s.floor.view.live = none then s.floor.autoClaim else s.floor.armed
      absenceTimer := some s.floor.absenceTimeout } := by
  have harmed : s.floor.armedFor (some sender) =
      if s.floor.view.live = none then s.floor.autoClaim else s.floor.armed := by simp [Floor.armedFor]
  rw [takeSenderFrame_standby hf.names hstandby hsender hv hfollow, hview, ← hf.reach, ← hf.offset, State.followed,
    ← harmed, ← absenceLoad_other _ hsender]
  rfl

/-- A stale frame that names its sender leaves a station standing by as it is (R158). -/
theorem takeSenderFrame_stale (hstandby : s.floor.state = .standby)
    (hv : verdict s.station s.floor.view (some epoch) (some sender) = .stale) :
    takeTenureFrame sender (some epoch) f s = s :=
  takeTenureFrame_stale_offFloor ((congrArg _ (hf.names.candidate sender)).trans hv) (by rw [hstandby]; rfl)

end Given

/-- A tenure frame heard whole that leaves the engine alone has a quiet boundary behind it (R44). -/
theorem exec_heard_tenure {t : State} (hnames : NamesSender epoch f) (hsound : FrameSound f)
    (hreceived : s.line.received = f.chars sender) (hstandby : s.floor.state = .standby) (hsender : sender ≠ s.station)
    (hstate : s.line.state = .receiving) (hbits : s.line.charBits = []) (hentry : s.engine.settleOnEntry = false)
    (hfull : s.engine.fullSettle = false) (htaken : takeTenureFrame sender (some epoch) f s.lineQuiet = t)
    (hengine : t.engine = s.engine) (hmute : t.floor.state ≠ .mute) : exec .frameComplete s = .next t := by
  have hheard := completeFrame_tenure hsound hstate hbits hreceived hsender (by simp [hstandby]) hnames.tenure
  rw [htaken] at hheard
  exact exec_eq_next (hheard.trans (boundaryIfBetween_quiet (hengine ▸ hentry) (hengine ▸ hfull) hmute))

end SendersHeard

end Sys2Proof.Machine
end

section
/-! The statements of floor coordination, settled. -/

namespace Sys2Proof.Proofs

open Sys2Proof.Machine

/-- Settles O7: whatever moves the view moves it by one verdict, or to the takeover's epoch. -/
theorem viewEpochOnlyMovesToNewer : Obligations.ViewEpochOnlyMovesToNewer := by
  intro c s t hreset hexec
  rw [answer_of_exec hexec]
  exact answer_epochMoves c hreset s

/-- Settles O48: one equation of `takeClaim` for each floor state and outcome. -/
theorem claimBecomesPendingClaimant : Obligations.ClaimBecomesPendingClaimant := by
  intro s sender epoch withdraw hsender hstate hbits hreceived hentry hfull quiet
  have hanswer {t : State} := exec_heard_claim (t := t) hsender hstate hbits hreceived hentry hfull
  refine ⟨fun hlive => ?_, fun hstandby => ?_, fun hclaiming hbid hwindow hlower => ?_, fun hclaiming hnone => ?_,
    fun hhanding hother => ?_, fun hhanding hwithdraw hpending => ⟨fun h hkept => ?_,
      fun before h behind hkept hheld hwaiting hepoch hothers => ?_⟩⟩
  · exact hanswer (by simp [hlive]) (takeClaim_live (s := s.lineQuiet) withdraw hlive) rfl (by simp [hlive])
  · exact hanswer (by simp [hstandby]) (takeClaim_standby (s := s.lineQuiet) withdraw hstandby) rfl (by simp [hstandby])
  · subst hbid
    exact hanswer (by simp [hclaiming]) ((takeClaim_betterBid (s := s.lineQuiet) hclaiming hwindow hlower).trans
      (leaveClaiming_eq _)) rfl (by simp)
  · exact hanswer (by simp [hclaiming]) (takeClaim_noBid (s := s.lineQuiet) hclaiming hnone) rfl (by simp [hclaiming])
  · exact hanswer (by simp [hhanding]) (takeClaim_handing_other (s := s.lineQuiet) hhanding hother) rfl
      (by simp [hhanding])
  · subst hwithdraw
    exact hanswer (by simp [hhanding]) ((takeClaim_handing_withdrawal (s := s.lineQuiet) hhanding hpending).trans
      (unnameClaimant_keptBack hkept)) rfl (by simp [hhanding])
  · subst hwithdraw
    exact hanswer (by simp [hhanding]) ((takeClaim_handing_withdrawal (s := s.lineQuiet) hhanding hpending).trans
      (unnameClaimant_waiting hkept hheld hwaiting hepoch hothers)) rfl (by simp [hhanding])

/-- Settles O49: the rows of R159 are one structure of the frame, and its verdict decides whether the view moves. -/
theorem textMovesTheView : Obligations.TextMovesTheView := by
  intro s sender epoch frame reach offset hframe hsound hreceived hstandby hsender hstate hbits hentry hfull quiet
    follows
  have hgives : GivesReach reach offset s.clock s.floor.lineOffset epoch frame := by
    rcases hframe with ⟨q, chars, degraded, time, rfl, hreach, rfl⟩ | ⟨q, body, time, rfl, hbody, hreach, rfl⟩
      | ⟨q, rfl, hreach, rfl⟩ | ⟨b, rfl, hreach, rfl⟩ | ⟨p, n, b, rfl, hrole, hp, hreach, rfl⟩ | ⟨hframe, hreach, rfl⟩
    · exact ⟨namesSender_segment _ _, hreach, rfl⟩
    · rcases hbody with ⟨number, rfl⟩ | ⟨count, rfl⟩
      · exact ⟨namesSender_segment _ _, hreach, rfl⟩
      · exact ⟨namesSender_segment _ _, hreach, rfl⟩
    · exact ⟨⟨rfl, fun _ => rfl, rfl⟩, hreach, rfl⟩
    · exact ⟨⟨rfl, fun _ => rfl, rfl⟩, hreach, rfl⟩
    · refine ⟨⟨by simp [Frame.tenure, hrole, hp], fun _ => rfl, rfl⟩, fun next boundary => ?_, ?_⟩
      · rw [hreach, followReach, hp]
      · simp [Frame.offsetHeard, Frame.carriedLineTime, hrole]
    · rcases hframe with ⟨fromSeq, toSeq, rfl⟩ | ⟨settled, seg, rfl⟩
      · exact ⟨⟨rfl, fun _ => rfl, rfl⟩, hreach, rfl⟩
      · exact ⟨namesSender_segment _ _, hreach, rfl⟩
  have hmute : s.floor.state ≠ .mute := by simp [hstandby]
  have hanswer {t : State} := exec_heard_tenure (t := t) hgives.names hsound hreceived hstandby hsender hstate hbits
    hentry hfull
  refine ⟨fun hnewer => ?_, fun hepoch hupTo => ?_, fun x hepoch hlive hhigher => ?_, fun e he hne holder => ?_⟩
  · exact hanswer (takeSenderFrame_moves (s := s.lineQuiet) hgives hstandby hsender (verdict_newer hnewer) (.inl rfl)
      (follow_adopted _ _)) rfl hmute
  · have hv := (verdict_same hepoch).trans (sameEpochVerdict_upTo hsender hupTo)
    exact hanswer (takeSenderFrame_moves (s := s.lineQuiet) hgives hstandby hsender hv (.inr ⟨rfl, hepoch⟩)
      (follow_refreshed _ hepoch)) rfl hmute
  · have hv : verdict s.station s.floor.view (some epoch) (some sender) = .stale := by
      rw [verdict_same hepoch, hlive, sameEpochVerdict_higher hsender hhigher]
    exact hanswer (takeSenderFrame_stale (s := s.lineQuiet) hgives hstandby hv) rfl hmute
  · exact hanswer (takeSenderFrame_stale (s := s.lineQuiet) hgives hstandby (verdict_older he hne holder)) rfl hmute

/-- Settles O60: the lamps are computed from the floor, which RESET puts in STANDBY. -/
theorem liveAndClaimLamps : Obligations.LiveAndClaimLamps := by
  refine ⟨fun s => ⟨?_, ?_⟩, fun straps s t hexec => ?_⟩
  · simp [liveLamp]
  · simp [claimLamp, Option.isSome_iff_exists]
  · rw [answer_of_exec hexec]
    exact ⟨rfl, rfl⟩

end Sys2Proof.Proofs
end

section
/-! SUPPORT. What each block holds after RESET (R178): its reset values, and for the contacts the levels they stood at. -/

namespace Sys2Proof.Machine

section ResetBlocks
variable (straps : BitVec 4) (s : State)

@[simp] theorem resetPart_startup : (resetPart straps s).startup = Startup.initial := rfl

@[simp] theorem resetPart_scanner : (resetPart straps s).scanner =
    Scanner.initial s.scanner.keys s.scanner.floorLine s.scanner.markLine := rfl

@[simp] theorem resetPart_intake : (resetPart straps s).intake = Intake.initial := rfl

@[simp] theorem resetPart_port : (resetPart straps s).port = Port.initial := rfl

@[simp] theorem resetPart_engine : (resetPart straps s).engine = Engine.initial := rfl

@[simp] theorem resetPart_feed : (resetPart straps s).feed = Feed.initial := rfl

@[simp] theorem resetPart_line : (resetPart straps s).line = LineInterface.initial := rfl

@[simp] theorem resetPart_floor : (resetPart straps s).floor = Floor.initial := rfl

end ResetBlocks

/-- Every line is unwatched after reset, with its contact at the level it stood at (R6, log entry 5). -/
theorem initial_line (scanner : Scanner) (c : Contact) :
    (Scanner.initial scanner.keys scanner.floorLine scanner.markLine).line c =
      Line.initial (scanner.line c).closed := by
  cases c with
  | key p => simp [Scanner.initial, Scanner.line]
  | floor => rfl
  | mark => rfl

end Sys2Proof.Machine
end

section
/-! The statement of reset, settled. -/

namespace Sys2Proof.Proofs

open Sys2Proof.Machine

/-- Settles O10: block by block the reset values, and `initial_line` for the contacts. -/
theorem resetClearsThePart : Obligations.ResetClearsThePart := by
  intro straps s
  refine ⟨resetPart straps s, exec_eq_answer (.reset straps) s, rfl, rfl, rfl, ?startup, fun c => ?contacts, ?chord,
    ?intake, ?port, ?engine, ?feed, ?line, ?floor⟩
  case startup => rw [resetPart_startup, Startup.initial, Config.startupLimit]
  case contacts => rw [resetPart_scanner, initial_line, Line.initial]
  case chord => simp [Scanner.initial]
  case intake => rw [resetPart_intake, Intake.initial]
  case port => simp [Port.initial]
  case engine => simp [Engine.initial, Context.initial]
  case feed => simp [Feed.initial]
  case line => simp [LineInterface.initial]
  case floor => simp [Floor.initial, View.initial]

end Sys2Proof.Proofs
end

section
/-! SUPPORT. The queue of commands: a step takes the front one, and no command touches the queue (spec/95, log entry 3). -/

namespace Sys2Proof.Machine

section CommandQueue
variable {s : State}

theorem step_of_pending_nil (h : s.pending = []) : step s = .next s := by
  unfold step
  rw [h]

theorem step_of_pending_cons {c : Instr} {rest : List Instr} (h : s.pending = c :: rest) :
    step s = exec c (s.setPending rest) := by
  unfold step
  rw [h]

/-- RESET keeps the commands that wait; every other command's operation leaves them by its lemma of Laws/Frame.lean. -/
@[simp] theorem answer_pending (c : Instr) (s : State) : (answer c s).pending = s.pending := by
  cases c with
  | reset straps => rfl
  | _ => simp [answer]

end CommandQueue

end Sys2Proof.Machine
end

section
/-! The statements of the queue of commands, settled. -/

namespace Sys2Proof.Proofs

open Sys2Proof.Machine

/-- Settles O1: the two cases of the queue, `setPending` being the update the statement writes out. -/
theorem stepRunsFrontCommand : Obligations.StepRunsFrontCommand :=
  ⟨fun _ _ _ hcons => step_of_pending_cons hcons, fun _ hempty => step_of_pending_nil hempty⟩

/-- Settles O2: the state each command answers, and `answer_pending`. -/
theorem everyCommandAnswersNext : Obligations.EveryCommandAnswersNext :=
  fun c s => ⟨answer c s, exec_eq_answer c s, answer_pending c s⟩

end Sys2Proof.Proofs
end
